-- ==== Sys2Proof/Word.lean ====
section
/-! DEFINITION. The plainest data of the datapath: bytes, the three symbol categories, context modes, the two
context maps and a stored prefix code. -/

namespace Sys2Proof

/-- A byte of `IN`, `OUT`, `RING` or `DICT` (R43). -/
abbrev Byte := BitVec 8

/-- The three symbol categories, in the spec's index order (R3, R9). -/
inductive Cat where
  | literal
  | insertCopy
  | distance
deriving DecidableEq, Repr

/-- The four literal context modes, in the order of their 2-bit codes (R100). -/
inductive ContextMode where
  | lsb6
  | msb6
  | utf8
  | signed
deriving DecidableEq, Repr

/-- Which of the two context maps (R37). -/
inductive MapSel where
  | literal
  | distance
deriving DecidableEq, Repr

/-- A stored prefix code (R39): a one-symbol code that takes no bits, or a length array indexed by symbol. -/
inductive Code where
  | single (s : Nat)
  | lengths (L : List Nat)
deriving DecidableEq, Repr

end Sys2Proof
end

