-- ==== Sys2Proof/Config.lean ====
section
/-! DEFINITION. The parameters the spec fixes (R9, R11, R13, R74), and the model's one free value. What the spec leaves
open otherwise, the ROM contents (R13), is state: every claim quantifies over it. -/

namespace Sys2Proof.Config

/-- Literal alphabet (R9). -/
def litAlphabet : Nat := 256
/-- Insert-and-copy alphabet (R9). -/
def iacAlphabet : Nat := 704
/-- Block-count alphabet (R9). -/
def bcountAlphabet : Nat := 26
/-- Code-length alphabet (R9). -/
def clAlphabet : Nat := 18
/-- The longest codeword (R90). -/
def maxCodeLen : Nat := 15
/-- The Kraft space of a symbol-length array (R87, R89). -/
def fullSpace : Nat := 32768
/-- The Kraft space of the code-length code (R94). -/
def clSpace : Nat := 32
/-- The "huge" block length of a category with one block type (R34, R120). -/
def hugeBlockLen : Nat := 2 ^ 24
/-- Bytes of `DICT` (R13, R74). -/
def dictSize : Nat := 122784
/-- Entries of `TRANSFORMS` (R13). -/
def numTransforms : Nat := 121
/-- The widest peek of the bit reader (R82). -/
def maxPeek : Nat := 24

/-- Free value: what the 32-bit register `distance` (R40) holds after it is assigned a negative number, a function of
that number. R140 makes the assignment and then raises; no rule says how the register represents the number, and none
reads it after (log 18). -/
opaque negativeDistance : Int → BitVec 32

end Sys2Proof.Config
end

