-- ==== Sys2Proof/Syntax.lean ====
section
/-! DEFINITION. The instruction set: the syntax elements of the compressed stream (R60), one constructor per row of
spec/opcode_table.json, in the table's order.

Operands. A fixed-width field carries its bits; a field whose width the grammar position sets (SYMBOL, PAD, the EXTRA
fields) carries its value. A prefix-coded symbol carries `n`, the number of bits its codeword takes (R62: the code only
fixes how many bits it takes), and what the row leaves free of the symbol's value. -/

namespace Sys2Proof

/-- One stream element (R60, R64, R65). -/
inductive Instr where
  -- WIN (R113)
  | win16
  | win17to24 (wb1 : BitVec 3)
  | win17
  | winReserved
  | win10to15 (wb2 : BitVec 3)
  -- MBH (R114 to R117)
  | isLast0
  | isLast1
  | isLastEmpty0
  | isLastEmpty1
  | mnibbles4
  | mnibbles5
  | mnibbles6
  | mnibblesReserved
  | mlenNib (nib : BitVec 4)
  | mlenNibLastZero
  | isUncompressed0
  | isUncompressed1
  -- VAR256 (R119)
  | var256One
  | var256Two
  | var256More (v1 : BitVec 3)
  -- PARAM (R122, R123, R107, R93)
  | npostfix (v : BitVec 2)
  | ndirectf (v : BitVec 4)
  | cmodeLsb6
  | cmodeMsb6
  | cmodeUtf8
  | cmodeSigned
  | rleMaxF0
  | rleMaxF1
  | rleMaxM1 (v : BitVec 4)
  | imtf0
  | imtf1
  | treeSel0
  | treeSel1
  -- CODE (R92, R93)
  | hskipSimple
  | hskipComplex0
  | hskipComplex2
  | hskipComplex3
  | nsymm1One
  | nsymm1Two
  | nsymm1Three
  | nsymm1Four
  | symbol (v : Nat)
  | symbolInvalid (v : Nat)
  -- CLEN (R68)
  | clen0
  | clen3
  | clen4
  | clen2
  | clen1
  | clen5
  -- sym(clcode) (R95)
  | clLength (n : Nat) (s : BitVec 4)
  | clRepeatPrev (n : Nat)
  | clRepeatZero (n : Nat)
  -- sym(cmap_code) (R108)
  | cmapZero (n : Nat)
  | cmapRun (n : Nat) (s : Nat)
  | cmapValue (n : Nat) (s : Nat)
  -- sym(btype_code), sym(bcount_code) (R132, R121)
  | btypeLast (n : Nat)
  | btypeNext (n : Nat)
  | btypeExplicit (n : Nat) (s : Nat)
  | bcount (n : Nat) (s : Nat)
  -- sym(iac_code) (R131)
  | iacCell0 (n : Nat) (ioff coff : BitVec 3)
  | iacCell1 (n : Nat) (ioff coff : BitVec 3)
  | iacCell2 (n : Nat) (ioff coff : BitVec 3)
  | iacCell3 (n : Nat) (ioff coff : BitVec 3)
  | iacCell4 (n : Nat) (ioff coff : BitVec 3)
  | iacCell5 (n : Nat) (ioff coff : BitVec 3)
  | iacCell6 (n : Nat) (ioff coff : BitVec 3)
  | iacCell7 (n : Nat) (ioff coff : BitVec 3)
  | iacCell8 (n : Nat) (ioff coff : BitVec 3)
  | iacCell9 (n : Nat) (ioff coff : BitVec 3)
  | iacCell10 (n : Nat) (ioff coff : BitVec 3)
  -- sym(lit_code) (R135)
  | literal (n : Nat) (b : Byte)
  -- sym(dist_code) (R140, R141, R142)
  | distShort0 (n : Nat)
  | distShort1 (n : Nat)
  | distShort2 (n : Nat)
  | distShort3 (n : Nat)
  | distShort4 (n : Nat)
  | distShort5 (n : Nat)
  | distShort6 (n : Nat)
  | distShort7 (n : Nat)
  | distShort8 (n : Nat)
  | distShort9 (n : Nat)
  | distShort10 (n : Nat)
  | distShort11 (n : Nat)
  | distShort12 (n : Nat)
  | distShort13 (n : Nat)
  | distShort14 (n : Nat)
  | distShort15 (n : Nat)
  | distDirect (n : Nat) (s : Nat)
  | distRanged (n : Nat) (s : Nat)
  -- EXTRA (R127, R119, R121, R131, R142, R95, R108)
  | padZero
  | padNonzero (v : Nat)
  | vx (v : Nat)
  | bextra (v : Nat)
  | iextra (v : Nat)
  | cextra (v : Nat)
  | dextra (v : Nat)
  | r16 (v : BitVec 2)
  | r17 (v : BitVec 3)
  | runx (v : Nat)
deriving DecidableEq, Repr

end Sys2Proof
end

