-- ==== Sys2Proof/WellFormed.lean ====
section
/-! DEFINITION. What the decode table needs to know of a grammar position (`Slot`, R60, R64), the validity of a stored
code (R39, R87) and which instruction terms are well formed. -/

namespace Sys2Proof

/-- A grammar position as the decoder sees it (R64): which element comes next, with the earlier fields that its
reading depends on. Two things identify an element: this position and the bits there (R60). -/
inductive Slot where
  | window
  | isLast
  | isLastEmpty
  | mnibbles
  /-- `lastOfLong`: this is the last nibble and MNIBBLES is 1 or 2 (R116). -/
  | mlenNib (lastOfLong : Bool)
  | isUncompressed
  | var256
  | vx (width : Nat)
  | npostfix
  | ndirectf
  | cmode
  | rleMaxF
  | rleMaxM1
  | imtf
  | treeSel
  | hskip
  | nsymm1
  /-- A SYMBOL over alphabet `A`, after the symbols `earlier` of the same code (R93). -/
  | symbol (A : Nat) (earlier : List Nat)
  | clen
  | clSym (T : Code)
  | r16
  | r17
  | mapSym (T : Code) (rlemax trees : Nat)
  | runx (width : Nat)
  | btype (T : Code) (types : Nat)
  | bcount (T : Code)
  | bextra (width : Nat)
  | iac (T : Code)
  | iextra (width : Nat)
  | cextra (width : Nat)
  | lit (T : Code)
  | dist (T : Code) (ndirect alphabet : Nat)
  | dextra (width : Nat)
  | pad (width : Nat)
deriving DecidableEq, Repr

/-- The share of the Kraft space `2^15` that a length takes; a length 0 takes none (R39, R89). -/
def kraftShare (l : Nat) : Nat := if l = 0 then 0 else 2 ^ (Config.maxCodeLen - l)

/-- The Kraft sum of a length array (R87). -/
def kraftSum (L : List Nat) : Nat := (L.map kraftShare).sum

/-- R39, R87: what it is for `T` to be a code over the alphabet `0 .. A-1`. -/
def Code.valid (A : Nat) : Code → Bool
  | .single s => decide (s < A)
  | .lengths L =>
    L.length == A && L.all (· ≤ Config.maxCodeLen) && kraftSum L == Config.fullSpace
      && decide (2 ≤ L.countP (0 < ·))

/-- A grammar position whose codes are codes over their alphabets and whose widths the bit reader can read (R85). -/
def Slot.wf : Slot → Bool
  | .vx w => 1 ≤ w && w ≤ 7
  | .symbol A _ => 2 ≤ A && A ≤ Config.iacAlphabet
  | .clSym T => T.valid Config.clAlphabet
  | .mapSym T rlemax trees => rlemax ≤ 16 && 2 ≤ trees && trees ≤ 256 && T.valid (trees + rlemax)
  | .runx w => 1 ≤ w && w ≤ 16
  | .btype T types => 2 ≤ types && types ≤ 256 && T.valid (types + 2)
  | .bcount T => T.valid Config.bcountAlphabet
  | .bextra w => w ≤ Config.maxPeek
  | .iac T => T.valid Config.iacAlphabet
  | .iextra w => w ≤ Config.maxPeek
  | .cextra w => w ≤ Config.maxPeek
  | .lit T => T.valid Config.litAlphabet
  | .dist T ndirect alphabet => ndirect ≤ 120 && 16 + ndirect ≤ alphabet && alphabet ≤ 520 && T.valid alphabet
  | .dextra w => w ≤ Config.maxPeek
  | .pad w => w ≤ 7
  | _ => true

/-- A codeword takes 0 to 15 bits (R39, R90). -/
def wfLen (n : Nat) : Bool := n ≤ Config.maxCodeLen

/-- The conditions on an instruction's operands that the opcode table's rows and the widths of R85 give, whatever
the grammar position. -/
def Instr.wf : Instr → Bool
  | .win17to24 wb1 => wb1 != 0
  | .win10to15 wb2 => 2 ≤ wb2.toNat
  | .var256More v1 => v1 != 0
  | .symbol v => v < Config.iacAlphabet
  | .symbolInvalid v => v < 1024
  | .clLength n _ => wfLen n
  | .clRepeatPrev n => wfLen n
  | .clRepeatZero n => wfLen n
  | .cmapZero n => wfLen n
  | .cmapRun n s => wfLen n && 1 ≤ s && s ≤ 16
  | .cmapValue n s => wfLen n && 1 ≤ s && s < 272
  | .btypeLast n => wfLen n
  | .btypeNext n => wfLen n
  | .btypeExplicit n s => wfLen n && 2 ≤ s && s < 258
  | .bcount n s => wfLen n && s < Config.bcountAlphabet
  | .iacCell0 n _ _ => wfLen n
  | .iacCell1 n _ _ => wfLen n
  | .iacCell2 n _ _ => wfLen n
  | .iacCell3 n _ _ => wfLen n
  | .iacCell4 n _ _ => wfLen n
  | .iacCell5 n _ _ => wfLen n
  | .iacCell6 n _ _ => wfLen n
  | .iacCell7 n _ _ => wfLen n
  | .iacCell8 n _ _ => wfLen n
  | .iacCell9 n _ _ => wfLen n
  | .iacCell10 n _ _ => wfLen n
  | .literal n _ => wfLen n
  | .distShort0 n => wfLen n
  | .distShort1 n => wfLen n
  | .distShort2 n => wfLen n
  | .distShort3 n => wfLen n
  | .distShort4 n => wfLen n
  | .distShort5 n => wfLen n
  | .distShort6 n => wfLen n
  | .distShort7 n => wfLen n
  | .distShort8 n => wfLen n
  | .distShort9 n => wfLen n
  | .distShort10 n => wfLen n
  | .distShort11 n => wfLen n
  | .distShort12 n => wfLen n
  | .distShort13 n => wfLen n
  | .distShort14 n => wfLen n
  | .distShort15 n => wfLen n
  | .distDirect n s => wfLen n && 16 ≤ s && s < 136
  | .distRanged n s => wfLen n && 16 ≤ s && s < 520
  | .padNonzero v => 1 ≤ v && v < 128
  | .vx v => v < 128
  | .bextra v => v < 2 ^ 24
  | .iextra v => v < 2 ^ 24
  | .cextra v => v < 2 ^ 24
  | .dextra v => v < 2 ^ 24
  | .runx v => v < 2 ^ 16
  | .win16 | .win17 | .winReserved | .isLast0 | .isLast1 | .isLastEmpty0 | .isLastEmpty1
  | .mnibbles4 | .mnibbles5 | .mnibbles6 | .mnibblesReserved | .mlenNib _ | .mlenNibLastZero
  | .isUncompressed0 | .isUncompressed1 | .var256One | .var256Two | .npostfix _ | .ndirectf _
  | .cmodeLsb6 | .cmodeMsb6 | .cmodeUtf8 | .cmodeSigned | .rleMaxF0 | .rleMaxF1 | .rleMaxM1 _
  | .imtf0 | .imtf1 | .treeSel0 | .treeSel1 | .hskipSimple | .hskipComplex0 | .hskipComplex2
  | .hskipComplex3 | .nsymm1One | .nsymm1Two | .nsymm1Three | .nsymm1Four
  | .clen0 | .clen3 | .clen4 | .clen2 | .clen1 | .clen5 | .padZero | .r16 _ | .r17 _ => true

end Sys2Proof
end

