-- ==== Sys2Proof/Decode.lean ====
section
/-! DEFINITION. The decoder: from a grammar position and the next 24 stream bits to an instruction, total, rejecting by
name (R60 to R68, R88, R90). After it, the encoder, written from the same tables. -/

namespace Sys2Proof

/-- Why the bits at a position are no instruction. Neither case happens where the position's codes are codes over
their alphabets (R77, R88). -/
inductive Reject where
  /-- No codeword of the stored code is a prefix of the stream: R90's `assert false`. -/
  | noCodeword
  /-- The decoded symbol lies outside the position's alphabet, so no row of the table covers it (R77). -/
  | noRow
deriving DecidableEq, Repr

/-! ### Widths and prefix codes -/

/-- `ab(A)` of R66: the least `n` with `A - 1 < 2^n`. -/
def ab (A : Nat) : Nat := if A ≤ 1 then 0 else Nat.log2 (A - 1) + 1

/-- The symbols of length `l`, in increasing order (R88). -/
def symsOfLen (L : List Nat) (l : Nat) : List Nat :=
  (L.zipIdx.filter (fun e => e.1 == l)).map (·.2)

/-- The symbols with a codeword, sorted by (length, symbol), each with its length (R88). -/
def sortedSyms (L : List Nat) : List (Nat × Nat) :=
  (List.range Config.maxCodeLen).flatMap fun k => (symsOfLen L (k + 1)).map fun s => (k + 1, s)

/-- The codeword assignment of R88 over the sorted list: entries are (length, codeword, symbol). -/
def assign : List (Nat × Nat) → (code prevlen : Nat) → List (Nat × Nat × Nat)
  | [], _, _ => []
  | (l, s) :: rest, code, prevlen =>
    let c := code <<< (l - prevlen)
    (l, c, s) :: assign rest (c + 1) l

/-- `Canonical(L)` of R88. -/
def canonical (L : List Nat) : List (Nat × Nat × Nat) := assign (sortedSyms L) 0 0

/-- The map lookup `(l, c) in map` of R90. -/
def lookupCode (m : List (Nat × Nat × Nat)) (l c : Nat) : Option Nat :=
  (m.find? fun e => e.1 == l && e.2.1 == c).map (·.2.2)

/-- The loop of R90: at length `l`, with the `l - 1` bits read so far in `c`, for `fuel` more lengths. -/
def walkCode (m : List (Nat × Nat × Nat)) (look : BitVec 24) : (fuel l c : Nat) → Option (Nat × Nat)
  | 0, _, _ => none
  | fuel + 1, l, c =>
    let c' := 2 * c + (look.getLsbD (l - 1)).toNat
    match lookupCode m l c' with
    | some s => some (s, l)
    | none => walkCode m look fuel (l + 1) c'

/-- `DecodeSym(T)` of R90: the symbol and the number of bits its codeword takes. -/
def decodeSym (T : Code) (look : BitVec 24) : Option (Nat × Nat) :=
  match T with
  | .single s => some (s, 0)
  | .lengths L => walkCode (canonical L) look Config.maxCodeLen 1 0

/-- `Build(L)` of R89, which answers `none` where the rule raises `huffman_length_error`. -/
def buildCode (L : List Nat) : Option Code :=
  if kraftSum L = Config.fullSpace ∧ 2 ≤ L.countP (0 < ·) then some (.lengths L) else none

/-! ### The range form of the Huffman unit (R91) -/

/-- `count[l]` of R91. -/
def countLen (L : List Nat) (l : Nat) : Nat := L.count l

/-- `first[l]` of R91: the first codeword of length `l`. -/
def firstCode (L : List Nat) : Nat → Nat
  | 0 => 0
  | 1 => 0
  | l + 2 => (firstCode L (l + 1) + countLen L (l + 1)) <<< 1

/-- `base[l]` of R91. -/
def baseIndex (L : List Nat) (l : Nat) : Nat := ((List.range (l - 1)).map fun k => countLen L (k + 1)).sum

/-- `limit[l]` of R91. -/
def limitCode (L : List Nat) (l : Nat) : Nat := (firstCode L l + countLen L l) <<< (16 - l) - 1

/-- The 16-bit lookahead with its first stream bit on top (R91). -/
def reverse16 (look : BitVec 24) : Nat :=
  ((List.range 16).map fun i => (look.getLsbD i).toNat <<< (15 - i)).sum

/-- The lookup by range of R91. -/
def decodeRange (L : List Nat) (look : BitVec 24) : Option (Nat × Nat) :=
  let r := reverse16 look
  match ((List.range Config.maxCodeLen).map (· + 1)).find?
      (fun l => decide (0 < countLen L l) && decide (r ≤ limitCode L l)) with
  | none => none
  | some l =>
    ((sortedSyms L)[baseIndex L l + (r >>> (16 - l)) - firstCode L l]?).map fun e => (e.2, l)

/-! ### The decoder -/

/-- The value of a `w`-bit field: its first stream bit is its least significant bit (R46, R61). -/
def fieldOf (look : BitVec 24) (w : Nat) : Nat := look.toNat % 2 ^ w

/-- Rows WIN of the table (R113). -/
def decodeWindow (look : BitVec 24) : Instr :=
  if look.getLsbD 0 = false then .win16
  else
    let wb1 := look.extractLsb' 1 3
    if wb1 ≠ 0 then .win17to24 wb1
    else
      let wb2 := look.extractLsb' 4 3
      if wb2 = 0 then .win17 else if wb2 = 1 then .winReserved else .win10to15 wb2

/-- Rows VAR256 of the table (R119). -/
def decodeVar256 (look : BitVec 24) : Instr :=
  if look.getLsbD 0 = false then .var256One
  else
    let v1 := look.extractLsb' 1 3
    if v1 = 0 then .var256Two else .var256More v1

/-- Rows MNIBBLES (R115). -/
def decodeMnibbles (look : BitVec 24) : Instr :=
  match fieldOf look 2 with
  | 0 => .mnibbles4
  | 1 => .mnibbles5
  | 2 => .mnibbles6
  | _ => .mnibblesReserved

/-- Rows CMODE (R100, R123). -/
def decodeCmode (look : BitVec 24) : Instr :=
  match fieldOf look 2 with
  | 0 => .cmodeLsb6
  | 1 => .cmodeMsb6
  | 2 => .cmodeUtf8
  | _ => .cmodeSigned

/-- Rows HSKIP (R92). -/
def decodeHskip (look : BitVec 24) : Instr :=
  match fieldOf look 2 with
  | 0 => .hskipComplex0
  | 1 => .hskipSimple
  | 2 => .hskipComplex2
  | _ => .hskipComplex3

/-- Rows NSYMM1 (R93). -/
def decodeNsymm1 (look : BitVec 24) : Instr :=
  match fieldOf look 2 with
  | 0 => .nsymm1One
  | 1 => .nsymm1Two
  | 2 => .nsymm1Three
  | _ => .nsymm1Four

/-- Rows CLEN: the fixed code of R68 on a 4-bit lookahead, first stream bit least significant. -/
def decodeClen (look : BitVec 24) : Instr :=
  match fieldOf look 2 with
  | 0 => .clen0
  | 1 => .clen4
  | 2 => .clen3
  | _ =>
    if look.getLsbD 2 = false then .clen2
    else if look.getLsbD 3 = false then .clen1 else .clen5

/-- Rows sym(iac_code): cell `s >> 6` with the offsets `s[5:3]` and `s[2:0]` (R72, R131). -/
def iacInstr (n s : Nat) : Option Instr :=
  let ioff := BitVec.ofNat 3 (s / 8)
  let coff := BitVec.ofNat 3 s
  match s / 64 with
  | 0 => some (.iacCell0 n ioff coff)
  | 1 => some (.iacCell1 n ioff coff)
  | 2 => some (.iacCell2 n ioff coff)
  | 3 => some (.iacCell3 n ioff coff)
  | 4 => some (.iacCell4 n ioff coff)
  | 5 => some (.iacCell5 n ioff coff)
  | 6 => some (.iacCell6 n ioff coff)
  | 7 => some (.iacCell7 n ioff coff)
  | 8 => some (.iacCell8 n ioff coff)
  | 9 => some (.iacCell9 n ioff coff)
  | 10 => some (.iacCell10 n ioff coff)
  | _ => none

/-- Rows DIST_SHORT (R73, R140). -/
def distShortInstr (n s : Nat) : Option Instr :=
  match s with
  | 0 => some (.distShort0 n)
  | 1 => some (.distShort1 n)
  | 2 => some (.distShort2 n)
  | 3 => some (.distShort3 n)
  | 4 => some (.distShort4 n)
  | 5 => some (.distShort5 n)
  | 6 => some (.distShort6 n)
  | 7 => some (.distShort7 n)
  | 8 => some (.distShort8 n)
  | 9 => some (.distShort9 n)
  | 10 => some (.distShort10 n)
  | 11 => some (.distShort11 n)
  | 12 => some (.distShort12 n)
  | 13 => some (.distShort13 n)
  | 14 => some (.distShort14 n)
  | 15 => some (.distShort15 n)
  | _ => none

/-- Rows sym(dist_code) (R138, R140, R141, R142). -/
def distInstr (ndirect alphabet n s : Nat) : Option Instr :=
  if s < 16 then distShortInstr n s
  else if s < 16 + ndirect then some (.distDirect n s)
  else if s < alphabet then some (.distRanged n s) else none

/-- Rows sym(clcode) (R95). -/
def clInstr (n s : Nat) : Option Instr :=
  if s < 16 then some (.clLength n (BitVec.ofNat 4 s))
  else if s = 16 then some (.clRepeatPrev n)
  else if s = 17 then some (.clRepeatZero n) else none

/-- Rows sym(cmap_code) (R108). -/
def mapInstr (rlemax trees n s : Nat) : Option Instr :=
  if s = 0 then some (.cmapZero n)
  else if s ≤ rlemax then some (.cmapRun n s)
  else if s < rlemax + trees then some (.cmapValue n s) else none

/-- Rows sym(btype_code) (R132). -/
def btypeInstr (types n s : Nat) : Option Instr :=
  if s = 0 then some (.btypeLast n)
  else if s = 1 then some (.btypeNext n)
  else if s < types + 2 then some (.btypeExplicit n s) else none

/-- Row sym(bcount_code) (R121). -/
def bcountInstr (n s : Nat) : Option Instr := if s < Config.bcountAlphabet then some (.bcount n s) else none

/-- Row sym(lit_code) (R135). -/
def litInstr (n s : Nat) : Option Instr := if s < Config.litAlphabet then some (.literal n (BitVec.ofNat 8 s)) else none

/-- Decode one symbol with `T` and name its row (R62, R63). -/
def decodeWith (T : Code) (look : BitVec 24) (row : (n s : Nat) → Option Instr) : Except Reject Instr :=
  match decodeSym T look with
  | none => .error .noCodeword
  | some (s, n) =>
    match row n s with
    | none => .error .noRow
    | some i => .ok i

/-- The decoder (R60, R63, R64): the element at the position `p` when the next 24 stream bits are `look`
(bit `i` of `look` is the `i`-th of them, R45). -/
def decode (p : Slot) (look : BitVec 24) : Except Reject Instr :=
  match p with
  | .window => .ok (decodeWindow look)
  | .isLast => .ok (if look.getLsbD 0 = false then .isLast0 else .isLast1)
  | .isLastEmpty => .ok (if look.getLsbD 0 = false then .isLastEmpty0 else .isLastEmpty1)
  | .mnibbles => .ok (decodeMnibbles look)
  | .mlenNib lastOfLong =>
    .ok (if lastOfLong = true ∧ look.extractLsb' 0 4 = 0 then .mlenNibLastZero
         else .mlenNib (look.extractLsb' 0 4))
  | .isUncompressed => .ok (if look.getLsbD 0 = false then .isUncompressed0 else .isUncompressed1)
  | .var256 => .ok (decodeVar256 look)
  | .vx w => .ok (.vx (fieldOf look w))
  | .npostfix => .ok (.npostfix (look.extractLsb' 0 2))
  | .ndirectf => .ok (.ndirectf (look.extractLsb' 0 4))
  | .cmode => .ok (decodeCmode look)
  | .rleMaxF => .ok (if look.getLsbD 0 = false then .rleMaxF0 else .rleMaxF1)
  | .rleMaxM1 => .ok (.rleMaxM1 (look.extractLsb' 0 4))
  | .imtf => .ok (if look.getLsbD 0 = false then .imtf0 else .imtf1)
  | .treeSel => .ok (if look.getLsbD 0 = false then .treeSel0 else .treeSel1)
  | .hskip => .ok (decodeHskip look)
  | .nsymm1 => .ok (decodeNsymm1 look)
  | .symbol A earlier =>
    let v := fieldOf look (ab A)
    .ok (if v < A ∧ v ∉ earlier then .symbol v else .symbolInvalid v)
  | .clen => .ok (decodeClen look)
  | .clSym T => decodeWith T look clInstr
  | .r16 => .ok (.r16 (look.extractLsb' 0 2))
  | .r17 => .ok (.r17 (look.extractLsb' 0 3))
  | .mapSym T rlemax trees => decodeWith T look (mapInstr rlemax trees)
  | .runx w => .ok (.runx (fieldOf look w))
  | .btype T types => decodeWith T look (btypeInstr types)
  | .bcount T => decodeWith T look bcountInstr
  | .bextra w => .ok (.bextra (fieldOf look w))
  | .iac T => decodeWith T look iacInstr
  | .iextra w => .ok (.iextra (fieldOf look w))
  | .cextra w => .ok (.cextra (fieldOf look w))
  | .lit T => decodeWith T look litInstr
  | .dist T ndirect alphabet => decodeWith T look (distInstr ndirect alphabet)
  | .dextra w => .ok (.dextra (fieldOf look w))
  | .pad w => .ok (if fieldOf look w = 0 then .padZero else .padNonzero (fieldOf look w))

/-! ### The encoder: the assembler of R79, the inverse of R64 -/

/-- The `w` bits of a field in read order, least significant first (R61). -/
def fieldBits (w v : Nat) : List Bool := (List.range w).map fun i => v.testBit i

/-- The `l` bits of a codeword in read order, most significant first (R47). -/
def codeBits (l c : Nat) : List Bool := (List.range l).map fun i => c.testBit (l - 1 - i)

/-- How many bits the symbol `s` takes under `T`; `none` where it has no codeword (R62, R88). -/
def symLen (T : Code) (s : Nat) : Option Nat :=
  match T with
  | .single t => if s = t then some 0 else none
  | .lengths L => match L[s]? with
    | none => none
    | some l => if l = 0 then none else some l

/-- The codeword of the symbol `s` under `T`, in read order (R88, R62). -/
def symBits (T : Code) (s : Nat) : List Bool :=
  match T with
  | .single _ => []
  | .lengths L =>
    match (canonical L).find? (fun e => e.2.2 == s) with
    | none => []
    | some e => codeBits e.1 e.2.1

/-- The symbol value a prefix-coded instruction stands for, with its codeword length (R63). -/
def symOf : Instr → Option (Nat × Nat)
  | .clLength n s => some (s.toNat, n)
  | .clRepeatPrev n => some (16, n)
  | .clRepeatZero n => some (17, n)
  | .cmapZero n => some (0, n)
  | .cmapRun n s => some (s, n)
  | .cmapValue n s => some (s, n)
  | .btypeLast n => some (0, n)
  | .btypeNext n => some (1, n)
  | .btypeExplicit n s => some (s, n)
  | .bcount n s => some (s, n)
  | .iacCell0 n i c => some (0 + 8 * i.toNat + c.toNat, n)
  | .iacCell1 n i c => some (64 + 8 * i.toNat + c.toNat, n)
  | .iacCell2 n i c => some (128 + 8 * i.toNat + c.toNat, n)
  | .iacCell3 n i c => some (192 + 8 * i.toNat + c.toNat, n)
  | .iacCell4 n i c => some (256 + 8 * i.toNat + c.toNat, n)
  | .iacCell5 n i c => some (320 + 8 * i.toNat + c.toNat, n)
  | .iacCell6 n i c => some (384 + 8 * i.toNat + c.toNat, n)
  | .iacCell7 n i c => some (448 + 8 * i.toNat + c.toNat, n)
  | .iacCell8 n i c => some (512 + 8 * i.toNat + c.toNat, n)
  | .iacCell9 n i c => some (576 + 8 * i.toNat + c.toNat, n)
  | .iacCell10 n i c => some (640 + 8 * i.toNat + c.toNat, n)
  | .literal n b => some (b.toNat, n)
  | .distShort0 n => some (0, n)
  | .distShort1 n => some (1, n)
  | .distShort2 n => some (2, n)
  | .distShort3 n => some (3, n)
  | .distShort4 n => some (4, n)
  | .distShort5 n => some (5, n)
  | .distShort6 n => some (6, n)
  | .distShort7 n => some (7, n)
  | .distShort8 n => some (8, n)
  | .distShort9 n => some (9, n)
  | .distShort10 n => some (10, n)
  | .distShort11 n => some (11, n)
  | .distShort12 n => some (12, n)
  | .distShort13 n => some (13, n)
  | .distShort14 n => some (14, n)
  | .distShort15 n => some (15, n)
  | .distDirect n s => some (s, n)
  | .distRanged n s => some (s, n)
  | _ => none

/-- The prefix code that a position reads its symbol with, if it reads one. -/
def Slot.code : Slot → Option Code
  | .clSym T | .mapSym T _ _ | .btype T _ | .bcount T | .iac T | .lit T | .dist T _ _ => some T
  | _ => none

/-- The bits of a fixed-width element (R61, R64, R68). The EXTRA fields, SYMBOL and PAD take their width from the
position. -/
def encodeField (p : Slot) : Instr → List Bool
  | .win16 => [false]
  | .win17to24 wb1 => true :: fieldBits 3 wb1.toNat
  | .win17 => [true, false, false, false, false, false, false]
  | .winReserved => [true, false, false, false, true, false, false]
  | .win10to15 wb2 => [true, false, false, false] ++ fieldBits 3 wb2.toNat
  | .isLast0 | .isLastEmpty0 | .isUncompressed0 | .rleMaxF0 | .imtf0 | .treeSel0 => [false]
  | .isLast1 | .isLastEmpty1 | .isUncompressed1 | .rleMaxF1 | .imtf1 | .treeSel1 => [true]
  | .mnibbles4 | .cmodeLsb6 | .hskipComplex0 | .nsymm1One => [false, false]
  | .mnibbles5 | .cmodeMsb6 | .hskipSimple | .nsymm1Two => [true, false]
  | .mnibbles6 | .cmodeUtf8 | .hskipComplex2 | .nsymm1Three => [false, true]
  | .mnibblesReserved | .cmodeSigned | .hskipComplex3 | .nsymm1Four => [true, true]
  | .mlenNib nib => fieldBits 4 nib.toNat
  | .mlenNibLastZero => [false, false, false, false]
  | .var256One => [false]
  | .var256Two => [true, false, false, false]
  | .var256More v1 => true :: fieldBits 3 v1.toNat
  | .npostfix v => fieldBits 2 v.toNat
  | .ndirectf v => fieldBits 4 v.toNat
  | .rleMaxM1 v => fieldBits 4 v.toNat
  | .clen0 => [false, false]
  | .clen3 => [false, true]
  | .clen4 => [true, false]
  | .clen2 => [true, true, false]
  | .clen1 => [true, true, true, false]
  | .clen5 => [true, true, true, true]
  | .r16 v => fieldBits 2 v.toNat
  | .r17 v => fieldBits 3 v.toNat
  | .symbol v | .symbolInvalid v => match p with | .symbol A _ => fieldBits (ab A) v | _ => []
  | .vx v => match p with | .vx w => fieldBits w v | _ => []
  | .runx v => match p with | .runx w => fieldBits w v | _ => []
  | .bextra v => match p with | .bextra w => fieldBits w v | _ => []
  | .iextra v => match p with | .iextra w => fieldBits w v | _ => []
  | .cextra v => match p with | .cextra w => fieldBits w v | _ => []
  | .dextra v => match p with | .dextra w => fieldBits w v | _ => []
  | .padZero => match p with | .pad w => fieldBits w 0 | _ => []
  | .padNonzero v => match p with | .pad w => fieldBits w v | _ => []
  | _ => []

/-- The stream bits of the instruction `i` at the position `p`, in read order (R61, R62, R79). -/
def encode (p : Slot) (i : Instr) : List Bool :=
  match p.code, symOf i with
  | some T, some (s, _) => symBits T s
  | _, _ => encodeField p i

/-- Does the row of `i` stand at the position `p` of the grammar, with the conditions the table's rows name? -/
def Slot.admits (p : Slot) (i : Instr) : Bool :=
  match p, i with
  | .window, .win16 | .window, .win17 | .window, .winReserved => true
  | .window, .win17to24 wb1 => wb1 != 0
  | .window, .win10to15 wb2 => 2 ≤ wb2.toNat
  | .isLast, .isLast0 | .isLast, .isLast1 => true
  | .isLastEmpty, .isLastEmpty0 | .isLastEmpty, .isLastEmpty1 => true
  | .mnibbles, .mnibbles4 | .mnibbles, .mnibbles5 | .mnibbles, .mnibbles6
  | .mnibbles, .mnibblesReserved => true
  | .mlenNib last, .mlenNib nib => !(last && nib == 0)
  | .mlenNib last, .mlenNibLastZero => last
  | .isUncompressed, .isUncompressed0 | .isUncompressed, .isUncompressed1 => true
  | .var256, .var256One | .var256, .var256Two => true
  | .var256, .var256More v1 => v1 != 0
  | .vx w, .vx v => v < 2 ^ w
  | .npostfix, .npostfix _ | .ndirectf, .ndirectf _ => true
  | .cmode, .cmodeLsb6 | .cmode, .cmodeMsb6 | .cmode, .cmodeUtf8 | .cmode, .cmodeSigned => true
  | .rleMaxF, .rleMaxF0 | .rleMaxF, .rleMaxF1 | .rleMaxM1, .rleMaxM1 _ => true
  | .imtf, .imtf0 | .imtf, .imtf1 | .treeSel, .treeSel0 | .treeSel, .treeSel1 => true
  | .hskip, .hskipSimple | .hskip, .hskipComplex0 | .hskip, .hskipComplex2
  | .hskip, .hskipComplex3 => true
  | .nsymm1, .nsymm1One | .nsymm1, .nsymm1Two | .nsymm1, .nsymm1Three | .nsymm1, .nsymm1Four => true
  | .symbol A earlier, .symbol v => v < A && !earlier.contains v
  | .symbol A earlier, .symbolInvalid v => v < 2 ^ ab A && (A ≤ v || earlier.contains v)
  | .clen, .clen0 | .clen, .clen1 | .clen, .clen2 | .clen, .clen3 | .clen, .clen4 | .clen, .clen5 => true
  | .r16, .r16 _ | .r17, .r17 _ => true
  | .runx w, .runx v => v < 2 ^ w
  | .bextra w, .bextra v => v < 2 ^ w
  | .iextra w, .iextra v => v < 2 ^ w
  | .cextra w, .cextra v => v < 2 ^ w
  | .dextra w, .dextra v => v < 2 ^ w
  | .pad _, .padZero => true
  | .pad w, .padNonzero v => 1 ≤ v && v < 2 ^ w
  | .clSym T, i => (symOf i).any fun (s, n) => symLen T s == some n && clInstr n s == some i
  | .mapSym T rlemax trees, i =>
    (symOf i).any fun (s, n) => symLen T s == some n && mapInstr rlemax trees n s == some i
  | .btype T types, i => (symOf i).any fun (s, n) => symLen T s == some n && btypeInstr types n s == some i
  | .bcount T, i => (symOf i).any fun (s, n) => symLen T s == some n && bcountInstr n s == some i
  | .iac T, i => (symOf i).any fun (s, n) => symLen T s == some n && iacInstr n s == some i
  | .lit T, i => (symOf i).any fun (s, n) => symLen T s == some n && litInstr n s == some i
  | .dist T ndirect alphabet, i =>
    (symOf i).any fun (s, n) => symLen T s == some n && distInstr ndirect alphabet n s == some i
  | _, _ => false

/-- Stream bits as the decoder's lookahead: bit `i` is the `i`-th bit of the list, 0 past its end (R45, R82). -/
def lookOf (bits : List Bool) : BitVec 24 :=
  BitVec.ofNat 24 (((bits.take 24).zipIdx.map fun e => e.1.toNat <<< e.2).sum)

/-! ### Table words

A row's bits alone do not name an element: the same bits mean different things at different positions (R60). For the
host's questions about table words the decoder reads a word at one position, fixed by this list: for each size and
match value, the position of the first row of the table, in its order, that no earlier word of the list already
stands for. Any other word is read where a decode starts, at the window field. -/

/-- Positions at which a table word is read. -/
inductive WordPos where
  | window
  | mnibbles
  | clen
  | clSym
  | mapSym
  | btype
  | iac
  | dist
deriving DecidableEq, Repr

/-- The position at which the word `w` of `nbits` bits is read. -/
def wordPos (nbits w : Nat) : WordPos :=
  if nbits ≤ 8 then
    if w = 2 ∨ w = 3 then .mnibbles
    else if w = 7 ∨ w = 15 then .clen
    else if w = 16 then .clSym
    else .window
  else if w = 0 then .mapSym
  else if w = 1 then .btype
  else if w < 16 then .dist
  else if w < Config.iacAlphabet then .iac
  else .window

/-- The word's bits that the table gives the row: every bit above `nbits` is 0. -/
def tableWord (nbits w : Nat) : Nat := w % 2 ^ nbits

/-- The position, as the decoder sees it, that `State.withFetchWord` sets. A symbol's row is matched against the
decoded symbol's value (R63), so the position's code is the one-symbol code of that value. -/
def wordSlot (nbits w : Nat) : Slot :=
  let v := tableWord nbits w
  match wordPos nbits v with
  | .window => .window
  | .mnibbles => .mnibbles
  | .clen => .clen
  | .clSym => .clSym (.single v)
  | .mapSym => .mapSym (.single v) 0 2
  | .btype => .btype (.single v) 2
  | .iac => .iac (.single v)
  | .dist => .dist (.single v) 0 64

/-- The instruction the decoder reads from a table word (see above for the position). -/
def decodeTableWord (nbits w : Nat) : Option Instr :=
  match decode (wordSlot nbits w) (BitVec.ofNat 24 (tableWord nbits w)) with
  | .ok i => some i
  | .error _ => none

end Sys2Proof
end

