-- ==== Sys2Proof/Machine/Rom.lean ====
section
/-! DEFINITION. The shapes of the read-only memories (R13, R43) and the contents that the spec lists for a model that
fixes them (93_implementation_defined.md section 3, general knowledge: log 7). The bytes of `DICT` are not listed there. -/

namespace Sys2Proof.Machine

/-- One entry of `TRANSFORMS` (R13, R150): a byte string before the word, a type 0..20, a byte string after it. -/
structure Transform where
  pre : List Byte
  kind : Fin 21
  suf : List Byte
deriving DecidableEq, Repr

/-- `LUT0` of I-GK12, entries 0 to 127. -/
def lut0Rows0 : List (BitVec 6) :=
  [0, 0, 0, 0, 0, 0, 0, 0, 0, 4, 4, 0, 0, 4, 0, 0]
  ++ [0, 0, 0, 0, 0, 0, 0, 0, 0, 0, 0, 0, 0, 0, 0, 0]
  ++ [8, 12, 16, 12, 12, 20, 12, 16, 24, 28, 12, 12, 32, 12, 36, 12]
  ++ [44, 44, 44, 44, 44, 44, 44, 44, 44, 44, 32, 32, 24, 40, 28, 12]
  ++ [12, 48, 52, 52, 52, 48, 52, 52, 52, 48, 52, 52, 52, 52, 52, 48]
  ++ [52, 52, 52, 52, 52, 48, 52, 52, 52, 52, 52, 24, 12, 28, 12, 12]
  ++ [12, 56, 60, 60, 60, 56, 60, 60, 60, 56, 60, 60, 60, 60, 60, 56]
  ++ [60, 60, 60, 60, 60, 56, 60, 60, 60, 60, 60, 24, 12, 28, 12, 0]

/-- `LUT0` of I-GK12, entries 128 to 255. -/
def lut0Rows1 : List (BitVec 6) :=
  [0, 1, 0, 1, 0, 1, 0, 1, 0, 1, 0, 1, 0, 1, 0, 1]
  ++ [0, 1, 0, 1, 0, 1, 0, 1, 0, 1, 0, 1, 0, 1, 0, 1]
  ++ [0, 1, 0, 1, 0, 1, 0, 1, 0, 1, 0, 1, 0, 1, 0, 1]
  ++ [0, 1, 0, 1, 0, 1, 0, 1, 0, 1, 0, 1, 0, 1, 0, 1]
  ++ [2, 3, 2, 3, 2, 3, 2, 3, 2, 3, 2, 3, 2, 3, 2, 3]
  ++ [2, 3, 2, 3, 2, 3, 2, 3, 2, 3, 2, 3, 2, 3, 2, 3]
  ++ [2, 3, 2, 3, 2, 3, 2, 3, 2, 3, 2, 3, 2, 3, 2, 3]
  ++ [2, 3, 2, 3, 2, 3, 2, 3, 2, 3, 2, 3, 2, 3, 2, 3]

theorem lut0Rows0_length : lut0Rows0.length = 128 := by
  simp only [lut0Rows0, List.length_append, List.length_cons, List.length_nil, Nat.reduceAdd]

theorem lut0Rows1_length : lut0Rows1.length = 128 := by
  simp only [lut0Rows1, List.length_append, List.length_cons, List.length_nil, Nat.reduceAdd]

/-- `LUT0` (R104) with the values of I-GK12. -/
def rfcLut0 : Vector (BitVec 6) 256 := ⟨⟨lut0Rows0 ++ lut0Rows1⟩, by simp [lut0Rows0_length, lut0Rows1_length]⟩

/-- `LUT1` of I-GK12, entries 0 to 127. -/
def lut1Rows0 : List (BitVec 6) :=
  [0, 0, 0, 0, 0, 0, 0, 0, 0, 0, 0, 0, 0, 0, 0, 0]
  ++ [0, 0, 0, 0, 0, 0, 0, 0, 0, 0, 0, 0, 0, 0, 0, 0]
  ++ [0, 1, 1, 1, 1, 1, 1, 1, 1, 1, 1, 1, 1, 1, 1, 1]
  ++ [2, 2, 2, 2, 2, 2, 2, 2, 2, 2, 1, 1, 1, 1, 1, 1]
  ++ [1, 2, 2, 2, 2, 2, 2, 2, 2, 2, 2, 2, 2, 2, 2, 2]
  ++ [2, 2, 2, 2, 2, 2, 2, 2, 2, 2, 2, 1, 1, 1, 1, 1]
  ++ [1, 3, 3, 3, 3, 3, 3, 3, 3, 3, 3, 3, 3, 3, 3, 3]
  ++ [3, 3, 3, 3, 3, 3, 3, 3, 3, 3, 3, 1, 1, 1, 1, 0]

/-- `LUT1` of I-GK12, entries 128 to 255. -/
def lut1Rows1 : List (BitVec 6) :=
  [0, 0, 0, 0, 0, 0, 0, 0, 0, 0, 0, 0, 0, 0, 0, 0]
  ++ [0, 0, 0, 0, 0, 0, 0, 0, 0, 0, 0, 0, 0, 0, 0, 0]
  ++ [0, 0, 0, 0, 0, 0, 0, 0, 0, 0, 0, 0, 0, 0, 0, 0]
  ++ [0, 0, 0, 0, 0, 0, 0, 0, 0, 0, 0, 0, 0, 0, 0, 0]
  ++ [0, 0, 0, 0, 0, 0, 0, 0, 0, 0, 0, 0, 0, 0, 0, 0]
  ++ [0, 0, 0, 0, 0, 0, 0, 0, 0, 0, 0, 0, 0, 0, 0, 0]
  ++ [2, 2, 2, 2, 2, 2, 2, 2, 2, 2, 2, 2, 2, 2, 2, 2]
  ++ [2, 2, 2, 2, 2, 2, 2, 2, 2, 2, 2, 2, 2, 2, 2, 2]

theorem lut1Rows0_length : lut1Rows0.length = 128 := by
  simp only [lut1Rows0, List.length_append, List.length_cons, List.length_nil, Nat.reduceAdd]

theorem lut1Rows1_length : lut1Rows1.length = 128 := by
  simp only [lut1Rows1, List.length_append, List.length_cons, List.length_nil, Nat.reduceAdd]

/-- `LUT1` (R104) with the values of I-GK12. -/
def rfcLut1 : Vector (BitVec 6) 256 := ⟨⟨lut1Rows0 ++ lut1Rows1⟩, by simp [lut1Rows0_length, lut1Rows1_length]⟩

/-- `TRANSFORMS` of I-GK13, entries 0 to 30. -/
def transformRows0 : List Transform :=
  [⟨[], 0, []⟩,
   ⟨[], 0, [32]⟩,
   ⟨[32], 0, [32]⟩,
   ⟨[], 12, []⟩,
   ⟨[], 10, [32]⟩,
   ⟨[], 0, [32, 116, 104, 101, 32]⟩,
   ⟨[32], 0, []⟩,
   ⟨[115, 32], 0, [32]⟩,
   ⟨[], 0, [32, 111, 102, 32]⟩,
   ⟨[], 10, []⟩,
   ⟨[], 0, [32, 97, 110, 100, 32]⟩,
   ⟨[], 13, []⟩,
   ⟨[], 1, []⟩,
   ⟨[44, 32], 0, [32]⟩,
   ⟨[], 0, [44, 32]⟩,
   ⟨[32], 10, [32]⟩,
   ⟨[], 0, [32, 105, 110, 32]⟩,
   ⟨[], 0, [32, 116, 111, 32]⟩,
   ⟨[101, 32], 0, [32]⟩,
   ⟨[], 0, [34]⟩,
   ⟨[], 0, [46]⟩,
   ⟨[], 0, [34, 62]⟩,
   ⟨[], 0, [10]⟩,
   ⟨[], 3, []⟩,
   ⟨[], 0, [93]⟩,
   ⟨[], 0, [32, 102, 111, 114, 32]⟩,
   ⟨[], 14, []⟩,
   ⟨[], 2, []⟩,
   ⟨[], 0, [32, 97, 32]⟩,
   ⟨[], 0, [32, 116, 104, 97, 116, 32]⟩,
   ⟨[32], 10, []⟩]

/-- `TRANSFORMS` of I-GK13, entries 31 to 61. -/
def transformRows1 : List Transform :=
  [⟨[], 0, [46, 32]⟩,
   ⟨[46], 0, []⟩,
   ⟨[32], 0, [44, 32]⟩,
   ⟨[], 15, []⟩,
   ⟨[], 0, [32, 119, 105, 116, 104, 32]⟩,
   ⟨[], 0, [39]⟩,
   ⟨[], 0, [32, 102, 114, 111, 109, 32]⟩,
   ⟨[], 0, [32, 98, 121, 32]⟩,
   ⟨[], 16, []⟩,
   ⟨[], 17, []⟩,
   ⟨[32, 116, 104, 101, 32], 0, []⟩,
   ⟨[], 4, []⟩,
   ⟨[], 0, [46, 32, 84, 104, 101, 32]⟩,
   ⟨[], 11, []⟩,
   ⟨[], 0, [32, 111, 110, 32]⟩,
   ⟨[], 0, [32, 97, 115, 32]⟩,
   ⟨[], 0, [32, 105, 115, 32]⟩,
   ⟨[], 7, []⟩,
   ⟨[], 1, [105, 110, 103, 32]⟩,
   ⟨[], 0, [10, 9]⟩,
   ⟨[], 0, [58]⟩,
   ⟨[32], 0, [46, 32]⟩,
   ⟨[], 0, [101, 100, 32]⟩,
   ⟨[], 20, []⟩,
   ⟨[], 18, []⟩,
   ⟨[], 6, []⟩,
   ⟨[], 0, [40]⟩,
   ⟨[], 10, [44, 32]⟩,
   ⟨[], 8, []⟩,
   ⟨[], 0, [32, 97, 116, 32]⟩,
   ⟨[], 0, [108, 121, 32]⟩]

/-- `TRANSFORMS` of I-GK13, entries 62 to 92. -/
def transformRows2 : List Transform :=
  [⟨[32, 116, 104, 101, 32], 0, [32, 111, 102, 32]⟩,
   ⟨[], 5, []⟩,
   ⟨[], 9, []⟩,
   ⟨[32], 10, [44, 32]⟩,
   ⟨[], 10, [34]⟩,
   ⟨[46], 0, [40]⟩,
   ⟨[], 11, [32]⟩,
   ⟨[], 10, [34, 62]⟩,
   ⟨[], 0, [61, 34]⟩,
   ⟨[32], 0, [46]⟩,
   ⟨[46, 99, 111, 109, 47], 0, []⟩,
   ⟨[32, 116, 104, 101, 32], 0, [32, 111, 102, 32, 116, 104, 101, 32]⟩,
   ⟨[], 10, [39]⟩,
   ⟨[], 0, [46, 32, 84, 104, 105, 115, 32]⟩,
   ⟨[], 0, [44]⟩,
   ⟨[46], 0, [32]⟩,
   ⟨[], 10, [40]⟩,
   ⟨[], 10, [46]⟩,
   ⟨[], 0, [32, 110, 111, 116, 32]⟩,
   ⟨[32], 0, [61, 34]⟩,
   ⟨[], 0, [101, 114, 32]⟩,
   ⟨[32], 11, [32]⟩,
   ⟨[], 0, [97, 108, 32]⟩,
   ⟨[32], 11, []⟩,
   ⟨[], 0, [61, 39]⟩,
   ⟨[], 11, [34]⟩,
   ⟨[], 10, [46, 32]⟩,
   ⟨[32], 0, [40]⟩,
   ⟨[], 0, [102, 117, 108, 32]⟩,
   ⟨[32], 10, [46, 32]⟩,
   ⟨[], 0, [105, 118, 101, 32]⟩]

/-- `TRANSFORMS` of I-GK13, entries 93 to 120. -/
def transformRows3 : List Transform :=
  [⟨[], 0, [108, 101, 115, 115, 32]⟩,
   ⟨[], 11, [39]⟩,
   ⟨[], 0, [101, 115, 116, 32]⟩,
   ⟨[32], 10, [46]⟩,
   ⟨[], 11, [34, 62]⟩,
   ⟨[32], 0, [61, 39]⟩,
   ⟨[], 10, [44]⟩,
   ⟨[], 0, [105, 122, 101, 32]⟩,
   ⟨[], 11, [46]⟩,
   ⟨[194, 160], 0, []⟩,
   ⟨[32], 0, [44]⟩,
   ⟨[], 10, [61, 34]⟩,
   ⟨[], 11, [61, 34]⟩,
   ⟨[], 0, [111, 117, 115, 32]⟩,
   ⟨[], 11, [44, 32]⟩,
   ⟨[], 10, [61, 39]⟩,
   ⟨[32], 10, [44]⟩,
   ⟨[32], 11, [61, 34]⟩,
   ⟨[32], 11, [44, 32]⟩,
   ⟨[], 11, [44]⟩,
   ⟨[], 11, [40]⟩,
   ⟨[], 11, [46, 32]⟩,
   ⟨[32], 11, [46]⟩,
   ⟨[], 11, [61, 39]⟩,
   ⟨[32], 11, [46, 32]⟩,
   ⟨[32], 10, [61, 34]⟩,
   ⟨[32], 11, [61, 39]⟩,
   ⟨[32], 10, [61, 39]⟩]

/-- `TRANSFORMS` (R157) with the list of I-GK13. -/
def rfcTransforms : Vector Transform 121 :=
  ⟨⟨transformRows0 ++ transformRows1 ++ transformRows2 ++ transformRows3⟩, rfl⟩

end Sys2Proof.Machine
end

