-- ==== Sys2Proof/Machine/State.lean ====
section
/-! DEFINITION. The state of the datapath (10_state.md, 20_memory.md), the reasons a step can stop, and the state after
reset (R42, R170). -/

namespace Sys2Proof.Machine

/-- Why a step stops with a fault. The datapath's own errors are no faults: `raise` (R161) makes a next state. Every
fault here is safe (the model stops where the rules guarantee that the case does not arise, R77, R88, R90). -/
inductive Fault where
  /-- Raised by `fetch`: no codeword of the stored code is a prefix of the stream (R90, `assert false`). Safe. -/
  | noCodeword
  /-- Raised by `fetch`: a decoded symbol lies outside its alphabet (R77). Safe. -/
  | noRow
deriving DecidableEq, Repr

/-- Why an instruction is refused. -/
inductive Refusal where
  /-- Raised by `exec`'s arm of an instruction that has no meaning yet. Safe. -/
  | notModelled (mnemonic : String)
  /-- Raised by a meaning that is run at a position where the grammar does not admit its element (R60: the position
  and the bits together identify an element). `step` never does that. Safe. -/
  | offGrammar
deriving DecidableEq, Repr

/-- The error kinds of R158. -/
inductive ErrKind where
  | ok
  | needMoreInput
  | syntaxError
  | endOk
  | huffmanLengthError
  | contextMapError
deriving DecidableEq, Repr

/-- The phases of R27. -/
inductive Phase where
  | idle
  | run
  | done
deriving DecidableEq, Repr

/-- The host's registers (R23, R24, R25). -/
inductive HostReg where
  | cfgInLen
  | cfgStartBit
  | cfgOutCap
  | ctrl
  | status
  | busy
  | bytesWritten
  | bitPos
deriving DecidableEq, Repr

/-- A move of the host (R23, R24, R43, R172). A register write carries 35 bits, the widest register; a narrower
register takes the low bits. -/
inductive HostCmd where
  | writeReg (r : HostReg) (v : BitVec 35)
  | writeIn (a : BitVec 32) (b : Byte)
  | writeOut (a : BitVec 32) (b : Byte)
deriving DecidableEq, Repr

/-- A byte memory in canonical form: addresses strictly rising, no listed byte equal to what an unlisted address
reads as (`Memory.wf`, log 6). -/
abbrev Memory := List Host.Cell

/-- The read-only memories (R13, R43): the spec's parameters `DICT`, `TRANSFORMS`, `LUT0`, `LUT1` (log 7). -/
structure Rom where
  dict : Memory
  transforms : Vector Transform 121
  lut0 : Vector (BitVec 6) 256
  lut1 : Vector (BitVec 6) 256
deriving DecidableEq, Repr

/-- `last_distances[0..3]` and `last_distance_idx` (R31; the 2-bit counter of log 9). -/
structure DistRing where
  d0 : Nat
  d1 : Nat
  d2 : Nat
  d3 : Nat
  idx : BitVec 2
deriving DecidableEq, Repr

/-- The registers of one category (R34). -/
structure BlockState where
  numTypes : Nat
  blockType : Nat
  lastBlockType : Nat
  blockLen : Nat
  btypeCode : Code
  bcountCode : Code
deriving DecidableEq, Repr

/-- The meta-block registers (R28, R33 to R38). -/
structure MetaBlock where
  isLast : Bool
  mlen : Nat
  mbEnd : Nat
  lit : BlockState
  iac : BlockState
  dist : BlockState
  npostfix : Nat
  ndirect : Nat
  distAlphabet : Nat
  contextMode : List ContextMode
  ntreesL : Nat
  ntreesD : Nat
  litMap : List Nat
  distMap : List Nat
  litCode : List Code
  iacCode : List Code
  distCode : List Code
deriving DecidableEq, Repr

/-- The command registers (R40). -/
structure CmdRegs where
  insertLen : Nat
  copyLen : Nat
  implicit0 : Bool
  distCtx : Nat
  dcode : Nat
  distance : Nat
deriving DecidableEq, Repr

/-- Which code a `ReadCode` in progress is for (R107, R120, R125). -/
inductive CodeUse where
  | btype (c : Cat)
  | bcount (c : Cat)
  | cmap (m : MapSel) (rlemax : Nat)
  | lit
  | iac
  | dist
deriving DecidableEq, Repr

/-- Which count a `ReadVar256` in progress is for (R120, R124). -/
inductive CountUse where
  | blockTypes (c : Cat)
  | treesL
  | treesD
deriving DecidableEq, Repr

/-- The local variables of `ReadCLCode` (R94): the next entry `i`, `cl[0..17]`, `space` and `num`. -/
structure ClLocals where
  i : Nat
  cl : List Nat
  space : Int
  num : Nat
deriving DecidableEq, Repr

/-- The local variables of `ReadSymbolLengths` (R95): `L[0 .. s-1]`, `space`, `prev`, `rep` and `replen`. -/
structure LenLocals where
  lens : List Nat
  space : Int
  prev : Nat
  rep : Nat
  replen : Nat
deriving DecidableEq, Repr

/-- The control point (log 1): which element the grammar has next (R60, R64), with the local variables of the
pseudocode in progress. `copy` is the point of `Command` (R130) at which the distance is resolved and no element is
read: the step there performs the command's copy or dictionary word (log 2). -/
inductive Ctl where
  | window
  | isLast
  | isLastEmpty
  | mnibbles
  /-- `ReadMetaBlockHeader` (R116): nibble `i` of `nibbles`, with the value `v` so far. -/
  | mlenNib (i nibbles v : Nat)
  | isUncompressed
  | count (u : CountUse)
  /-- VX of width `v1` (R119). -/
  | countX (u : CountUse) (v1 : Nat)
  | npostfix
  | ndirectf
  | cmode
  | rleMaxF (m : MapSel)
  | rleMaxM1 (m : MapSel)
  /-- `ReadContextMap` (R107): its code and the entries so far. -/
  | mapSym (m : MapSel) (rlemax : Nat) (code : Code) (acc : List Nat)
  /-- RUNX of width `s` (R108). -/
  | mapRun (m : MapSel) (rlemax : Nat) (code : Code) (acc : List Nat) (s : Nat)
  | imtf (m : MapSel) (acc : List Nat)
  | hskip (u : CodeUse)
  | nsymm1 (u : CodeUse)
  /-- `ReadSimple` (R93): the symbols so far, and whether one of them was invalid. -/
  | symbol (u : CodeUse) (nsym : Nat) (syms : List Nat) (bad : Bool)
  | treeSel (u : CodeUse) (syms : List Nat)
  | clen (u : CodeUse) (st : ClLocals)
  | clSym (u : CodeUse) (code : Code) (st : LenLocals)
  | rep16 (u : CodeUse) (code : Code) (st : LenLocals)
  | rep17 (u : CodeUse) (code : Code) (st : LenLocals)
  /-- The block-type symbol of a block switch (R132). -/
  | btype (c : Cat)
  /-- The block-count symbol, of a block switch or of the header (R121). -/
  | bcount (c : Cat) (switch : Bool)
  | bextra (c : Cat) (switch : Bool) (s : Nat)
  | iac
  | iextra (icode ccode : Nat)
  | cextra (ccode : Nat)
  | lit
  | dist
  | dextra
  | copy
  | pad
deriving DecidableEq, Repr

/-- The whole state of the datapath and what the host has still to do to it. -/
structure State where
  /-- `CFG_IN_LEN` (R23). -/
  cfgInLen : BitVec 32
  /-- `CFG_START_BIT` (R23). -/
  cfgStartBit : BitVec 35
  /-- `CFG_OUT_CAP` (R23). -/
  cfgOutCap : BitVec 32
  /-- The host's moves not yet performed, oldest first (the model's own, log 3). -/
  hostq : List HostCmd
  /-- `phase` (R27). -/
  phase : Phase
  /-- `err` (R26). -/
  err : ErrKind
  /-- `bitpos` (R21). -/
  bitpos : Nat
  /-- `pos` (R22). -/
  pos : Nat
  /-- `wbits` (R29). -/
  wbits : Nat
  /-- `max_backward_distance` (R29). -/
  maxBackward : Nat
  /-- `p1` (R30). -/
  p1 : Byte
  /-- `p2` (R30). -/
  p2 : Byte
  /-- The last-distance ring (R31). -/
  hist : DistRing
  /-- `IN` (R43). -/
  inMem : Memory
  /-- `OUT` (R43). -/
  outMem : Memory
  /-- `RING` (R32). -/
  ring : Memory
  /-- The ROMs (R13, R43). -/
  rom : Rom
  /-- The meta-block registers (R33 to R38). -/
  mb : MetaBlock
  /-- The command registers (R40). -/
  cmd : CmdRegs
  /-- The control point (log 1). -/
  ctl : Ctl
deriving DecidableEq, Repr

/-- A category's registers before any header (log 5). -/
def BlockState.reset : BlockState := ⟨0, 0, 0, 0, .single 0, .single 0⟩

/-- The meta-block registers before any header (log 5). -/
def MetaBlock.reset : MetaBlock :=
  ⟨false, 0, 0, BlockState.reset, BlockState.reset, BlockState.reset, 0, 0, 0, [], 0, 0, [], [], [], [], []⟩

/-- The command registers before any command (log 5). -/
def CmdRegs.reset : CmdRegs := ⟨0, 0, false, 0, 0, 0⟩

/-- The ROMs before anyone loads others: the lists of 93 section 3, and `DICT` with nothing listed (log 6, log 7). -/
def Rom.reset : Rom := ⟨[], rfcTransforms, rfcLut0, rfcLut1⟩

/-- The state after hardware reset (R42, R170). What R42 gives there: the configuration registers 0, `phase` IDLE,
`err` `ok`, `bitpos` and `pos` 0. Every other value is the model's (log 5, log 6, log 7). -/
def State.reset : State where
  cfgInLen := 0
  cfgStartBit := 0
  cfgOutCap := 0
  hostq := []
  phase := .idle
  err := .ok
  bitpos := 0
  pos := 0
  wbits := 0
  maxBackward := 0
  p1 := 0
  p2 := 0
  hist := ⟨0, 0, 0, 0, 0⟩
  inMem := []
  outMem := []
  ring := []
  rom := Rom.reset
  mb := MetaBlock.reset
  cmd := CmdRegs.reset
  ctl := .window

end Sys2Proof.Machine
end

