-- ==== Sys2Proof/Machine/Flags.lean ====
section
/-! DEFINITION. The datapath's flags: the error kind's code, the status views of it and of `phase`, and `is_last`
(R25 to R28, R158). There is no carry, zero or overflow flag (R28). -/

namespace Sys2Proof.Machine

/-- The code of an error kind in `err` and `STATUS` (R26, R158); 6 and 7 are never written. -/
def ErrKind.code : ErrKind → BitVec 3
  | .ok => 0
  | .needMoreInput => 1
  | .syntaxError => 2
  | .endOk => 3
  | .huffmanLengthError => 4
  | .contextMapError => 5

/-- `BUSY = (phase == RUN)` (R27). -/
def busy (s : State) : Bool := s.phase == .run

/-- `STATUS`, a view of `err` (R25). -/
def statusReg (s : State) : BitVec 3 := s.err.code

/-- `BUSY`, a view of `phase` (R25). -/
def busyReg (s : State) : BitVec 1 := if busy s then 1 else 0

/-- `BYTES_WRITTEN`, a view of `pos` (R25). -/
def bytesWrittenReg (s : State) : BitVec 32 := BitVec.ofNat 32 s.pos

/-- `BIT_POS`, a view of `bitpos` (R25). -/
def bitPosReg (s : State) : BitVec 35 := BitVec.ofNat 35 s.bitpos

/-- The meta-block header writes `is_last` (R28, R114). -/
def setIsLast (v : Bool) (s : State) : State := { s with mb := { s.mb with isLast := v } }

end Sys2Proof.Machine
end

