-- ==== Sys2Proof/Machine/Ops.lean ====
section
/-! DEFINITION. The named operations over the state: raising an error (the datapath's one exception mechanism), byte
memories, the bit reader, the last-distance ring, the output byte, block registers and the moves of the control point. -/

namespace Sys2Proof.Machine

/-- What a meaning or a step answers. -/
abbrev Answer := Host.Outcome State Fault Refusal

/-! ### The abort (R161) and clean termination (R162) -/

/-- `raise E` (R161): `err` records the kind, `phase` becomes DONE, and every other register keeps its value. Nothing
is saved and no handler is entered; there is no return from it (R164). -/
def raise (e : ErrKind) (s : State) : State := { s with err := e, phase := .done }

/-- Clean termination (R162): `err <- end`, `phase <- DONE`. -/
def terminate (s : State) : State := { s with err := .endOk, phase := .done }

/-! ### Byte memories (R43) -/

/-- What an address that no one has written reads as (log 6). -/
def unlistedByte : Byte := 0

/-- The byte at an address. -/
def memRead : Memory → Nat → Byte
  | [], _ => unlistedByte
  | (k, v) :: rest, a => if a = k then v else memRead rest a

/-- Write one byte, keeping the canonical form. -/
def memWrite : Memory → Nat → Byte → Memory
  | [], a, b => if b = unlistedByte then [] else [(a, b)]
  | (k, v) :: rest, a, b =>
    if a < k then
      if b = unlistedByte then (k, v) :: rest else (a, b) :: (k, v) :: rest
    else if a = k then
      if b = unlistedByte then rest else (a, b) :: rest
    else (k, v) :: memWrite rest a b

/-- Addresses strictly rise. -/
def risingAddrs : Memory → Bool
  | [] => true
  | [_] => true
  | (k, _) :: (k', v') :: rest => decide (k < k') && risingAddrs ((k', v') :: rest)

/-- The canonical form of a memory. -/
def Memory.wf (m : Memory) : Bool := risingAddrs m && m.all (fun c => c.2 != unlistedByte)

/-! ### The bit reader (40_bitreader.md) -/

/-- `END` (R80): the bit index one past the last bit of `IN`. -/
def endBit (s : State) : Nat := 8 * s.cfgInLen.toNat

/-- Stream bit `k` (R45, R81). -/
def streamBit (s : State) (k : Nat) : Bool :=
  if k < endBit s then (memRead s.inMem (k / 8)).getLsbD (k % 8) else false

/-- `PeekBits(n)` (R45, R82): the next `n` bits, the first one least significant. -/
def peekBits (s : State) : Nat → Nat
  | 0 => 0
  | n + 1 => peekBits s n + (streamBit s (s.bitpos + n)).toNat <<< n

/-- The decoder's lookahead: `PeekBits(24)`, the widest peek of the reader (R82, log 20). -/
def lookahead (s : State) : BitVec 24 := BitVec.ofNat 24 (peekBits s Config.maxPeek)

/-- `bitpos <- bitpos + n` (R83). -/
def advance (n : Nat) (s : State) : State := { s with bitpos := s.bitpos + n }

/-- `DropBits(n)` (R83), then `k`: a drop that would pass `END` raises `need_more_input` and leaves `bitpos`. -/
def dropThen (n : Nat) (s : State) (k : State → Answer) : Answer :=
  if endBit s < s.bitpos + n then .next (raise .needMoreInput s) else k (advance n s)

/-! ### The last-distance ring (R31, R144) -/

/-- `last_distances[i]` (R31). -/
def DistRing.slot (h : DistRing) (i : BitVec 2) : Nat :=
  if i = 0 then h.d0 else if i = 1 then h.d1 else if i = 2 then h.d2 else h.d3

/-- `last(k) = last_distances[(last_distance_idx - k) & 3]` (R31, R73). -/
def DistRing.last (h : DistRing) (k : BitVec 2) : Nat := h.slot (h.idx - k)

/-- `Push(d)` (R144). -/
def DistRing.push (h : DistRing) (d : Nat) : DistRing :=
  let idx := h.idx + 1
  if h.idx = 0 then { h with d0 := d, idx := idx }
  else if h.idx = 1 then { h with d1 := d, idx := idx }
  else if h.idx = 2 then { h with d2 := d, idx := idx }
  else { h with d3 := d, idx := idx }

/-- Push a distance onto the state's ring (R144). -/
def pushDistance (d : Nat) (s : State) : State := { s with hist := s.hist.push d }

/-- The ring's start values, `last(1..4) = 4, 11, 15, 16` (R31, R145, R171). -/
def DistRing.start : DistRing := ⟨16, 15, 11, 4, 0⟩

/-! ### Output (R146) -/

/-- The ring index of an output position: `pos & (2^wbits - 1)` (R32, R44). -/
def ringIndex (s : State) (a : Nat) : Nat := a % 2 ^ s.wbits

/-- The body of `Emit(b)` after its check (R146): write `OUT` and `RING`, shift `p1` and `p2`, count the byte. -/
def putByte (b : Byte) (s : State) : State :=
  { s with
    outMem := memWrite s.outMem s.pos b
    ring := memWrite s.ring (ringIndex s s.pos) b
    p2 := s.p1
    p1 := b
    pos := s.pos + 1 }

/-- `Emit(b)` (R146), then `k`: an output byte at `pos >= OUT_CAP` raises `syntax_error` and writes nothing. -/
def emitThen (b : Byte) (s : State) (k : State → Answer) : Answer :=
  if s.cfgOutCap.toNat ≤ s.pos then .next (raise .syntaxError s) else k (putByte b s)

/-! ### Block registers (R34, R132, R133) -/

/-- The registers of a category. -/
def MetaBlock.block (m : MetaBlock) : Cat → BlockState
  | .literal => m.lit
  | .insertCopy => m.iac
  | .distance => m.dist

/-- The registers of a category. -/
def State.block (s : State) (c : Cat) : BlockState := s.mb.block c

/-- Write the registers of a category. -/
def MetaBlock.setBlock (m : MetaBlock) (c : Cat) (b : BlockState) : MetaBlock :=
  match c with
  | .literal => { m with lit := b }
  | .insertCopy => { m with iac := b }
  | .distance => { m with dist := b }

/-- Write the registers of a category. -/
def setBlock (c : Cat) (b : BlockState) (s : State) : State := { s with mb := s.mb.setBlock c b }

/-- The decrement of R133: once per symbol of the category, when it has two or more block types. -/
def countDown (c : Cat) (s : State) : State :=
  if 2 ≤ (s.block c).numTypes then setBlock c { s.block c with blockLen := (s.block c).blockLen - 1 } s else s

/-! ### Moves of the control point (log 1) -/

/-- The grammar's next element. -/
def goto (c : Ctl) (s : State) : State := { s with ctl := c }

/-- The point at which a symbol of the category is read in a command. -/
def symCtl : Cat → Ctl
  | .literal => .lit
  | .insertCopy => .iac
  | .distance => .dist

/-- Before a symbol of category `c`: a block switch when it is due (R133), else the symbol. -/
def enterSym (c : Cat) (s : State) : State :=
  if 2 ≤ (s.block c).numTypes ∧ (s.block c).blockLen = 0 then goto (.btype c) s else goto (symCtl c) s

/-- The end of a meta-block (R112, R126): the padding check after the last one, else another header. -/
def endMetaBlock (s : State) : State := if s.mb.isLast then goto .pad s else goto .isLast s

/-- The command loop's test (R129). -/
def nextCommand (s : State) : State := if s.pos < s.mb.mbEnd then enterSym .insertCopy s else endMetaBlock s

/-- Write the command registers. -/
def setCmd (c : CmdRegs) (s : State) : State := { s with cmd := c }

/-- `ResolveDistance` (R138) up to its first element: an implicit zero distance reads none (R139). -/
def enterDistance (s : State) : State :=
  if s.cmd.implicit0 then goto .copy (setCmd { s.cmd with dcode := 0, distance := s.hist.last 1 } s)
  else enterSym .distance s

/-- Between two literals of `InsertLiterals` (R134), and what follows the insert (R130, R136). -/
def nextInsert (s : State) : State :=
  if s.pos < s.mb.mbEnd then
    if 0 < s.cmd.insertLen then enterSym .literal s else enterDistance s
  else endMetaBlock s

end Sys2Proof.Machine
end

