-- ==== Sys2Proof/Machine/Operands.lean ====
section
/-! DEFINITION. What the fields and symbols stand for: the constant tables of 30_encoding.md section 3 and the values
computed from them (lengths, distances, context ids, alphabets, code lengths, transformed words). -/

namespace Sys2Proof.Machine

/-! ### Constant tables (R67 to R75) -/

/-- `CL_ORDER` (R67). -/
def clOrder : List Nat := [1, 2, 3, 4, 0, 5, 17, 6, 16, 7, 8, 9, 10, 11, 12, 13, 14, 15]

/-- `BLEN_BASE`, `BLEN_EXTRA` (R69). -/
def blenTable : List (Nat × Nat) :=
  [(1, 2), (5, 2), (9, 2), (13, 2), (17, 3), (25, 3), (33, 3), (41, 3), (49, 4), (65, 4), (81, 4), (97, 4), (113, 5)]
  ++ [(145, 5), (177, 5), (209, 5), (241, 6), (305, 6), (369, 7), (497, 8), (753, 9), (1265, 10), (2289, 11),
      (4337, 12), (8433, 13), (16625, 24)]

/-- `INS_BASE`, `INS_EXTRA` (R70). -/
def insTable : List (Nat × Nat) :=
  [(0, 0), (1, 0), (2, 0), (3, 0), (4, 0), (5, 0), (6, 1), (8, 1), (10, 2), (14, 2), (18, 3), (26, 3)]
  ++ [(34, 4), (50, 4), (66, 5), (98, 5), (130, 6), (194, 7), (322, 8), (578, 9), (1090, 10), (2114, 12), (6210, 14),
      (22594, 24)]

/-- `CPY_BASE`, `CPY_EXTRA` (R71). -/
def cpyTable : List (Nat × Nat) :=
  [(2, 0), (3, 0), (4, 0), (5, 0), (6, 0), (7, 0), (8, 0), (9, 0), (10, 1), (12, 1), (14, 2), (18, 2)]
  ++ [(22, 3), (30, 3), (38, 4), (54, 4), (70, 5), (102, 5), (134, 6), (198, 7), (326, 8), (582, 9), (1094, 10),
      (2118, 24)]

/-- Base of a table row. -/
def tableBase (t : List (Nat × Nat)) (k : Nat) : Nat := (t.getD k (0, 0)).1

/-- Number of extra bits of a table row. -/
def tableExtra (t : List (Nat × Nat)) (k : Nat) : Nat := (t.getD k (0, 0)).2

/-- `CELLS` (R72): insert-code base, copy-code base, implicit zero distance. -/
def cellTable : List (Nat × Nat × Bool) :=
  [(0, 0, true), (0, 8, true), (0, 0, false), (0, 8, false), (8, 0, false), (8, 8, false), (0, 16, false),
   (16, 0, false), (8, 16, false), (16, 8, false), (16, 16, false)]

/-- `SHORT` (R73): which recent distance, and what is added to it. -/
def shortTable : List (BitVec 2 × Int) :=
  [(1, 0), (2, 0), (3, 0), (0, 0), (1, -1), (1, 1), (1, -2), (1, 2), (1, -3), (1, 3), (2, -1), (2, 1), (2, -2), (2, 2),
   (2, -3), (2, 3)]

/-- `NDBITS[l]` (R74); lengths 0 to 3 have no words. -/
def ndbitsTable : List Nat :=
  [0, 0, 0, 0, 10, 10, 11, 11, 10, 10, 10, 10, 10, 9, 9, 8, 7, 7, 8, 7, 7, 6, 6, 5, 5]

/-- `NDBITS[l]` (R74). -/
def ndbits (l : Nat) : Nat := ndbitsTable.getD l 0

/-- `DOFFSET[l]` (R74): `DOFFSET[4] = 0`, `DOFFSET[l + 1] = DOFFSET[l] + l * 2^NDBITS[l]`. -/
def doffset : Nat → Nat
  | 0 => 0
  | l + 1 => if l < 4 then 0 else doffset l + l * 2 ^ ndbits l

/-- `LUT2` (R75). -/
def lut2 (b : Byte) : Nat :=
  let n := b.toNat
  if n = 0 then 0 else if n < 16 then 1 else if n < 64 then 2 else if n < 128 then 3 else if n < 192 then 4
  else if n < 240 then 5 else if n < 255 then 6 else 7

/-! ### Context ids (R101 to R105) -/

/-- `ContextId(mode, p1, p2)` (R101). -/
def contextId (rom : Rom) (mode : ContextMode) (p1 p2 : Byte) : Nat :=
  match mode with
  | .lsb6 => (p1 &&& 0x3F#8).toNat
  | .msb6 => (p1 >>> 2).toNat
  | .utf8 => ((rom.lut0[p1.toNat]'p1.isLt) ||| (rom.lut1[p2.toNat]'p2.isLt)).toNat
  | .signed => (lut2 p1 <<< 3) ||| lut2 p2

/-! ### Alphabets (R99) and map sizes (R111) -/

/-- `NTREESL` or `NTREESD`. -/
def mapTrees (m : MapSel) (s : State) : Nat :=
  match m with
  | .literal => s.mb.ntreesL
  | .distance => s.mb.ntreesD

/-- The number of entries of a context map (R107, R111). -/
def mapSize (m : MapSel) (s : State) : Nat :=
  match m with
  | .literal => s.mb.lit.numTypes <<< 6
  | .distance => s.mb.dist.numTypes <<< 2

/-- The alphabet of the code being read (R99). -/
def alphabetOf (u : CodeUse) (s : State) : Nat :=
  match u with
  | .btype c => (s.block c).numTypes + 2
  | .bcount _ => Config.bcountAlphabet
  | .cmap m rlemax => mapTrees m s + rlemax
  | .lit => Config.litAlphabet
  | .iac => Config.iacAlphabet
  | .dist => s.mb.distAlphabet

/-! ### Prefix codes (R93 to R95) -/

/-- A length array over `A` symbols that gives the listed symbols their lengths and every other symbol 0 (R93). -/
def listedLens (A : Nat) (syms lens : List Nat) : List Nat :=
  (syms.zip lens).foldl (fun L e => L.set e.1 e.2) (List.replicate A 0)

/-- The length array of `ReadSymbolLengths` (R95): symbols past those read have length 0. -/
def padLens (A : Nat) (lens : List Nat) : List Nat := lens ++ List.replicate (A - lens.length) 0

/-- The start of `ReadCLCode` (R94), after `hskip` entries are skipped. -/
def ClLocals.start (hskip : Nat) : ClLocals := ⟨hskip, List.replicate Config.clAlphabet 0, Config.clSpace, 0⟩

/-- One entry of value `v` in `ReadCLCode` (R94). -/
def ClLocals.take (st : ClLocals) (v : Nat) : ClLocals :=
  { i := st.i + 1
    cl := st.cl.set (clOrder.getD st.i 0) v
    space := if v = 0 then st.space else st.space - (Config.clSpace >>> v : Nat)
    num := if v = 0 then st.num else st.num + 1 }

/-- The loop of R94 is over: the space is filled or overfilled by a non-zero entry, or entry 17 has been read. -/
def ClLocals.finished (st : ClLocals) : Bool := decide (st.space ≤ 0) || decide (18 ≤ st.i)

/-- The code-length code of R94, or `none` where the rule raises `huffman_length_error`. -/
def ClLocals.code (st : ClLocals) : Option Code :=
  if st.num = 1 then some (.single (st.cl.findIdx (fun l => decide (l ≠ 0))))
  else if st.space = 0 then some (.lengths st.cl) else none

/-- The start of `ReadSymbolLengths` (R95). -/
def LenLocals.start : LenLocals := ⟨[], Config.fullSpace, 8, 0, 0⟩

/-- A literal length in `ReadSymbolLengths` (R95). -/
def LenLocals.takeLength (st : LenLocals) (c : Nat) : LenLocals :=
  { lens := st.lens ++ [c]
    space := if c = 0 then st.space else st.space - (Config.fullSpace >>> c : Nat)
    prev := if c = 0 then st.prev else c
    rep := 0
    replen := st.replen }

/-- The new total of the run in a repeat (R95), from the old total `rep`. -/
def repeatTotal (rep shift extra : Nat) : Nat := (if 0 < rep then (rep - 2) <<< shift else rep) + extra + 3

/-- A repeat of length `newlen` in `ReadSymbolLengths` (R95), or `none` where it passes the alphabet. -/
def LenLocals.takeRepeat (st : LenLocals) (A newlen shift extra : Nat) : Option LenLocals :=
  let old := if st.replen = newlen then st.rep else 0
  let rep := repeatTotal old shift extra
  let n := rep - old
  if A < st.lens.length + n then none
  else some
    { lens := st.lens ++ List.replicate n newlen
      space := if newlen = 0 then st.space else st.space - (n <<< (15 - newlen) : Nat)
      prev := st.prev
      rep := rep
      replen := newlen }

/-! ### Context maps (R109) -/

/-- The loop of `InverseMTF(m)` (R109) with the list `mtf`. -/
def inverseMtfFrom : (mtf m : List Nat) → List Nat
  | _, [] => []
  | mtf, k :: rest =>
    let v := mtf.getD k 0
    v :: inverseMtfFrom (v :: mtf.eraseIdx k) rest

/-- `InverseMTF(m)` (R109). -/
def inverseMtf (m : List Nat) : List Nat := inverseMtfFrom (List.range 256) m

/-! ### Distances (R137, R140 to R143) -/

/-- `DistCtx(copy_len)` (R137). -/
def distCtxOf (copyLen : Nat) : Nat := if copyLen ≤ 2 then 0 else if copyLen = 3 then 1 else if copyLen = 4 then 2 else 3

/-- `last(k) + delta` of the short code `d` (R73, R140). -/
def shortDistance (h : DistRing) (d : Nat) : Int :=
  let e := shortTable.getD d (1, 0)
  (h.last e.1 : Int) + e.2

/-- What `distance <- v` leaves in the register (R40, R140): `v`, or the free value where `v` is negative (log 18). -/
def storedDistance (v : Int) : Nat := if v < 0 then (Config.negativeDistance v).toNat else v.toNat

/-- `nbits` of the ranged code `d` (R142). -/
def rangedBits (npostfix ndirect d : Nat) : Nat := 1 + (d - ndirect - 16) >>> (npostfix + 1)

/-- `distance` of the ranged code `d` with its extra bits `x` (R142). -/
def rangedDistance (npostfix ndirect d x : Nat) : Nat :=
  let k := d - ndirect - 16
  let hcode := k >>> npostfix
  let lcode := k % 2 ^ npostfix
  let offset := ((2 + hcode % 2) <<< rangedBits npostfix ndirect d) - 4
  ((offset + x) <<< npostfix) + lcode + ndirect + 1

/-- `maxd = min(pos, max_backward_distance)` (R130, R143). -/
def maxDistance (s : State) : Nat := min s.pos s.maxBackward

/-! ### Dictionary words (R148 to R156) -/

/-- The word `idx` of length `len` in `DICT` (R148). -/
def dictWord (dict : Memory) (len idx : Nat) : List Byte :=
  (List.range len).map fun j => memRead dict (doffset len + idx * len + j)

/-- `Ferment(w, i)` (R154): the word with the character at `i` changed, and the character's length in bytes. -/
def ferment (w : List Byte) (i : Nat) : List Byte × Nat :=
  let b := w.getD i 0
  if b.toNat < 0xC0 then
    (if 0x61 ≤ b.toNat ∧ b.toNat ≤ 0x7A then w.modify i (· ^^^ 0x20#8) else w, 1)
  else if b.toNat < 0xE0 then (w.modify (i + 1) (· ^^^ 0x20#8), 2)
  else (w.modify (i + 2) (· ^^^ 0x05#8), 3)

/-- `UppercaseFirst(w)` (R155). -/
def uppercaseFirst (w : List Byte) : List Byte := if w = [] then w else (ferment w 0).1

/-- The loop of `UppercaseAll(w)` (R156) from byte `i`; every step takes at least one byte, so the word's length bounds
the steps. -/
def uppercaseFrom : (fuel i : Nat) → List Byte → List Byte
  | 0, _, w => w
  | fuel + 1, i, w => if i < w.length then uppercaseFrom fuel (i + (ferment w i).2) (ferment w i).1 else w

/-- `UppercaseAll(w)` (R156). -/
def uppercaseAll (w : List Byte) : List Byte := uppercaseFrom w.length 0 w

/-- The middle part of `Transform` (R150 to R153, R155, R156). -/
def transformWord (kind : Nat) (w : List Byte) : List Byte :=
  if kind = 0 then w
  else if kind ≤ 9 then w.take (w.length - kind)
  else if kind = 10 then uppercaseFirst w
  else if kind = 11 then uppercaseAll w
  else w.drop (kind - 11)

/-- `Transform(word, tid)` (R150) with the entry of `TRANSFORMS`. -/
def applyTransform (t : Transform) (w : List Byte) : List Byte := t.pre ++ transformWord t.kind.val w ++ t.suf

end Sys2Proof.Machine
end

