-- ==== Sys2Proof/Machine/HeaderFlow.lean ====
section
/-! DEFINITION. How the meta-block header goes on after a count, a context map or a prefix code has been read
(R118 to R125): the shared continuations of the header's elements. -/

namespace Sys2Proof.Machine

/-- `block_type <- 0`, `last_block_type <- 1` (R118). -/
def BlockState.newMetaBlock (b : BlockState) : BlockState := { b with blockType := 0, lastBlockType := 1 }

/-- R118: the reset of the meta-block registers before the category fields. The modes, maps and code arrays of the
previous meta-block are discarded (R128, log 17). The command registers, which R42 calls unspecified at a header, keep
the last command's values: the model's choice, log 23. -/
def newMetaBlock (s : State) : State :=
  { s with
    mb := { s.mb with
      lit := s.mb.lit.newMetaBlock
      iac := s.mb.iac.newMetaBlock
      dist := s.mb.dist.newMetaBlock
      contextMode := []
      litMap := []
      distMap := []
      litCode := []
      iacCode := []
      distCode := [] } }

/-- The header's first category field (R120). -/
def enterBlockInfo (s : State) : State := goto (.count (.blockTypes .literal)) (newMetaBlock s)

/-- After all the fields of a category (R120, R122). -/
def nextCategory (c : Cat) (s : State) : State :=
  match c with
  | .literal => goto (.count (.blockTypes .insertCopy)) s
  | .insertCopy => goto (.count (.blockTypes .distance)) s
  | .distance => goto .npostfix s

/-- A context map is complete (R124): after the literal map comes `NTREESD`, after the distance map the code arrays. -/
def storeMap (m : MapSel) (entries : List Nat) (s : State) : State :=
  match m with
  | .literal => goto (.count .treesD) { s with mb := { s.mb with litMap := entries } }
  | .distance => goto (.hskip .lit) { s with mb := { s.mb with distMap := entries } }

/-- `ReadContextMap` up to its first element (R107): one tree gives an all-zero map and reads no bits. -/
def enterMap (m : MapSel) (s : State) : State :=
  if mapTrees m s = 1 then storeMap m (List.replicate (mapSize m s) 0) s else goto (.rleMaxF m) s

/-- After one more entry or run of a context map (R107). -/
def nextMapEntry (m : MapSel) (rlemax : Nat) (code : Code) (acc : List Nat) (s : State) : State :=
  if acc.length < mapSize m s then goto (.mapSym m rlemax code acc) s else goto (.imtf m acc) s

/-- `num_types[c] <- v` (R120): two or more types are followed by the block-type code, one type fixes `block_len`. -/
def storeBlockTypes (c : Cat) (v : Nat) (s : State) : State :=
  if 2 ≤ v then goto (.hskip (.btype c)) (setBlock c { s.block c with numTypes := v } s)
  else nextCategory c (setBlock c { s.block c with numTypes := v, blockLen := Config.hugeBlockLen } s)

/-- The result of `ReadVar256` (R119) goes to its register (R120, R124). -/
def storeCount (u : CountUse) (v : Nat) (s : State) : State :=
  match u with
  | .blockTypes c => storeBlockTypes c v s
  | .treesL => enterMap .literal { s with mb := { s.mb with ntreesL := v } }
  | .treesD => enterMap .distance { s with mb := { s.mb with ntreesD := v } }

/-- The result of `ReadBlockCount` (R121): in the header the next category follows (R120), after a block switch the
symbol that was waiting for it (R132, R133). -/
def storeBlockLen (c : Cat) (switch : Bool) (len : Nat) (s : State) : State :=
  let s' := setBlock c { s.block c with blockLen := len } s
  if switch then goto (symCtl c) s' else nextCategory c s'

/-- The result of `ReadCode` goes to its register, and the header goes on (R107, R120, R125). -/
def storeCode (u : CodeUse) (code : Code) (s : State) : State :=
  match u with
  | .btype c => goto (.hskip (.bcount c)) (setBlock c { s.block c with btypeCode := code } s)
  | .bcount c => goto (.bcount c false) (setBlock c { s.block c with bcountCode := code } s)
  | .cmap m rlemax => goto (.mapSym m rlemax code []) s
  | .lit =>
    let s' := { s with mb := { s.mb with litCode := s.mb.litCode ++ [code] } }
    if s'.mb.litCode.length < s.mb.ntreesL then goto (.hskip .lit) s' else goto (.hskip .iac) s'
  | .iac =>
    let s' := { s with mb := { s.mb with iacCode := s.mb.iacCode ++ [code] } }
    if s'.mb.iacCode.length < s.mb.iac.numTypes then goto (.hskip .iac) s' else goto (.hskip .dist) s'
  | .dist =>
    let s' := { s with mb := { s.mb with distCode := s.mb.distCode ++ [code] } }
    if s'.mb.distCode.length < s.mb.ntreesD then goto (.hskip .dist) s' else nextCommand s'

/-- The test of R95's loop, and the check after it: the lengths fill the space exactly, or `huffman_length_error`. -/
def nextLength (u : CodeUse) (code : Code) (st : LenLocals) (s : State) : State :=
  if st.lens.length < alphabetOf u s ∧ 0 < st.space then goto (.clSym u code st) s
  else if st.space = 0 then storeCode u (.lengths (padLens (alphabetOf u s) st.lens)) s
  else raise .huffmanLengthError s

end Sys2Proof.Machine
end

