-- ==== Sys2Proof/Machine/BlockSwitch.lean ====
section
/-! DEFINITION. Block switches and block counts (R121, R132): the block-type symbols, BCOUNT and BEXTRA. -/

namespace Sys2Proof.Machine

/-- `t` reduced by `num_types` when it equals or exceeds it (R132). -/
def reduceType (num t : Nat) : Nat := if num ≤ t then t - num else t

/-- `last_block_type <- block_type`, `block_type <- t` (R132), then the block count. -/
def switchType (c : Cat) (t : Nat) (s : State) : State :=
  let b := s.block c
  goto (.bcount c true)
    (setBlock c { b with lastBlockType := b.blockType, blockType := reduceType b.numTypes t } s)

/-- BTYPE_LAST (R132): code 0 selects the last block type. -/
def execBtypeLast (n : Nat) (s : State) : Answer :=
  match s.ctl with
  | .btype c => dropThen n s fun s => .next (switchType c (s.block c).lastBlockType s)
  | _ => .refused .offGrammar

/-- BTYPE_NEXT (R132): code 1 selects the current type plus 1. -/
def execBtypeNext (n : Nat) (s : State) : Answer :=
  match s.ctl with
  | .btype c => dropThen n s fun s => .next (switchType c ((s.block c).blockType + 1) s)
  | _ => .refused .offGrammar

/-- BTYPE_EXPLICIT (R132): a code `k >= 2` selects type `k - 2`. -/
def execBtypeExplicit (n k : Nat) (s : State) : Answer :=
  match s.ctl with
  | .btype c => dropThen n s fun s => .next (switchType c (k - 2) s)
  | _ => .refused .offGrammar

/-- BCOUNT (R121): the block-count symbol; its extra bits follow. -/
def execBcount (n k : Nat) (s : State) : Answer :=
  match s.ctl with
  | .bcount c switch => dropThen n s fun s => .next (goto (.bextra c switch k) s)
  | _ => .refused .offGrammar

/-- BEXTRA (R69, R121): `block_len <- BLEN_BASE[s] + BEXTRA`. -/
def execBextra (x : Nat) (s : State) : Answer :=
  match s.ctl with
  | .bextra c switch k =>
    dropThen (tableExtra blenTable k) s fun s => .next (storeBlockLen c switch (tableBase blenTable k + x) s)
  | _ => .refused .offGrammar

end Sys2Proof.Machine
end

