-- ==== Sys2Proof/Machine/Command.lean ====
section
/-! DEFINITION. The insert-and-copy command up to its distance (R130, R131, R134, R135): the command symbols, IEXTRA,
CEXTRA and LITERAL. -/

namespace Sys2Proof.Machine

/-- An insert-and-copy symbol of a cell (R72, R130, R131, R133): count it, note whether the distance is the implicit
zero, and go on to the extra bits of its insert and copy codes. -/
def takeCommand (cell n : Nat) (ioff coff : BitVec 3) (s : State) : Answer :=
  match s.ctl with
  | .iac =>
    dropThen n (countDown .insertCopy s) fun s =>
      let e := cellTable.getD cell (0, 0, false)
      .next (goto (.iextra (e.1 + ioff.toNat) (e.2.1 + coff.toNat)) (setCmd { s.cmd with implicit0 := e.2.2 } s))
  | _ => .refused .offGrammar

/-- IAC_CELL0 (R72, R131). -/
def execIacCell0 (n : Nat) (ioff coff : BitVec 3) (s : State) : Answer := takeCommand 0 n ioff coff s
/-- IAC_CELL1 (R72, R131). -/
def execIacCell1 (n : Nat) (ioff coff : BitVec 3) (s : State) : Answer := takeCommand 1 n ioff coff s
/-- IAC_CELL2 (R72, R131). -/
def execIacCell2 (n : Nat) (ioff coff : BitVec 3) (s : State) : Answer := takeCommand 2 n ioff coff s
/-- IAC_CELL3 (R72, R131). -/
def execIacCell3 (n : Nat) (ioff coff : BitVec 3) (s : State) : Answer := takeCommand 3 n ioff coff s
/-- IAC_CELL4 (R72, R131). -/
def execIacCell4 (n : Nat) (ioff coff : BitVec 3) (s : State) : Answer := takeCommand 4 n ioff coff s
/-- IAC_CELL5 (R72, R131). -/
def execIacCell5 (n : Nat) (ioff coff : BitVec 3) (s : State) : Answer := takeCommand 5 n ioff coff s
/-- IAC_CELL6 (R72, R131). -/
def execIacCell6 (n : Nat) (ioff coff : BitVec 3) (s : State) : Answer := takeCommand 6 n ioff coff s
/-- IAC_CELL7 (R72, R131). -/
def execIacCell7 (n : Nat) (ioff coff : BitVec 3) (s : State) : Answer := takeCommand 7 n ioff coff s
/-- IAC_CELL8 (R72, R131). -/
def execIacCell8 (n : Nat) (ioff coff : BitVec 3) (s : State) : Answer := takeCommand 8 n ioff coff s
/-- IAC_CELL9 (R72, R131). -/
def execIacCell9 (n : Nat) (ioff coff : BitVec 3) (s : State) : Answer := takeCommand 9 n ioff coff s
/-- IAC_CELL10 (R72, R131). -/
def execIacCell10 (n : Nat) (ioff coff : BitVec 3) (s : State) : Answer := takeCommand 10 n ioff coff s

/-- IEXTRA (R70, R130): `insert_len <- INS_BASE[icode] + IEXTRA`. -/
def execIextra (x : Nat) (s : State) : Answer :=
  match s.ctl with
  | .iextra icode ccode =>
    dropThen (tableExtra insTable icode) s fun s =>
      .next (goto (.cextra ccode) (setCmd { s.cmd with insertLen := tableBase insTable icode + x } s))
  | _ => .refused .offGrammar

/-- CEXTRA (R71, R130): `copy_len <- CPY_BASE[ccode] + CEXTRA`, then the literals. -/
def execCextra (x : Nat) (s : State) : Answer :=
  match s.ctl with
  | .cextra ccode =>
    dropThen (tableExtra cpyTable ccode) s fun s =>
      .next (nextInsert (setCmd { s.cmd with copyLen := tableBase cpyTable ccode + x } s))
  | _ => .refused .offGrammar

/-- One literal less to insert (R40, R134): the register itself counts (log 24). -/
def countLiteral (s : State) : State := setCmd { s.cmd with insertLen := s.cmd.insertLen - 1 } s

/-- LITERAL (R133, R134, R135): count it, read it, output it. -/
def execLiteral (n : Nat) (b : Byte) (s : State) : Answer :=
  match s.ctl with
  | .lit =>
    dropThen n (countDown .literal s) fun s => emitThen b s fun s => .next (nextInsert (countLiteral s))
  | _ => .refused .offGrammar

end Sys2Proof.Machine
end

