-- ==== Sys2Proof/Machine/ContextMap.lean ====
section
/-! DEFINITION. The elements of a context map (R107 to R109): RLEMAXF, RLEMAXM1, the map symbols, RUNX and IMTF. -/

namespace Sys2Proof.Machine

/-- RLEMAXF_0 (R107): no runs. -/
def execRleMaxF0 (s : State) : Answer :=
  match s.ctl with
  | .rleMaxF m => dropThen 1 s fun s => .next (goto (.hskip (.cmap m 0)) s)
  | _ => .refused .offGrammar

/-- RLEMAXF_1 (R107): RLEMAXM1 follows. -/
def execRleMaxF1 (s : State) : Answer :=
  match s.ctl with
  | .rleMaxF m => dropThen 1 s fun s => .next (goto (.rleMaxM1 m) s)
  | _ => .refused .offGrammar

/-- RLEMAXM1 (R107): `RLEMAX = v + 1`. -/
def execRleMaxM1 (v : BitVec 4) (s : State) : Answer :=
  match s.ctl with
  | .rleMaxM1 m => dropThen 4 s fun s => .next (goto (.hskip (.cmap m (v.toNat + 1))) s)
  | _ => .refused .offGrammar

/-- CMAP_ZERO (R108): one entry 0. -/
def execCmapZero (n : Nat) (s : State) : Answer :=
  match s.ctl with
  | .mapSym m rlemax code acc => dropThen n s fun s => .next (nextMapEntry m rlemax code (acc ++ [0]) s)
  | _ => .refused .offGrammar

/-- CMAP_RUN (R108): a run of zeros; its RUNX follows. -/
def execCmapRun (n k : Nat) (s : State) : Answer :=
  match s.ctl with
  | .mapSym m rlemax code acc => dropThen n s fun s => .next (goto (.mapRun m rlemax code acc k) s)
  | _ => .refused .offGrammar

/-- CMAP_VALUE (R108): one entry `s - RLEMAX`. -/
def execCmapValue (n k : Nat) (s : State) : Answer :=
  match s.ctl with
  | .mapSym m rlemax code acc =>
    dropThen n s fun s => .next (nextMapEntry m rlemax code (acc ++ [k - rlemax]) s)
  | _ => .refused .offGrammar

/-- RUNX (R107, R108): `(1 << s) + RUNX` zeros, or `context_map_error` when they would pass the map's size; the
check comes before any zero is stored. -/
def execRunx (x : Nat) (s : State) : Answer :=
  match s.ctl with
  | .mapRun m rlemax code acc k =>
    dropThen k s fun s =>
      let run := 2 ^ k + x
      .next (if mapSize m s < acc.length + run then raise .contextMapError s
             else nextMapEntry m rlemax code (acc ++ List.replicate run 0) s)
  | _ => .refused .offGrammar

/-- IMTF_0 (R107): the map is used as read. -/
def execImtf0 (s : State) : Answer :=
  match s.ctl with
  | .imtf m acc => dropThen 1 s fun s => .next (storeMap m acc s)
  | _ => .refused .offGrammar

/-- IMTF_1 (R107, R109): inverse move-to-front over the whole map. -/
def execImtf1 (s : State) : Answer :=
  match s.ctl with
  | .imtf m acc => dropThen 1 s fun s => .next (storeMap m (inverseMtf acc) s)
  | _ => .refused .offGrammar

end Sys2Proof.Machine
end

