-- ==== Sys2Proof/Machine/Count.lean ====
section
/-! DEFINITION. VAR256 and VX: the 1..256 counts (R119). -/

namespace Sys2Proof.Machine

/-- VAR256_1 (R119): the value 1. -/
def execVar256One (s : State) : Answer :=
  match s.ctl with
  | .count u => dropThen 1 s fun s => .next (storeCount u 1 s)
  | _ => .refused .offGrammar

/-- VAR256_2 (R119): the value 2. -/
def execVar256Two (s : State) : Answer :=
  match s.ctl with
  | .count u => dropThen 1 s fun s => dropThen 3 s fun s => .next (storeCount u 2 s)
  | _ => .refused .offGrammar

/-- VAR256_3_256 (R119): `V0 = 1` and `V1 != 0`; the `V1` bits of VX are the next element (log 11). -/
def execVar256More (v1 : BitVec 3) (s : State) : Answer :=
  match s.ctl with
  | .count u => dropThen 1 s fun s => dropThen 3 s fun s => .next (goto (.countX u v1.toNat) s)
  | _ => .refused .offGrammar

/-- VX (R119): the value is `(1 << V1) + VX + 1`. -/
def execVx (x : Nat) (s : State) : Answer :=
  match s.ctl with
  | .countX u v1 => dropThen v1 s fun s => .next (storeCount u (2 ^ v1 + x + 1) s)
  | _ => .refused .offGrammar

end Sys2Proof.Machine
end

