-- ==== Sys2Proof/Machine/Distance.lean ====
section
/-! DEFINITION. The distance symbols and DEXTRA (R138 to R142). The back-reference or dictionary word that the distance
names is `finishCommand` (Machine/Finish.lean), the step at the control point `copy`. -/

namespace Sys2Proof.Machine

/-- What every explicit distance symbol `d` does before its distance is computed (R133, R137, R138): count it, set
`dist_ctx`, read it, set `dcode`. -/
def takeDistance (n d : Nat) (s : State) (k : State → Answer) : Answer :=
  match s.ctl with
  | .dist =>
    let s1 := countDown .distance s
    dropThen n (setCmd { s1.cmd with distCtx := distCtxOf s1.cmd.copyLen } s1) fun s =>
      k (setCmd { s.cmd with dcode := d } s)
  | _ => .refused .offGrammar

/-- `distance <- d` (R40, R138). -/
def writeDistance (d : Nat) (s : State) : State := setCmd { s.cmd with distance := d } s

/-- `distance <- d`; the command's copy comes next. -/
def setDistance (d : Nat) (s : State) : State := goto .copy (writeDistance d s)

/-- The short code `d` (R73, R140): `distance` is written before its check, and a result of 0 or below raises
`syntax_error` with the write in place (R161). -/
def takeShort (n d : Nat) (s : State) : Answer :=
  takeDistance n d s fun s =>
    let v := shortDistance s.hist d
    .next (if v ≤ 0 then raise .syntaxError (writeDistance (storedDistance v) s) else setDistance (storedDistance v) s)

/-- DIST_SHORT_0 (R73, R140). -/
def execDistShort0 (n : Nat) (s : State) : Answer := takeShort n 0 s
/-- DIST_SHORT_1 (R73, R140). -/
def execDistShort1 (n : Nat) (s : State) : Answer := takeShort n 1 s
/-- DIST_SHORT_2 (R73, R140). -/
def execDistShort2 (n : Nat) (s : State) : Answer := takeShort n 2 s
/-- DIST_SHORT_3 (R73, R140). -/
def execDistShort3 (n : Nat) (s : State) : Answer := takeShort n 3 s
/-- DIST_SHORT_4 (R73, R140). -/
def execDistShort4 (n : Nat) (s : State) : Answer := takeShort n 4 s
/-- DIST_SHORT_5 (R73, R140). -/
def execDistShort5 (n : Nat) (s : State) : Answer := takeShort n 5 s
/-- DIST_SHORT_6 (R73, R140). -/
def execDistShort6 (n : Nat) (s : State) : Answer := takeShort n 6 s
/-- DIST_SHORT_7 (R73, R140). -/
def execDistShort7 (n : Nat) (s : State) : Answer := takeShort n 7 s
/-- DIST_SHORT_8 (R73, R140). -/
def execDistShort8 (n : Nat) (s : State) : Answer := takeShort n 8 s
/-- DIST_SHORT_9 (R73, R140). -/
def execDistShort9 (n : Nat) (s : State) : Answer := takeShort n 9 s
/-- DIST_SHORT_10 (R73, R140). -/
def execDistShort10 (n : Nat) (s : State) : Answer := takeShort n 10 s
/-- DIST_SHORT_11 (R73, R140). -/
def execDistShort11 (n : Nat) (s : State) : Answer := takeShort n 11 s
/-- DIST_SHORT_12 (R73, R140). -/
def execDistShort12 (n : Nat) (s : State) : Answer := takeShort n 12 s
/-- DIST_SHORT_13 (R73, R140). -/
def execDistShort13 (n : Nat) (s : State) : Answer := takeShort n 13 s
/-- DIST_SHORT_14 (R73, R140). -/
def execDistShort14 (n : Nat) (s : State) : Answer := takeShort n 14 s
/-- DIST_SHORT_15 (R73, R140). -/
def execDistShort15 (n : Nat) (s : State) : Answer := takeShort n 15 s

/-- DIST_DIRECT (R141): `distance <- dcode - 15`. -/
def execDistDirect (n d : Nat) (s : State) : Answer := takeDistance n d s fun s => .next (setDistance (d - 15) s)

/-- DIST_RANGED (R142): its extra bits follow. -/
def execDistRanged (n d : Nat) (s : State) : Answer := takeDistance n d s fun s => .next (goto .dextra s)

/-- DEXTRA (R142): the ranged distance. -/
def execDextra (x : Nat) (s : State) : Answer :=
  match s.ctl with
  | .dextra =>
    dropThen (rangedBits s.mb.npostfix s.mb.ndirect s.cmd.dcode) s fun s =>
      .next (setDistance (rangedDistance s.mb.npostfix s.mb.ndirect s.cmd.dcode x) s)
  | _ => .refused .offGrammar

end Sys2Proof.Machine
end

