-- ==== Sys2Proof/Machine/Header.lean ====
section
/-! DEFINITION. MBH: the meta-block header's first fields (R114 to R117). -/

namespace Sys2Proof.Machine

/-- ISLAST_0 (R114). -/
def execIsLast0 (s : State) : Answer :=
  match s.ctl with
  | .isLast => dropThen 1 s fun s => .next (goto .mnibbles (setIsLast false s))
  | _ => .refused .offGrammar

/-- ISLAST_1 (R114). -/
def execIsLast1 (s : State) : Answer :=
  match s.ctl with
  | .isLast => dropThen 1 s fun s => .next (goto .isLastEmpty (setIsLast true s))
  | _ => .refused .offGrammar

/-- ISLASTEMPTY_0 (R114): `MNIBBLES` follows. -/
def execIsLastEmpty0 (s : State) : Answer :=
  match s.ctl with
  | .isLastEmpty => dropThen 1 s fun s => .next (goto .mnibbles s)
  | _ => .refused .offGrammar

/-- ISLASTEMPTY_1 (R112, R114): the stream ends with the padding check. -/
def execIsLastEmpty1 (s : State) : Answer :=
  match s.ctl with
  | .isLastEmpty => dropThen 1 s fun s => .next (goto .pad s)
  | _ => .refused .offGrammar

/-- MNIBBLES 0, 1, 2: the length has `nibbles` nibbles (R115, R116). -/
def startMlen (nibbles : Nat) (s : State) : Answer :=
  match s.ctl with
  | .mnibbles => dropThen 2 s fun s => .next (goto (.mlenNib 0 nibbles 0) s)
  | _ => .refused .offGrammar

/-- MNIBBLES_4 (R115). -/
def execMnibbles4 (s : State) : Answer := startMlen 4 s
/-- MNIBBLES_5 (R115). -/
def execMnibbles5 (s : State) : Answer := startMlen 5 s
/-- MNIBBLES_6 (R115). -/
def execMnibbles6 (s : State) : Answer := startMlen 6 s

/-- MNIBBLES_RESERVED (R115, R76 row 2): a metadata meta-block is rejected with `syntax_error`. -/
def execMnibblesReserved (s : State) : Answer :=
  match s.ctl with
  | .mnibbles => dropThen 2 s fun s => .next (raise .syntaxError s)
  | _ => .refused .offGrammar

/-- `mlen <- v + 1`, `mb_end <- pos + mlen` (R116); a last meta-block has no `ISUNCOMPRESSED` (R117). -/
def storeMlen (v : Nat) (s : State) : State :=
  let s' := { s with mb := { s.mb with mlen := v + 1, mbEnd := s.pos + (v + 1) } }
  if s.mb.isLast then enterBlockInfo s' else goto .isUncompressed s'

/-- MLENNIB (R116): nibble `i` adds `x << 4i`; the last one completes `MLEN`. -/
def execMlenNib (nib : BitVec 4) (s : State) : Answer :=
  match s.ctl with
  | .mlenNib i nibbles v =>
    dropThen 4 s fun s =>
      let v' := v + nib.toNat <<< (4 * i)
      .next (if i + 1 < nibbles then goto (.mlenNib (i + 1) nibbles v') s else storeMlen v' s)
  | _ => .refused .offGrammar

/-- MLENNIB_LAST_ZERO (R116, R76 row 3): a zero last nibble of a 5- or 6-nibble length. -/
def execMlenNibLastZero (s : State) : Answer :=
  match s.ctl with
  | .mlenNib _ _ _ => dropThen 4 s fun s => .next (raise .syntaxError s)
  | _ => .refused .offGrammar

/-- ISUNCOMPRESSED_0 (R117, R118). -/
def execIsUncompressed0 (s : State) : Answer :=
  match s.ctl with
  | .isUncompressed => dropThen 1 s fun s => .next (enterBlockInfo s)
  | _ => .refused .offGrammar

/-- ISUNCOMPRESSED_1 (R117, R76 row 4): an uncompressed meta-block is rejected with `syntax_error`. -/
def execIsUncompressed1 (s : State) : Answer :=
  match s.ctl with
  | .isUncompressed => dropThen 1 s fun s => .next (raise .syntaxError s)
  | _ => .refused .offGrammar

end Sys2Proof.Machine
end

