-- ==== Sys2Proof/Machine/Padding.lean ====
section
/-! DEFINITION. PAD: the padding check after the last meta-block, and the end of the decode (R127, R162). -/

namespace Sys2Proof.Machine

/-- The number of padding bits (R127). -/
def padWidth (s : State) : Nat := (8 - s.bitpos % 8) % 8

/-- PAD_ZERO (R127, R162): the padding is zero, so the decode ends cleanly. -/
def execPadZero (s : State) : Answer :=
  match s.ctl with
  | .pad => dropThen (padWidth s) s fun s => .next (terminate s)
  | _ => .refused .offGrammar

/-- PAD_NONZERO (R127, R76 row 14): `syntax_error` after the bits are read. -/
def execPadNonzero (_v : Nat) (s : State) : Answer :=
  match s.ctl with
  | .pad => dropThen (padWidth s) s fun s => .next (raise .syntaxError s)
  | _ => .refused .offGrammar

end Sys2Proof.Machine
end

