-- ==== Sys2Proof/Machine/Param.lean ====
section
/-! DEFINITION. PARAM: the distance parameters and the context modes (R122, R123). -/

namespace Sys2Proof.Machine

/-- NPOSTFIX (R122). -/
def execNpostfix (v : BitVec 2) (s : State) : Answer :=
  match s.ctl with
  | .npostfix => dropThen 2 s fun s => .next (goto .ndirectf { s with mb := { s.mb with npostfix := v.toNat } })
  | _ => .refused .offGrammar

/-- `ndirect <- v << npostfix`, `dist_alphabet <- 16 + ndirect + (48 << npostfix)` (R122). -/
def setDirect (v : Nat) (s : State) : State :=
  let nd := v <<< s.mb.npostfix
  { s with mb := { s.mb with ndirect := nd, distAlphabet := 16 + nd + 48 <<< s.mb.npostfix } }

/-- NDIRECTF (R122). -/
def execNdirectf (v : BitVec 4) (s : State) : Answer :=
  match s.ctl with
  | .ndirectf => dropThen 4 s fun s => .next (goto .cmode (setDirect v.toNat s))
  | _ => .refused .offGrammar

/-- One context mode (R123); after `num_types[0]` of them comes `NTREESL` (R124). -/
def takeMode (m : ContextMode) (s : State) : Answer :=
  match s.ctl with
  | .cmode =>
    dropThen 2 s fun s =>
      let s' := { s with mb := { s.mb with contextMode := s.mb.contextMode ++ [m] } }
      .next (goto (if s'.mb.contextMode.length < s.mb.lit.numTypes then .cmode else .count .treesL) s')
  | _ => .refused .offGrammar

/-- CMODE_LSB6 (R100, R123). -/
def execCmodeLsb6 (s : State) : Answer := takeMode .lsb6 s
/-- CMODE_MSB6 (R100, R123). -/
def execCmodeMsb6 (s : State) : Answer := takeMode .msb6 s
/-- CMODE_UTF8 (R100, R123). -/
def execCmodeUtf8 (s : State) : Answer := takeMode .utf8 s
/-- CMODE_SIGNED (R100, R123). -/
def execCmodeSigned (s : State) : Answer := takeMode .signed s

end Sys2Proof.Machine
end

