-- ==== Sys2Proof/Machine/PrefixCode.lean ====
section
/-! DEFINITION. The elements of a prefix-code definition (R92 to R97): HSKIP, NSYMM1, SYMBOL, TREESEL, the CLEN entries,
the code-length symbols and their repeat fields. -/

namespace Sys2Proof.Machine

/-- HSKIP_SIMPLE (R92). -/
def execHskipSimple (s : State) : Answer :=
  match s.ctl with
  | .hskip u => dropThen 2 s fun s => .next (goto (.nsymm1 u) s)
  | _ => .refused .offGrammar

/-- A complex code whose first `hskip` code-length entries are skipped (R92, R94). -/
def startComplex (hskip : Nat) (s : State) : Answer :=
  match s.ctl with
  | .hskip u => dropThen 2 s fun s => .next (goto (.clen u (ClLocals.start hskip)) s)
  | _ => .refused .offGrammar

/-- HSKIP_COMPLEX_0 (R92). -/
def execHskipComplex0 (s : State) : Answer := startComplex 0 s
/-- HSKIP_COMPLEX_2 (R92). -/
def execHskipComplex2 (s : State) : Answer := startComplex 2 s
/-- HSKIP_COMPLEX_3 (R92). -/
def execHskipComplex3 (s : State) : Answer := startComplex 3 s

/-- A simple code of `nsym` symbols (R93). -/
def startSimple (nsym : Nat) (s : State) : Answer :=
  match s.ctl with
  | .nsymm1 u => dropThen 2 s fun s => .next (goto (.symbol u nsym [] false) s)
  | _ => .refused .offGrammar

/-- NSYMM1_1 (R93). -/
def execNsymm1One (s : State) : Answer := startSimple 1 s
/-- NSYMM1_2 (R93). -/
def execNsymm1Two (s : State) : Answer := startSimple 2 s
/-- NSYMM1_3 (R93). -/
def execNsymm1Three (s : State) : Answer := startSimple 3 s
/-- NSYMM1_4 (R93). -/
def execNsymm1Four (s : State) : Answer := startSimple 4 s

/-- The length array of a simple code (R93). -/
def simpleCode (u : CodeUse) (syms lens : List Nat) (s : State) : State :=
  storeCode u (.lengths (listedLens (alphabetOf u s) syms lens)) s

/-- After all symbols of a simple code have been read (R93): an invalid one among them raises
`huffman_length_error`; four symbols are followed by TREESEL. -/
def finishSymbols (u : CodeUse) (syms : List Nat) (bad : Bool) (s : State) : State :=
  if bad then raise .huffmanLengthError s
  else match syms with
    | [a] => storeCode u (.single a) s
    | [_, _] => simpleCode u syms [1, 1] s
    | [_, _, _] => simpleCode u syms [1, 2, 2] s
    | _ => goto (.treeSel u syms) s

/-- One SYMBOL field (R93); `invalid` says that its row is SYMBOL_INVALID. The check of R93 comes after the last
symbol, so an invalid one is only remembered (log 19). -/
def takeSymbol (invalid : Bool) (v : Nat) (s : State) : Answer :=
  match s.ctl with
  | .symbol u nsym syms bad =>
    dropThen (ab (alphabetOf u s)) s fun s =>
      let syms' := syms ++ [v]
      let bad' := bad || invalid
      .next (if syms'.length < nsym then goto (.symbol u nsym syms' bad') s else finishSymbols u syms' bad' s)
  | _ => .refused .offGrammar

/-- SYMBOL (R93): below the alphabet and distinct from the earlier ones. -/
def execSymbol (v : Nat) (s : State) : Answer := takeSymbol false v s
/-- SYMBOL_INVALID (R93, R76 row 5): outside the alphabet, or equal to an earlier one. -/
def execSymbolInvalid (v : Nat) (s : State) : Answer := takeSymbol true v s

/-- TREESEL (R93): the lengths of the four listed symbols. -/
def selectTree (lens : List Nat) (s : State) : Answer :=
  match s.ctl with
  | .treeSel u syms => dropThen 1 s fun s => .next (simpleCode u syms lens s)
  | _ => .refused .offGrammar

/-- TREESEL_0 (R93). -/
def execTreeSel0 (s : State) : Answer := selectTree [2, 2, 2, 2] s
/-- TREESEL_1 (R93). -/
def execTreeSel1 (s : State) : Answer := selectTree [1, 2, 3, 3] s

/-- What follows an entry of the code-length code (R94): another entry, the symbol lengths, or the error. -/
def nextClEntry (u : CodeUse) (st : ClLocals) (s : State) : State :=
  if st.finished then
    match st.code with
    | some code => nextLength u code LenLocals.start s
    | none => raise .huffmanLengthError s
  else goto (.clen u st) s

/-- A code-length entry of value `v` whose fixed codeword takes `n` bits (R68, R94). -/
def takeClen (n v : Nat) (s : State) : Answer :=
  match s.ctl with
  | .clen u st => dropThen n s fun s => .next (nextClEntry u (st.take v) s)
  | _ => .refused .offGrammar

/-- CLEN_0 (R68): `00`. -/
def execClen0 (s : State) : Answer := takeClen 2 0 s
/-- CLEN_3 (R68): `01`. -/
def execClen3 (s : State) : Answer := takeClen 2 3 s
/-- CLEN_4 (R68): `10`. -/
def execClen4 (s : State) : Answer := takeClen 2 4 s
/-- CLEN_2 (R68): `110`. -/
def execClen2 (s : State) : Answer := takeClen 3 2 s
/-- CLEN_1 (R68): `1110`. -/
def execClen1 (s : State) : Answer := takeClen 4 1 s
/-- CLEN_5 (R68): `1111`. -/
def execClen5 (s : State) : Answer := takeClen 4 5 s

/-- CL_LENGTH (R95): the next symbol's length. -/
def execClLength (n : Nat) (c : BitVec 4) (s : State) : Answer :=
  match s.ctl with
  | .clSym u code st => dropThen n s fun s => .next (nextLength u code (st.takeLength c.toNat) s)
  | _ => .refused .offGrammar

/-- CL_REPEAT_PREV (R95): R16 follows. -/
def execClRepeatPrev (n : Nat) (s : State) : Answer :=
  match s.ctl with
  | .clSym u code st => dropThen n s fun s => .next (goto (.rep16 u code st) s)
  | _ => .refused .offGrammar

/-- CL_REPEAT_ZERO (R95): R17 follows. -/
def execClRepeatZero (n : Nat) (s : State) : Answer :=
  match s.ctl with
  | .clSym u code st => dropThen n s fun s => .next (goto (.rep17 u code st) s)
  | _ => .refused .offGrammar

/-- A repeat of length `newlen` with its extra bits (R95): past the alphabet it raises `huffman_length_error`. -/
def applyRepeat (u : CodeUse) (code : Code) (st : LenLocals) (newlen shift extra : Nat) (s : State) : State :=
  match st.takeRepeat (alphabetOf u s) newlen shift extra with
  | some st' => nextLength u code st' s
  | none => raise .huffmanLengthError s

/-- R16 (R95): repeat the previous non-zero length. -/
def execR16 (x : BitVec 2) (s : State) : Answer :=
  match s.ctl with
  | .rep16 u code st => dropThen 2 s fun s => .next (applyRepeat u code st st.prev 2 x.toNat s)
  | _ => .refused .offGrammar

/-- R17 (R95): repeat the length 0. -/
def execR17 (x : BitVec 3) (s : State) : Answer :=
  match s.ctl with
  | .rep17 u code st => dropThen 3 s fun s => .next (applyRepeat u code st 0 3 x.toNat s)
  | _ => .refused .offGrammar

end Sys2Proof.Machine
end

