-- ==== Sys2Proof/Machine/Window.lean ====
section
/-! DEFINITION. WIN: the stream header's window field (R113). Its bits are dropped one tier at a time. -/

namespace Sys2Proof.Machine

/-- `wbits <- w`, `max_backward_distance <- (1 << w) - 16` (R29, R113), then the first meta-block header. -/
def setWindow (w : Nat) (s : State) : State :=
  goto .isLast { s with wbits := w, maxBackward := 2 ^ w - 16 }

/-- WIN_16 (R113): `WB0 = 0` gives 16. -/
def execWin16 (s : State) : Answer :=
  match s.ctl with
  | .window => dropThen 1 s fun s => .next (setWindow 16 s)
  | _ => .refused .offGrammar

/-- WIN_17_24 (R113): `WB1 != 0` gives `17 + WB1`. -/
def execWin17to24 (wb1 : BitVec 3) (s : State) : Answer :=
  match s.ctl with
  | .window => dropThen 1 s fun s => dropThen 3 s fun s => .next (setWindow (17 + wb1.toNat) s)
  | _ => .refused .offGrammar

/-- WIN_17 (R113): `WB1 = 0`, `WB2 = 0` gives 17. -/
def execWin17 (s : State) : Answer :=
  match s.ctl with
  | .window => dropThen 1 s fun s => dropThen 3 s fun s => dropThen 3 s fun s => .next (setWindow 17 s)
  | _ => .refused .offGrammar

/-- WIN_RESERVED (R113, R76 row 1): `syntax_error` after the seventh bit. -/
def execWinReserved (s : State) : Answer :=
  match s.ctl with
  | .window => dropThen 1 s fun s => dropThen 3 s fun s => dropThen 3 s fun s => .next (raise .syntaxError s)
  | _ => .refused .offGrammar

/-- WIN_10_15 (R113): `WB2 >= 2` gives `8 + WB2`. -/
def execWin10to15 (wb2 : BitVec 3) (s : State) : Answer :=
  match s.ctl with
  | .window =>
    dropThen 1 s fun s => dropThen 3 s fun s => dropThen 3 s fun s => .next (setWindow (8 + wb2.toNat) s)
  | _ => .refused .offGrammar

end Sys2Proof.Machine
end

