-- ==== Sys2Proof/Machine/Dispatch.lean ====
section
/-! DEFINITION. The dispatch: one arm per constructor of `Instr`. -/

namespace Sys2Proof.Machine

def exec (i : Instr) (s : State) : Host.Outcome State Fault Refusal :=
  match i with
  | .win16 => Sys2Proof.Machine.execWin16 s
  | .win17to24 wb1 => Sys2Proof.Machine.execWin17to24 wb1 s
  | .win17 => Sys2Proof.Machine.execWin17 s
  | .winReserved => Sys2Proof.Machine.execWinReserved s
  | .win10to15 wb2 => Sys2Proof.Machine.execWin10to15 wb2 s
  | .isLast0 => Sys2Proof.Machine.execIsLast0 s
  | .isLast1 => Sys2Proof.Machine.execIsLast1 s
  | .isLastEmpty0 => Sys2Proof.Machine.execIsLastEmpty0 s
  | .isLastEmpty1 => Sys2Proof.Machine.execIsLastEmpty1 s
  | .mnibbles4 => Sys2Proof.Machine.execMnibbles4 s
  | .mnibbles5 => Sys2Proof.Machine.execMnibbles5 s
  | .mnibbles6 => Sys2Proof.Machine.execMnibbles6 s
  | .mnibblesReserved => Sys2Proof.Machine.execMnibblesReserved s
  | .mlenNib nib => Sys2Proof.Machine.execMlenNib nib s
  | .mlenNibLastZero => Sys2Proof.Machine.execMlenNibLastZero s
  | .isUncompressed0 => Sys2Proof.Machine.execIsUncompressed0 s
  | .isUncompressed1 => Sys2Proof.Machine.execIsUncompressed1 s
  | .var256One => Sys2Proof.Machine.execVar256One s
  | .var256Two => Sys2Proof.Machine.execVar256Two s
  | .var256More v1 => Sys2Proof.Machine.execVar256More v1 s
  | .npostfix v => Sys2Proof.Machine.execNpostfix v s
  | .ndirectf v => Sys2Proof.Machine.execNdirectf v s
  | .cmodeLsb6 => Sys2Proof.Machine.execCmodeLsb6 s
  | .cmodeMsb6 => Sys2Proof.Machine.execCmodeMsb6 s
  | .cmodeUtf8 => Sys2Proof.Machine.execCmodeUtf8 s
  | .cmodeSigned => Sys2Proof.Machine.execCmodeSigned s
  | .rleMaxF0 => Sys2Proof.Machine.execRleMaxF0 s
  | .rleMaxF1 => Sys2Proof.Machine.execRleMaxF1 s
  | .rleMaxM1 v => Sys2Proof.Machine.execRleMaxM1 v s
  | .imtf0 => Sys2Proof.Machine.execImtf0 s
  | .imtf1 => Sys2Proof.Machine.execImtf1 s
  | .treeSel0 => Sys2Proof.Machine.execTreeSel0 s
  | .treeSel1 => Sys2Proof.Machine.execTreeSel1 s
  | .hskipSimple => Sys2Proof.Machine.execHskipSimple s
  | .hskipComplex0 => Sys2Proof.Machine.execHskipComplex0 s
  | .hskipComplex2 => Sys2Proof.Machine.execHskipComplex2 s
  | .hskipComplex3 => Sys2Proof.Machine.execHskipComplex3 s
  | .nsymm1One => Sys2Proof.Machine.execNsymm1One s
  | .nsymm1Two => Sys2Proof.Machine.execNsymm1Two s
  | .nsymm1Three => Sys2Proof.Machine.execNsymm1Three s
  | .nsymm1Four => Sys2Proof.Machine.execNsymm1Four s
  | .symbol v => Sys2Proof.Machine.execSymbol v s
  | .symbolInvalid v => Sys2Proof.Machine.execSymbolInvalid v s
  | .clen0 => Sys2Proof.Machine.execClen0 s
  | .clen3 => Sys2Proof.Machine.execClen3 s
  | .clen4 => Sys2Proof.Machine.execClen4 s
  | .clen2 => Sys2Proof.Machine.execClen2 s
  | .clen1 => Sys2Proof.Machine.execClen1 s
  | .clen5 => Sys2Proof.Machine.execClen5 s
  | .clLength n k => Sys2Proof.Machine.execClLength n k s
  | .clRepeatPrev n => Sys2Proof.Machine.execClRepeatPrev n s
  | .clRepeatZero n => Sys2Proof.Machine.execClRepeatZero n s
  | .cmapZero n => Sys2Proof.Machine.execCmapZero n s
  | .cmapRun n k => Sys2Proof.Machine.execCmapRun n k s
  | .cmapValue n k => Sys2Proof.Machine.execCmapValue n k s
  | .btypeLast n => Sys2Proof.Machine.execBtypeLast n s
  | .btypeNext n => Sys2Proof.Machine.execBtypeNext n s
  | .btypeExplicit n k => Sys2Proof.Machine.execBtypeExplicit n k s
  | .bcount n k => Sys2Proof.Machine.execBcount n k s
  | .iacCell0 n ioff coff => Sys2Proof.Machine.execIacCell0 n ioff coff s
  | .iacCell1 n ioff coff => Sys2Proof.Machine.execIacCell1 n ioff coff s
  | .iacCell2 n ioff coff => Sys2Proof.Machine.execIacCell2 n ioff coff s
  | .iacCell3 n ioff coff => Sys2Proof.Machine.execIacCell3 n ioff coff s
  | .iacCell4 n ioff coff => Sys2Proof.Machine.execIacCell4 n ioff coff s
  | .iacCell5 n ioff coff => Sys2Proof.Machine.execIacCell5 n ioff coff s
  | .iacCell6 n ioff coff => Sys2Proof.Machine.execIacCell6 n ioff coff s
  | .iacCell7 n ioff coff => Sys2Proof.Machine.execIacCell7 n ioff coff s
  | .iacCell8 n ioff coff => Sys2Proof.Machine.execIacCell8 n ioff coff s
  | .iacCell9 n ioff coff => Sys2Proof.Machine.execIacCell9 n ioff coff s
  | .iacCell10 n ioff coff => Sys2Proof.Machine.execIacCell10 n ioff coff s
  | .literal n b => Sys2Proof.Machine.execLiteral n b s
  | .distShort0 n => Sys2Proof.Machine.execDistShort0 n s
  | .distShort1 n => Sys2Proof.Machine.execDistShort1 n s
  | .distShort2 n => Sys2Proof.Machine.execDistShort2 n s
  | .distShort3 n => Sys2Proof.Machine.execDistShort3 n s
  | .distShort4 n => Sys2Proof.Machine.execDistShort4 n s
  | .distShort5 n => Sys2Proof.Machine.execDistShort5 n s
  | .distShort6 n => Sys2Proof.Machine.execDistShort6 n s
  | .distShort7 n => Sys2Proof.Machine.execDistShort7 n s
  | .distShort8 n => Sys2Proof.Machine.execDistShort8 n s
  | .distShort9 n => Sys2Proof.Machine.execDistShort9 n s
  | .distShort10 n => Sys2Proof.Machine.execDistShort10 n s
  | .distShort11 n => Sys2Proof.Machine.execDistShort11 n s
  | .distShort12 n => Sys2Proof.Machine.execDistShort12 n s
  | .distShort13 n => Sys2Proof.Machine.execDistShort13 n s
  | .distShort14 n => Sys2Proof.Machine.execDistShort14 n s
  | .distShort15 n => Sys2Proof.Machine.execDistShort15 n s
  | .distDirect n k => Sys2Proof.Machine.execDistDirect n k s
  | .distRanged n k => Sys2Proof.Machine.execDistRanged n k s
  | .padZero => Sys2Proof.Machine.execPadZero s
  | .padNonzero v => Sys2Proof.Machine.execPadNonzero v s
  | .vx v => Sys2Proof.Machine.execVx v s
  | .bextra v => Sys2Proof.Machine.execBextra v s
  | .iextra v => Sys2Proof.Machine.execIextra v s
  | .cextra v => Sys2Proof.Machine.execCextra v s
  | .dextra v => Sys2Proof.Machine.execDextra v s
  | .r16 v => Sys2Proof.Machine.execR16 v s
  | .r17 v => Sys2Proof.Machine.execR17 v s
  | .runx v => Sys2Proof.Machine.execRunx v s

end Sys2Proof.Machine
end

