-- ==== Sys2Proof/Machine/Fetch.lean ====
section
/-! DEFINITION. Fetching the next element: the control point's grammar position with the codes the state selects for it
(R106, R130, R132, R135, R138), and the decoding of the lookahead there. -/

namespace Sys2Proof.Machine

/-- The context mode of a literal block type (R36). -/
def modeOf (s : State) (blockType : Nat) : ContextMode := s.mb.contextMode.getD blockType .lsb6

/-- The code of the next literal (R106, R135). An entry of a mode, map or code array that no header has written holds
its reset value (log 5), here and below. -/
def literalCode (s : State) : Code :=
  let t := s.mb.lit.blockType
  s.mb.litCode.getD (s.mb.litMap.getD (64 * t + contextId s.rom (modeOf s t) s.p1 s.p2) 0) (.single 0)

/-- The code of the next command (R130). -/
def commandCode (s : State) : Code := s.mb.iacCode.getD s.mb.iac.blockType (.single 0)

/-- The code of the next explicit distance (R138). -/
def distanceCode (s : State) : Code :=
  s.mb.distCode.getD (s.mb.distMap.getD (4 * s.mb.dist.blockType + distCtxOf s.cmd.copyLen) 0) (.single 0)

/-- The grammar position of the control point, as the decoder sees it; `none` at the point `copy`, where no element
is read. -/
def slotOf (s : State) : Option Slot :=
  match s.ctl with
  | .window => some .window
  | .isLast => some .isLast
  | .isLastEmpty => some .isLastEmpty
  | .mnibbles => some .mnibbles
  | .mlenNib i nibbles _ => some (.mlenNib (i + 1 == nibbles && decide (4 < nibbles)))
  | .isUncompressed => some .isUncompressed
  | .count _ => some .var256
  | .countX _ v1 => some (.vx v1)
  | .npostfix => some .npostfix
  | .ndirectf => some .ndirectf
  | .cmode => some .cmode
  | .rleMaxF _ => some .rleMaxF
  | .rleMaxM1 _ => some .rleMaxM1
  | .mapSym m rlemax code _ => some (.mapSym code rlemax (mapTrees m s))
  | .mapRun _ _ _ _ k => some (.runx k)
  | .imtf _ _ => some .imtf
  | .hskip _ => some .hskip
  | .nsymm1 _ => some .nsymm1
  | .symbol u _ syms _ => some (.symbol (alphabetOf u s) syms)
  | .treeSel _ _ => some .treeSel
  | .clen _ _ => some .clen
  | .clSym _ code _ => some (.clSym code)
  | .rep16 _ _ _ => some .r16
  | .rep17 _ _ _ => some .r17
  | .btype c => some (.btype (s.block c).btypeCode (s.block c).numTypes)
  | .bcount c _ => some (.bcount (s.block c).bcountCode)
  | .bextra _ _ k => some (.bextra (tableExtra blenTable k))
  | .iac => some (.iac (commandCode s))
  | .iextra icode _ => some (.iextra (tableExtra insTable icode))
  | .cextra ccode => some (.cextra (tableExtra cpyTable ccode))
  | .lit => some (.lit (literalCode s))
  | .dist => some (.dist (distanceCode s) s.mb.ndirect s.mb.distAlphabet)
  | .dextra => some (.dextra (rangedBits s.mb.npostfix s.mb.ndirect s.cmd.dcode))
  | .copy => none
  | .pad => some (.pad (padWidth s))

/-- A rejection of the decoder as a fault. -/
def rejectFault : Reject → Fault
  | .noCodeword => .noCodeword
  | .noRow => .noRow

/-- The element at a position with the state's lookahead. -/
def fetchAt (p : Slot) (s : State) : Except Fault Instr :=
  match decode p (lookahead s) with
  | .ok i => .ok i
  | .error r => .error (rejectFault r)

/-- The bytes of a table word, least significant first. -/
def wordBytes (n w : Nat) : List Byte := (List.range n).map fun i => BitVec.ofNat 8 (w >>> (8 * i))

/-- Write bytes to `IN` from an address on. -/
def loadBytes : List Byte → Nat → Memory → Memory
  | [], _, m => m
  | b :: rest, a, m => loadBytes rest (a + 1) (memWrite m a b)

/-- The control point and the registers that `slotOf` reads there, for a table word (`wordSlot`, log 16). -/
def placeWord (p : WordPos) (v : Nat) (s : State) : State :=
  match p with
  | .window => goto .window s
  | .mnibbles => goto .mnibbles s
  | .clen => goto (.clen .lit (ClLocals.start 0)) s
  | .clSym => goto (.clSym .lit (.single v) LenLocals.start) s
  | .mapSym => goto (.mapSym .literal 0 (.single v) []) { s with mb := { s.mb with ntreesL := 2 } }
  | .btype => goto (.btype .literal) { s with mb := { s.mb with lit := { s.mb.lit with numTypes := 2, btypeCode := .single v } } }
  | .iac => goto .iac { s with mb := { s.mb with iac := { s.mb.iac with blockType := 0 }, iacCode := [.single v] } }
  | .dist =>
    goto .dist { s with mb := { s.mb with
      dist := { s.mb.dist with blockType := 0 }, distMap := [0, 0, 0, 0], distCode := [.single v], ndirect := 0, distAlphabet := 64 } }

/-- The state with a table word as its next instruction (log 15, log 16). -/
def fetchWordState (s : State) (nbits w : Nat) : State :=
  let v := tableWord nbits w
  placeWord (wordPos nbits v) v
    { s with hostq := [], phase := .run, err := .ok, bitpos := 0, cfgInLen := 8
             inMem := loadBytes (wordBytes 8 v) 0 s.inMem }

end Sys2Proof.Machine
end

