-- ==== Sys2Proof/Machine/Finish.lean ====
section
/-! DEFINITION. What a command does once its distance is known (R130, R143 to R149): the back-reference or the
dictionary word. It reads no stream bits. -/

namespace Sys2Proof.Machine

/-- The loop of `CopyBack` (R147): one byte at a time, each read from `RING` after the previous one is written. The
check of `Emit` cannot fail here, since the copy was checked against `OUT_CAP` as a whole (log 22). -/
def copyLoop (d : Nat) : (n : Nat) → State → State
  | 0, s => s
  | n + 1, s => copyLoop d n (putByte (memRead s.ring (ringIndex s (s.pos - d))) s)

/-- Output a list of bytes in order (R149). -/
def putBytes : List Byte → State → State
  | [], s => s
  | b :: rest, s => putBytes rest (putByte b s)

/-- Would `n` more bytes pass the meta-block or the output (R147, R149)? -/
def overruns (n : Nat) (s : State) : Bool := s.mb.mbEnd < s.pos + n || s.cfgOutCap.toNat < s.pos + n

/-- `CopyBack(d, n)` (R147), then the next command: all or nothing. -/
def copyBack (d n : Nat) (s : State) : State :=
  if overruns n s then raise .syntaxError s else nextCommand (copyLoop d n s)

/-- `DictEmit(t)` (R149), then the next command: all or nothing; an empty word writes nothing. -/
def dictEmit (t : List Byte) (s : State) : State :=
  if overruns t.length s then raise .syntaxError s else nextCommand (putBytes t s)

/-- `DictRef(word_id, len)` (R148). -/
def dictRef (wordId len : Nat) (s : State) : State :=
  if len < 4 ∨ 24 < len then raise .syntaxError s
  else
    let nb := ndbits len
    let idx := wordId % 2 ^ nb
    let tid := wordId >>> nb
    if h : tid < Config.numTransforms then
      dictEmit (applyTransform (s.rom.transforms[tid]'h) (dictWord s.rom.dict len idx)) s
    else raise .syntaxError s

/-- `Command` after `ResolveDistance` (R130, R143, R144): a distance within the window and the output so far is a
back-reference, pushed first unless its code is 0; any other is a dictionary reference. -/
def finishCommand (s : State) : State :=
  let maxd := maxDistance s
  if s.cmd.distance ≤ maxd then
    copyBack s.cmd.distance s.cmd.copyLen (if s.cmd.dcode ≠ 0 then pushDistance s.cmd.distance s else s)
  else dictRef (s.cmd.distance - maxd - 1) s.cmd.copyLen s

end Sys2Proof.Machine
end

