-- ==== Sys2Proof/Machine/HostIf.lean ====
section
/-! DEFINITION. The host's view and moves (R23 to R25, R43, R55, R165, R170 to R173). -/

namespace Sys2Proof.Machine

/-- `Start()` up to `Decode()` (R171): `START` re-initialises every stream-level register the rule lists and sets
`phase` to RUN; the registers it does not list keep their values (log 10). `Decode` begins at the window field. -/
def startDecode (s : State) : State :=
  { s with
    bitpos := s.cfgStartBit.toNat
    pos := 0
    err := .ok
    p1 := 0
    p2 := 0
    hist := DistRing.start
    phase := .run
    ctl := .window }

/-- A register write while `BUSY = 0` (R23, R24, R25): status registers ignore writes, and `CTRL` starts a decode when
bit 0 is 1. -/
def writeHostReg (r : HostReg) (v : BitVec 35) (s : State) : State :=
  match r with
  | .cfgInLen => { s with cfgInLen := v.setWidth 32 }
  | .cfgStartBit => { s with cfgStartBit := v }
  | .cfgOutCap => { s with cfgOutCap := v.setWidth 32 }
  | .ctrl => if v.getLsbD 0 then startDecode s else s
  | .status | .busy | .bytesWritten | .bitPos => s

/-- A move of the host. While `BUSY = 1` register writes have no effect (R23, R24), and the model gives the host no
move that writes a memory (R57, R173): such a move changes nothing (log 3). -/
def hostMove (c : HostCmd) (s : State) : State :=
  if busy s then s
  else match c with
    | .writeReg r v => writeHostReg r v s
    | .writeIn a b => { s with inMem := memWrite s.inMem a.toNat b }
    | .writeOut a b => { s with outMem := memWrite s.outMem a.toNat b }

/-- What the host reads in a register, zero extended (R23, R24, R25): `CTRL` reads as 0. -/
def hostRead (r : HostReg) (s : State) : BitVec 35 :=
  match r with
  | .cfgInLen => s.cfgInLen.setWidth 35
  | .cfgStartBit => s.cfgStartBit
  | .cfgOutCap => s.cfgOutCap.setWidth 35
  | .ctrl => 0
  | .status => (statusReg s).setWidth 35
  | .busy => (busyReg s).setWidth 35
  | .bytesWritten => (bytesWrittenReg s).setWidth 35
  | .bitPos => bitPosReg s

/-- What the host may rely on in `OUT` (R43, R55): nothing while `BUSY = 1`. -/
def hostReadOut (a : Nat) (s : State) : Option Byte := if busy s then none else some (memRead s.outMem a)

/-- Hardware reset of a machine in use (R170): the registers as `State.reset` has them; `IN` and the ROMs are the
host's and stay, and so do the contents of `OUT` and `RING` and the host's pending moves (log 21). -/
def hardwareReset (s : State) : State :=
  { State.reset with hostq := s.hostq, inMem := s.inMem, outMem := s.outMem, ring := s.ring, rom := s.rom }

end Sys2Proof.Machine
end

