-- ==== Sys2Proof/Machine/Step.lean ====
section
/-! DEFINITION. One step of the machine (log 2, log 3, log 4): a pending move of the host; else, in IDLE and DONE,
nothing (R27: DONE stays until the next START); else, in RUN, the command's copy where the control point is `copy`, and
the execution of the next stream element everywhere else. -/

namespace Sys2Proof.Machine

/-- A step of a running decode (R112). -/
def runStep (s : State) : Host.Outcome State Fault Refusal :=
  match slotOf s with
  | none => .next (finishCommand s)
  | some p =>
    match fetchAt p s with
    | .error f => .fault f
    | .ok i => exec i s

/-- One step. -/
def step (s : State) : Host.Outcome State Fault Refusal :=
  match s.hostq with
  | c :: rest => .next (hostMove c { s with hostq := rest })
  | [] =>
    match s.phase with
    | .idle => .next s
    | .done => .next s
    | .run => runStep s

/-- `s` with the table word `w` of `nbits` bits as the next instruction of a running decode (log 15, log 16). -/
def State.withFetchWord (s : State) (nbits w : Nat) : State := fetchWordState s nbits w

end Sys2Proof.Machine
end

