-- ==== Sys2Proof/Safety.lean ====
section
/-! DEFINITION. What a safe state is: the invariants that the rules promise of the datapath's registers (R31, R34 to R39,
R59, R77, R83, R110, R126, R160), and the other notions that the statements use. -/

namespace Sys2Proof.Machine

/-- All byte memories are in canonical form. -/
def MemoriesWf (s : State) : Prop :=
  s.inMem.wf = true ∧ s.outMem.wf = true ∧ s.ring.wf = true ∧ s.rom.dict.wf = true

/-- R26, R27: `err` is `ok` exactly while the decode has not ended. -/
def PhaseMatchesErr (s : State) : Prop := s.phase = .done ↔ s.err ≠ .ok

/-- A fact about every category that has come before `c` in the header's order (R120). -/
def beforeCat (c : Cat) (P : Cat → Prop) : Prop :=
  match c with
  | .literal => True
  | .insertCopy => P .literal
  | .distance => P .literal ∧ P .insertCopy

/-- A fact about `c` and every category after it in the header's order (R120). -/
def fromCat (c : Cat) (P : Cat → Prop) : Prop :=
  match c with
  | .literal => P .literal ∧ P .insertCopy ∧ P .distance
  | .insertCopy => P .insertCopy ∧ P .distance
  | .distance => P .distance

/-- R34: the registers of a category whose header fields have been read. -/
def BlockState.Ok (b : BlockState) : Prop :=
  1 ≤ b.numTypes ∧ b.numTypes ≤ 256 ∧ b.blockType < b.numTypes ∧ b.blockLen ≤ 16793840 ∧
  (2 ≤ b.numTypes → b.lastBlockType < b.numTypes ∧ b.btypeCode.valid (b.numTypes + 2) = true ∧
    b.bcountCode.valid Config.bcountAlphabet = true)

/-- R118: the registers of a category before its header fields are read. -/
def BlockState.Fresh (b : BlockState) : Prop := b.blockType = 0 ∧ b.lastBlockType = 1

/-- R33: a header or command is inside its meta-block. -/
def InsideMetaBlock (s : State) : Prop := s.pos < s.mb.mbEnd

/-- No code of the three table arrays has been read yet. -/
def NoCodes (s : State) : Prop := s.mb.litCode = [] ∧ s.mb.iacCode = [] ∧ s.mb.distCode = []

/-- R120: the header is at the fields of category `c`. -/
def AtCategory (c : Cat) (s : State) : Prop :=
  InsideMetaBlock s ∧ NoCodes s ∧ s.mb.contextMode = [] ∧
  beforeCat c (fun d => (s.block d).Ok) ∧ fromCat c (fun d => (s.block d).Fresh)

/-- R120: all category fields have been read. -/
def CategoriesRead (s : State) : Prop :=
  InsideMetaBlock s ∧ (s.block .literal).Ok ∧ (s.block .insertCopy).Ok ∧ (s.block .distance).Ok

/-- R35, R122. -/
def DistParams (s : State) : Prop :=
  s.mb.npostfix ≤ 3 ∧ s.mb.ndirect ≤ 120 ∧ s.mb.distAlphabet = 16 + s.mb.ndirect + 48 <<< s.mb.npostfix

/-- R36, R123: the context modes have been read too. -/
def ModesRead (s : State) : Prop :=
  CategoriesRead s ∧ DistParams s ∧ s.mb.contextMode.length = s.mb.lit.numTypes

/-- R37, R110: a complete context map over its trees. -/
def MapOk (m : MapSel) (entries : List Nat) (s : State) : Prop :=
  1 ≤ mapTrees m s ∧ mapTrees m s ≤ 256 ∧ entries.length = mapSize m s ∧ ∀ e ∈ entries, e < mapTrees m s

/-- R124: the header is at the context map `m`. -/
def AtMap (m : MapSel) (s : State) : Prop :=
  ModesRead s ∧ NoCodes s ∧ 2 ≤ mapTrees m s ∧ mapTrees m s ≤ 256 ∧
  (m = .distance → MapOk .literal s.mb.litMap s)

/-- R124: both context maps have been read. -/
def MapsRead (s : State) : Prop :=
  ModesRead s ∧ MapOk .literal s.mb.litMap s ∧ MapOk .distance s.mb.distMap s

/-- R38: every code of an array is a code over its alphabet. -/
def CodesOk (A : Nat) (l : List Code) : Prop := ∀ T ∈ l, T.valid A = true

/-- R125: the whole header has been read. -/
def HeaderRead (s : State) : Prop :=
  MapsRead s ∧ s.mb.litCode.length = s.mb.ntreesL ∧ CodesOk Config.litAlphabet s.mb.litCode ∧
  s.mb.iacCode.length = s.mb.iac.numTypes ∧ CodesOk Config.iacAlphabet s.mb.iacCode ∧
  s.mb.distCode.length = s.mb.ntreesD ∧ CodesOk s.mb.distAlphabet s.mb.distCode

/-- The header is at a code that is wanted for `u` (R107, R120, R125). -/
def AtCode (u : CodeUse) (s : State) : Prop :=
  match u with
  | .btype c => AtCategory c s ∧ 2 ≤ (s.block c).numTypes ∧ (s.block c).numTypes ≤ 256
  | .bcount c =>
    AtCategory c s ∧ 2 ≤ (s.block c).numTypes ∧ (s.block c).numTypes ≤ 256 ∧
    (s.block c).btypeCode.valid ((s.block c).numTypes + 2) = true
  | .cmap m rlemax => AtMap m s ∧ rlemax ≤ 16
  | .lit =>
    MapsRead s ∧ s.mb.litCode.length < s.mb.ntreesL ∧ CodesOk Config.litAlphabet s.mb.litCode ∧
    s.mb.iacCode = [] ∧ s.mb.distCode = []
  | .iac =>
    MapsRead s ∧ s.mb.litCode.length = s.mb.ntreesL ∧ CodesOk Config.litAlphabet s.mb.litCode ∧
    s.mb.iacCode.length < s.mb.iac.numTypes ∧ CodesOk Config.iacAlphabet s.mb.iacCode ∧ s.mb.distCode = []
  | .dist =>
    MapsRead s ∧ s.mb.litCode.length = s.mb.ntreesL ∧ CodesOk Config.litAlphabet s.mb.litCode ∧
    s.mb.iacCode.length = s.mb.iac.numTypes ∧ CodesOk Config.iacAlphabet s.mb.iacCode ∧
    s.mb.distCode.length < s.mb.ntreesD ∧ CodesOk s.mb.distAlphabet s.mb.distCode

/-- The share of the Kraft space 32 that the entries of a code-length code take (R94). -/
def clShare (l : Nat) : Nat := if l = 0 then 0 else Config.clSpace >>> l

/-- R94: the local variables between two entries of the code-length code. -/
def ClLocals.Ok (st : ClLocals) : Prop :=
  st.i < 18 ∧ st.cl.length = Config.clAlphabet ∧ (∀ l ∈ st.cl, l ≤ 5) ∧ 0 < st.space ∧
  st.space + ((st.cl.map clShare).sum : Nat) = (Config.clSpace : Int) ∧ st.num = st.cl.countP (0 < ·) ∧
  ∀ k ∈ clOrder.drop st.i, st.cl.getD k 0 = 0

/-- R95: the local variables between two symbols of the length array over `A` symbols. -/
def LenLocals.Ok (A : Nat) (st : LenLocals) : Prop :=
  st.lens.length < A ∧ (∀ l ∈ st.lens, l ≤ Config.maxCodeLen) ∧ 0 < st.space ∧
  st.space + (kraftSum st.lens : Int) = (Config.fullSpace : Int) ∧
  1 ≤ st.prev ∧ st.prev ≤ Config.maxCodeLen ∧ st.replen ≤ Config.maxCodeLen ∧ (st.rep = 0 ∨ 3 ≤ st.rep)

/-- R93: the symbols of a simple code over `A` symbols. -/
def SymsOk (A : Nat) (syms : List Nat) : Prop := syms.Nodup ∧ ∀ v ∈ syms, v < A

/-- R133, R34: a symbol of category `c` may be read: no block switch is due. -/
def SymbolReady (c : Cat) (s : State) : Prop := 2 ≤ (s.block c).numTypes → 1 ≤ (s.block c).blockLen

/-- R133, R34: the block switch of category `c` is due. -/
def SwitchDue (c : Cat) (s : State) : Prop := 2 ≤ (s.block c).numTypes ∧ (s.block c).blockLen = 0

/-- R134, R138: what a symbol of category `c` needs of the command registers. -/
def CommandWaits (c : Cat) (s : State) : Prop :=
  match c with
  | .literal => 1 ≤ s.cmd.insertLen ∧ 2 ≤ s.cmd.copyLen
  | .insertCopy => True
  | .distance => s.cmd.implicit0 = false ∧ 2 ≤ s.cmd.copyLen

/-- What the rules promise at each control point of a running decode. -/
def CtlOk (s : State) : Prop :=
  match s.ctl with
  | .window => s.pos = 0
  | .isLast => True
  | .isLastEmpty => s.mb.isLast = true
  | .mnibbles => True
  | .mlenNib i nibbles v => i < nibbles ∧ 4 ≤ nibbles ∧ nibbles ≤ 6 ∧ v < 16 ^ i
  | .isUncompressed => InsideMetaBlock s
  | .count (.blockTypes c) => AtCategory c s
  | .count .treesL => ModesRead s ∧ NoCodes s
  | .count .treesD => ModesRead s ∧ NoCodes s ∧ MapOk .literal s.mb.litMap s
  | .countX (.blockTypes c) v1 => AtCategory c s ∧ 1 ≤ v1 ∧ v1 ≤ 7
  | .countX .treesL v1 => ModesRead s ∧ NoCodes s ∧ 1 ≤ v1 ∧ v1 ≤ 7
  | .countX .treesD v1 => ModesRead s ∧ NoCodes s ∧ MapOk .literal s.mb.litMap s ∧ 1 ≤ v1 ∧ v1 ≤ 7
  | .npostfix => CategoriesRead s ∧ NoCodes s ∧ s.mb.contextMode = []
  | .ndirectf => CategoriesRead s ∧ NoCodes s ∧ s.mb.contextMode = [] ∧ s.mb.npostfix ≤ 3
  | .cmode => CategoriesRead s ∧ DistParams s ∧ NoCodes s ∧ s.mb.contextMode.length < s.mb.lit.numTypes
  | .rleMaxF m => AtMap m s
  | .rleMaxM1 m => AtMap m s
  | .mapSym m rlemax code acc =>
    AtMap m s ∧ rlemax ≤ 16 ∧ code.valid (mapTrees m s + rlemax) = true ∧ acc.length < mapSize m s ∧
    ∀ e ∈ acc, e < mapTrees m s
  | .mapRun m rlemax code acc k =>
    AtMap m s ∧ rlemax ≤ 16 ∧ code.valid (mapTrees m s + rlemax) = true ∧ acc.length < mapSize m s ∧
    (∀ e ∈ acc, e < mapTrees m s) ∧ 1 ≤ k ∧ k ≤ rlemax
  | .imtf m acc => AtMap m s ∧ acc.length = mapSize m s ∧ ∀ e ∈ acc, e < mapTrees m s
  | .hskip u => AtCode u s
  | .nsymm1 u => AtCode u s
  | .symbol u nsym syms bad =>
    AtCode u s ∧ nsym ≤ 4 ∧ syms.length < nsym ∧ (bad = false → SymsOk (alphabetOf u s) syms)
  | .treeSel u syms => AtCode u s ∧ syms.length = 4 ∧ SymsOk (alphabetOf u s) syms
  | .clen u st => AtCode u s ∧ st.Ok
  | .clSym u code st => AtCode u s ∧ code.valid Config.clAlphabet = true ∧ st.Ok (alphabetOf u s)
  | .rep16 u code st => AtCode u s ∧ code.valid Config.clAlphabet = true ∧ st.Ok (alphabetOf u s)
  | .rep17 u code st => AtCode u s ∧ code.valid Config.clAlphabet = true ∧ st.Ok (alphabetOf u s)
  | .btype c => HeaderRead s ∧ InsideMetaBlock s ∧ SwitchDue c s ∧ CommandWaits c s
  | .bcount c true => HeaderRead s ∧ InsideMetaBlock s ∧ SwitchDue c s ∧ CommandWaits c s
  | .bcount c false =>
    AtCategory c s ∧ 2 ≤ (s.block c).numTypes ∧ (s.block c).numTypes ≤ 256 ∧
    (s.block c).btypeCode.valid ((s.block c).numTypes + 2) = true ∧
    (s.block c).bcountCode.valid Config.bcountAlphabet = true
  | .bextra c true k => HeaderRead s ∧ InsideMetaBlock s ∧ SwitchDue c s ∧ CommandWaits c s ∧ k < Config.bcountAlphabet
  | .bextra c false k =>
    AtCategory c s ∧ 2 ≤ (s.block c).numTypes ∧ (s.block c).numTypes ≤ 256 ∧
    (s.block c).btypeCode.valid ((s.block c).numTypes + 2) = true ∧
    (s.block c).bcountCode.valid Config.bcountAlphabet = true ∧ k < Config.bcountAlphabet
  | .iac => HeaderRead s ∧ InsideMetaBlock s ∧ SymbolReady .insertCopy s
  | .iextra icode ccode => HeaderRead s ∧ InsideMetaBlock s ∧ icode < 24 ∧ ccode < 24
  | .cextra ccode => HeaderRead s ∧ InsideMetaBlock s ∧ ccode < 24
  | .lit => HeaderRead s ∧ InsideMetaBlock s ∧ SymbolReady .literal s ∧ CommandWaits .literal s
  | .dist => HeaderRead s ∧ InsideMetaBlock s ∧ SymbolReady .distance s ∧ CommandWaits .distance s
  | .dextra =>
    HeaderRead s ∧ InsideMetaBlock s ∧ 2 ≤ s.cmd.copyLen ∧ 16 + s.mb.ndirect ≤ s.cmd.dcode ∧
    s.cmd.dcode < s.mb.distAlphabet
  | .copy => HeaderRead s ∧ InsideMetaBlock s ∧ 2 ≤ s.cmd.copyLen ∧ 1 ≤ s.cmd.distance
  | .pad => s.mb.isLast = true

/-- R31, R140, R144: the last distances are at least 1 and reach no further than `far`. -/
def DistRing.Ok (far : Nat) (h : DistRing) : Prop := ∀ i : BitVec 2, 1 ≤ h.slot i ∧ h.slot i ≤ far

/-- R29, R113: the window registers once the stream header has been read. -/
def WindowOk (s : State) : Prop := 10 ≤ s.wbits ∧ s.wbits ≤ 24 ∧ s.maxBackward = 2 ^ s.wbits - 16

/-- What the rules promise of a running decode (R21, R22, R26, R29, R31 and the control point). A last distance is
one of the start values, at most 16, or was pushed as a back-reference, at most the `maxd` of that time (R143, R145). -/
def RunOk (s : State) : Prop :=
  s.pos ≤ s.cfgOutCap.toNat ∧ s.hist.Ok (max 16 (maxDistance s)) ∧
  (s.ctl ≠ .window → s.bitpos ≤ endBit s ∧ WindowOk s) ∧ CtlOk s

/-- The invariant of the machine. -/
def MachineInv (s : State) : Prop := MemoriesWf s ∧ PhaseMatchesErr s ∧ (s.phase = .run → RunOk s)

/-- R59: `RING` holds the last `2^wbits` bytes of `OUT`. -/
def RingAgrees (s : State) : Prop :=
  ∀ i, i < s.pos → s.pos ≤ i + 2 ^ s.wbits → memRead s.ring (i % 2 ^ s.wbits) = memRead s.outMem i

/-- R59 for a running decode: nothing has been output before the window is known, and after that `RING` agrees with
`OUT`. -/
def RingInv (s : State) : Prop := s.phase = .run → (s.ctl = .window → s.pos = 0) ∧ RingAgrees s

/-! ### Widths (10_state.md) -/

/-- R34: the registers of a category fit their widths. -/
def BlockState.WidthsOk (b : BlockState) : Prop :=
  b.numTypes < 2 ^ 9 ∧ b.blockType < 2 ^ 8 ∧ b.lastBlockType < 2 ^ 8 ∧ b.blockLen < 2 ^ 25

/-- R33 to R37: the meta-block registers fit their widths; `mb_end` needs 33 bits (log 8). -/
def MetaBlock.WidthsOk (m : MetaBlock) : Prop :=
  m.mlen < 2 ^ 25 ∧ m.mbEnd < 2 ^ 33 ∧ m.lit.WidthsOk ∧ m.iac.WidthsOk ∧ m.dist.WidthsOk ∧
  m.npostfix < 2 ^ 2 ∧ m.ndirect < 2 ^ 7 ∧ m.distAlphabet < 2 ^ 10 ∧ m.ntreesL < 2 ^ 9 ∧ m.ntreesD < 2 ^ 9 ∧
  (∀ e ∈ m.litMap, e < 2 ^ 8) ∧ (∀ e ∈ m.distMap, e < 2 ^ 8)

/-- R40: the command registers fit their widths. -/
def CmdRegs.WidthsOk (c : CmdRegs) : Prop :=
  c.insertLen < 2 ^ 25 ∧ c.copyLen < 2 ^ 25 ∧ c.distCtx < 2 ^ 2 ∧ c.dcode < 2 ^ 10 ∧ c.distance < 2 ^ 32

/-- Every register that the model holds as a natural fits the width that 10_state.md gives it (log 8). -/
def WidthsOk (s : State) : Prop :=
  s.bitpos < 2 ^ 35 ∧ s.pos < 2 ^ 32 ∧ s.wbits < 2 ^ 5 ∧ s.maxBackward < 2 ^ 24 ∧
  (∀ i : BitVec 2, s.hist.slot i < 2 ^ 32) ∧ s.mb.WidthsOk ∧ s.cmd.WidthsOk

/-! ### How an element ends -/

/-- The next `n` stream bits lie before `END` (R83). -/
def Fits (n : Nat) (s : State) : Prop := s.bitpos + n ≤ endBit s

/-- The element `i` at `s` reads `n` bits: where they lie before `END` it answers `t`; where they pass it, it raises
`need_more_input` (R83, R161) in `s0`, which is `s` after what the rules write before they read. -/
def ReadsFrom (n : Nat) (i : Instr) (s s0 t : State) : Prop :=
  (Fits n s → exec i s = .next t) ∧
  (¬ Fits n s → exec i s = .next { s0 with err := .needMoreInput, phase := .done })

/-- The same for an element that writes nothing before it reads. -/
def ReadsTo (n : Nat) (i : Instr) (s t : State) : Prop := ReadsFrom n i s s t

/-- R171: a decode has just been started, whatever the registers that START does not write hold. -/
def Started (s : State) : Prop :=
  MemoriesWf s ∧ s.hostq = [] ∧ s.phase = .run ∧ s.ctl = .window ∧ s.err = .ok ∧
  s.bitpos = s.cfgStartBit.toNat ∧ s.pos = 0 ∧ s.p1 = 0 ∧ s.p2 = 0 ∧ s.hist = DistRing.start

/-- R177's premise on the ROM parameter: a transform that leaves a word of 4 to 24 bytes empty has an id of 34 or
more. -/
def EmptyWordsAreLate (rom : Rom) : Prop :=
  ∀ (tid : Nat) (h : tid < Config.numTransforms) (w : List Byte),
    4 ≤ w.length → w.length ≤ 24 → applyTransform (rom.transforms[tid]'h) w = [] → 34 ≤ tid

end Sys2Proof.Machine
end

