-- ==== Sys2Proof/Certificates/Slice0/Obligations.lean ====
section
/-! DEFINITION. The statements for the provers. `ReadsTo n i s t` (Safety.lean): the element `i` at `s` answers `t`
where its `n` bits fit, and raises `need_more_input` in `s` where they do not. An answer written as `s` with some fields
changed says that every other register and every byte of every memory is unchanged. The register `ctl`, which says what
element comes next in the order of R64, and the queue `hostq` are the model's own (log 1, log 3). That the command
registers are unchanged from one meta-block to the next, where R42 calls them unspecified, is the model's choice (log 23). -/

open Sys2Proof Sys2Proof.Machine

/-! ### The step and the host -/

/-- R60, R112 (log 2): with no host move pending, a step of a running decode executes the element that the decoder reads
at the state's grammar position from the bits at `bitpos`. R64: the position at each control point, with the widths (R66,
R69 to R71, R108, R119, R127, R142), the alphabets (R99) and the codes its reading depends on. R106, R135, R130, R138: once
the header has been read, the entries that select the code of a literal, a command or a distance have all been written,
and the symbol is read with the code they name. -/
def Obligations.StepRunsDecodedElement : Prop :=
  (∀ (s : State) (p : Slot) (i : Instr), s.hostq = [] → s.phase = .run → slotOf s = some p →
    decode p (lookahead s) = .ok i → step s = exec i s) ∧
  ∀ s : State,
    (∀ e ∈ [(Ctl.window, Slot.window), (.isLast, .isLast), (.isLastEmpty, .isLastEmpty), (.mnibbles, .mnibbles),
        (.isUncompressed, .isUncompressed), (.npostfix, .npostfix), (.ndirectf, .ndirectf), (.cmode, .cmode)],
      s.ctl = e.1 → slotOf s = some e.2) ∧
    (∀ i nibbles v, s.ctl = .mlenNib i nibbles v → slotOf s = some (.mlenNib (decide (i + 1 = nibbles ∧ 4 < nibbles)))) ∧
    (∀ u n, (s.ctl = .count u → slotOf s = some .var256) ∧ (s.ctl = .countX u n → slotOf s = some (.vx n))) ∧
    (∀ m rlemax code acc k,
      (s.ctl = .rleMaxF m → slotOf s = some .rleMaxF) ∧ (s.ctl = .rleMaxM1 m → slotOf s = some .rleMaxM1) ∧
      (s.ctl = .mapSym m rlemax code acc → slotOf s = some (.mapSym code rlemax (match m with
        | .literal => s.mb.ntreesL
        | .distance => s.mb.ntreesD))) ∧
      (s.ctl = .mapRun m rlemax code acc k → slotOf s = some (.runx k)) ∧
      (s.ctl = .imtf m acc → slotOf s = some .imtf)) ∧
    (∀ u nsym syms bad cl code st,
      (s.ctl = .hskip u → slotOf s = some .hskip) ∧ (s.ctl = .nsymm1 u → slotOf s = some .nsymm1) ∧
      (s.ctl = .symbol u nsym syms bad → slotOf s = some (.symbol (match u with
        | .btype c => (s.mb.block c).numTypes + 2
        | .bcount _ => 26
        | .cmap .literal rlemax => s.mb.ntreesL + rlemax
        | .cmap .distance rlemax => s.mb.ntreesD + rlemax
        | .lit => 256
        | .iac => 704
        | .dist => s.mb.distAlphabet) syms)) ∧
      (s.ctl = .treeSel u syms → slotOf s = some .treeSel) ∧ (s.ctl = .clen u cl → slotOf s = some .clen) ∧
      (s.ctl = .clSym u code st → slotOf s = some (.clSym code)) ∧
      (s.ctl = .rep16 u code st → slotOf s = some .r16) ∧ (s.ctl = .rep17 u code st → slotOf s = some .r17)) ∧
    (∀ c switch k,
      (s.ctl = .btype c → slotOf s = some (.btype (s.mb.block c).btypeCode (s.mb.block c).numTypes)) ∧
      (s.ctl = .bcount c switch → slotOf s = some (.bcount (s.mb.block c).bcountCode)) ∧
      (s.ctl = .bextra c switch k → slotOf s = some (.bextra (tableExtra blenTable k)))) ∧
    (∀ icode ccode, (s.ctl = .iextra icode ccode → slotOf s = some (.iextra (tableExtra insTable icode))) ∧
      (s.ctl = .cextra ccode → slotOf s = some (.cextra (tableExtra cpyTable ccode)))) ∧
    (s.ctl = .dextra → slotOf s = some (.dextra (rangedBits s.mb.npostfix s.mb.ndirect s.cmd.dcode))) ∧
    (s.ctl = .pad → slotOf s = some (.pad ((s.bitpos + 7) / 8 * 8 - s.bitpos))) ∧
    (s.ctl = .copy → slotOf s = none) ∧
    (HeaderRead s → s.ctl = .lit → ∃ mode tree T, s.mb.contextMode[s.mb.lit.blockType]? = some mode ∧
      s.mb.litMap[64 * s.mb.lit.blockType + contextId s.rom mode s.p1 s.p2]? = some tree ∧
      s.mb.litCode[tree]? = some T ∧ slotOf s = some (.lit T)) ∧
    (HeaderRead s → s.ctl = .iac → ∃ T, s.mb.iacCode[s.mb.iac.blockType]? = some T ∧ slotOf s = some (.iac T)) ∧
    (HeaderRead s → s.ctl = .dist → ∃ tree T,
      s.mb.distMap[4 * s.mb.dist.blockType + distCtxOf s.cmd.copyLen]? = some tree ∧
      s.mb.distCode[tree]? = some T ∧ slotOf s = some (.dist T s.mb.ndirect s.mb.distAlphabet))

/-- The steps that execute no element (log 2, log 3, log 4): a host move; IDLE and DONE, which stay; and in RUN the point
`copy`, where the command's copy is performed. -/
def Obligations.StepOutsideElements : Prop :=
  ∀ s : State,
    (∀ c rest, s.hostq = c :: rest → step s = .next (hostMove c { s with hostq := rest })) ∧
    (s.hostq = [] → s.phase ≠ .run → step s = .next s) ∧
    (s.hostq = [] → s.phase = .run → s.ctl = .copy → step s = .next (finishCommand s))

/-- Words written out from the spec's encodings decode to the elements they stand for (R64, R68, R88, R113). -/
def Obligations.DecodesWrittenOutWords : Prop :=
  decode .window (lookOf [false]) = .ok .win16 ∧
  decode .window (lookOf [true, true, false, false]) = .ok (.win17to24 1) ∧
  decode .window (lookOf [true, false, false, false, true, false, false]) = .ok .winReserved ∧
  decode .mnibbles (lookOf [true, true]) = .ok .mnibblesReserved ∧
  decode (.mlenNib true) (lookOf [false, false, false, false]) = .ok .mlenNibLastZero ∧
  decode .var256 (lookOf [true, false, false, false]) = .ok .var256Two ∧
  decode .clen (lookOf [true, true, true, false]) = .ok .clen1 ∧
  decode .hskip (lookOf [true, false]) = .ok .hskipSimple ∧
  decode (.clSym (.lengths [0, 2, 2, 2, 2, 0, 0, 0, 0, 0, 0, 0, 0, 0, 0, 0, 0, 0])) (lookOf [true, false])
    = .ok (.clLength 2 3) ∧
  decode (.iac (.single 146)) (lookOf []) = .ok (.iacCell2 0 2 2) ∧
  decode (.lit (.single 97)) (lookOf []) = .ok (.literal 0 0x61) ∧
  decode (.dist (.single 6) 0 64) (lookOf []) = .ok (.distShort6 0) ∧
  decode (.dist (.single 17) 2 66) (lookOf []) = .ok (.distDirect 0 17) ∧
  decode (.pad 5) (lookOf [false, false, false, false, true]) = .ok (.padNonzero 16)

/-- R42, R170: the values the spec gives at hardware reset, as the registers and as the host reads them. -/
def Obligations.ResetValues : Prop :=
  State.reset.cfgInLen = 0 ∧ State.reset.cfgStartBit = 0 ∧ State.reset.cfgOutCap = 0 ∧ State.reset.phase = .idle ∧
  State.reset.err = .ok ∧ State.reset.bitpos = 0 ∧ State.reset.pos = 0 ∧
  (∀ r : HostReg, hostRead r State.reset = 0)

/-- R171, R24: a write of 1 to `CTRL.START` while the datapath is not running. That every register R171 does not list (the
window, meta-block and command registers, which R42 calls unspecified after START) and `RING` stay as they were is the
model's choice, log 10. -/
def Obligations.StartInitialises : Prop :=
  ∀ (s : State) (v : BitVec 35) (rest : List HostCmd), s.hostq = .writeReg .ctrl v :: rest → s.phase ≠ .run →
    v.getLsbD 0 = true →
    step s = .next { s with
      hostq := rest, bitpos := s.cfgStartBit.toNat, pos := 0, err := .ok, p1 := 0, p2 := 0,
      hist := { d0 := 16, d1 := 15, d2 := 11, d3 := 4, idx := 0 }, phase := .run, ctl := .window }

/-- R23, R24, R25, R57: the host's other moves. While the datapath runs no write has an effect; while it does not, a
configuration register takes the value, a status register ignores it, a 0 to `CTRL` does nothing, and a memory write
changes the one byte. (That a memory write during a decode changes nothing is the model's choice, log 3.) -/
def Obligations.HostMoves : Prop :=
  ∀ (s : State) (c : HostCmd) (rest : List HostCmd), s.hostq = c :: rest →
    (s.phase = .run → step s = .next { s with hostq := rest }) ∧
    (s.phase ≠ .run →
      (∀ v, c = .writeReg .cfgInLen v → step s = .next { s with hostq := rest, cfgInLen := v.setWidth 32 }) ∧
      (∀ v, c = .writeReg .cfgStartBit v → step s = .next { s with hostq := rest, cfgStartBit := v }) ∧
      (∀ v, c = .writeReg .cfgOutCap v → step s = .next { s with hostq := rest, cfgOutCap := v.setWidth 32 }) ∧
      (∀ v, c = .writeReg .ctrl v → v.getLsbD 0 = false → step s = .next { s with hostq := rest }) ∧
      (∀ v, c = .writeReg .status v ∨ c = .writeReg .busy v ∨ c = .writeReg .bytesWritten v ∨
          c = .writeReg .bitPos v → step s = .next { s with hostq := rest }) ∧
      (∀ a b, c = .writeIn a b → s.inMem.wf = true → ∃ t, step s = .next t ∧
        t = { s with hostq := rest, inMem := t.inMem } ∧
        ∀ k, memRead t.inMem k = if k = a.toNat then b else memRead s.inMem k) ∧
      (∀ a b, c = .writeOut a b → s.outMem.wf = true → ∃ t, step s = .next t ∧
        t = { s with hostq := rest, outMem := t.outMem } ∧
        ∀ k, memRead t.outMem k = if k = a.toNat then b else memRead s.outMem k))

/-- R25, R26, R27, R24, R158: what the host reads. The views are exact where the registers fit their widths. -/
def Obligations.HostViews : Prop :=
  ∀ s : State,
    (hostRead .status s).toNat =
      (match s.err with
        | .ok => 0
        | .needMoreInput => 1
        | .syntaxError => 2
        | .endOk => 3
        | .huffmanLengthError => 4
        | .contextMapError => 5) ∧
    (hostRead .busy s).toNat = (if s.phase = .run then 1 else 0) ∧
    hostRead .ctrl s = 0 ∧
    (s.pos < 2 ^ 32 → (hostRead .bytesWritten s).toNat = s.pos) ∧
    (s.bitpos < 2 ^ 35 → (hostRead .bitPos s).toNat = s.bitpos) ∧
    (hostRead .cfgInLen s).toNat = s.cfgInLen.toNat ∧ hostRead .cfgStartBit s = s.cfgStartBit ∧
    (hostRead .cfgOutCap s).toNat = s.cfgOutCap.toNat

/-- R27, R164: with no host move, IDLE and DONE stay for any number of steps (that a step there does nothing is the
model's choice, log 4). -/
def Obligations.EndedDecodeStays : Prop :=
  ∀ (s : State) (k : Nat), s.hostq = [] → s.phase ≠ .run → Host.Core.run Sys2Proof.core k s = .next s

/-- R161, R163: an element that ends the decode has output nothing: `OUT`, `RING`, `pos`, `p1`, `p2`, the last distances
and the window registers are as before, and the cursor has not moved back. -/
def Obligations.AbortWritesNoOutput : Prop :=
  ∀ (i : Instr) (s t : State), s.phase = .run → exec i s = .next t → t.phase = .done →
    t.outMem = s.outMem ∧ t.ring = s.ring ∧ t.pos = s.pos ∧ t.p1 = s.p1 ∧ t.p2 = s.p2 ∧ t.hist = s.hist ∧
    t.wbits = s.wbits ∧ t.maxBackward = s.maxBackward ∧ t.inMem = s.inMem ∧ t.rom = s.rom ∧ s.bitpos ≤ t.bitpos

/-! ### The bit reader -/

/-- R45, R81, R82: bit `i` of `PeekBits(n)` is stream bit `bitpos + i`, and there are no further bits; stream bit `k` is
bit `k mod 8` of byte `k / 8` of `IN` below `END`, and 0 from there on. R48: a read of `a + b` bits is a read of `a` bits
with a read of `b` bits above it (derived by the spec from R45). -/
def Obligations.PeekIsLittleEndian : Prop :=
  ∀ (s : State),
    (∀ n i, (peekBits s n).testBit i = (decide (i < n) && streamBit s (s.bitpos + i))) ∧
    (∀ a b, peekBits s (a + b) = peekBits s a + 2 ^ a * peekBits (advance a s) b) ∧
    (∀ k, k < 8 * s.cfgInLen.toNat → streamBit s k = (memRead s.inMem (k / 8)).getLsbD (k % 8)) ∧
    (∀ k, 8 * s.cfgInLen.toNat ≤ k → streamBit s k = false)

/-- R83, R86: an element that is fetched and run moves `bitpos` by exactly the bits of its encoding (a
symbol's by the codeword length that the decoder found, log 13), or raises `need_more_input`. -/
def Obligations.ElementTakesItsBits : Prop :=
  ∀ (s t : State) (p : Slot) (i : Instr), slotOf s = some p → p.wf = true → decode p (lookahead s) = .ok i →
    exec i s = .next t → t.err ≠ .needMoreInput → t.bitpos = s.bitpos + (encode p i).length

/-! ### The stream header and the meta-block header -/

/-- R113: the window field in its three tiers, the reserved pattern, and where its bits pass `END`. -/
def Obligations.WindowField : Prop :=
  ∀ s : State, s.ctl = .window →
    ReadsTo 1 .win16 s { s with bitpos := s.bitpos + 1, wbits := 16, maxBackward := 2 ^ 16 - 16, ctl := .isLast } ∧
    (∀ n : BitVec 3, n ≠ 0 →
      (Fits 4 s → exec (.win17to24 n) s = .next { s with
        bitpos := s.bitpos + 4, wbits := 17 + n.toNat, maxBackward := 2 ^ (17 + n.toNat) - 16, ctl := .isLast }) ∧
      (Fits 1 s → ¬ Fits 4 s → exec (.win17to24 n) s = .next { s with
        bitpos := s.bitpos + 1, err := .needMoreInput, phase := .done }) ∧
      (¬ Fits 1 s → exec (.win17to24 n) s = .next { s with err := .needMoreInput, phase := .done })) ∧
    (Fits 7 s → exec .win17 s = .next { s with
      bitpos := s.bitpos + 7, wbits := 17, maxBackward := 2 ^ 17 - 16, ctl := .isLast }) ∧
    (Fits 7 s → exec .winReserved s = .next { s with bitpos := s.bitpos + 7, err := .syntaxError, phase := .done }) ∧
    (∀ m : BitVec 3, 2 ≤ m.toNat → Fits 7 s → exec (.win10to15 m) s = .next { s with
      bitpos := s.bitpos + 7, wbits := 8 + m.toNat, maxBackward := 2 ^ (8 + m.toNat) - 16, ctl := .isLast }) ∧
    (∀ i : Instr, i = .win17 ∨ i = .winReserved ∨ (∃ m, i = .win10to15 m) →
      (Fits 4 s → ¬ Fits 7 s → exec i s = .next { s with
        bitpos := s.bitpos + 4, err := .needMoreInput, phase := .done }) ∧
      (Fits 1 s → ¬ Fits 4 s → exec i s = .next { s with
        bitpos := s.bitpos + 1, err := .needMoreInput, phase := .done }) ∧
      (¬ Fits 1 s → exec i s = .next { s with err := .needMoreInput, phase := .done }))

/-- R114: `ISLAST` writes `is_last`; a set one is followed by `ISLASTEMPTY`, and a set `ISLASTEMPTY` by the padding
check only (whose outcomes `Obligations.PaddingEndsDecode` states). -/
def Obligations.LastFlags : Prop :=
  ∀ s : State,
    (s.ctl = .isLast →
      ReadsTo 1 .isLast0 s { s with
        bitpos := s.bitpos + 1, mb := { s.mb with isLast := false }, ctl := .mnibbles } ∧
      ReadsTo 1 .isLast1 s { s with
        bitpos := s.bitpos + 1, mb := { s.mb with isLast := true }, ctl := .isLastEmpty }) ∧
    (s.ctl = .isLastEmpty →
      ReadsTo 1 .isLastEmpty0 s { s with bitpos := s.bitpos + 1, ctl := .mnibbles } ∧
      ReadsTo 1 .isLastEmpty1 s { s with bitpos := s.bitpos + 1, ctl := .pad })

/-- R115: `MNIBBLES` 0, 1, 2 announce 4, 5, 6 nibbles; 3 is a `syntax_error`. -/
def Obligations.NibbleCounts : Prop :=
  ∀ s : State, s.ctl = .mnibbles →
    ReadsTo 2 .mnibbles4 s { s with bitpos := s.bitpos + 2, ctl := .mlenNib 0 4 0 } ∧
    ReadsTo 2 .mnibbles5 s { s with bitpos := s.bitpos + 2, ctl := .mlenNib 0 5 0 } ∧
    ReadsTo 2 .mnibbles6 s { s with bitpos := s.bitpos + 2, ctl := .mlenNib 0 6 0 } ∧
    ReadsTo 2 .mnibblesReserved s { s with bitpos := s.bitpos + 2, err := .syntaxError, phase := .done }

/-- R116, R117: nibble `i` of `MLEN` lands at bit `4i`; the last one sets `mlen` and `mb_end`, and a meta-block that is
not the last goes on to `ISUNCOMPRESSED`, a last one to the reset of R118 (`enterBlockInfo`, which
`Obligations.HeaderResetsCategories` spells out, with the choices of log 17 and log 23). A zero last nibble of a long length is a `syntax_error`. -/
def Obligations.LengthField : Prop :=
  ∀ (s : State) (i nibbles v : Nat), s.ctl = .mlenNib i nibbles v → v < 16 ^ i →
    (∀ x : BitVec 4,
      (i + 1 < nibbles → ReadsTo 4 (.mlenNib x) s { s with
        bitpos := s.bitpos + 4, ctl := .mlenNib (i + 1) nibbles (v ||| x.toNat <<< (4 * i)) }) ∧
      (nibbles ≤ i + 1 → s.mb.isLast = false → ReadsTo 4 (.mlenNib x) s { s with
        bitpos := s.bitpos + 4, ctl := .isUncompressed
        mb := { s.mb with
          mlen := (v ||| x.toNat <<< (4 * i)) + 1, mbEnd := s.pos + (v ||| x.toNat <<< (4 * i)) + 1 } }) ∧
      (nibbles ≤ i + 1 → s.mb.isLast = true → ReadsTo 4 (.mlenNib x) s (enterBlockInfo { s with
        bitpos := s.bitpos + 4
        mb := { s.mb with
          mlen := (v ||| x.toNat <<< (4 * i)) + 1, mbEnd := s.pos + (v ||| x.toNat <<< (4 * i)) + 1 } }))) ∧
    ReadsTo 4 .mlenNibLastZero s { s with bitpos := s.bitpos + 4, err := .syntaxError, phase := .done }

/-- R117, R118: a set `ISUNCOMPRESSED` is a `syntax_error`; a clear one starts the category fields, with
`block_type = 0` and `last_block_type = 1` in each category and the previous meta-block's modes, maps and code arrays
discarded (log 17). That the command registers, which R42 calls unspecified at a header, keep the last command's values is
the model's choice, log 23. -/
def Obligations.HeaderResetsCategories : Prop :=
  ∀ s : State,
    (s.ctl = .isUncompressed →
      ReadsTo 1 .isUncompressed0 s (enterBlockInfo { s with bitpos := s.bitpos + 1 }) ∧
      ReadsTo 1 .isUncompressed1 s { s with bitpos := s.bitpos + 1, err := .syntaxError, phase := .done }) ∧
    enterBlockInfo s = { s with
      ctl := .count (.blockTypes .literal)
      mb := { s.mb with
        lit := { s.mb.lit with blockType := 0, lastBlockType := 1 }
        iac := { s.mb.iac with blockType := 0, lastBlockType := 1 }
        dist := { s.mb.dist with blockType := 0, lastBlockType := 1 }
        contextMode := [], litMap := [], distMap := [], litCode := [], iacCode := [], distCode := [] } }

/-- R119: the values of a 1..256 count, handed to `storeCount` (`Obligations.CountsStored`); V0 and V1 are one element
and VX the next (log 11). -/
def Obligations.CountValues : Prop :=
  ∀ (s : State) (u : CountUse),
    (s.ctl = .count u →
      ReadsTo 1 .var256One s (storeCount u 1 { s with bitpos := s.bitpos + 1 }) ∧
      (Fits 4 s → exec .var256Two s = .next (storeCount u 2 { s with bitpos := s.bitpos + 4 })) ∧
      (∀ n : BitVec 3, n ≠ 0 → Fits 4 s →
        exec (.var256More n) s = .next { s with bitpos := s.bitpos + 4, ctl := .countX u n.toNat }) ∧
      (∀ i : Instr, i = .var256Two ∨ (∃ n, i = .var256More n) →
        (Fits 1 s → ¬ Fits 4 s → exec i s = .next { s with
          bitpos := s.bitpos + 1, err := .needMoreInput, phase := .done }) ∧
        (¬ Fits 1 s → exec i s = .next { s with err := .needMoreInput, phase := .done }))) ∧
    (∀ n x : Nat, s.ctl = .countX u n →
      ReadsTo n (.vx x) s (storeCount u (2 ^ n + x + 1) { s with bitpos := s.bitpos + n }))

/-- R120, R124, R107: where a count goes and what follows it. One block type fixes `block_len` at `2^24`; one tree gives
an all-zero map that reads no bits. -/
def Obligations.CountsStored : Prop :=
  ∀ (s : State) (v : Nat),
    (∀ c : Cat, 2 ≤ v → storeCount (.blockTypes c) v s = { s with
      ctl := .hskip (.btype c), mb := s.mb.setBlock c { s.mb.block c with numTypes := v } }) ∧
    (∀ c : Cat, v = 1 → storeCount (.blockTypes c) v s = { s with
      ctl := (match c with
        | .literal => .count (.blockTypes .insertCopy)
        | .insertCopy => .count (.blockTypes .distance)
        | .distance => .npostfix)
      mb := s.mb.setBlock c { s.mb.block c with numTypes := v, blockLen := 2 ^ 24 } }) ∧
    (2 ≤ v → storeCount .treesL v s = { s with ctl := .rleMaxF .literal, mb := { s.mb with ntreesL := v } } ∧
      storeCount .treesD v s = { s with ctl := .rleMaxF .distance, mb := { s.mb with ntreesD := v } }) ∧
    (v = 1 →
      storeCount .treesL v s = { s with
        ctl := .count .treesD
        mb := { s.mb with ntreesL := 1, litMap := List.replicate (64 * s.mb.lit.numTypes) 0 } } ∧
      storeCount .treesD v s = { s with
        ctl := .hskip .lit
        mb := { s.mb with ntreesD := 1, distMap := List.replicate (4 * s.mb.dist.numTypes) 0 } })

/-- R122: `NPOSTFIX` and `NDIRECT`. -/
def Obligations.DistanceParameters : Prop :=
  ∀ s : State,
    (∀ v : BitVec 2, s.ctl = .npostfix → ReadsTo 2 (.npostfix v) s { s with
      bitpos := s.bitpos + 2, ctl := .ndirectf, mb := { s.mb with npostfix := v.toNat } }) ∧
    (∀ v : BitVec 4, s.ctl = .ndirectf → ReadsTo 4 (.ndirectf v) s { s with
      bitpos := s.bitpos + 4, ctl := .cmode
      mb := { s.mb with
        ndirect := v.toNat * 2 ^ s.mb.npostfix
        distAlphabet := 16 + v.toNat * 2 ^ s.mb.npostfix + 48 * 2 ^ s.mb.npostfix } })

/-- R100, R123: each context mode is appended for the next literal block type; after `num_types[0]` of them comes
`NTREESL`. -/
def Obligations.ContextModes : Prop :=
  ∀ s : State, s.ctl = .cmode →
    ∀ e ∈ [(Instr.cmodeLsb6, ContextMode.lsb6), (.cmodeMsb6, .msb6), (.cmodeUtf8, .utf8), (.cmodeSigned, .signed)],
      ReadsTo 2 e.1 s { s with
        bitpos := s.bitpos + 2
        ctl := if s.mb.contextMode.length + 1 < s.mb.lit.numTypes then .cmode else .count .treesL
        mb := { s.mb with contextMode := s.mb.contextMode ++ [e.2] } }

/-- R107, R108: the elements of a context map: `RLEMAX`, the three kinds of map symbol, and a run's extra bits with the
check against the map's size (R111) before any zero is stored. -/
def Obligations.ContextMapElements : Prop :=
  ∀ (s : State) (m : MapSel),
    mapSize m s = (match m with
      | .literal => 64 * s.mb.lit.numTypes
      | .distance => 4 * s.mb.dist.numTypes) ∧
    (s.ctl = .rleMaxF m →
      ReadsTo 1 .rleMaxF0 s { s with bitpos := s.bitpos + 1, ctl := .hskip (.cmap m 0) } ∧
      ReadsTo 1 .rleMaxF1 s { s with bitpos := s.bitpos + 1, ctl := .rleMaxM1 m }) ∧
    (∀ v : BitVec 4, s.ctl = .rleMaxM1 m →
      ReadsTo 4 (.rleMaxM1 v) s { s with bitpos := s.bitpos + 4, ctl := .hskip (.cmap m (v.toNat + 1)) }) ∧
    (∀ (rlemax : Nat) (code : Code) (acc : List Nat) (n k : Nat), s.ctl = .mapSym m rlemax code acc →
      ReadsTo n (.cmapZero n) s { s with
        bitpos := s.bitpos + n
        ctl := if acc.length + 1 < mapSize m s then .mapSym m rlemax code (acc ++ [0]) else .imtf m (acc ++ [0]) } ∧
      ReadsTo n (.cmapRun n k) s { s with bitpos := s.bitpos + n, ctl := .mapRun m rlemax code acc k } ∧
      ReadsTo n (.cmapValue n k) s { s with
        bitpos := s.bitpos + n
        ctl := if acc.length + 1 < mapSize m s then .mapSym m rlemax code (acc ++ [k - rlemax])
          else .imtf m (acc ++ [k - rlemax]) }) ∧
    (∀ (rlemax : Nat) (code : Code) (acc : List Nat) (k x : Nat), s.ctl = .mapRun m rlemax code acc k →
      ReadsTo k (.runx x) s
        (if mapSize m s < acc.length + (2 ^ k + x) then
          { s with bitpos := s.bitpos + k, err := .contextMapError, phase := .done }
        else { s with
          bitpos := s.bitpos + k
          ctl := if acc.length + (2 ^ k + x) < mapSize m s
            then .mapSym m rlemax code (acc ++ List.replicate (2 ^ k + x) 0)
            else .imtf m (acc ++ List.replicate (2 ^ k + x) 0) }))

/-- R107, R109, R124: `IMTF` stores the map, as read or after the inverse move-to-front, and the header goes on. -/
def Obligations.ContextMapStored : Prop :=
  ∀ (s : State) (acc : List Nat),
    ∀ e ∈ [(Instr.imtf0, acc), (.imtf1, inverseMtf acc)],
      (s.ctl = .imtf .literal acc → ReadsTo 1 e.1 s { s with
        bitpos := s.bitpos + 1, ctl := .count .treesD, mb := { s.mb with litMap := e.2 } }) ∧
      (s.ctl = .imtf .distance acc → ReadsTo 1 e.1 s { s with
        bitpos := s.bitpos + 1, ctl := .hskip .lit, mb := { s.mb with distMap := e.2 } })

/-- R109: the output of inverse move-to-front, entry by entry: an entry `k` gives the value at place `k` of the list that
has the values output so far, the latest first and each once, and after them the other values of 0..255 in order. R110
(derived by the spec from R107, R109): it keeps a map's length, and keeps its entries below the number of trees. -/
def Obligations.MtfStaysBelowTrees : Prop :=
  inverseMtf [] = [] ∧
  (∀ (m : List Nat) (k : Nat), (∀ e ∈ m, e < 256) → k < 256 →
    ∃ v, ((inverseMtf m).reverse.eraseDups ++ (List.range 256).filter (fun x => decide (x ∉ inverseMtf m)))[k]? = some v ∧
      inverseMtf (m ++ [k]) = inverseMtf m ++ [v]) ∧
  ∀ (m : List Nat) (T : Nat), T ≤ 256 → (∀ e ∈ m, e < T) →
    (inverseMtf m).length = m.length ∧ ∀ e ∈ inverseMtf m, e < T

/-! ### Prefix codes -/

/-- R92, R93, R94: `HSKIP` 1 announces a simple code and 0, 2, 3 a complex one whose first entries are skipped;
`NSYMM1` gives the number of symbols less one. -/
def Obligations.CodeHeader : Prop :=
  ∀ (s : State) (u : CodeUse),
    (s.ctl = .hskip u →
      ReadsTo 2 .hskipSimple s { s with bitpos := s.bitpos + 2, ctl := .nsymm1 u } ∧
      ∀ e ∈ [(Instr.hskipComplex0, 0), (.hskipComplex2, 2), (.hskipComplex3, 3)],
        ReadsTo 2 e.1 s { s with
          bitpos := s.bitpos + 2
          ctl := .clen u { i := e.2, cl := List.replicate 18 0, space := 32, num := 0 } }) ∧
    (s.ctl = .nsymm1 u →
      ∀ e ∈ [(Instr.nsymm1One, 1), (.nsymm1Two, 2), (.nsymm1Three, 3), (.nsymm1Four, 4)],
        ReadsTo 2 e.1 s { s with bitpos := s.bitpos + 2, ctl := .symbol u e.2 [] false })

/-- R93: a `SYMBOL` takes `ab(A)` bits (R66) and is remembered. After the last one an invalid symbol raises
`huffman_length_error`; else one symbol is the code `Single`, two and three get their fixed lengths, four wait for
`TREESEL`, which selects the lengths 2, 2, 2, 2 or 1, 2, 3, 3. (How the invalid symbol is remembered is log 19.) -/
def Obligations.SimpleCodeSymbols : Prop :=
  (∀ A n : Nat, 2 ≤ A → (ab A ≤ n ↔ A - 1 < 2 ^ n)) ∧
  (∀ (s : State) (u : CodeUse) (syms : List Nat), s.ctl = .treeSel u syms →
    ∀ e ∈ [(Instr.treeSel0, [2, 2, 2, 2]), (.treeSel1, [1, 2, 3, 3])],
      ReadsTo 1 e.1 s
        (storeCode u (.lengths (listedLens (alphabetOf u s) syms e.2)) { s with bitpos := s.bitpos + 1 })) ∧
  ∀ (s : State) (u : CodeUse) (nsym : Nat) (syms : List Nat) (bad : Bool) (v : Nat),
    s.ctl = .symbol u nsym syms bad → syms.length < nsym → nsym ≤ 4 →
    ∀ e ∈ [(Instr.symbol v, bad), (.symbolInvalid v, true)],
      ReadsTo (ab (alphabetOf u s)) e.1 s
        (let s1 := { s with bitpos := s.bitpos + ab (alphabetOf u s) }
         if syms.length + 1 < nsym then { s1 with ctl := .symbol u nsym (syms ++ [v]) e.2 }
         else if e.2 then { s1 with err := .huffmanLengthError, phase := .done }
         else if nsym = 1 then storeCode u (.single v) s1
         else if nsym = 2 then storeCode u (.lengths (listedLens (alphabetOf u s) (syms ++ [v]) [1, 1])) s1
         else if nsym = 3 then storeCode u (.lengths (listedLens (alphabetOf u s) (syms ++ [v]) [1, 2, 2])) s1
         else { s1 with ctl := .treeSel u (syms ++ [v]) })

/-- R93: length `len[i]` goes to the `i`-th listed symbol, every other symbol has length 0, and with the fixed lengths
the result is a code. -/
def Obligations.ListedSymbolsGetTheirLengths : Prop :=
  ∀ (A : Nat) (syms lens : List Nat), syms.Nodup → (∀ v ∈ syms, v < A) → syms.length = lens.length →
    (listedLens A syms lens).length = A ∧
    (∀ (i v : Nat), syms[i]? = some v → (listedLens A syms lens)[v]? = lens[i]?) ∧
    (∀ v, v < A → v ∉ syms → (listedLens A syms lens)[v]? = some 0) ∧
    (lens = [1, 1] ∨ lens = [1, 2, 2] ∨ lens = [2, 2, 2, 2] ∨ lens = [1, 2, 3, 3] →
      (Code.lengths (listedLens A syms lens)).valid A = true)

/-- R67, R68, R94: an entry of the code-length code is written at its place in `CL_ORDER`; a non-zero one takes its share
of the space. The entries end when a non-zero one fills or overfills the space, or after entry 17; then one non-zero
entry is the code `Single`, a full space is a code, and anything else raises `huffman_length_error`. -/
def Obligations.CodeLengthEntries : Prop :=
  clOrder = [1, 2, 3, 4, 0, 5, 17, 6, 16, 7, 8, 9, 10, 11, 12, 13, 14, 15] ∧
  ∀ (s : State) (u : CodeUse) (st : ClLocals), s.ctl = .clen u st → 0 < st.space → 0 < alphabetOf u s →
    ∀ e ∈ [(Instr.clen0, 2, 0), (.clen3, 2, 3), (.clen4, 2, 4), (.clen2, 3, 2), (.clen1, 4, 1), (.clen5, 4, 5)],
      ReadsTo e.2.1 e.1 s
        (let s1 := { s with bitpos := s.bitpos + e.2.1 }
         let cl := st.cl.set (clOrder.getD st.i 0) e.2.2
         let space := if e.2.2 = 0 then st.space else st.space - (32 / 2 ^ e.2.2 : Nat)
         let num := if e.2.2 = 0 then st.num else st.num + 1
         let lens : LenLocals := { lens := [], space := 32768, prev := 8, rep := 0, replen := 0 }
         if (e.2.2 ≠ 0 ∧ space ≤ 0) ∨ 17 ≤ st.i then
           if num = 1 then { s1 with ctl := .clSym u (.single (cl.findIdx (fun l => decide (l ≠ 0)))) lens }
           else if space = 0 then { s1 with ctl := .clSym u (.lengths cl) lens }
           else { s1 with err := .huffmanLengthError, phase := .done }
         else { s1 with ctl := .clen u { i := st.i + 1, cl := cl, space := space, num := num } })

/-- R95: a literal length is appended and takes its share of the space; the repeat symbols go on to their extra bits.
After each length the loop goes on while symbols and space are left; then a full space stores the code, padded with
zeros, and any other raises `huffman_length_error`. -/
def Obligations.SymbolLengths : Prop :=
  ∀ (s : State) (u : CodeUse) (code : Code) (st : LenLocals) (n : Nat),
    (s.ctl = .clSym u code st →
      (∀ c : BitVec 4, ReadsTo n (.clLength n c) s (nextLength u code
        { lens := st.lens ++ [c.toNat]
          space := if c = 0 then st.space else st.space - (32768 / 2 ^ c.toNat : Nat)
          prev := if c = 0 then st.prev else c.toNat
          rep := 0
          replen := st.replen } { s with bitpos := s.bitpos + n })) ∧
      ReadsTo n (.clRepeatPrev n) s { s with bitpos := s.bitpos + n, ctl := .rep16 u code st } ∧
      ReadsTo n (.clRepeatZero n) s { s with bitpos := s.bitpos + n, ctl := .rep17 u code st }) ∧
    nextLength u code st s =
      (if st.lens.length < alphabetOf u s ∧ 0 < st.space then { s with ctl := .clSym u code st }
       else if st.space = 0 then
         storeCode u (.lengths (st.lens ++ List.replicate (alphabetOf u s - st.lens.length) 0)) s
       else { s with err := .huffmanLengthError, phase := .done })

/-- R95: `R16` repeats the previous non-zero length and `R17` the length 0; a repeat of the same kind grows the run to
`((run - 2) << shift) + extra + 3`; a repeat past the alphabet raises `huffman_length_error`. -/
def Obligations.SymbolLengthRepeats : Prop :=
  ∀ (s : State) (u : CodeUse) (code : Code) (st : LenLocals) (newlen shift extra w : Nat) (i : Instr),
    (s.ctl = .rep16 u code st ∧ (∃ x : BitVec 2, i = .r16 x ∧ extra = x.toNat) ∧ newlen = st.prev ∧ shift = 2 ∧ w = 2) ∨
      (s.ctl = .rep17 u code st ∧ (∃ x : BitVec 3, i = .r17 x ∧ extra = x.toNat) ∧ newlen = 0 ∧ shift = 3 ∧ w = 3) →
    ReadsTo w i s
      (let s1 := { s with bitpos := s.bitpos + w }
       let old := if st.replen = newlen then st.rep else 0
       let rep := (if 0 < old then (old - 2) * 2 ^ shift else 0) + extra + 3
       let n := rep - old
       if alphabetOf u s < st.lens.length + n then { s1 with err := .huffmanLengthError, phase := .done }
       else nextLength u code
         { lens := st.lens ++ List.replicate n newlen
           space := if newlen = 0 then st.space else st.space - (n * 2 ^ (15 - newlen) : Nat)
           prev := st.prev
           rep := rep
           replen := newlen } s1)

/-- R38, R107, R120, R121, R125: the register that a code read from the stream goes to, and what the header reads
next. After the last distance code the command loop begins (`nextCommand`). -/
def Obligations.CodesStored : Prop :=
  ∀ (s : State) (T : Code),
    (∀ c : Cat, storeCode (.btype c) T s = { s with
      ctl := .hskip (.bcount c), mb := s.mb.setBlock c { s.mb.block c with btypeCode := T } }) ∧
    (∀ c : Cat, storeCode (.bcount c) T s = { s with
      ctl := .bcount c false, mb := s.mb.setBlock c { s.mb.block c with bcountCode := T } }) ∧
    (∀ (m : MapSel) (rlemax : Nat), storeCode (.cmap m rlemax) T s = { s with ctl := .mapSym m rlemax T [] }) ∧
    storeCode .lit T s = { s with
      ctl := if s.mb.litCode.length + 1 < s.mb.ntreesL then .hskip .lit else .hskip .iac
      mb := { s.mb with litCode := s.mb.litCode ++ [T] } } ∧
    storeCode .iac T s = { s with
      ctl := if s.mb.iacCode.length + 1 < s.mb.iac.numTypes then .hskip .iac else .hskip .dist
      mb := { s.mb with iacCode := s.mb.iacCode ++ [T] } } ∧
    (s.mb.distCode.length + 1 < s.mb.ntreesD → storeCode .dist T s = { s with
      ctl := .hskip .dist, mb := { s.mb with distCode := s.mb.distCode ++ [T] } }) ∧
    (s.mb.ntreesD ≤ s.mb.distCode.length + 1 → storeCode .dist T s =
      nextCommand { s with mb := { s.mb with distCode := s.mb.distCode ++ [T] } })

/-- R88 (derived there from R87): every bit string has exactly one prefix that is a codeword of a stored code: `DecodeSym` answers a symbol of the
alphabet with its length, and no other codeword starts the lookahead. -/
def Obligations.CompleteCodeDecodes : Prop :=
  ∀ (A : Nat) (L : List Nat) (look : BitVec 24), (Code.lengths L).valid A = true →
    ∃ s n, decodeSym (.lengths L) look = some (s, n) ∧ s < A ∧ L[s]? = some n ∧ 1 ≤ n ∧ n ≤ 15 ∧
      ∀ e ∈ canonical L, (∀ i, i < e.1 → (codeBits e.1 e.2.1)[i]? = some (look.getLsbD i)) → e.2.2 = s ∧ e.1 = n

/-- R98 (derived by the spec from R88, R90): the canonical codeword of a symbol, followed by any bits, decodes to the symbol and takes its length. -/
def Obligations.CodewordDecodesToItsSymbol : Prop :=
  ∀ (A : Nat) (L : List Nat) (s l : Nat) (rest : List Bool), (Code.lengths L).valid A = true → L[s]? = some l → l ≠ 0 →
    (symBits (.lengths L) s).length = l ∧ decodeSym (.lengths L) (lookOf (symBits (.lengths L) s ++ rest)) = some (s, l)

/-- R91 (derived by the spec from R88): the lookup by range answers what `DecodeSym` answers. -/
def Obligations.RangeFormAgrees : Prop :=
  ∀ (A : Nat) (L : List Nat) (look : BitVec 24), (Code.lengths L).valid A = true →
    decodeRange L look = decodeSym (.lengths L) look

/-! ### Block switches, commands, literals -/

/-- R132: the block type that each block-type symbol selects, the swap of current and last, and the block count after
it. -/
def Obligations.BlockSwitchTypes : Prop :=
  ∀ (s : State) (c : Cat) (n k : Nat), s.ctl = .btype c →
    ∀ e ∈ [(Instr.btypeLast n, (s.mb.block c).lastBlockType), (.btypeNext n, (s.mb.block c).blockType + 1),
        (.btypeExplicit n k, k - 2)],
      ReadsTo n e.1 s { s with
        bitpos := s.bitpos + n
        ctl := .bcount c true
        mb := s.mb.setBlock c { s.mb.block c with
          lastBlockType := (s.mb.block c).blockType
          blockType := if (s.mb.block c).numTypes ≤ e.2 then e.2 - (s.mb.block c).numTypes else e.2 } }

/-- R69, R121: a block-count symbol goes on to its extra bits; they complete `block_len`, and after a block switch the
waiting symbol is read, in the header the next category's fields. -/
def Obligations.BlockCounts : Prop :=
  blenTable = [(1, 2), (5, 2), (9, 2), (13, 2), (17, 3), (25, 3), (33, 3), (41, 3), (49, 4), (65, 4), (81, 4), (97, 4),
    (113, 5), (145, 5), (177, 5), (209, 5), (241, 6), (305, 6), (369, 7), (497, 8), (753, 9), (1265, 10), (2289, 11),
    (4337, 12), (8433, 13), (16625, 24)] ∧
  ∀ (s : State) (c : Cat) (switch : Bool) (n k x : Nat),
    (s.ctl = .bcount c switch →
      ReadsTo n (.bcount n k) s { s with bitpos := s.bitpos + n, ctl := .bextra c switch k }) ∧
    (s.ctl = .bextra c switch k → ReadsTo (tableExtra blenTable k) (.bextra x) s { s with
      bitpos := s.bitpos + tableExtra blenTable k
      ctl := if switch then symCtl c else (match c with
        | .literal => .count (.blockTypes .insertCopy)
        | .insertCopy => .count (.blockTypes .distance)
        | .distance => .npostfix)
      mb := s.mb.setBlock c { s.mb.block c with blockLen := tableBase blenTable k + x } })

/-- R133: before a symbol of a category with two or more types a block switch is read when its count is 0, and the symbol
takes one from the count; with one type there is neither. -/
def Obligations.BlockSwitchWhenDue : Prop :=
  ∀ (s : State) (c : Cat),
    (2 ≤ (s.mb.block c).numTypes → (s.mb.block c).blockLen = 0 → enterSym c s = { s with ctl := .btype c }) ∧
    ((s.mb.block c).numTypes < 2 ∨ 0 < (s.mb.block c).blockLen → enterSym c s = { s with
      ctl := (match c with
        | .literal => .lit
        | .insertCopy => .iac
        | .distance => .dist) }) ∧
    (2 ≤ (s.mb.block c).numTypes → countDown c s = { s with
      mb := s.mb.setBlock c { s.mb.block c with blockLen := (s.mb.block c).blockLen - 1 } }) ∧
    ((s.mb.block c).numTypes < 2 → countDown c s = s)

/-- R72, R130, R131, R133: the insert-and-copy symbol `v`, whatever its cell: it counts one command, its cell and its low
six bits give the insert code, the copy code and the implicit-zero sentinel. -/
def Obligations.CommandSymbols : Prop :=
  cellTable = [(0, 0, true), (0, 8, true), (0, 0, false), (0, 8, false), (8, 0, false), (8, 8, false), (0, 16, false),
    (16, 0, false), (8, 16, false), (16, 8, false), (16, 16, false)] ∧
  (∀ v, v < 704 → ∀ n, ∃ i, iacInstr n v = some i) ∧
  ∀ (s : State) (n v : Nat) (i : Instr), s.ctl = .iac → iacInstr n v = some i →
    ReadsFrom n i s (countDown .insertCopy s) { countDown .insertCopy s with
      bitpos := s.bitpos + n
      cmd := { s.cmd with implicit0 := (cellTable.getD (v / 64) (0, 0, false)).2.2 }
      ctl := .iextra ((cellTable.getD (v / 64) (0, 0, false)).1 + v / 8 % 8)
        ((cellTable.getD (v / 64) (0, 0, false)).2.1 + v % 8) }

/-- R70, R71, R130: the extra bits complete `insert_len` and `copy_len`; then come the literals. -/
def Obligations.CommandLengths : Prop :=
  insTable = [(0, 0), (1, 0), (2, 0), (3, 0), (4, 0), (5, 0), (6, 1), (8, 1), (10, 2), (14, 2), (18, 3), (26, 3), (34, 4),
    (50, 4), (66, 5), (98, 5), (130, 6), (194, 7), (322, 8), (578, 9), (1090, 10), (2114, 12), (6210, 14), (22594, 24)] ∧
  cpyTable = [(2, 0), (3, 0), (4, 0), (5, 0), (6, 0), (7, 0), (8, 0), (9, 0), (10, 1), (12, 1), (14, 2), (18, 2), (22, 3),
    (30, 3), (38, 4), (54, 4), (70, 5), (102, 5), (134, 6), (198, 7), (326, 8), (582, 9), (1094, 10), (2118, 24)] ∧
  ∀ (s : State) (icode ccode x : Nat),
    (s.ctl = .iextra icode ccode → ReadsTo (tableExtra insTable icode) (.iextra x) s { s with
      bitpos := s.bitpos + tableExtra insTable icode
      cmd := { s.cmd with insertLen := tableBase insTable icode + x }
      ctl := .cextra ccode }) ∧
    (s.ctl = .cextra ccode → ReadsTo (tableExtra cpyTable ccode) (.cextra x) s (nextInsert { s with
      bitpos := s.bitpos + tableExtra cpyTable ccode
      cmd := { s.cmd with copyLen := tableBase cpyTable ccode + x } }))

/-- R129, R134, R136, R139, R126: what follows the lengths and each literal. A full meta-block ends here, the last one
with the padding check; literals that are left come next; then the distance, which for the implicit-zero sentinel is the
last distance and reads no bits. After a copy the command loop makes the same test. -/
def Obligations.CommandFlow : Prop :=
  ∀ s : State,
    (s.mb.mbEnd ≤ s.pos → nextInsert s = { s with ctl := if s.mb.isLast then .pad else .isLast } ∧
      nextCommand s = { s with ctl := if s.mb.isLast then .pad else .isLast }) ∧
    (s.pos < s.mb.mbEnd →
      nextCommand s = enterSym .insertCopy s ∧
      (0 < s.cmd.insertLen → nextInsert s = enterSym .literal s) ∧
      (s.cmd.insertLen = 0 → s.cmd.implicit0 = false → nextInsert s = enterSym .distance s) ∧
      (s.cmd.insertLen = 0 → s.cmd.implicit0 = true → nextInsert s = { s with
        ctl := .copy
        cmd := { s.cmd with dcode := 0, distance := s.hist.slot (s.hist.idx - 1) } }))

/-- R135, R146: a literal counts itself, in `block_len` and in `insert_len` (log 24), and writes its byte at `OUT[pos]` and `RING[pos mod 2^wbits]` and nowhere
else, shifts `p1` and `p2` and advances `pos`; with `OUT` full it raises `syntax_error` and writes nothing. -/
def Obligations.LiteralOutput : Prop :=
  ∀ (s : State) (n : Nat) (b : Byte), s.ctl = .lit → MemoriesWf s →
    (Fits n s → s.pos < s.cfgOutCap.toNat → ∃ (o r : Memory),
      exec (.literal n b) s = .next (nextInsert { countDown .literal s with
        bitpos := s.bitpos + n, pos := s.pos + 1, p1 := b, p2 := s.p1, outMem := o, ring := r
        cmd := { s.cmd with insertLen := s.cmd.insertLen - 1 } }) ∧
      (∀ a, memRead o a = if a = s.pos then b else memRead s.outMem a) ∧
      (∀ a, memRead r a = if a = s.pos % 2 ^ s.wbits then b else memRead s.ring a)) ∧
    (Fits n s → s.cfgOutCap.toNat ≤ s.pos → exec (.literal n b) s = .next { countDown .literal s with
      bitpos := s.bitpos + n, err := .syntaxError, phase := .done }) ∧
    (¬ Fits n s → exec (.literal n b) s = .next { countDown .literal s with err := .needMoreInput, phase := .done })

/-- R101 to R105, R75: the context id in each mode, always below 64, and the table `LUT2`. -/
def Obligations.ContextIdBelow64 : Prop :=
  (∀ b : Byte,
    (b.toNat = 0 → lut2 b = 0) ∧ (1 ≤ b.toNat → b.toNat ≤ 15 → lut2 b = 1) ∧
    (16 ≤ b.toNat → b.toNat ≤ 63 → lut2 b = 2) ∧ (64 ≤ b.toNat → b.toNat ≤ 127 → lut2 b = 3) ∧
    (128 ≤ b.toNat → b.toNat ≤ 191 → lut2 b = 4) ∧ (192 ≤ b.toNat → b.toNat ≤ 239 → lut2 b = 5) ∧
    (240 ≤ b.toNat → b.toNat ≤ 254 → lut2 b = 6) ∧ (b.toNat = 255 → lut2 b = 7)) ∧
  ∀ (rom : Rom) (p1 p2 : Byte),
    contextId rom .lsb6 p1 p2 = p1.toNat % 64 ∧
    contextId rom .msb6 p1 p2 = p1.toNat / 4 ∧
    contextId rom .utf8 p1 p2 = (rom.lut0[p1.toNat]'p1.isLt).toNat ||| (rom.lut1[p2.toNat]'p2.isLt).toNat ∧
    contextId rom .signed p1 p2 = 8 * lut2 p1 + lut2 p2 ∧
    ∀ mode : ContextMode, contextId rom mode p1 p2 < 64

/-! ### Distances -/

/-- R73, R137, R138, R140: the short distance code `d`, whatever its constructor: it counts itself, sets `dist_ctx` and
`dcode`, and writes a recent distance plus a small number to `distance`; a result of 0 or below raises `syntax_error`
after that write (R161). What the 32-bit register holds after the write of a negative number is a free value (log 18). -/
def Obligations.ShortDistances : Prop :=
  (distCtxOf 2 = 0 ∧ distCtxOf 3 = 1 ∧ distCtxOf 4 = 2 ∧ ∀ n, 5 ≤ n → distCtxOf n = 3) ∧
  shortTable = [(1, 0), (2, 0), (3, 0), (0, 0), (1, -1), (1, 1), (1, -2), (1, 2), (1, -3), (1, 3), (2, -1), (2, 1),
    (2, -2), (2, 2), (2, -3), (2, 3)] ∧
  (∀ d, d < 16 → ∀ n, ∃ i, distShortInstr n d = some i) ∧
  (∀ v : Int, 0 ≤ v → storedDistance v = v.toNat) ∧
  ∀ (s : State) (n d : Nat) (i : Instr) (D : Int), s.ctl = .dist → distShortInstr n d = some i →
    D = (s.hist.slot (s.hist.idx - (shortTable.getD d (1, 0)).1) : Int) + (shortTable.getD d (1, 0)).2 →
    ReadsFrom n i s
      { countDown .distance s with cmd := { s.cmd with distCtx := distCtxOf s.cmd.copyLen } }
      (if 0 < D then
        { countDown .distance s with
          bitpos := s.bitpos + n, ctl := .copy
          cmd := { s.cmd with distCtx := distCtxOf s.cmd.copyLen, dcode := d, distance := storedDistance D } }
      else
        { countDown .distance s with
          bitpos := s.bitpos + n, err := .syntaxError, phase := .done
          cmd := { s.cmd with distCtx := distCtxOf s.cmd.copyLen, dcode := d, distance := storedDistance D } })

/-- R137, R138, R141, R142: a direct code gives `dcode - 15`; a ranged one reads its extra bits, which complete the
distance by the rule's formula. -/
def Obligations.DirectAndRangedDistances : Prop :=
  ∀ (s : State) (n d x : Nat),
    (s.ctl = .dist →
      ReadsFrom n (.distDirect n d) s
        { countDown .distance s with cmd := { s.cmd with distCtx := distCtxOf s.cmd.copyLen } }
        { countDown .distance s with
          bitpos := s.bitpos + n, ctl := .copy
          cmd := { s.cmd with distCtx := distCtxOf s.cmd.copyLen, dcode := d, distance := d - 15 } } ∧
      ReadsFrom n (.distRanged n d) s
        { countDown .distance s with cmd := { s.cmd with distCtx := distCtxOf s.cmd.copyLen } }
        { countDown .distance s with
          bitpos := s.bitpos + n, ctl := .dextra
          cmd := { s.cmd with distCtx := distCtxOf s.cmd.copyLen, dcode := d } }) ∧
    (s.ctl = .dextra →
      let k := s.cmd.dcode - s.mb.ndirect - 16
      let nbits := 1 + k / 2 ^ (s.mb.npostfix + 1)
      let hcode := k / 2 ^ s.mb.npostfix
      let lcode := k % 2 ^ s.mb.npostfix
      let offset := (2 + hcode % 2) * 2 ^ nbits - 4
      ReadsTo nbits (.dextra x) s { s with
        bitpos := s.bitpos + nbits, ctl := .copy
        cmd := { s.cmd with distance := (offset + x) * 2 ^ s.mb.npostfix + lcode + s.mb.ndirect + 1 } })

/-- R142: a ranged distance of the alphabet reads 1 to 24 extra bits, lies above the direct ones and below `2^30`, and no
two ranged codes with their extra bits give the same distance. -/
def Obligations.RangedDistancesDistinct : Prop :=
  ∀ npostfix ndirect : Nat, npostfix ≤ 3 → ndirect ≤ 120 →
    ∀ d x : Nat, 16 + ndirect ≤ d → d < 16 + ndirect + 48 * 2 ^ npostfix → x < 2 ^ rangedBits npostfix ndirect d →
      1 ≤ rangedBits npostfix ndirect d ∧ rangedBits npostfix ndirect d ≤ 24 ∧
      ndirect + 1 ≤ rangedDistance npostfix ndirect d x ∧ rangedDistance npostfix ndirect d x < 2 ^ 30 ∧
      ∀ d' x' : Nat, 16 + ndirect ≤ d' → d' < 16 + ndirect + 48 * 2 ^ npostfix →
        x' < 2 ^ rangedBits npostfix ndirect d' →
        rangedDistance npostfix ndirect d x = rangedDistance npostfix ndirect d' x' → d = d' ∧ x = x'

/-- R31, R144, R145: a push makes its distance the last one and moves the others one place back; a decode starts with
4, 11, 15, 16. -/
def Obligations.PushShiftsTheDistances : Prop :=
  (∀ (h : DistRing) (d : Nat),
    (h.push d).last 1 = d ∧ (h.push d).last 2 = h.last 1 ∧ (h.push d).last 3 = h.last 2 ∧
    (h.push d).last 4 = h.last 3) ∧
  DistRing.start.last 1 = 4 ∧ DistRing.start.last 2 = 11 ∧ DistRing.start.last 3 = 15 ∧ DistRing.start.last 4 = 16

/-! ### Copies, dictionary words, the end -/

/-- R130, R143, R144, R147: a back-reference that fits writes `copy_len` bytes, each equal to the byte `distance` before
it in the output, its own bytes included, and no other byte of `OUT`; its distance is pushed unless its code is 0. One
that would pass `mb_end` or `OUT_CAP` raises `syntax_error` and writes no byte. (What `RING` holds at the written indices
is `Obligations.RingHoldsTheWindow`.) -/
def Obligations.BackReferenceCopies : Prop :=
  ∀ s : State, MachineInv s → RingInv s → s.hostq = [] → s.phase = .run → s.ctl = .copy →
    s.cmd.distance ≤ min s.pos s.maxBackward →
    (s.pos + s.cmd.copyLen ≤ s.mb.mbEnd → s.pos + s.cmd.copyLen ≤ s.cfgOutCap.toNat → ∃ t : State, step s = .next t ∧
      t.pos = s.pos + s.cmd.copyLen ∧
      (∀ i, i < s.cmd.copyLen →
        memRead t.outMem (s.pos + i) = memRead t.outMem (s.pos + i - s.cmd.distance)) ∧
      (∀ a, a < s.pos ∨ s.pos + s.cmd.copyLen ≤ a → memRead t.outMem a = memRead s.outMem a) ∧
      (∀ j, (∀ i, i < s.cmd.copyLen → j ≠ (s.pos + i) % 2 ^ s.wbits) → memRead t.ring j = memRead s.ring j) ∧
      t.p1 = memRead t.outMem (t.pos - 1) ∧ t.p2 = memRead t.outMem (t.pos - 2) ∧
      t.hist = (if s.cmd.dcode = 0 then s.hist else s.hist.push s.cmd.distance) ∧
      t = nextCommand { s with pos := t.pos, outMem := t.outMem, ring := t.ring, p1 := t.p1, p2 := t.p2, hist := t.hist }) ∧
    (s.mb.mbEnd < s.pos + s.cmd.copyLen ∨ s.cfgOutCap.toNat < s.pos + s.cmd.copyLen → step s = .next { s with
      err := .syntaxError, phase := .done
      hist := if s.cmd.dcode = 0 then s.hist else s.hist.push s.cmd.distance })

/-- R130, R148, R149, R150: a distance beyond the output so far names a dictionary word: its length, its index and its
transform come from `copy_len` and the distance's excess; the transformed word is written at `pos`, and no other byte of
`OUT`; each of its bytes goes to `RING` too and through `p1` and `p2` (R30, R146). A length outside 4..24, a transform id of
121 or more, and a word that would pass `mb_end` or `OUT_CAP` raise `syntax_error` and write no byte. R150 to R153, R155,
R156: the transform's type keeps the word, drops bytes at an end, or changes the case of its first character or of every
character, one after another; R154: the case change of the character at byte `i`, and its length in bytes. -/
def Obligations.DictionaryReference : Prop :=
  (∀ (w : List Byte) (i : Nat) (b : Byte), w[i]? = some b →
    (b.toNat < 0xC0 → ferment w i = (if 0x61 ≤ b.toNat ∧ b.toNat ≤ 0x7A then w.set i (b ^^^ 0x20#8) else w, 1)) ∧
    (0xC0 ≤ b.toNat → b.toNat < 0xE0 → (ferment w i).2 = 2 ∧
      (∀ c, w[i + 1]? = some c → (ferment w i).1 = w.set (i + 1) (c ^^^ 0x20#8)) ∧
      (w[i + 1]? = none → (ferment w i).1 = w)) ∧
    (0xE0 ≤ b.toNat → (ferment w i).2 = 3 ∧
      (∀ c, w[i + 2]? = some c → (ferment w i).1 = w.set (i + 2) (c ^^^ 0x05#8)) ∧
      (w[i + 2]? = none → (ferment w i).1 = w))) ∧
  (∀ (w : List Byte) (k : Nat),
    transformWord 0 w = w ∧
    (1 ≤ k → k ≤ 9 → transformWord k w = w.take (w.length - k)) ∧
    (12 ≤ k → k ≤ 20 → transformWord k w = w.drop (k - 11)) ∧
    (w = [] → transformWord 10 w = [] ∧ transformWord 11 w = []) ∧
    (w ≠ [] → transformWord 10 w = (ferment w 0).1 ∧
      transformWord 11 w = (ferment w 0).1.take (ferment w 0).2 ++ transformWord 11 ((ferment w 0).1.drop (ferment w 0).2))) ∧
  ∀ s : State, MemoriesWf s → s.hostq = [] → s.phase = .run → s.ctl = .copy →
    min s.pos s.maxBackward < s.cmd.distance →
    (s.cmd.copyLen < 4 ∨ 24 < s.cmd.copyLen → step s = .next { s with err := .syntaxError, phase := .done }) ∧
    (4 ≤ s.cmd.copyLen → s.cmd.copyLen ≤ 24 → ∀ word idx tid : Nat,
      word = s.cmd.distance - min s.pos s.maxBackward - 1 → idx = word % 2 ^ ndbits s.cmd.copyLen →
      tid = word / 2 ^ ndbits s.cmd.copyLen →
      (121 ≤ tid → step s = .next { s with err := .syntaxError, phase := .done }) ∧
      (∀ (h : tid < 121) (w : List Byte),
        w = (s.rom.transforms[tid]'h).pre ++
          transformWord (s.rom.transforms[tid]'h).kind.val
            ((List.range s.cmd.copyLen).map fun j =>
              memRead s.rom.dict (doffset s.cmd.copyLen + idx * s.cmd.copyLen + j)) ++
          (s.rom.transforms[tid]'h).suf →
        (s.mb.mbEnd < s.pos + w.length ∨ s.cfgOutCap.toNat < s.pos + w.length →
          step s = .next { s with err := .syntaxError, phase := .done }) ∧
        (s.pos + w.length ≤ s.mb.mbEnd → s.pos + w.length ≤ s.cfgOutCap.toNat → ∃ t : State, step s = .next t ∧
          t.pos = s.pos + w.length ∧
          (∀ i b, w[i]? = some b → memRead t.outMem (s.pos + i) = b) ∧
          (∀ a, a < s.pos ∨ s.pos + w.length ≤ a → memRead t.outMem a = memRead s.outMem a) ∧
          (∀ j, (∀ i, i < w.length → j ≠ (s.pos + i) % 2 ^ s.wbits) → memRead t.ring j = memRead s.ring j) ∧
          (∀ i b, w[i]? = some b → (∀ j, i < j → j < w.length → (s.pos + j) % 2 ^ s.wbits ≠ (s.pos + i) % 2 ^ s.wbits) →
            memRead t.ring ((s.pos + i) % 2 ^ s.wbits) = b) ∧
          (w = [] → t.p1 = s.p1 ∧ t.p2 = s.p2) ∧ (∀ b, w = [b] → t.p1 = b ∧ t.p2 = s.p1) ∧
          (∀ u a b, w = u ++ [a, b] → t.p1 = b ∧ t.p2 = a) ∧
          t = nextCommand { s with pos := t.pos, outMem := t.outMem, ring := t.ring, p1 := t.p1, p2 := t.p2 })))

/-- R44, R74, R148: the shape of `DICT`; every byte of every word of length 4 to 24 lies inside it, and the last word ends
at its size. -/
def Obligations.DictionaryWordsInsideRom : Prop :=
  (List.range 21).map (fun k => ndbits (k + 4)) =
    [10, 10, 11, 11, 10, 10, 10, 10, 10, 9, 9, 8, 7, 7, 8, 7, 7, 6, 6, 5, 5] ∧
  doffset 4 = 0 ∧ (∀ l, 4 ≤ l → doffset (l + 1) = doffset l + l * 2 ^ ndbits l) ∧ Config.dictSize = 122784 ∧
  (∀ len idx j : Nat, 4 ≤ len → len ≤ 24 → idx < 2 ^ ndbits len → j < len →
    doffset len + idx * len + j < Config.dictSize) ∧
  doffset 24 + 24 * 2 ^ ndbits 24 = Config.dictSize

/-- R127, R162: the padding up to the byte boundary of `IN` always lies before `END`; zero padding ends the decode with
`end`, any other with `syntax_error`. -/
def Obligations.PaddingEndsDecode : Prop :=
  ∀ s : State, s.ctl = .pad → s.bitpos ≤ endBit s →
    exec .padZero s = .next { s with bitpos := (s.bitpos + 7) / 8 * 8, err := .endOk, phase := .done } ∧
    ∀ v, exec (.padNonzero v) s = .next { s with bitpos := (s.bitpos + 7) / 8 * 8, err := .syntaxError, phase := .done }

/-! ### Whole-machine statements -/

/-- R60, R61, R62, R79 (log 13): at every grammar position, the encoding of every instruction the position admits, followed by any
bits, decodes to that instruction. -/
def Obligations.DecodeEncode : Prop :=
  ∀ (p : Slot) (i : Instr) (rest : List Bool), p.wf = true → p.admits i = true →
    decode p (lookOf (encode p i ++ rest)) = .ok i

/-- R60, R63, R77: what the decoder reads at a well-formed position is a well-formed instruction that the position
admits, and the bits it read begin with the instruction's encoding. -/
def Obligations.EncodeDecode : Prop :=
  ∀ (p : Slot) (look : BitVec 24), p.wf = true → ∃ i, decode p look = .ok i ∧ p.admits i = true ∧ i.wf = true ∧
    ∀ k, k < (encode p i).length → (encode p i)[k]? = some (look.getLsbD k)

/-- The machine's invariant holds at reset (with the reset values of log 5 and log 6, which the model chose). -/
def Obligations.MachineInvAtReset : Prop := MachineInv State.reset

/-- R26, R34 to R39, R77, R83, R110, R126, R160: every step keeps the machine's invariant: the memories' canonical form,
`err` and `phase` in agreement, and for a running decode the bounds of cursor, output, window, last distances, categories,
maps and codes that its control point promises. -/
def Obligations.StepKeepsMachineInv : Prop :=
  ∀ s t : State, MachineInv s → step s = .next t → MachineInv t

/-- R77, R88, R110, R160: from a state of the invariant no step stops: no undecodable bits, no symbol without a
meaning. -/
def Obligations.MachineInvNeverStops : Prop :=
  ∀ s : State, MachineInv s → ∃ t, step s = .next t

/-- R59 (derived by the spec from R146, R143): every step keeps `RING` the last `2^wbits` bytes of `OUT`. -/
def Obligations.RingHoldsTheWindow : Prop :=
  ∀ s t : State, MachineInv s → RingInv s → step s = .next t → RingInv t

/-- 10_state.md: every step keeps every register within the width the spec gives it (`mb_end` within 33 bits, log 8). -/
def Obligations.StepKeepsWidths : Prop :=
  ∀ s t : State, MachineInv s → WidthsOk s → step s = .next t → WidthsOk t

/-- R22, R146, R166: a step of the datapath only appends to `OUT`: the bytes below `pos` and the bytes from the new `pos`
on stay, and `pos` never falls. -/
def Obligations.OutputOnlyAppended : Prop :=
  ∀ s t : State, MemoriesWf s → s.hostq = [] → step s = .next t →
    s.pos ≤ t.pos ∧ ∀ a, a < s.pos ∨ t.pos ≤ a → memRead t.outMem a = memRead s.outMem a

/-- R21, R23, R26 to R31, R57: which steps of the datapath can change which register. `IN`, the ROMs and the
configuration never change; `bitpos` never falls; the window registers change at the window field only, `is_last` at
`ISLAST` only, the last distances at a copy only, the output registers at a literal or a copy only; `phase` leaves RUN
for DONE only, and `err` changes exactly then. -/
def Obligations.RegistersHaveTheirWriters : Prop :=
  ∀ s t : State, s.hostq = [] → step s = .next t →
    t.hostq = [] ∧ t.cfgInLen = s.cfgInLen ∧ t.cfgStartBit = s.cfgStartBit ∧ t.cfgOutCap = s.cfgOutCap ∧
    t.inMem = s.inMem ∧ t.rom = s.rom ∧ s.bitpos ≤ t.bitpos ∧
    (t.wbits ≠ s.wbits ∨ t.maxBackward ≠ s.maxBackward → s.ctl = .window) ∧
    (t.mb.isLast ≠ s.mb.isLast → s.ctl = .isLast) ∧
    (t.hist ≠ s.hist → s.ctl = .copy) ∧
    (t.pos ≠ s.pos ∨ t.outMem ≠ s.outMem ∨ t.ring ≠ s.ring ∨ t.p1 ≠ s.p1 ∨ t.p2 ≠ s.p2 →
      s.ctl = .lit ∨ s.ctl = .copy) ∧
    ((t.phase = s.phase ∧ t.err = s.err) ∨ (s.phase = .run ∧ t.phase = .done ∧ t.err ≠ .ok))

/-- R176 (derived by the spec from R171, R32, R59): two decodes with the same configuration, the same ROMs and the same bytes of `IN` below `IN_LEN` have the
same outcome after any number of steps, whatever every other register and memory held at START. -/
def Obligations.DecodeOutcomeIsDetermined : Prop :=
  ∀ s1 s2 : State, Started s1 → Started s2 → s1.cfgInLen = s2.cfgInLen → s1.cfgStartBit = s2.cfgStartBit →
    s1.cfgOutCap = s2.cfgOutCap → s1.rom = s2.rom →
    (∀ a, a < s1.cfgInLen.toNat → memRead s1.inMem a = memRead s2.inMem a) →
    ∀ (k : Nat) (t1 : State), Host.Core.run Sys2Proof.core k s1 = .next t1 →
      ∃ t2 : State, Host.Core.run Sys2Proof.core k s2 = .next t2 ∧ t1.phase = t2.phase ∧ t1.err = t2.err ∧
        t1.bitpos = t2.bitpos ∧ t1.pos = t2.pos ∧ ∀ a, a < t1.pos → memRead t1.outMem a = memRead t2.outMem a

/-- R177 (derived by the spec from 40 to 45): under the rule's premise on the transforms, every running decode reaches DONE. -/
def Obligations.EveryDecodeEnds : Prop :=
  ∀ s : State, MachineInv s → s.hostq = [] → s.phase = .run → EmptyWordsAreLate s.rom →
    ∃ (k : Nat) (t : State), Host.Core.run Sys2Proof.core k s = .next t ∧ t.phase = .done
end

