-- ==== Sys2Proof/Laws/State.lean ====
section
/-! SUPPORT. One lemma per field per update: what each named operation does to each field of the state. -/

namespace Sys2Proof.Machine

/-! ### raise -/

@[simp] theorem raise_cfgInLen (e : ErrKind) (s : State) : (raise e s).cfgInLen = s.cfgInLen := rfl
@[simp] theorem raise_cfgStartBit (e : ErrKind) (s : State) : (raise e s).cfgStartBit = s.cfgStartBit := rfl
@[simp] theorem raise_cfgOutCap (e : ErrKind) (s : State) : (raise e s).cfgOutCap = s.cfgOutCap := rfl
@[simp] theorem raise_hostq (e : ErrKind) (s : State) : (raise e s).hostq = s.hostq := rfl
@[simp] theorem raise_phase (e : ErrKind) (s : State) : (raise e s).phase = .done := rfl
@[simp] theorem raise_err (e : ErrKind) (s : State) : (raise e s).err = e := rfl
@[simp] theorem raise_bitpos (e : ErrKind) (s : State) : (raise e s).bitpos = s.bitpos := rfl
@[simp] theorem raise_pos (e : ErrKind) (s : State) : (raise e s).pos = s.pos := rfl
@[simp] theorem raise_wbits (e : ErrKind) (s : State) : (raise e s).wbits = s.wbits := rfl
@[simp] theorem raise_maxBackward (e : ErrKind) (s : State) : (raise e s).maxBackward = s.maxBackward := rfl
@[simp] theorem raise_p1 (e : ErrKind) (s : State) : (raise e s).p1 = s.p1 := rfl
@[simp] theorem raise_p2 (e : ErrKind) (s : State) : (raise e s).p2 = s.p2 := rfl
@[simp] theorem raise_hist (e : ErrKind) (s : State) : (raise e s).hist = s.hist := rfl
@[simp] theorem raise_inMem (e : ErrKind) (s : State) : (raise e s).inMem = s.inMem := rfl
@[simp] theorem raise_outMem (e : ErrKind) (s : State) : (raise e s).outMem = s.outMem := rfl
@[simp] theorem raise_ring (e : ErrKind) (s : State) : (raise e s).ring = s.ring := rfl
@[simp] theorem raise_rom (e : ErrKind) (s : State) : (raise e s).rom = s.rom := rfl
@[simp] theorem raise_mb (e : ErrKind) (s : State) : (raise e s).mb = s.mb := rfl
@[simp] theorem raise_cmd (e : ErrKind) (s : State) : (raise e s).cmd = s.cmd := rfl
@[simp] theorem raise_ctl (e : ErrKind) (s : State) : (raise e s).ctl = s.ctl := rfl

/-! ### terminate -/

@[simp] theorem terminate_cfgInLen (s : State) : (terminate s).cfgInLen = s.cfgInLen := rfl
@[simp] theorem terminate_cfgStartBit (s : State) : (terminate s).cfgStartBit = s.cfgStartBit := rfl
@[simp] theorem terminate_cfgOutCap (s : State) : (terminate s).cfgOutCap = s.cfgOutCap := rfl
@[simp] theorem terminate_hostq (s : State) : (terminate s).hostq = s.hostq := rfl
@[simp] theorem terminate_phase (s : State) : (terminate s).phase = .done := rfl
@[simp] theorem terminate_err (s : State) : (terminate s).err = .endOk := rfl
@[simp] theorem terminate_bitpos (s : State) : (terminate s).bitpos = s.bitpos := rfl
@[simp] theorem terminate_pos (s : State) : (terminate s).pos = s.pos := rfl
@[simp] theorem terminate_wbits (s : State) : (terminate s).wbits = s.wbits := rfl
@[simp] theorem terminate_maxBackward (s : State) : (terminate s).maxBackward = s.maxBackward := rfl
@[simp] theorem terminate_p1 (s : State) : (terminate s).p1 = s.p1 := rfl
@[simp] theorem terminate_p2 (s : State) : (terminate s).p2 = s.p2 := rfl
@[simp] theorem terminate_hist (s : State) : (terminate s).hist = s.hist := rfl
@[simp] theorem terminate_inMem (s : State) : (terminate s).inMem = s.inMem := rfl
@[simp] theorem terminate_outMem (s : State) : (terminate s).outMem = s.outMem := rfl
@[simp] theorem terminate_ring (s : State) : (terminate s).ring = s.ring := rfl
@[simp] theorem terminate_rom (s : State) : (terminate s).rom = s.rom := rfl
@[simp] theorem terminate_mb (s : State) : (terminate s).mb = s.mb := rfl
@[simp] theorem terminate_cmd (s : State) : (terminate s).cmd = s.cmd := rfl
@[simp] theorem terminate_ctl (s : State) : (terminate s).ctl = s.ctl := rfl

/-! ### goto -/

@[simp] theorem goto_cfgInLen (c : Ctl) (s : State) : (goto c s).cfgInLen = s.cfgInLen := rfl
@[simp] theorem goto_cfgStartBit (c : Ctl) (s : State) : (goto c s).cfgStartBit = s.cfgStartBit := rfl
@[simp] theorem goto_cfgOutCap (c : Ctl) (s : State) : (goto c s).cfgOutCap = s.cfgOutCap := rfl
@[simp] theorem goto_hostq (c : Ctl) (s : State) : (goto c s).hostq = s.hostq := rfl
@[simp] theorem goto_phase (c : Ctl) (s : State) : (goto c s).phase = s.phase := rfl
@[simp] theorem goto_err (c : Ctl) (s : State) : (goto c s).err = s.err := rfl
@[simp] theorem goto_bitpos (c : Ctl) (s : State) : (goto c s).bitpos = s.bitpos := rfl
@[simp] theorem goto_pos (c : Ctl) (s : State) : (goto c s).pos = s.pos := rfl
@[simp] theorem goto_wbits (c : Ctl) (s : State) : (goto c s).wbits = s.wbits := rfl
@[simp] theorem goto_maxBackward (c : Ctl) (s : State) : (goto c s).maxBackward = s.maxBackward := rfl
@[simp] theorem goto_p1 (c : Ctl) (s : State) : (goto c s).p1 = s.p1 := rfl
@[simp] theorem goto_p2 (c : Ctl) (s : State) : (goto c s).p2 = s.p2 := rfl
@[simp] theorem goto_hist (c : Ctl) (s : State) : (goto c s).hist = s.hist := rfl
@[simp] theorem goto_inMem (c : Ctl) (s : State) : (goto c s).inMem = s.inMem := rfl
@[simp] theorem goto_outMem (c : Ctl) (s : State) : (goto c s).outMem = s.outMem := rfl
@[simp] theorem goto_ring (c : Ctl) (s : State) : (goto c s).ring = s.ring := rfl
@[simp] theorem goto_rom (c : Ctl) (s : State) : (goto c s).rom = s.rom := rfl
@[simp] theorem goto_mb (c : Ctl) (s : State) : (goto c s).mb = s.mb := rfl
@[simp] theorem goto_cmd (c : Ctl) (s : State) : (goto c s).cmd = s.cmd := rfl
@[simp] theorem goto_ctl (c : Ctl) (s : State) : (goto c s).ctl = c := rfl

/-! ### advance -/

@[simp] theorem advance_cfgInLen (n : Nat) (s : State) : (advance n s).cfgInLen = s.cfgInLen := rfl
@[simp] theorem advance_cfgStartBit (n : Nat) (s : State) : (advance n s).cfgStartBit = s.cfgStartBit := rfl
@[simp] theorem advance_cfgOutCap (n : Nat) (s : State) : (advance n s).cfgOutCap = s.cfgOutCap := rfl
@[simp] theorem advance_hostq (n : Nat) (s : State) : (advance n s).hostq = s.hostq := rfl
@[simp] theorem advance_phase (n : Nat) (s : State) : (advance n s).phase = s.phase := rfl
@[simp] theorem advance_err (n : Nat) (s : State) : (advance n s).err = s.err := rfl
@[simp] theorem advance_bitpos (n : Nat) (s : State) : (advance n s).bitpos = s.bitpos + n := rfl
@[simp] theorem advance_pos (n : Nat) (s : State) : (advance n s).pos = s.pos := rfl
@[simp] theorem advance_wbits (n : Nat) (s : State) : (advance n s).wbits = s.wbits := rfl
@[simp] theorem advance_maxBackward (n : Nat) (s : State) : (advance n s).maxBackward = s.maxBackward := rfl
@[simp] theorem advance_p1 (n : Nat) (s : State) : (advance n s).p1 = s.p1 := rfl
@[simp] theorem advance_p2 (n : Nat) (s : State) : (advance n s).p2 = s.p2 := rfl
@[simp] theorem advance_hist (n : Nat) (s : State) : (advance n s).hist = s.hist := rfl
@[simp] theorem advance_inMem (n : Nat) (s : State) : (advance n s).inMem = s.inMem := rfl
@[simp] theorem advance_outMem (n : Nat) (s : State) : (advance n s).outMem = s.outMem := rfl
@[simp] theorem advance_ring (n : Nat) (s : State) : (advance n s).ring = s.ring := rfl
@[simp] theorem advance_rom (n : Nat) (s : State) : (advance n s).rom = s.rom := rfl
@[simp] theorem advance_mb (n : Nat) (s : State) : (advance n s).mb = s.mb := rfl
@[simp] theorem advance_cmd (n : Nat) (s : State) : (advance n s).cmd = s.cmd := rfl
@[simp] theorem advance_ctl (n : Nat) (s : State) : (advance n s).ctl = s.ctl := rfl

/-! ### setCmd -/

@[simp] theorem setCmd_cfgInLen (c : CmdRegs) (s : State) : (setCmd c s).cfgInLen = s.cfgInLen := rfl
@[simp] theorem setCmd_cfgStartBit (c : CmdRegs) (s : State) : (setCmd c s).cfgStartBit = s.cfgStartBit := rfl
@[simp] theorem setCmd_cfgOutCap (c : CmdRegs) (s : State) : (setCmd c s).cfgOutCap = s.cfgOutCap := rfl
@[simp] theorem setCmd_hostq (c : CmdRegs) (s : State) : (setCmd c s).hostq = s.hostq := rfl
@[simp] theorem setCmd_phase (c : CmdRegs) (s : State) : (setCmd c s).phase = s.phase := rfl
@[simp] theorem setCmd_err (c : CmdRegs) (s : State) : (setCmd c s).err = s.err := rfl
@[simp] theorem setCmd_bitpos (c : CmdRegs) (s : State) : (setCmd c s).bitpos = s.bitpos := rfl
@[simp] theorem setCmd_pos (c : CmdRegs) (s : State) : (setCmd c s).pos = s.pos := rfl
@[simp] theorem setCmd_wbits (c : CmdRegs) (s : State) : (setCmd c s).wbits = s.wbits := rfl
@[simp] theorem setCmd_maxBackward (c : CmdRegs) (s : State) : (setCmd c s).maxBackward = s.maxBackward := rfl
@[simp] theorem setCmd_p1 (c : CmdRegs) (s : State) : (setCmd c s).p1 = s.p1 := rfl
@[simp] theorem setCmd_p2 (c : CmdRegs) (s : State) : (setCmd c s).p2 = s.p2 := rfl
@[simp] theorem setCmd_hist (c : CmdRegs) (s : State) : (setCmd c s).hist = s.hist := rfl
@[simp] theorem setCmd_inMem (c : CmdRegs) (s : State) : (setCmd c s).inMem = s.inMem := rfl
@[simp] theorem setCmd_outMem (c : CmdRegs) (s : State) : (setCmd c s).outMem = s.outMem := rfl
@[simp] theorem setCmd_ring (c : CmdRegs) (s : State) : (setCmd c s).ring = s.ring := rfl
@[simp] theorem setCmd_rom (c : CmdRegs) (s : State) : (setCmd c s).rom = s.rom := rfl
@[simp] theorem setCmd_mb (c : CmdRegs) (s : State) : (setCmd c s).mb = s.mb := rfl
@[simp] theorem setCmd_cmd (c : CmdRegs) (s : State) : (setCmd c s).cmd = c := rfl
@[simp] theorem setCmd_ctl (c : CmdRegs) (s : State) : (setCmd c s).ctl = s.ctl := rfl

/-! ### setBlock -/

@[simp] theorem setBlock_cfgInLen (c : Cat) (b : BlockState) (s : State) : (setBlock c b s).cfgInLen = s.cfgInLen := rfl
@[simp] theorem setBlock_cfgStartBit (c : Cat) (b : BlockState) (s : State) : (setBlock c b s).cfgStartBit = s.cfgStartBit := rfl
@[simp] theorem setBlock_cfgOutCap (c : Cat) (b : BlockState) (s : State) : (setBlock c b s).cfgOutCap = s.cfgOutCap := rfl
@[simp] theorem setBlock_hostq (c : Cat) (b : BlockState) (s : State) : (setBlock c b s).hostq = s.hostq := rfl
@[simp] theorem setBlock_phase (c : Cat) (b : BlockState) (s : State) : (setBlock c b s).phase = s.phase := rfl
@[simp] theorem setBlock_err (c : Cat) (b : BlockState) (s : State) : (setBlock c b s).err = s.err := rfl
@[simp] theorem setBlock_bitpos (c : Cat) (b : BlockState) (s : State) : (setBlock c b s).bitpos = s.bitpos := rfl
@[simp] theorem setBlock_pos (c : Cat) (b : BlockState) (s : State) : (setBlock c b s).pos = s.pos := rfl
@[simp] theorem setBlock_wbits (c : Cat) (b : BlockState) (s : State) : (setBlock c b s).wbits = s.wbits := rfl
@[simp] theorem setBlock_maxBackward (c : Cat) (b : BlockState) (s : State) : (setBlock c b s).maxBackward = s.maxBackward := rfl
@[simp] theorem setBlock_p1 (c : Cat) (b : BlockState) (s : State) : (setBlock c b s).p1 = s.p1 := rfl
@[simp] theorem setBlock_p2 (c : Cat) (b : BlockState) (s : State) : (setBlock c b s).p2 = s.p2 := rfl
@[simp] theorem setBlock_hist (c : Cat) (b : BlockState) (s : State) : (setBlock c b s).hist = s.hist := rfl
@[simp] theorem setBlock_inMem (c : Cat) (b : BlockState) (s : State) : (setBlock c b s).inMem = s.inMem := rfl
@[simp] theorem setBlock_outMem (c : Cat) (b : BlockState) (s : State) : (setBlock c b s).outMem = s.outMem := rfl
@[simp] theorem setBlock_ring (c : Cat) (b : BlockState) (s : State) : (setBlock c b s).ring = s.ring := rfl
@[simp] theorem setBlock_rom (c : Cat) (b : BlockState) (s : State) : (setBlock c b s).rom = s.rom := rfl
@[simp] theorem setBlock_mb (c : Cat) (b : BlockState) (s : State) : (setBlock c b s).mb = s.mb.setBlock c b := rfl
@[simp] theorem setBlock_cmd (c : Cat) (b : BlockState) (s : State) : (setBlock c b s).cmd = s.cmd := rfl
@[simp] theorem setBlock_ctl (c : Cat) (b : BlockState) (s : State) : (setBlock c b s).ctl = s.ctl := rfl

/-! ### setIsLast -/

@[simp] theorem setIsLast_cfgInLen (v : Bool) (s : State) : (setIsLast v s).cfgInLen = s.cfgInLen := rfl
@[simp] theorem setIsLast_cfgStartBit (v : Bool) (s : State) : (setIsLast v s).cfgStartBit = s.cfgStartBit := rfl
@[simp] theorem setIsLast_cfgOutCap (v : Bool) (s : State) : (setIsLast v s).cfgOutCap = s.cfgOutCap := rfl
@[simp] theorem setIsLast_hostq (v : Bool) (s : State) : (setIsLast v s).hostq = s.hostq := rfl
@[simp] theorem setIsLast_phase (v : Bool) (s : State) : (setIsLast v s).phase = s.phase := rfl
@[simp] theorem setIsLast_err (v : Bool) (s : State) : (setIsLast v s).err = s.err := rfl
@[simp] theorem setIsLast_bitpos (v : Bool) (s : State) : (setIsLast v s).bitpos = s.bitpos := rfl
@[simp] theorem setIsLast_pos (v : Bool) (s : State) : (setIsLast v s).pos = s.pos := rfl
@[simp] theorem setIsLast_wbits (v : Bool) (s : State) : (setIsLast v s).wbits = s.wbits := rfl
@[simp] theorem setIsLast_maxBackward (v : Bool) (s : State) : (setIsLast v s).maxBackward = s.maxBackward := rfl
@[simp] theorem setIsLast_p1 (v : Bool) (s : State) : (setIsLast v s).p1 = s.p1 := rfl
@[simp] theorem setIsLast_p2 (v : Bool) (s : State) : (setIsLast v s).p2 = s.p2 := rfl
@[simp] theorem setIsLast_hist (v : Bool) (s : State) : (setIsLast v s).hist = s.hist := rfl
@[simp] theorem setIsLast_inMem (v : Bool) (s : State) : (setIsLast v s).inMem = s.inMem := rfl
@[simp] theorem setIsLast_outMem (v : Bool) (s : State) : (setIsLast v s).outMem = s.outMem := rfl
@[simp] theorem setIsLast_ring (v : Bool) (s : State) : (setIsLast v s).ring = s.ring := rfl
@[simp] theorem setIsLast_rom (v : Bool) (s : State) : (setIsLast v s).rom = s.rom := rfl
@[simp] theorem setIsLast_cmd (v : Bool) (s : State) : (setIsLast v s).cmd = s.cmd := rfl
@[simp] theorem setIsLast_ctl (v : Bool) (s : State) : (setIsLast v s).ctl = s.ctl := rfl

/-! ### pushDistance -/

@[simp] theorem pushDistance_cfgInLen (d : Nat) (s : State) : (pushDistance d s).cfgInLen = s.cfgInLen := rfl
@[simp] theorem pushDistance_cfgStartBit (d : Nat) (s : State) : (pushDistance d s).cfgStartBit = s.cfgStartBit := rfl
@[simp] theorem pushDistance_cfgOutCap (d : Nat) (s : State) : (pushDistance d s).cfgOutCap = s.cfgOutCap := rfl
@[simp] theorem pushDistance_hostq (d : Nat) (s : State) : (pushDistance d s).hostq = s.hostq := rfl
@[simp] theorem pushDistance_phase (d : Nat) (s : State) : (pushDistance d s).phase = s.phase := rfl
@[simp] theorem pushDistance_err (d : Nat) (s : State) : (pushDistance d s).err = s.err := rfl
@[simp] theorem pushDistance_bitpos (d : Nat) (s : State) : (pushDistance d s).bitpos = s.bitpos := rfl
@[simp] theorem pushDistance_pos (d : Nat) (s : State) : (pushDistance d s).pos = s.pos := rfl
@[simp] theorem pushDistance_wbits (d : Nat) (s : State) : (pushDistance d s).wbits = s.wbits := rfl
@[simp] theorem pushDistance_maxBackward (d : Nat) (s : State) : (pushDistance d s).maxBackward = s.maxBackward := rfl
@[simp] theorem pushDistance_p1 (d : Nat) (s : State) : (pushDistance d s).p1 = s.p1 := rfl
@[simp] theorem pushDistance_p2 (d : Nat) (s : State) : (pushDistance d s).p2 = s.p2 := rfl
@[simp] theorem pushDistance_hist (d : Nat) (s : State) : (pushDistance d s).hist = s.hist.push d := rfl
@[simp] theorem pushDistance_inMem (d : Nat) (s : State) : (pushDistance d s).inMem = s.inMem := rfl
@[simp] theorem pushDistance_outMem (d : Nat) (s : State) : (pushDistance d s).outMem = s.outMem := rfl
@[simp] theorem pushDistance_ring (d : Nat) (s : State) : (pushDistance d s).ring = s.ring := rfl
@[simp] theorem pushDistance_rom (d : Nat) (s : State) : (pushDistance d s).rom = s.rom := rfl
@[simp] theorem pushDistance_mb (d : Nat) (s : State) : (pushDistance d s).mb = s.mb := rfl
@[simp] theorem pushDistance_cmd (d : Nat) (s : State) : (pushDistance d s).cmd = s.cmd := rfl
@[simp] theorem pushDistance_ctl (d : Nat) (s : State) : (pushDistance d s).ctl = s.ctl := rfl

/-! ### putByte -/

@[simp] theorem putByte_cfgInLen (b : Byte) (s : State) : (putByte b s).cfgInLen = s.cfgInLen := rfl
@[simp] theorem putByte_cfgStartBit (b : Byte) (s : State) : (putByte b s).cfgStartBit = s.cfgStartBit := rfl
@[simp] theorem putByte_cfgOutCap (b : Byte) (s : State) : (putByte b s).cfgOutCap = s.cfgOutCap := rfl
@[simp] theorem putByte_hostq (b : Byte) (s : State) : (putByte b s).hostq = s.hostq := rfl
@[simp] theorem putByte_phase (b : Byte) (s : State) : (putByte b s).phase = s.phase := rfl
@[simp] theorem putByte_err (b : Byte) (s : State) : (putByte b s).err = s.err := rfl
@[simp] theorem putByte_bitpos (b : Byte) (s : State) : (putByte b s).bitpos = s.bitpos := rfl
@[simp] theorem putByte_pos (b : Byte) (s : State) : (putByte b s).pos = s.pos + 1 := rfl
@[simp] theorem putByte_wbits (b : Byte) (s : State) : (putByte b s).wbits = s.wbits := rfl
@[simp] theorem putByte_maxBackward (b : Byte) (s : State) : (putByte b s).maxBackward = s.maxBackward := rfl
@[simp] theorem putByte_p1 (b : Byte) (s : State) : (putByte b s).p1 = b := rfl
@[simp] theorem putByte_p2 (b : Byte) (s : State) : (putByte b s).p2 = s.p1 := rfl
@[simp] theorem putByte_hist (b : Byte) (s : State) : (putByte b s).hist = s.hist := rfl
@[simp] theorem putByte_inMem (b : Byte) (s : State) : (putByte b s).inMem = s.inMem := rfl
@[simp] theorem putByte_outMem (b : Byte) (s : State) : (putByte b s).outMem = memWrite s.outMem s.pos b := rfl
@[simp] theorem putByte_ring (b : Byte) (s : State) : (putByte b s).ring = memWrite s.ring (ringIndex s s.pos) b := rfl
@[simp] theorem putByte_rom (b : Byte) (s : State) : (putByte b s).rom = s.rom := rfl
@[simp] theorem putByte_mb (b : Byte) (s : State) : (putByte b s).mb = s.mb := rfl
@[simp] theorem putByte_cmd (b : Byte) (s : State) : (putByte b s).cmd = s.cmd := rfl
@[simp] theorem putByte_ctl (b : Byte) (s : State) : (putByte b s).ctl = s.ctl := rfl

/-! ### setWindow -/

@[simp] theorem setWindow_cfgInLen (w : Nat) (s : State) : (setWindow w s).cfgInLen = s.cfgInLen := rfl
@[simp] theorem setWindow_cfgStartBit (w : Nat) (s : State) : (setWindow w s).cfgStartBit = s.cfgStartBit := rfl
@[simp] theorem setWindow_cfgOutCap (w : Nat) (s : State) : (setWindow w s).cfgOutCap = s.cfgOutCap := rfl
@[simp] theorem setWindow_hostq (w : Nat) (s : State) : (setWindow w s).hostq = s.hostq := rfl
@[simp] theorem setWindow_phase (w : Nat) (s : State) : (setWindow w s).phase = s.phase := rfl
@[simp] theorem setWindow_err (w : Nat) (s : State) : (setWindow w s).err = s.err := rfl
@[simp] theorem setWindow_bitpos (w : Nat) (s : State) : (setWindow w s).bitpos = s.bitpos := rfl
@[simp] theorem setWindow_pos (w : Nat) (s : State) : (setWindow w s).pos = s.pos := rfl
@[simp] theorem setWindow_wbits (w : Nat) (s : State) : (setWindow w s).wbits = w := rfl
@[simp] theorem setWindow_maxBackward (w : Nat) (s : State) : (setWindow w s).maxBackward = 2 ^ w - 16 := rfl
@[simp] theorem setWindow_p1 (w : Nat) (s : State) : (setWindow w s).p1 = s.p1 := rfl
@[simp] theorem setWindow_p2 (w : Nat) (s : State) : (setWindow w s).p2 = s.p2 := rfl
@[simp] theorem setWindow_hist (w : Nat) (s : State) : (setWindow w s).hist = s.hist := rfl
@[simp] theorem setWindow_inMem (w : Nat) (s : State) : (setWindow w s).inMem = s.inMem := rfl
@[simp] theorem setWindow_outMem (w : Nat) (s : State) : (setWindow w s).outMem = s.outMem := rfl
@[simp] theorem setWindow_ring (w : Nat) (s : State) : (setWindow w s).ring = s.ring := rfl
@[simp] theorem setWindow_rom (w : Nat) (s : State) : (setWindow w s).rom = s.rom := rfl
@[simp] theorem setWindow_mb (w : Nat) (s : State) : (setWindow w s).mb = s.mb := rfl
@[simp] theorem setWindow_cmd (w : Nat) (s : State) : (setWindow w s).cmd = s.cmd := rfl
@[simp] theorem setWindow_ctl (w : Nat) (s : State) : (setWindow w s).ctl = .isLast := rfl

/-! ### newMetaBlock -/

@[simp] theorem newMetaBlock_cfgInLen (s : State) : (newMetaBlock s).cfgInLen = s.cfgInLen := rfl
@[simp] theorem newMetaBlock_cfgStartBit (s : State) : (newMetaBlock s).cfgStartBit = s.cfgStartBit := rfl
@[simp] theorem newMetaBlock_cfgOutCap (s : State) : (newMetaBlock s).cfgOutCap = s.cfgOutCap := rfl
@[simp] theorem newMetaBlock_hostq (s : State) : (newMetaBlock s).hostq = s.hostq := rfl
@[simp] theorem newMetaBlock_phase (s : State) : (newMetaBlock s).phase = s.phase := rfl
@[simp] theorem newMetaBlock_err (s : State) : (newMetaBlock s).err = s.err := rfl
@[simp] theorem newMetaBlock_bitpos (s : State) : (newMetaBlock s).bitpos = s.bitpos := rfl
@[simp] theorem newMetaBlock_pos (s : State) : (newMetaBlock s).pos = s.pos := rfl
@[simp] theorem newMetaBlock_wbits (s : State) : (newMetaBlock s).wbits = s.wbits := rfl
@[simp] theorem newMetaBlock_maxBackward (s : State) : (newMetaBlock s).maxBackward = s.maxBackward := rfl
@[simp] theorem newMetaBlock_p1 (s : State) : (newMetaBlock s).p1 = s.p1 := rfl
@[simp] theorem newMetaBlock_p2 (s : State) : (newMetaBlock s).p2 = s.p2 := rfl
@[simp] theorem newMetaBlock_hist (s : State) : (newMetaBlock s).hist = s.hist := rfl
@[simp] theorem newMetaBlock_inMem (s : State) : (newMetaBlock s).inMem = s.inMem := rfl
@[simp] theorem newMetaBlock_outMem (s : State) : (newMetaBlock s).outMem = s.outMem := rfl
@[simp] theorem newMetaBlock_ring (s : State) : (newMetaBlock s).ring = s.ring := rfl
@[simp] theorem newMetaBlock_rom (s : State) : (newMetaBlock s).rom = s.rom := rfl
@[simp] theorem newMetaBlock_cmd (s : State) : (newMetaBlock s).cmd = s.cmd := rfl
@[simp] theorem newMetaBlock_ctl (s : State) : (newMetaBlock s).ctl = s.ctl := rfl

/-! ### setDirect -/

@[simp] theorem setDirect_cfgInLen (v : Nat) (s : State) : (setDirect v s).cfgInLen = s.cfgInLen := rfl
@[simp] theorem setDirect_cfgStartBit (v : Nat) (s : State) : (setDirect v s).cfgStartBit = s.cfgStartBit := rfl
@[simp] theorem setDirect_cfgOutCap (v : Nat) (s : State) : (setDirect v s).cfgOutCap = s.cfgOutCap := rfl
@[simp] theorem setDirect_hostq (v : Nat) (s : State) : (setDirect v s).hostq = s.hostq := rfl
@[simp] theorem setDirect_phase (v : Nat) (s : State) : (setDirect v s).phase = s.phase := rfl
@[simp] theorem setDirect_err (v : Nat) (s : State) : (setDirect v s).err = s.err := rfl
@[simp] theorem setDirect_bitpos (v : Nat) (s : State) : (setDirect v s).bitpos = s.bitpos := rfl
@[simp] theorem setDirect_pos (v : Nat) (s : State) : (setDirect v s).pos = s.pos := rfl
@[simp] theorem setDirect_wbits (v : Nat) (s : State) : (setDirect v s).wbits = s.wbits := rfl
@[simp] theorem setDirect_maxBackward (v : Nat) (s : State) : (setDirect v s).maxBackward = s.maxBackward := rfl
@[simp] theorem setDirect_p1 (v : Nat) (s : State) : (setDirect v s).p1 = s.p1 := rfl
@[simp] theorem setDirect_p2 (v : Nat) (s : State) : (setDirect v s).p2 = s.p2 := rfl
@[simp] theorem setDirect_hist (v : Nat) (s : State) : (setDirect v s).hist = s.hist := rfl
@[simp] theorem setDirect_inMem (v : Nat) (s : State) : (setDirect v s).inMem = s.inMem := rfl
@[simp] theorem setDirect_outMem (v : Nat) (s : State) : (setDirect v s).outMem = s.outMem := rfl
@[simp] theorem setDirect_ring (v : Nat) (s : State) : (setDirect v s).ring = s.ring := rfl
@[simp] theorem setDirect_rom (v : Nat) (s : State) : (setDirect v s).rom = s.rom := rfl
@[simp] theorem setDirect_cmd (v : Nat) (s : State) : (setDirect v s).cmd = s.cmd := rfl
@[simp] theorem setDirect_ctl (v : Nat) (s : State) : (setDirect v s).ctl = s.ctl := rfl

/-! ### writeDistance -/

@[simp] theorem writeDistance_cfgInLen (d : Nat) (s : State) : (writeDistance d s).cfgInLen = s.cfgInLen := rfl
@[simp] theorem writeDistance_cfgStartBit (d : Nat) (s : State) : (writeDistance d s).cfgStartBit = s.cfgStartBit := rfl
@[simp] theorem writeDistance_cfgOutCap (d : Nat) (s : State) : (writeDistance d s).cfgOutCap = s.cfgOutCap := rfl
@[simp] theorem writeDistance_hostq (d : Nat) (s : State) : (writeDistance d s).hostq = s.hostq := rfl
@[simp] theorem writeDistance_phase (d : Nat) (s : State) : (writeDistance d s).phase = s.phase := rfl
@[simp] theorem writeDistance_err (d : Nat) (s : State) : (writeDistance d s).err = s.err := rfl
@[simp] theorem writeDistance_bitpos (d : Nat) (s : State) : (writeDistance d s).bitpos = s.bitpos := rfl
@[simp] theorem writeDistance_pos (d : Nat) (s : State) : (writeDistance d s).pos = s.pos := rfl
@[simp] theorem writeDistance_wbits (d : Nat) (s : State) : (writeDistance d s).wbits = s.wbits := rfl
@[simp] theorem writeDistance_maxBackward (d : Nat) (s : State) : (writeDistance d s).maxBackward = s.maxBackward := rfl
@[simp] theorem writeDistance_p1 (d : Nat) (s : State) : (writeDistance d s).p1 = s.p1 := rfl
@[simp] theorem writeDistance_p2 (d : Nat) (s : State) : (writeDistance d s).p2 = s.p2 := rfl
@[simp] theorem writeDistance_hist (d : Nat) (s : State) : (writeDistance d s).hist = s.hist := rfl
@[simp] theorem writeDistance_inMem (d : Nat) (s : State) : (writeDistance d s).inMem = s.inMem := rfl
@[simp] theorem writeDistance_outMem (d : Nat) (s : State) : (writeDistance d s).outMem = s.outMem := rfl
@[simp] theorem writeDistance_ring (d : Nat) (s : State) : (writeDistance d s).ring = s.ring := rfl
@[simp] theorem writeDistance_rom (d : Nat) (s : State) : (writeDistance d s).rom = s.rom := rfl
@[simp] theorem writeDistance_mb (d : Nat) (s : State) : (writeDistance d s).mb = s.mb := rfl
@[simp] theorem writeDistance_cmd (d : Nat) (s : State) : (writeDistance d s).cmd = { s.cmd with distance := d } := rfl
@[simp] theorem writeDistance_ctl (d : Nat) (s : State) : (writeDistance d s).ctl = s.ctl := rfl

/-! ### setDistance -/

@[simp] theorem setDistance_cfgInLen (d : Nat) (s : State) : (setDistance d s).cfgInLen = s.cfgInLen := rfl
@[simp] theorem setDistance_cfgStartBit (d : Nat) (s : State) : (setDistance d s).cfgStartBit = s.cfgStartBit := rfl
@[simp] theorem setDistance_cfgOutCap (d : Nat) (s : State) : (setDistance d s).cfgOutCap = s.cfgOutCap := rfl
@[simp] theorem setDistance_hostq (d : Nat) (s : State) : (setDistance d s).hostq = s.hostq := rfl
@[simp] theorem setDistance_phase (d : Nat) (s : State) : (setDistance d s).phase = s.phase := rfl
@[simp] theorem setDistance_err (d : Nat) (s : State) : (setDistance d s).err = s.err := rfl
@[simp] theorem setDistance_bitpos (d : Nat) (s : State) : (setDistance d s).bitpos = s.bitpos := rfl
@[simp] theorem setDistance_pos (d : Nat) (s : State) : (setDistance d s).pos = s.pos := rfl
@[simp] theorem setDistance_wbits (d : Nat) (s : State) : (setDistance d s).wbits = s.wbits := rfl
@[simp] theorem setDistance_maxBackward (d : Nat) (s : State) : (setDistance d s).maxBackward = s.maxBackward := rfl
@[simp] theorem setDistance_p1 (d : Nat) (s : State) : (setDistance d s).p1 = s.p1 := rfl
@[simp] theorem setDistance_p2 (d : Nat) (s : State) : (setDistance d s).p2 = s.p2 := rfl
@[simp] theorem setDistance_hist (d : Nat) (s : State) : (setDistance d s).hist = s.hist := rfl
@[simp] theorem setDistance_inMem (d : Nat) (s : State) : (setDistance d s).inMem = s.inMem := rfl
@[simp] theorem setDistance_outMem (d : Nat) (s : State) : (setDistance d s).outMem = s.outMem := rfl
@[simp] theorem setDistance_ring (d : Nat) (s : State) : (setDistance d s).ring = s.ring := rfl
@[simp] theorem setDistance_rom (d : Nat) (s : State) : (setDistance d s).rom = s.rom := rfl
@[simp] theorem setDistance_mb (d : Nat) (s : State) : (setDistance d s).mb = s.mb := rfl
@[simp] theorem setDistance_cmd (d : Nat) (s : State) : (setDistance d s).cmd = { s.cmd with distance := d } := rfl
@[simp] theorem setDistance_ctl (d : Nat) (s : State) : (setDistance d s).ctl = .copy := rfl

/-! ### countLiteral -/

@[simp] theorem countLiteral_cfgInLen (s : State) : (countLiteral s).cfgInLen = s.cfgInLen := rfl
@[simp] theorem countLiteral_cfgStartBit (s : State) : (countLiteral s).cfgStartBit = s.cfgStartBit := rfl
@[simp] theorem countLiteral_cfgOutCap (s : State) : (countLiteral s).cfgOutCap = s.cfgOutCap := rfl
@[simp] theorem countLiteral_hostq (s : State) : (countLiteral s).hostq = s.hostq := rfl
@[simp] theorem countLiteral_phase (s : State) : (countLiteral s).phase = s.phase := rfl
@[simp] theorem countLiteral_err (s : State) : (countLiteral s).err = s.err := rfl
@[simp] theorem countLiteral_bitpos (s : State) : (countLiteral s).bitpos = s.bitpos := rfl
@[simp] theorem countLiteral_pos (s : State) : (countLiteral s).pos = s.pos := rfl
@[simp] theorem countLiteral_wbits (s : State) : (countLiteral s).wbits = s.wbits := rfl
@[simp] theorem countLiteral_maxBackward (s : State) : (countLiteral s).maxBackward = s.maxBackward := rfl
@[simp] theorem countLiteral_p1 (s : State) : (countLiteral s).p1 = s.p1 := rfl
@[simp] theorem countLiteral_p2 (s : State) : (countLiteral s).p2 = s.p2 := rfl
@[simp] theorem countLiteral_hist (s : State) : (countLiteral s).hist = s.hist := rfl
@[simp] theorem countLiteral_inMem (s : State) : (countLiteral s).inMem = s.inMem := rfl
@[simp] theorem countLiteral_outMem (s : State) : (countLiteral s).outMem = s.outMem := rfl
@[simp] theorem countLiteral_ring (s : State) : (countLiteral s).ring = s.ring := rfl
@[simp] theorem countLiteral_rom (s : State) : (countLiteral s).rom = s.rom := rfl
@[simp] theorem countLiteral_mb (s : State) : (countLiteral s).mb = s.mb := rfl
@[simp] theorem countLiteral_cmd (s : State) : (countLiteral s).cmd = { s.cmd with insertLen := s.cmd.insertLen - 1 } := rfl
@[simp] theorem countLiteral_ctl (s : State) : (countLiteral s).ctl = s.ctl := rfl

/-! ### startDecode -/

@[simp] theorem startDecode_cfgInLen (s : State) : (startDecode s).cfgInLen = s.cfgInLen := rfl
@[simp] theorem startDecode_cfgStartBit (s : State) : (startDecode s).cfgStartBit = s.cfgStartBit := rfl
@[simp] theorem startDecode_cfgOutCap (s : State) : (startDecode s).cfgOutCap = s.cfgOutCap := rfl
@[simp] theorem startDecode_hostq (s : State) : (startDecode s).hostq = s.hostq := rfl
@[simp] theorem startDecode_phase (s : State) : (startDecode s).phase = .run := rfl
@[simp] theorem startDecode_err (s : State) : (startDecode s).err = .ok := rfl
@[simp] theorem startDecode_bitpos (s : State) : (startDecode s).bitpos = s.cfgStartBit.toNat := rfl
@[simp] theorem startDecode_pos (s : State) : (startDecode s).pos = 0 := rfl
@[simp] theorem startDecode_wbits (s : State) : (startDecode s).wbits = s.wbits := rfl
@[simp] theorem startDecode_maxBackward (s : State) : (startDecode s).maxBackward = s.maxBackward := rfl
@[simp] theorem startDecode_p1 (s : State) : (startDecode s).p1 = 0 := rfl
@[simp] theorem startDecode_p2 (s : State) : (startDecode s).p2 = 0 := rfl
@[simp] theorem startDecode_hist (s : State) : (startDecode s).hist = DistRing.start := rfl
@[simp] theorem startDecode_inMem (s : State) : (startDecode s).inMem = s.inMem := rfl
@[simp] theorem startDecode_outMem (s : State) : (startDecode s).outMem = s.outMem := rfl
@[simp] theorem startDecode_ring (s : State) : (startDecode s).ring = s.ring := rfl
@[simp] theorem startDecode_rom (s : State) : (startDecode s).rom = s.rom := rfl
@[simp] theorem startDecode_mb (s : State) : (startDecode s).mb = s.mb := rfl
@[simp] theorem startDecode_cmd (s : State) : (startDecode s).cmd = s.cmd := rfl
@[simp] theorem startDecode_ctl (s : State) : (startDecode s).ctl = .window := rfl

/-! ### Blocks -/

@[simp] theorem setBlock_block_same (c : Cat) (b : BlockState) (s : State) : (setBlock c b s).block c = b := by
  cases c <;> rfl

theorem setBlock_block_other {c d : Cat} (h : d ≠ c) (b : BlockState) (s : State) :
    (setBlock c b s).block d = s.block d := by
  cases c <;> cases d <;> first | rfl | exact absurd rfl h

@[simp] theorem goto_block (k : Ctl) (c : Cat) (s : State) : (goto k s).block c = s.block c := rfl
@[simp] theorem advance_block (n : Nat) (c : Cat) (s : State) : (advance n s).block c = s.block c := rfl
@[simp] theorem setCmd_block (r : CmdRegs) (c : Cat) (s : State) : (setCmd r s).block c = s.block c := rfl
@[simp] theorem raise_block (e : ErrKind) (c : Cat) (s : State) : (raise e s).block c = s.block c := rfl
@[simp] theorem putByte_block (b : Byte) (c : Cat) (s : State) : (putByte b s).block c = s.block c := rfl

/-! ### countDown -/

@[simp] theorem countDown_cfgInLen (c : Cat) (s : State) : (countDown c s).cfgInLen = s.cfgInLen := by
  unfold countDown; split <;> rfl
@[simp] theorem countDown_cfgStartBit (c : Cat) (s : State) : (countDown c s).cfgStartBit = s.cfgStartBit := by
  unfold countDown; split <;> rfl
@[simp] theorem countDown_cfgOutCap (c : Cat) (s : State) : (countDown c s).cfgOutCap = s.cfgOutCap := by
  unfold countDown; split <;> rfl
@[simp] theorem countDown_hostq (c : Cat) (s : State) : (countDown c s).hostq = s.hostq := by
  unfold countDown; split <;> rfl
@[simp] theorem countDown_phase (c : Cat) (s : State) : (countDown c s).phase = s.phase := by
  unfold countDown; split <;> rfl
@[simp] theorem countDown_err (c : Cat) (s : State) : (countDown c s).err = s.err := by
  unfold countDown; split <;> rfl
@[simp] theorem countDown_bitpos (c : Cat) (s : State) : (countDown c s).bitpos = s.bitpos := by
  unfold countDown; split <;> rfl
@[simp] theorem countDown_pos (c : Cat) (s : State) : (countDown c s).pos = s.pos := by
  unfold countDown; split <;> rfl
@[simp] theorem countDown_wbits (c : Cat) (s : State) : (countDown c s).wbits = s.wbits := by
  unfold countDown; split <;> rfl
@[simp] theorem countDown_maxBackward (c : Cat) (s : State) : (countDown c s).maxBackward = s.maxBackward := by
  unfold countDown; split <;> rfl
@[simp] theorem countDown_p1 (c : Cat) (s : State) : (countDown c s).p1 = s.p1 := by
  unfold countDown; split <;> rfl
@[simp] theorem countDown_p2 (c : Cat) (s : State) : (countDown c s).p2 = s.p2 := by
  unfold countDown; split <;> rfl
@[simp] theorem countDown_hist (c : Cat) (s : State) : (countDown c s).hist = s.hist := by
  unfold countDown; split <;> rfl
@[simp] theorem countDown_inMem (c : Cat) (s : State) : (countDown c s).inMem = s.inMem := by
  unfold countDown; split <;> rfl
@[simp] theorem countDown_outMem (c : Cat) (s : State) : (countDown c s).outMem = s.outMem := by
  unfold countDown; split <;> rfl
@[simp] theorem countDown_ring (c : Cat) (s : State) : (countDown c s).ring = s.ring := by
  unfold countDown; split <;> rfl
@[simp] theorem countDown_rom (c : Cat) (s : State) : (countDown c s).rom = s.rom := by
  unfold countDown; split <;> rfl
@[simp] theorem countDown_cmd (c : Cat) (s : State) : (countDown c s).cmd = s.cmd := by
  unfold countDown; split <;> rfl
@[simp] theorem countDown_ctl (c : Cat) (s : State) : (countDown c s).ctl = s.ctl := by
  unfold countDown; split <;> rfl

/-! ### enterSym -/

@[simp] theorem enterSym_cfgInLen (c : Cat) (s : State) : (enterSym c s).cfgInLen = s.cfgInLen := by
  unfold enterSym; split <;> rfl
@[simp] theorem enterSym_cfgStartBit (c : Cat) (s : State) : (enterSym c s).cfgStartBit = s.cfgStartBit := by
  unfold enterSym; split <;> rfl
@[simp] theorem enterSym_cfgOutCap (c : Cat) (s : State) : (enterSym c s).cfgOutCap = s.cfgOutCap := by
  unfold enterSym; split <;> rfl
@[simp] theorem enterSym_hostq (c : Cat) (s : State) : (enterSym c s).hostq = s.hostq := by
  unfold enterSym; split <;> rfl
@[simp] theorem enterSym_phase (c : Cat) (s : State) : (enterSym c s).phase = s.phase := by
  unfold enterSym; split <;> rfl
@[simp] theorem enterSym_err (c : Cat) (s : State) : (enterSym c s).err = s.err := by
  unfold enterSym; split <;> rfl
@[simp] theorem enterSym_bitpos (c : Cat) (s : State) : (enterSym c s).bitpos = s.bitpos := by
  unfold enterSym; split <;> rfl
@[simp] theorem enterSym_pos (c : Cat) (s : State) : (enterSym c s).pos = s.pos := by
  unfold enterSym; split <;> rfl
@[simp] theorem enterSym_wbits (c : Cat) (s : State) : (enterSym c s).wbits = s.wbits := by
  unfold enterSym; split <;> rfl
@[simp] theorem enterSym_maxBackward (c : Cat) (s : State) : (enterSym c s).maxBackward = s.maxBackward := by
  unfold enterSym; split <;> rfl
@[simp] theorem enterSym_p1 (c : Cat) (s : State) : (enterSym c s).p1 = s.p1 := by
  unfold enterSym; split <;> rfl
@[simp] theorem enterSym_p2 (c : Cat) (s : State) : (enterSym c s).p2 = s.p2 := by
  unfold enterSym; split <;> rfl
@[simp] theorem enterSym_hist (c : Cat) (s : State) : (enterSym c s).hist = s.hist := by
  unfold enterSym; split <;> rfl
@[simp] theorem enterSym_inMem (c : Cat) (s : State) : (enterSym c s).inMem = s.inMem := by
  unfold enterSym; split <;> rfl
@[simp] theorem enterSym_outMem (c : Cat) (s : State) : (enterSym c s).outMem = s.outMem := by
  unfold enterSym; split <;> rfl
@[simp] theorem enterSym_ring (c : Cat) (s : State) : (enterSym c s).ring = s.ring := by
  unfold enterSym; split <;> rfl
@[simp] theorem enterSym_rom (c : Cat) (s : State) : (enterSym c s).rom = s.rom := by
  unfold enterSym; split <;> rfl
@[simp] theorem enterSym_mb (c : Cat) (s : State) : (enterSym c s).mb = s.mb := by
  unfold enterSym; split <;> rfl
@[simp] theorem enterSym_cmd (c : Cat) (s : State) : (enterSym c s).cmd = s.cmd := by
  unfold enterSym; split <;> rfl

/-! ### endMetaBlock -/

@[simp] theorem endMetaBlock_cfgInLen (s : State) : (endMetaBlock s).cfgInLen = s.cfgInLen := by
  unfold endMetaBlock; split <;> rfl
@[simp] theorem endMetaBlock_cfgStartBit (s : State) : (endMetaBlock s).cfgStartBit = s.cfgStartBit := by
  unfold endMetaBlock; split <;> rfl
@[simp] theorem endMetaBlock_cfgOutCap (s : State) : (endMetaBlock s).cfgOutCap = s.cfgOutCap := by
  unfold endMetaBlock; split <;> rfl
@[simp] theorem endMetaBlock_hostq (s : State) : (endMetaBlock s).hostq = s.hostq := by
  unfold endMetaBlock; split <;> rfl
@[simp] theorem endMetaBlock_phase (s : State) : (endMetaBlock s).phase = s.phase := by
  unfold endMetaBlock; split <;> rfl
@[simp] theorem endMetaBlock_err (s : State) : (endMetaBlock s).err = s.err := by
  unfold endMetaBlock; split <;> rfl
@[simp] theorem endMetaBlock_bitpos (s : State) : (endMetaBlock s).bitpos = s.bitpos := by
  unfold endMetaBlock; split <;> rfl
@[simp] theorem endMetaBlock_pos (s : State) : (endMetaBlock s).pos = s.pos := by
  unfold endMetaBlock; split <;> rfl
@[simp] theorem endMetaBlock_wbits (s : State) : (endMetaBlock s).wbits = s.wbits := by
  unfold endMetaBlock; split <;> rfl
@[simp] theorem endMetaBlock_maxBackward (s : State) : (endMetaBlock s).maxBackward = s.maxBackward := by
  unfold endMetaBlock; split <;> rfl
@[simp] theorem endMetaBlock_p1 (s : State) : (endMetaBlock s).p1 = s.p1 := by
  unfold endMetaBlock; split <;> rfl
@[simp] theorem endMetaBlock_p2 (s : State) : (endMetaBlock s).p2 = s.p2 := by
  unfold endMetaBlock; split <;> rfl
@[simp] theorem endMetaBlock_hist (s : State) : (endMetaBlock s).hist = s.hist := by
  unfold endMetaBlock; split <;> rfl
@[simp] theorem endMetaBlock_inMem (s : State) : (endMetaBlock s).inMem = s.inMem := by
  unfold endMetaBlock; split <;> rfl
@[simp] theorem endMetaBlock_outMem (s : State) : (endMetaBlock s).outMem = s.outMem := by
  unfold endMetaBlock; split <;> rfl
@[simp] theorem endMetaBlock_ring (s : State) : (endMetaBlock s).ring = s.ring := by
  unfold endMetaBlock; split <;> rfl
@[simp] theorem endMetaBlock_rom (s : State) : (endMetaBlock s).rom = s.rom := by
  unfold endMetaBlock; split <;> rfl
@[simp] theorem endMetaBlock_mb (s : State) : (endMetaBlock s).mb = s.mb := by
  unfold endMetaBlock; split <;> rfl
@[simp] theorem endMetaBlock_cmd (s : State) : (endMetaBlock s).cmd = s.cmd := by
  unfold endMetaBlock; split <;> rfl

/-! ### nextCommand -/

@[simp] theorem nextCommand_cfgInLen (s : State) : (nextCommand s).cfgInLen = s.cfgInLen := by
  unfold nextCommand; split <;> simp
@[simp] theorem nextCommand_cfgStartBit (s : State) : (nextCommand s).cfgStartBit = s.cfgStartBit := by
  unfold nextCommand; split <;> simp
@[simp] theorem nextCommand_cfgOutCap (s : State) : (nextCommand s).cfgOutCap = s.cfgOutCap := by
  unfold nextCommand; split <;> simp
@[simp] theorem nextCommand_hostq (s : State) : (nextCommand s).hostq = s.hostq := by
  unfold nextCommand; split <;> simp
@[simp] theorem nextCommand_phase (s : State) : (nextCommand s).phase = s.phase := by
  unfold nextCommand; split <;> simp
@[simp] theorem nextCommand_err (s : State) : (nextCommand s).err = s.err := by
  unfold nextCommand; split <;> simp
@[simp] theorem nextCommand_bitpos (s : State) : (nextCommand s).bitpos = s.bitpos := by
  unfold nextCommand; split <;> simp
@[simp] theorem nextCommand_pos (s : State) : (nextCommand s).pos = s.pos := by
  unfold nextCommand; split <;> simp
@[simp] theorem nextCommand_wbits (s : State) : (nextCommand s).wbits = s.wbits := by
  unfold nextCommand; split <;> simp
@[simp] theorem nextCommand_maxBackward (s : State) : (nextCommand s).maxBackward = s.maxBackward := by
  unfold nextCommand; split <;> simp
@[simp] theorem nextCommand_p1 (s : State) : (nextCommand s).p1 = s.p1 := by
  unfold nextCommand; split <;> simp
@[simp] theorem nextCommand_p2 (s : State) : (nextCommand s).p2 = s.p2 := by
  unfold nextCommand; split <;> simp
@[simp] theorem nextCommand_hist (s : State) : (nextCommand s).hist = s.hist := by
  unfold nextCommand; split <;> simp
@[simp] theorem nextCommand_inMem (s : State) : (nextCommand s).inMem = s.inMem := by
  unfold nextCommand; split <;> simp
@[simp] theorem nextCommand_outMem (s : State) : (nextCommand s).outMem = s.outMem := by
  unfold nextCommand; split <;> simp
@[simp] theorem nextCommand_ring (s : State) : (nextCommand s).ring = s.ring := by
  unfold nextCommand; split <;> simp
@[simp] theorem nextCommand_rom (s : State) : (nextCommand s).rom = s.rom := by
  unfold nextCommand; split <;> simp
@[simp] theorem nextCommand_mb (s : State) : (nextCommand s).mb = s.mb := by
  unfold nextCommand; split <;> simp
@[simp] theorem nextCommand_cmd (s : State) : (nextCommand s).cmd = s.cmd := by
  unfold nextCommand; split <;> simp

/-! ### enterDistance -/

@[simp] theorem enterDistance_cfgInLen (s : State) : (enterDistance s).cfgInLen = s.cfgInLen := by
  unfold enterDistance; split <;> simp
@[simp] theorem enterDistance_cfgStartBit (s : State) : (enterDistance s).cfgStartBit = s.cfgStartBit := by
  unfold enterDistance; split <;> simp
@[simp] theorem enterDistance_cfgOutCap (s : State) : (enterDistance s).cfgOutCap = s.cfgOutCap := by
  unfold enterDistance; split <;> simp
@[simp] theorem enterDistance_hostq (s : State) : (enterDistance s).hostq = s.hostq := by
  unfold enterDistance; split <;> simp
@[simp] theorem enterDistance_phase (s : State) : (enterDistance s).phase = s.phase := by
  unfold enterDistance; split <;> simp
@[simp] theorem enterDistance_err (s : State) : (enterDistance s).err = s.err := by
  unfold enterDistance; split <;> simp
@[simp] theorem enterDistance_bitpos (s : State) : (enterDistance s).bitpos = s.bitpos := by
  unfold enterDistance; split <;> simp
@[simp] theorem enterDistance_pos (s : State) : (enterDistance s).pos = s.pos := by
  unfold enterDistance; split <;> simp
@[simp] theorem enterDistance_wbits (s : State) : (enterDistance s).wbits = s.wbits := by
  unfold enterDistance; split <;> simp
@[simp] theorem enterDistance_maxBackward (s : State) : (enterDistance s).maxBackward = s.maxBackward := by
  unfold enterDistance; split <;> simp
@[simp] theorem enterDistance_p1 (s : State) : (enterDistance s).p1 = s.p1 := by
  unfold enterDistance; split <;> simp
@[simp] theorem enterDistance_p2 (s : State) : (enterDistance s).p2 = s.p2 := by
  unfold enterDistance; split <;> simp
@[simp] theorem enterDistance_hist (s : State) : (enterDistance s).hist = s.hist := by
  unfold enterDistance; split <;> simp
@[simp] theorem enterDistance_inMem (s : State) : (enterDistance s).inMem = s.inMem := by
  unfold enterDistance; split <;> simp
@[simp] theorem enterDistance_outMem (s : State) : (enterDistance s).outMem = s.outMem := by
  unfold enterDistance; split <;> simp
@[simp] theorem enterDistance_ring (s : State) : (enterDistance s).ring = s.ring := by
  unfold enterDistance; split <;> simp
@[simp] theorem enterDistance_rom (s : State) : (enterDistance s).rom = s.rom := by
  unfold enterDistance; split <;> simp
@[simp] theorem enterDistance_mb (s : State) : (enterDistance s).mb = s.mb := by
  unfold enterDistance; split <;> simp

/-! ### nextInsert -/

@[simp] theorem nextInsert_cfgInLen (s : State) : (nextInsert s).cfgInLen = s.cfgInLen := by
  unfold nextInsert; split <;> (try split) <;> simp
@[simp] theorem nextInsert_cfgStartBit (s : State) : (nextInsert s).cfgStartBit = s.cfgStartBit := by
  unfold nextInsert; split <;> (try split) <;> simp
@[simp] theorem nextInsert_cfgOutCap (s : State) : (nextInsert s).cfgOutCap = s.cfgOutCap := by
  unfold nextInsert; split <;> (try split) <;> simp
@[simp] theorem nextInsert_hostq (s : State) : (nextInsert s).hostq = s.hostq := by
  unfold nextInsert; split <;> (try split) <;> simp
@[simp] theorem nextInsert_phase (s : State) : (nextInsert s).phase = s.phase := by
  unfold nextInsert; split <;> (try split) <;> simp
@[simp] theorem nextInsert_err (s : State) : (nextInsert s).err = s.err := by
  unfold nextInsert; split <;> (try split) <;> simp
@[simp] theorem nextInsert_bitpos (s : State) : (nextInsert s).bitpos = s.bitpos := by
  unfold nextInsert; split <;> (try split) <;> simp
@[simp] theorem nextInsert_pos (s : State) : (nextInsert s).pos = s.pos := by
  unfold nextInsert; split <;> (try split) <;> simp
@[simp] theorem nextInsert_wbits (s : State) : (nextInsert s).wbits = s.wbits := by
  unfold nextInsert; split <;> (try split) <;> simp
@[simp] theorem nextInsert_maxBackward (s : State) : (nextInsert s).maxBackward = s.maxBackward := by
  unfold nextInsert; split <;> (try split) <;> simp
@[simp] theorem nextInsert_p1 (s : State) : (nextInsert s).p1 = s.p1 := by
  unfold nextInsert; split <;> (try split) <;> simp
@[simp] theorem nextInsert_p2 (s : State) : (nextInsert s).p2 = s.p2 := by
  unfold nextInsert; split <;> (try split) <;> simp
@[simp] theorem nextInsert_hist (s : State) : (nextInsert s).hist = s.hist := by
  unfold nextInsert; split <;> (try split) <;> simp
@[simp] theorem nextInsert_inMem (s : State) : (nextInsert s).inMem = s.inMem := by
  unfold nextInsert; split <;> (try split) <;> simp
@[simp] theorem nextInsert_outMem (s : State) : (nextInsert s).outMem = s.outMem := by
  unfold nextInsert; split <;> (try split) <;> simp
@[simp] theorem nextInsert_ring (s : State) : (nextInsert s).ring = s.ring := by
  unfold nextInsert; split <;> (try split) <;> simp
@[simp] theorem nextInsert_rom (s : State) : (nextInsert s).rom = s.rom := by
  unfold nextInsert; split <;> (try split) <;> simp
@[simp] theorem nextInsert_mb (s : State) : (nextInsert s).mb = s.mb := by
  unfold nextInsert; split <;> (try split) <;> simp

/-! ### nextCategory -/

@[simp] theorem nextCategory_cfgInLen (c : Cat) (s : State) : (nextCategory c s).cfgInLen = s.cfgInLen := by
  cases c <;> rfl
@[simp] theorem nextCategory_cfgStartBit (c : Cat) (s : State) : (nextCategory c s).cfgStartBit = s.cfgStartBit := by
  cases c <;> rfl
@[simp] theorem nextCategory_cfgOutCap (c : Cat) (s : State) : (nextCategory c s).cfgOutCap = s.cfgOutCap := by
  cases c <;> rfl
@[simp] theorem nextCategory_hostq (c : Cat) (s : State) : (nextCategory c s).hostq = s.hostq := by
  cases c <;> rfl
@[simp] theorem nextCategory_phase (c : Cat) (s : State) : (nextCategory c s).phase = s.phase := by
  cases c <;> rfl
@[simp] theorem nextCategory_err (c : Cat) (s : State) : (nextCategory c s).err = s.err := by
  cases c <;> rfl
@[simp] theorem nextCategory_bitpos (c : Cat) (s : State) : (nextCategory c s).bitpos = s.bitpos := by
  cases c <;> rfl
@[simp] theorem nextCategory_pos (c : Cat) (s : State) : (nextCategory c s).pos = s.pos := by
  cases c <;> rfl
@[simp] theorem nextCategory_wbits (c : Cat) (s : State) : (nextCategory c s).wbits = s.wbits := by
  cases c <;> rfl
@[simp] theorem nextCategory_maxBackward (c : Cat) (s : State) : (nextCategory c s).maxBackward = s.maxBackward := by
  cases c <;> rfl
@[simp] theorem nextCategory_p1 (c : Cat) (s : State) : (nextCategory c s).p1 = s.p1 := by
  cases c <;> rfl
@[simp] theorem nextCategory_p2 (c : Cat) (s : State) : (nextCategory c s).p2 = s.p2 := by
  cases c <;> rfl
@[simp] theorem nextCategory_hist (c : Cat) (s : State) : (nextCategory c s).hist = s.hist := by
  cases c <;> rfl
@[simp] theorem nextCategory_inMem (c : Cat) (s : State) : (nextCategory c s).inMem = s.inMem := by
  cases c <;> rfl
@[simp] theorem nextCategory_outMem (c : Cat) (s : State) : (nextCategory c s).outMem = s.outMem := by
  cases c <;> rfl
@[simp] theorem nextCategory_ring (c : Cat) (s : State) : (nextCategory c s).ring = s.ring := by
  cases c <;> rfl
@[simp] theorem nextCategory_rom (c : Cat) (s : State) : (nextCategory c s).rom = s.rom := by
  cases c <;> rfl
@[simp] theorem nextCategory_mb (c : Cat) (s : State) : (nextCategory c s).mb = s.mb := by
  cases c <;> rfl
@[simp] theorem nextCategory_cmd (c : Cat) (s : State) : (nextCategory c s).cmd = s.cmd := by
  cases c <;> rfl

/-! ### storeMap -/

@[simp] theorem storeMap_cfgInLen (m : MapSel) (l : List Nat) (s : State) : (storeMap m l s).cfgInLen = s.cfgInLen := by
  cases m <;> rfl
@[simp] theorem storeMap_cfgStartBit (m : MapSel) (l : List Nat) (s : State) : (storeMap m l s).cfgStartBit = s.cfgStartBit := by
  cases m <;> rfl
@[simp] theorem storeMap_cfgOutCap (m : MapSel) (l : List Nat) (s : State) : (storeMap m l s).cfgOutCap = s.cfgOutCap := by
  cases m <;> rfl
@[simp] theorem storeMap_hostq (m : MapSel) (l : List Nat) (s : State) : (storeMap m l s).hostq = s.hostq := by
  cases m <;> rfl
@[simp] theorem storeMap_phase (m : MapSel) (l : List Nat) (s : State) : (storeMap m l s).phase = s.phase := by
  cases m <;> rfl
@[simp] theorem storeMap_err (m : MapSel) (l : List Nat) (s : State) : (storeMap m l s).err = s.err := by
  cases m <;> rfl
@[simp] theorem storeMap_bitpos (m : MapSel) (l : List Nat) (s : State) : (storeMap m l s).bitpos = s.bitpos := by
  cases m <;> rfl
@[simp] theorem storeMap_pos (m : MapSel) (l : List Nat) (s : State) : (storeMap m l s).pos = s.pos := by
  cases m <;> rfl
@[simp] theorem storeMap_wbits (m : MapSel) (l : List Nat) (s : State) : (storeMap m l s).wbits = s.wbits := by
  cases m <;> rfl
@[simp] theorem storeMap_maxBackward (m : MapSel) (l : List Nat) (s : State) : (storeMap m l s).maxBackward = s.maxBackward := by
  cases m <;> rfl
@[simp] theorem storeMap_p1 (m : MapSel) (l : List Nat) (s : State) : (storeMap m l s).p1 = s.p1 := by
  cases m <;> rfl
@[simp] theorem storeMap_p2 (m : MapSel) (l : List Nat) (s : State) : (storeMap m l s).p2 = s.p2 := by
  cases m <;> rfl
@[simp] theorem storeMap_hist (m : MapSel) (l : List Nat) (s : State) : (storeMap m l s).hist = s.hist := by
  cases m <;> rfl
@[simp] theorem storeMap_inMem (m : MapSel) (l : List Nat) (s : State) : (storeMap m l s).inMem = s.inMem := by
  cases m <;> rfl
@[simp] theorem storeMap_outMem (m : MapSel) (l : List Nat) (s : State) : (storeMap m l s).outMem = s.outMem := by
  cases m <;> rfl
@[simp] theorem storeMap_ring (m : MapSel) (l : List Nat) (s : State) : (storeMap m l s).ring = s.ring := by
  cases m <;> rfl
@[simp] theorem storeMap_rom (m : MapSel) (l : List Nat) (s : State) : (storeMap m l s).rom = s.rom := by
  cases m <;> rfl
@[simp] theorem storeMap_cmd (m : MapSel) (l : List Nat) (s : State) : (storeMap m l s).cmd = s.cmd := by
  cases m <;> rfl

/-! ### enterMap -/

@[simp] theorem enterMap_cfgInLen (m : MapSel) (s : State) : (enterMap m s).cfgInLen = s.cfgInLen := by
  unfold enterMap; split <;> simp
@[simp] theorem enterMap_cfgStartBit (m : MapSel) (s : State) : (enterMap m s).cfgStartBit = s.cfgStartBit := by
  unfold enterMap; split <;> simp
@[simp] theorem enterMap_cfgOutCap (m : MapSel) (s : State) : (enterMap m s).cfgOutCap = s.cfgOutCap := by
  unfold enterMap; split <;> simp
@[simp] theorem enterMap_hostq (m : MapSel) (s : State) : (enterMap m s).hostq = s.hostq := by
  unfold enterMap; split <;> simp
@[simp] theorem enterMap_phase (m : MapSel) (s : State) : (enterMap m s).phase = s.phase := by
  unfold enterMap; split <;> simp
@[simp] theorem enterMap_err (m : MapSel) (s : State) : (enterMap m s).err = s.err := by
  unfold enterMap; split <;> simp
@[simp] theorem enterMap_bitpos (m : MapSel) (s : State) : (enterMap m s).bitpos = s.bitpos := by
  unfold enterMap; split <;> simp
@[simp] theorem enterMap_pos (m : MapSel) (s : State) : (enterMap m s).pos = s.pos := by
  unfold enterMap; split <;> simp
@[simp] theorem enterMap_wbits (m : MapSel) (s : State) : (enterMap m s).wbits = s.wbits := by
  unfold enterMap; split <;> simp
@[simp] theorem enterMap_maxBackward (m : MapSel) (s : State) : (enterMap m s).maxBackward = s.maxBackward := by
  unfold enterMap; split <;> simp
@[simp] theorem enterMap_p1 (m : MapSel) (s : State) : (enterMap m s).p1 = s.p1 := by
  unfold enterMap; split <;> simp
@[simp] theorem enterMap_p2 (m : MapSel) (s : State) : (enterMap m s).p2 = s.p2 := by
  unfold enterMap; split <;> simp
@[simp] theorem enterMap_hist (m : MapSel) (s : State) : (enterMap m s).hist = s.hist := by
  unfold enterMap; split <;> simp
@[simp] theorem enterMap_inMem (m : MapSel) (s : State) : (enterMap m s).inMem = s.inMem := by
  unfold enterMap; split <;> simp
@[simp] theorem enterMap_outMem (m : MapSel) (s : State) : (enterMap m s).outMem = s.outMem := by
  unfold enterMap; split <;> simp
@[simp] theorem enterMap_ring (m : MapSel) (s : State) : (enterMap m s).ring = s.ring := by
  unfold enterMap; split <;> simp
@[simp] theorem enterMap_rom (m : MapSel) (s : State) : (enterMap m s).rom = s.rom := by
  unfold enterMap; split <;> simp
@[simp] theorem enterMap_cmd (m : MapSel) (s : State) : (enterMap m s).cmd = s.cmd := by
  unfold enterMap; split <;> simp

/-! ### nextMapEntry -/

@[simp] theorem nextMapEntry_cfgInLen (m : MapSel) (r : Nat) (T : Code) (l : List Nat) (s : State) : (nextMapEntry m r T l s).cfgInLen = s.cfgInLen := by
  unfold nextMapEntry; split <;> rfl
@[simp] theorem nextMapEntry_cfgStartBit (m : MapSel) (r : Nat) (T : Code) (l : List Nat) (s : State) : (nextMapEntry m r T l s).cfgStartBit = s.cfgStartBit := by
  unfold nextMapEntry; split <;> rfl
@[simp] theorem nextMapEntry_cfgOutCap (m : MapSel) (r : Nat) (T : Code) (l : List Nat) (s : State) : (nextMapEntry m r T l s).cfgOutCap = s.cfgOutCap := by
  unfold nextMapEntry; split <;> rfl
@[simp] theorem nextMapEntry_hostq (m : MapSel) (r : Nat) (T : Code) (l : List Nat) (s : State) : (nextMapEntry m r T l s).hostq = s.hostq := by
  unfold nextMapEntry; split <;> rfl
@[simp] theorem nextMapEntry_phase (m : MapSel) (r : Nat) (T : Code) (l : List Nat) (s : State) : (nextMapEntry m r T l s).phase = s.phase := by
  unfold nextMapEntry; split <;> rfl
@[simp] theorem nextMapEntry_err (m : MapSel) (r : Nat) (T : Code) (l : List Nat) (s : State) : (nextMapEntry m r T l s).err = s.err := by
  unfold nextMapEntry; split <;> rfl
@[simp] theorem nextMapEntry_bitpos (m : MapSel) (r : Nat) (T : Code) (l : List Nat) (s : State) : (nextMapEntry m r T l s).bitpos = s.bitpos := by
  unfold nextMapEntry; split <;> rfl
@[simp] theorem nextMapEntry_pos (m : MapSel) (r : Nat) (T : Code) (l : List Nat) (s : State) : (nextMapEntry m r T l s).pos = s.pos := by
  unfold nextMapEntry; split <;> rfl
@[simp] theorem nextMapEntry_wbits (m : MapSel) (r : Nat) (T : Code) (l : List Nat) (s : State) : (nextMapEntry m r T l s).wbits = s.wbits := by
  unfold nextMapEntry; split <;> rfl
@[simp] theorem nextMapEntry_maxBackward (m : MapSel) (r : Nat) (T : Code) (l : List Nat) (s : State) : (nextMapEntry m r T l s).maxBackward = s.maxBackward := by
  unfold nextMapEntry; split <;> rfl
@[simp] theorem nextMapEntry_p1 (m : MapSel) (r : Nat) (T : Code) (l : List Nat) (s : State) : (nextMapEntry m r T l s).p1 = s.p1 := by
  unfold nextMapEntry; split <;> rfl
@[simp] theorem nextMapEntry_p2 (m : MapSel) (r : Nat) (T : Code) (l : List Nat) (s : State) : (nextMapEntry m r T l s).p2 = s.p2 := by
  unfold nextMapEntry; split <;> rfl
@[simp] theorem nextMapEntry_hist (m : MapSel) (r : Nat) (T : Code) (l : List Nat) (s : State) : (nextMapEntry m r T l s).hist = s.hist := by
  unfold nextMapEntry; split <;> rfl
@[simp] theorem nextMapEntry_inMem (m : MapSel) (r : Nat) (T : Code) (l : List Nat) (s : State) : (nextMapEntry m r T l s).inMem = s.inMem := by
  unfold nextMapEntry; split <;> rfl
@[simp] theorem nextMapEntry_outMem (m : MapSel) (r : Nat) (T : Code) (l : List Nat) (s : State) : (nextMapEntry m r T l s).outMem = s.outMem := by
  unfold nextMapEntry; split <;> rfl
@[simp] theorem nextMapEntry_ring (m : MapSel) (r : Nat) (T : Code) (l : List Nat) (s : State) : (nextMapEntry m r T l s).ring = s.ring := by
  unfold nextMapEntry; split <;> rfl
@[simp] theorem nextMapEntry_rom (m : MapSel) (r : Nat) (T : Code) (l : List Nat) (s : State) : (nextMapEntry m r T l s).rom = s.rom := by
  unfold nextMapEntry; split <;> rfl
@[simp] theorem nextMapEntry_mb (m : MapSel) (r : Nat) (T : Code) (l : List Nat) (s : State) : (nextMapEntry m r T l s).mb = s.mb := by
  unfold nextMapEntry; split <;> rfl
@[simp] theorem nextMapEntry_cmd (m : MapSel) (r : Nat) (T : Code) (l : List Nat) (s : State) : (nextMapEntry m r T l s).cmd = s.cmd := by
  unfold nextMapEntry; split <;> rfl

/-! ### storeBlockTypes -/

@[simp] theorem storeBlockTypes_cfgInLen (c : Cat) (v : Nat) (s : State) : (storeBlockTypes c v s).cfgInLen = s.cfgInLen := by
  unfold storeBlockTypes; split <;> simp
@[simp] theorem storeBlockTypes_cfgStartBit (c : Cat) (v : Nat) (s : State) : (storeBlockTypes c v s).cfgStartBit = s.cfgStartBit := by
  unfold storeBlockTypes; split <;> simp
@[simp] theorem storeBlockTypes_cfgOutCap (c : Cat) (v : Nat) (s : State) : (storeBlockTypes c v s).cfgOutCap = s.cfgOutCap := by
  unfold storeBlockTypes; split <;> simp
@[simp] theorem storeBlockTypes_hostq (c : Cat) (v : Nat) (s : State) : (storeBlockTypes c v s).hostq = s.hostq := by
  unfold storeBlockTypes; split <;> simp
@[simp] theorem storeBlockTypes_phase (c : Cat) (v : Nat) (s : State) : (storeBlockTypes c v s).phase = s.phase := by
  unfold storeBlockTypes; split <;> simp
@[simp] theorem storeBlockTypes_err (c : Cat) (v : Nat) (s : State) : (storeBlockTypes c v s).err = s.err := by
  unfold storeBlockTypes; split <;> simp
@[simp] theorem storeBlockTypes_bitpos (c : Cat) (v : Nat) (s : State) : (storeBlockTypes c v s).bitpos = s.bitpos := by
  unfold storeBlockTypes; split <;> simp
@[simp] theorem storeBlockTypes_pos (c : Cat) (v : Nat) (s : State) : (storeBlockTypes c v s).pos = s.pos := by
  unfold storeBlockTypes; split <;> simp
@[simp] theorem storeBlockTypes_wbits (c : Cat) (v : Nat) (s : State) : (storeBlockTypes c v s).wbits = s.wbits := by
  unfold storeBlockTypes; split <;> simp
@[simp] theorem storeBlockTypes_maxBackward (c : Cat) (v : Nat) (s : State) : (storeBlockTypes c v s).maxBackward = s.maxBackward := by
  unfold storeBlockTypes; split <;> simp
@[simp] theorem storeBlockTypes_p1 (c : Cat) (v : Nat) (s : State) : (storeBlockTypes c v s).p1 = s.p1 := by
  unfold storeBlockTypes; split <;> simp
@[simp] theorem storeBlockTypes_p2 (c : Cat) (v : Nat) (s : State) : (storeBlockTypes c v s).p2 = s.p2 := by
  unfold storeBlockTypes; split <;> simp
@[simp] theorem storeBlockTypes_hist (c : Cat) (v : Nat) (s : State) : (storeBlockTypes c v s).hist = s.hist := by
  unfold storeBlockTypes; split <;> simp
@[simp] theorem storeBlockTypes_inMem (c : Cat) (v : Nat) (s : State) : (storeBlockTypes c v s).inMem = s.inMem := by
  unfold storeBlockTypes; split <;> simp
@[simp] theorem storeBlockTypes_outMem (c : Cat) (v : Nat) (s : State) : (storeBlockTypes c v s).outMem = s.outMem := by
  unfold storeBlockTypes; split <;> simp
@[simp] theorem storeBlockTypes_ring (c : Cat) (v : Nat) (s : State) : (storeBlockTypes c v s).ring = s.ring := by
  unfold storeBlockTypes; split <;> simp
@[simp] theorem storeBlockTypes_rom (c : Cat) (v : Nat) (s : State) : (storeBlockTypes c v s).rom = s.rom := by
  unfold storeBlockTypes; split <;> simp
@[simp] theorem storeBlockTypes_cmd (c : Cat) (v : Nat) (s : State) : (storeBlockTypes c v s).cmd = s.cmd := by
  unfold storeBlockTypes; split <;> simp

/-! ### storeCount -/

@[simp] theorem storeCount_cfgInLen (u : CountUse) (v : Nat) (s : State) : (storeCount u v s).cfgInLen = s.cfgInLen := by
  cases u <;> simp [storeCount]
@[simp] theorem storeCount_cfgStartBit (u : CountUse) (v : Nat) (s : State) : (storeCount u v s).cfgStartBit = s.cfgStartBit := by
  cases u <;> simp [storeCount]
@[simp] theorem storeCount_cfgOutCap (u : CountUse) (v : Nat) (s : State) : (storeCount u v s).cfgOutCap = s.cfgOutCap := by
  cases u <;> simp [storeCount]
@[simp] theorem storeCount_hostq (u : CountUse) (v : Nat) (s : State) : (storeCount u v s).hostq = s.hostq := by
  cases u <;> simp [storeCount]
@[simp] theorem storeCount_phase (u : CountUse) (v : Nat) (s : State) : (storeCount u v s).phase = s.phase := by
  cases u <;> simp [storeCount]
@[simp] theorem storeCount_err (u : CountUse) (v : Nat) (s : State) : (storeCount u v s).err = s.err := by
  cases u <;> simp [storeCount]
@[simp] theorem storeCount_bitpos (u : CountUse) (v : Nat) (s : State) : (storeCount u v s).bitpos = s.bitpos := by
  cases u <;> simp [storeCount]
@[simp] theorem storeCount_pos (u : CountUse) (v : Nat) (s : State) : (storeCount u v s).pos = s.pos := by
  cases u <;> simp [storeCount]
@[simp] theorem storeCount_wbits (u : CountUse) (v : Nat) (s : State) : (storeCount u v s).wbits = s.wbits := by
  cases u <;> simp [storeCount]
@[simp] theorem storeCount_maxBackward (u : CountUse) (v : Nat) (s : State) : (storeCount u v s).maxBackward = s.maxBackward := by
  cases u <;> simp [storeCount]
@[simp] theorem storeCount_p1 (u : CountUse) (v : Nat) (s : State) : (storeCount u v s).p1 = s.p1 := by
  cases u <;> simp [storeCount]
@[simp] theorem storeCount_p2 (u : CountUse) (v : Nat) (s : State) : (storeCount u v s).p2 = s.p2 := by
  cases u <;> simp [storeCount]
@[simp] theorem storeCount_hist (u : CountUse) (v : Nat) (s : State) : (storeCount u v s).hist = s.hist := by
  cases u <;> simp [storeCount]
@[simp] theorem storeCount_inMem (u : CountUse) (v : Nat) (s : State) : (storeCount u v s).inMem = s.inMem := by
  cases u <;> simp [storeCount]
@[simp] theorem storeCount_outMem (u : CountUse) (v : Nat) (s : State) : (storeCount u v s).outMem = s.outMem := by
  cases u <;> simp [storeCount]
@[simp] theorem storeCount_ring (u : CountUse) (v : Nat) (s : State) : (storeCount u v s).ring = s.ring := by
  cases u <;> simp [storeCount]
@[simp] theorem storeCount_rom (u : CountUse) (v : Nat) (s : State) : (storeCount u v s).rom = s.rom := by
  cases u <;> simp [storeCount]
@[simp] theorem storeCount_cmd (u : CountUse) (v : Nat) (s : State) : (storeCount u v s).cmd = s.cmd := by
  cases u <;> simp [storeCount]

/-! ### storeBlockLen -/

@[simp] theorem storeBlockLen_cfgInLen (c : Cat) (sw : Bool) (n : Nat) (s : State) : (storeBlockLen c sw n s).cfgInLen = s.cfgInLen := by
  unfold storeBlockLen; split <;> simp
@[simp] theorem storeBlockLen_cfgStartBit (c : Cat) (sw : Bool) (n : Nat) (s : State) : (storeBlockLen c sw n s).cfgStartBit = s.cfgStartBit := by
  unfold storeBlockLen; split <;> simp
@[simp] theorem storeBlockLen_cfgOutCap (c : Cat) (sw : Bool) (n : Nat) (s : State) : (storeBlockLen c sw n s).cfgOutCap = s.cfgOutCap := by
  unfold storeBlockLen; split <;> simp
@[simp] theorem storeBlockLen_hostq (c : Cat) (sw : Bool) (n : Nat) (s : State) : (storeBlockLen c sw n s).hostq = s.hostq := by
  unfold storeBlockLen; split <;> simp
@[simp] theorem storeBlockLen_phase (c : Cat) (sw : Bool) (n : Nat) (s : State) : (storeBlockLen c sw n s).phase = s.phase := by
  unfold storeBlockLen; split <;> simp
@[simp] theorem storeBlockLen_err (c : Cat) (sw : Bool) (n : Nat) (s : State) : (storeBlockLen c sw n s).err = s.err := by
  unfold storeBlockLen; split <;> simp
@[simp] theorem storeBlockLen_bitpos (c : Cat) (sw : Bool) (n : Nat) (s : State) : (storeBlockLen c sw n s).bitpos = s.bitpos := by
  unfold storeBlockLen; split <;> simp
@[simp] theorem storeBlockLen_pos (c : Cat) (sw : Bool) (n : Nat) (s : State) : (storeBlockLen c sw n s).pos = s.pos := by
  unfold storeBlockLen; split <;> simp
@[simp] theorem storeBlockLen_wbits (c : Cat) (sw : Bool) (n : Nat) (s : State) : (storeBlockLen c sw n s).wbits = s.wbits := by
  unfold storeBlockLen; split <;> simp
@[simp] theorem storeBlockLen_maxBackward (c : Cat) (sw : Bool) (n : Nat) (s : State) : (storeBlockLen c sw n s).maxBackward = s.maxBackward := by
  unfold storeBlockLen; split <;> simp
@[simp] theorem storeBlockLen_p1 (c : Cat) (sw : Bool) (n : Nat) (s : State) : (storeBlockLen c sw n s).p1 = s.p1 := by
  unfold storeBlockLen; split <;> simp
@[simp] theorem storeBlockLen_p2 (c : Cat) (sw : Bool) (n : Nat) (s : State) : (storeBlockLen c sw n s).p2 = s.p2 := by
  unfold storeBlockLen; split <;> simp
@[simp] theorem storeBlockLen_hist (c : Cat) (sw : Bool) (n : Nat) (s : State) : (storeBlockLen c sw n s).hist = s.hist := by
  unfold storeBlockLen; split <;> simp
@[simp] theorem storeBlockLen_inMem (c : Cat) (sw : Bool) (n : Nat) (s : State) : (storeBlockLen c sw n s).inMem = s.inMem := by
  unfold storeBlockLen; split <;> simp
@[simp] theorem storeBlockLen_outMem (c : Cat) (sw : Bool) (n : Nat) (s : State) : (storeBlockLen c sw n s).outMem = s.outMem := by
  unfold storeBlockLen; split <;> simp
@[simp] theorem storeBlockLen_ring (c : Cat) (sw : Bool) (n : Nat) (s : State) : (storeBlockLen c sw n s).ring = s.ring := by
  unfold storeBlockLen; split <;> simp
@[simp] theorem storeBlockLen_rom (c : Cat) (sw : Bool) (n : Nat) (s : State) : (storeBlockLen c sw n s).rom = s.rom := by
  unfold storeBlockLen; split <;> simp
@[simp] theorem storeBlockLen_cmd (c : Cat) (sw : Bool) (n : Nat) (s : State) : (storeBlockLen c sw n s).cmd = s.cmd := by
  unfold storeBlockLen; split <;> simp

/-! ### storeCode -/

@[simp] theorem storeCode_cfgInLen (u : CodeUse) (T : Code) (s : State) : (storeCode u T s).cfgInLen = s.cfgInLen := by
  cases u <;> simp only [storeCode] <;> (try split) <;> simp
@[simp] theorem storeCode_cfgStartBit (u : CodeUse) (T : Code) (s : State) : (storeCode u T s).cfgStartBit = s.cfgStartBit := by
  cases u <;> simp only [storeCode] <;> (try split) <;> simp
@[simp] theorem storeCode_cfgOutCap (u : CodeUse) (T : Code) (s : State) : (storeCode u T s).cfgOutCap = s.cfgOutCap := by
  cases u <;> simp only [storeCode] <;> (try split) <;> simp
@[simp] theorem storeCode_hostq (u : CodeUse) (T : Code) (s : State) : (storeCode u T s).hostq = s.hostq := by
  cases u <;> simp only [storeCode] <;> (try split) <;> simp
@[simp] theorem storeCode_phase (u : CodeUse) (T : Code) (s : State) : (storeCode u T s).phase = s.phase := by
  cases u <;> simp only [storeCode] <;> (try split) <;> simp
@[simp] theorem storeCode_err (u : CodeUse) (T : Code) (s : State) : (storeCode u T s).err = s.err := by
  cases u <;> simp only [storeCode] <;> (try split) <;> simp
@[simp] theorem storeCode_bitpos (u : CodeUse) (T : Code) (s : State) : (storeCode u T s).bitpos = s.bitpos := by
  cases u <;> simp only [storeCode] <;> (try split) <;> simp
@[simp] theorem storeCode_pos (u : CodeUse) (T : Code) (s : State) : (storeCode u T s).pos = s.pos := by
  cases u <;> simp only [storeCode] <;> (try split) <;> simp
@[simp] theorem storeCode_wbits (u : CodeUse) (T : Code) (s : State) : (storeCode u T s).wbits = s.wbits := by
  cases u <;> simp only [storeCode] <;> (try split) <;> simp
@[simp] theorem storeCode_maxBackward (u : CodeUse) (T : Code) (s : State) : (storeCode u T s).maxBackward = s.maxBackward := by
  cases u <;> simp only [storeCode] <;> (try split) <;> simp
@[simp] theorem storeCode_p1 (u : CodeUse) (T : Code) (s : State) : (storeCode u T s).p1 = s.p1 := by
  cases u <;> simp only [storeCode] <;> (try split) <;> simp
@[simp] theorem storeCode_p2 (u : CodeUse) (T : Code) (s : State) : (storeCode u T s).p2 = s.p2 := by
  cases u <;> simp only [storeCode] <;> (try split) <;> simp
@[simp] theorem storeCode_hist (u : CodeUse) (T : Code) (s : State) : (storeCode u T s).hist = s.hist := by
  cases u <;> simp only [storeCode] <;> (try split) <;> simp
@[simp] theorem storeCode_inMem (u : CodeUse) (T : Code) (s : State) : (storeCode u T s).inMem = s.inMem := by
  cases u <;> simp only [storeCode] <;> (try split) <;> simp
@[simp] theorem storeCode_outMem (u : CodeUse) (T : Code) (s : State) : (storeCode u T s).outMem = s.outMem := by
  cases u <;> simp only [storeCode] <;> (try split) <;> simp
@[simp] theorem storeCode_ring (u : CodeUse) (T : Code) (s : State) : (storeCode u T s).ring = s.ring := by
  cases u <;> simp only [storeCode] <;> (try split) <;> simp
@[simp] theorem storeCode_rom (u : CodeUse) (T : Code) (s : State) : (storeCode u T s).rom = s.rom := by
  cases u <;> simp only [storeCode] <;> (try split) <;> simp
@[simp] theorem storeCode_cmd (u : CodeUse) (T : Code) (s : State) : (storeCode u T s).cmd = s.cmd := by
  cases u <;> simp only [storeCode] <;> (try split) <;> simp

/-! ### nextLength -/

@[simp] theorem nextLength_cfgInLen (u : CodeUse) (T : Code) (st : LenLocals) (s : State) : (nextLength u T st s).cfgInLen = s.cfgInLen := by
  unfold nextLength; split <;> (try split) <;> simp
@[simp] theorem nextLength_cfgStartBit (u : CodeUse) (T : Code) (st : LenLocals) (s : State) : (nextLength u T st s).cfgStartBit = s.cfgStartBit := by
  unfold nextLength; split <;> (try split) <;> simp
@[simp] theorem nextLength_cfgOutCap (u : CodeUse) (T : Code) (st : LenLocals) (s : State) : (nextLength u T st s).cfgOutCap = s.cfgOutCap := by
  unfold nextLength; split <;> (try split) <;> simp
@[simp] theorem nextLength_hostq (u : CodeUse) (T : Code) (st : LenLocals) (s : State) : (nextLength u T st s).hostq = s.hostq := by
  unfold nextLength; split <;> (try split) <;> simp
@[simp] theorem nextLength_bitpos (u : CodeUse) (T : Code) (st : LenLocals) (s : State) : (nextLength u T st s).bitpos = s.bitpos := by
  unfold nextLength; split <;> (try split) <;> simp
@[simp] theorem nextLength_pos (u : CodeUse) (T : Code) (st : LenLocals) (s : State) : (nextLength u T st s).pos = s.pos := by
  unfold nextLength; split <;> (try split) <;> simp
@[simp] theorem nextLength_wbits (u : CodeUse) (T : Code) (st : LenLocals) (s : State) : (nextLength u T st s).wbits = s.wbits := by
  unfold nextLength; split <;> (try split) <;> simp
@[simp] theorem nextLength_maxBackward (u : CodeUse) (T : Code) (st : LenLocals) (s : State) : (nextLength u T st s).maxBackward = s.maxBackward := by
  unfold nextLength; split <;> (try split) <;> simp
@[simp] theorem nextLength_p1 (u : CodeUse) (T : Code) (st : LenLocals) (s : State) : (nextLength u T st s).p1 = s.p1 := by
  unfold nextLength; split <;> (try split) <;> simp
@[simp] theorem nextLength_p2 (u : CodeUse) (T : Code) (st : LenLocals) (s : State) : (nextLength u T st s).p2 = s.p2 := by
  unfold nextLength; split <;> (try split) <;> simp
@[simp] theorem nextLength_hist (u : CodeUse) (T : Code) (st : LenLocals) (s : State) : (nextLength u T st s).hist = s.hist := by
  unfold nextLength; split <;> (try split) <;> simp
@[simp] theorem nextLength_inMem (u : CodeUse) (T : Code) (st : LenLocals) (s : State) : (nextLength u T st s).inMem = s.inMem := by
  unfold nextLength; split <;> (try split) <;> simp
@[simp] theorem nextLength_outMem (u : CodeUse) (T : Code) (st : LenLocals) (s : State) : (nextLength u T st s).outMem = s.outMem := by
  unfold nextLength; split <;> (try split) <;> simp
@[simp] theorem nextLength_ring (u : CodeUse) (T : Code) (st : LenLocals) (s : State) : (nextLength u T st s).ring = s.ring := by
  unfold nextLength; split <;> (try split) <;> simp
@[simp] theorem nextLength_rom (u : CodeUse) (T : Code) (st : LenLocals) (s : State) : (nextLength u T st s).rom = s.rom := by
  unfold nextLength; split <;> (try split) <;> simp
@[simp] theorem nextLength_cmd (u : CodeUse) (T : Code) (st : LenLocals) (s : State) : (nextLength u T st s).cmd = s.cmd := by
  unfold nextLength; split <;> (try split) <;> simp

end Sys2Proof.Machine
end

