-- ==== Sys2Proof/Laws/Memory.lean ====
section
/-! SUPPORT. The byte memories: what a read after a write gives, and that every memory operation keeps the canonical
form. -/

namespace Sys2Proof.Machine

/-- Every listed address is above `a`. -/
def AllAbove (a : Nat) (m : Memory) : Prop := ∀ c ∈ m, a < c.1

theorem risingAddrs_cons (c : Host.Cell) (m : Memory) :
    risingAddrs (c :: m) = true ↔ AllAbove c.1 m ∧ risingAddrs m = true := by
  induction m generalizing c with
  | nil => simp [risingAddrs, AllAbove]
  | cons d m ih =>
    simp only [risingAddrs, Bool.and_eq_true, decide_eq_true_eq, ih d]
    constructor
    · rintro ⟨h, ha, hr⟩
      refine ⟨?_, ha, hr⟩
      intro e he
      rcases List.mem_cons.1 he with rfl | he
      · exact h
      · exact Nat.lt_trans h (ha e he)
    · rintro ⟨h, ha, hr⟩
      exact ⟨h d (by simp), ha, hr⟩

theorem wf_nil : Memory.wf [] = true := rfl

theorem wf_cons (c : Host.Cell) (m : Memory) :
    Memory.wf (c :: m) = true ↔ AllAbove c.1 m ∧ c.2 ≠ unlistedByte ∧ Memory.wf m = true := by
  simp only [Memory.wf, Bool.and_eq_true, risingAddrs_cons, List.all_cons, bne_iff_ne, ne_eq]
  tauto

/-- A read below every listed address. -/
theorem memRead_of_allAbove {a : Nat} {m : Memory} (h : AllAbove a m) : memRead m a = unlistedByte := by
  induction m with
  | nil => rfl
  | cons c m ih =>
    have hc : a < c.1 := h c (by simp)
    have hm : AllAbove a m := fun d hd => h d (by simp [hd])
    simp only [memRead, if_neg (Nat.ne_of_lt hc), ih hm]

theorem AllAbove.mono {a b : Nat} {m : Memory} (h : AllAbove b m) (hab : a ≤ b) : AllAbove a m :=
  fun c hc => Nat.lt_of_le_of_lt hab (h c hc)

theorem AllAbove.memWrite {k a : Nat} {m : Memory} (b : Byte) (h : AllAbove k m) (ha : k < a) :
    AllAbove k (memWrite m a b) := by
  induction m with
  | nil =>
    unfold Machine.memWrite
    split
    · exact h
    · intro c hc; simp only [List.mem_singleton] at hc; subst hc; exact ha
  | cons c m ih =>
    have hc : k < c.1 := h c (by simp)
    have hm : AllAbove k m := fun d hd => h d (by simp [hd])
    unfold Machine.memWrite
    split_ifs
    · exact h
    · intro d hd
      rcases List.mem_cons.1 hd with rfl | hd
      · exact ha
      · exact h d hd
    · exact hm
    · intro d hd
      rcases List.mem_cons.1 hd with rfl | hd
      · exact ha
      · exact hm d hd
    · intro d hd
      rcases List.mem_cons.1 hd with rfl | hd
      · exact hc
      · exact ih hm d hd

/-- A write keeps the canonical form. -/
theorem memWrite_wf {m : Memory} (h : m.wf = true) (a : Nat) (b : Byte) : (memWrite m a b).wf = true := by
  induction m with
  | nil =>
    unfold memWrite
    split
    · rfl
    · rename_i hb; exact (wf_cons _ _).2 ⟨fun c hc => by simp at hc, hb, rfl⟩
  | cons c m ih =>
    obtain ⟨h1, h2, h3⟩ := (wf_cons _ _).1 h
    unfold memWrite
    split_ifs with g1 g2 g3 g4
    · exact h
    · refine (wf_cons _ _).2 ⟨?_, g2, h⟩
      intro d hd
      rcases List.mem_cons.1 hd with rfl | hd
      · exact g1
      · exact Nat.lt_trans g1 (h1 d hd)
    · exact h3
    · exact (wf_cons _ _).2 ⟨by rw [g3]; exact h1, g4, h3⟩
    · exact (wf_cons _ _).2 ⟨h1.memWrite b (by omega), h2, ih h3⟩

/-- What a read after a write gives, at the written address and at every other one. -/
theorem memRead_memWrite {m : Memory} (h : m.wf = true) (a : Nat) (b : Byte) (k : Nat) :
    memRead (memWrite m a b) k = if k = a then b else memRead m k := by
  induction m with
  | nil =>
    unfold memWrite
    split
    · rename_i hb; simp [memRead, hb]
    · simp [memRead]
  | cons c m ih =>
    obtain ⟨c1, c2⟩ := c
    obtain ⟨h1, -, h3⟩ := (wf_cons _ _).1 h
    rcases Nat.lt_trichotomy a c1 with ha | rfl | ha
    · have hall : AllAbove a ((c1, c2) :: m) := by
        intro d hd
        rcases List.mem_cons.1 hd with rfl | hd
        · exact ha
        · exact Nat.lt_trans ha (h1 d hd)
      by_cases hb : b = unlistedByte
      · simp only [memWrite, if_pos ha, if_pos hb]
        split
        · subst k; rw [memRead_of_allAbove hall, hb]
        · rfl
      · simp only [memWrite, if_pos ha, if_neg hb]
        rfl
    · by_cases hb : b = unlistedByte
      · simp only [memWrite, Nat.lt_irrefl, if_false, if_true, if_pos hb]
        split
        · subst k; rw [memRead_of_allAbove h1, hb]
        · rename_i hk; simp only [memRead, if_neg hk]
      · simp only [memWrite, Nat.lt_irrefl, if_false, if_true, if_neg hb, memRead]
        split <;> rfl
    · have h1' : ¬ a < c1 := by omega
      have h2' : ¬ a = c1 := by omega
      simp only [memWrite, if_neg h1', if_neg h2', memRead, ih h3]
      by_cases hk : k = c1
      · have : ¬ c1 = a := by omega
        simp [hk, this]
      · simp [hk]

/-- Loading bytes keeps the canonical form. -/
theorem loadBytes_wf (bs : List Byte) (a : Nat) {m : Memory} (h : m.wf = true) : (loadBytes bs a m).wf = true := by
  induction bs generalizing a m with
  | nil => exact h
  | cons b bs ih => exact ih (a + 1) (memWrite_wf h a b)

/-- An output byte keeps both output memories' canonical form. -/
theorem putByte_wf (b : Byte) (s : State) (ho : s.outMem.wf = true) (hr : s.ring.wf = true) :
    (putByte b s).outMem.wf = true ∧ (putByte b s).ring.wf = true :=
  ⟨memWrite_wf ho _ _, memWrite_wf hr _ _⟩

/-- So does a list of them. -/
theorem putBytes_wf (bs : List Byte) (s : State) (ho : s.outMem.wf = true) (hr : s.ring.wf = true) :
    (putBytes bs s).outMem.wf = true ∧ (putBytes bs s).ring.wf = true := by
  induction bs generalizing s with
  | nil => exact ⟨ho, hr⟩
  | cons b bs ih => exact ih _ (putByte_wf b s ho hr).1 (putByte_wf b s ho hr).2

/-- So does a copy. -/
theorem copyLoop_wf (d n : Nat) (s : State) (ho : s.outMem.wf = true) (hr : s.ring.wf = true) :
    (copyLoop d n s).outMem.wf = true ∧ (copyLoop d n s).ring.wf = true := by
  induction n generalizing s with
  | zero => exact ⟨ho, hr⟩
  | succ n ih => exact ih _ (putByte_wf _ s ho hr).1 (putByte_wf _ s ho hr).2

/-- A host move keeps the memories' canonical form. -/
theorem hostMove_wf (c : HostCmd) (s : State) (h : MemoriesWf s) : MemoriesWf (hostMove c s) := by
  obtain ⟨hi, ho, hr, hd⟩ := h
  unfold hostMove
  split
  · exact ⟨hi, ho, hr, hd⟩
  · rcases c with ⟨r, v⟩ | ⟨a, b⟩ | ⟨a, b⟩
    · cases r <;> simp only [writeHostReg] <;> try exact ⟨hi, ho, hr, hd⟩
      split <;> exact ⟨hi, ho, hr, hd⟩
    · exact ⟨memWrite_wf hi _ _, ho, hr, hd⟩
    · exact ⟨hi, memWrite_wf ho _ _, hr, hd⟩

/-- The memories after reset are in canonical form. -/
theorem reset_memoriesWf : MemoriesWf State.reset := ⟨rfl, rfl, rfl, rfl⟩

end Sys2Proof.Machine
end

