-- ==== Sys2Proof/Laws/Ops.lean ====
section
/-! SUPPORT. One lemma per shared operation that says everything it can do: the drop, the output byte and its loops, the
block count, the moves of the control point and the header's continuations. -/

namespace Sys2Proof.Machine

/-! ### The drop and the output byte -/

/-- A drop either raises `need_more_input` or goes on with the cursor advanced. -/
theorem dropThen_cases (n : Nat) (s : State) (k : State → Answer) :
    (Fits n s ∧ dropThen n s k = k (advance n s)) ∨
    (¬ Fits n s ∧ dropThen n s k = .next (raise .needMoreInput s)) := by
  unfold dropThen Fits
  split
  · exact .inr ⟨by omega, rfl⟩
  · exact .inl ⟨by omega, rfl⟩

theorem dropThen_of_fits {n : Nat} {s : State} (k : State → Answer) (h : Fits n s) :
    dropThen n s k = k (advance n s) := by
  rcases dropThen_cases n s k with ⟨-, e⟩ | ⟨h', -⟩
  · exact e
  · exact absurd h h'

theorem dropThen_of_not_fits {n : Nat} {s : State} (k : State → Answer) (h : ¬ Fits n s) :
    dropThen n s k = .next (raise .needMoreInput s) := by
  rcases dropThen_cases n s k with ⟨h', -⟩ | ⟨-, e⟩
  · exact absurd h' h
  · exact e

/-- What a drop answers next. -/
theorem dropThen_next {n : Nat} {s t : State} {k : State → Answer} (h : dropThen n s k = .next t) :
    (Fits n s ∧ k (advance n s) = .next t) ∨ (¬ Fits n s ∧ t = raise .needMoreInput s) := by
  rcases dropThen_cases n s k with ⟨hf, e⟩ | ⟨hf, e⟩ <;> rw [e] at h
  · exact .inl ⟨hf, h⟩
  · cases h; exact .inr ⟨hf, rfl⟩

/-- An output byte either raises `syntax_error` or is written. -/
theorem emitThen_cases (b : Byte) (s : State) (k : State → Answer) :
    (s.pos < s.cfgOutCap.toNat ∧ emitThen b s k = k (putByte b s)) ∨
    (s.cfgOutCap.toNat ≤ s.pos ∧ emitThen b s k = .next (raise .syntaxError s)) := by
  unfold emitThen
  split
  · exact .inr ⟨‹_›, rfl⟩
  · exact .inl ⟨by omega, rfl⟩

/-- A list of output bytes changes `OUT`, `RING`, `p1`, `p2` and `pos` only. -/
theorem putBytes_eq (bs : List Byte) (s : State) :
    ∃ o r p1 p2, putBytes bs s = { s with outMem := o, ring := r, p1 := p1, p2 := p2, pos := s.pos + bs.length } := by
  induction bs generalizing s with
  | nil => exact ⟨s.outMem, s.ring, s.p1, s.p2, rfl⟩
  | cons b bs ih =>
    obtain ⟨o, r, q1, q2, h⟩ := ih (putByte b s)
    have e : s.pos + (bs.length + 1) = s.pos + 1 + bs.length := by omega
    exact ⟨o, r, q1, q2, by rw [List.length_cons, e]; exact h⟩

/-- What `RING` holds after a list of output bytes: a place none of them went to is as before, and a place holds the last
byte that went to it. -/
theorem putBytes_ring (bs : List Byte) (s : State) (hs : s.ring.wf = true) :
    (∀ j, (∀ i, i < bs.length → j ≠ (s.pos + i) % 2 ^ s.wbits) → memRead (putBytes bs s).ring j = memRead s.ring j) ∧
    (∀ i b, bs[i]? = some b → (∀ j, i < j → j < bs.length → (s.pos + j) % 2 ^ s.wbits ≠ (s.pos + i) % 2 ^ s.wbits) →
      memRead (putBytes bs s).ring ((s.pos + i) % 2 ^ s.wbits) = b) := by
  induction bs generalizing s with
  | nil => simp [putBytes]
  | cons c bs ih =>
    have hr : ∀ k, memRead (putByte c s).ring k = if k = s.pos % 2 ^ s.wbits then c else memRead s.ring k :=
      fun k => memRead_memWrite hs _ _ _
    obtain ⟨i1, i2⟩ := ih (putByte c s) (memWrite_wf hs _ _)
    have next : ∀ i, s.pos + 1 + i = s.pos + (i + 1) := fun i => by omega
    simp only [show (putByte c s).pos = s.pos + 1 from rfl, show (putByte c s).wbits = s.wbits from rfl, next] at i1 i2
    refine ⟨fun j hj => ?_, fun i b hi hne => ?_⟩
    · show memRead (putBytes bs (putByte c s)).ring j = _
      rw [i1 j fun i hi => hj (i + 1) (by simp; omega), hr, if_neg (by simpa using hj 0 (by simp))]
    · show memRead (putBytes bs (putByte c s)).ring _ = _
      cases i with
      | zero =>
        simp at hi; subst hi
        rw [i1 _ fun i hi => (hne (i + 1) (by omega) (by simp; omega)).symm, hr, if_pos (by simp)]
      | succ i => exact i2 i b (by simpa using hi) fun j h1 h2 => hne (j + 1) (by omega) (by simp; omega)

/-- A copy changes `OUT`, `RING`, `p1`, `p2` and `pos` only. -/
theorem copyLoop_eq (d n : Nat) (s : State) :
    ∃ o r p1 p2, copyLoop d n s = { s with outMem := o, ring := r, p1 := p1, p2 := p2, pos := s.pos + n } := by
  induction n generalizing s with
  | zero => exact ⟨s.outMem, s.ring, s.p1, s.p2, rfl⟩
  | succ n ih =>
    obtain ⟨o, r, q1, q2, h⟩ := ih (putByte (memRead s.ring (ringIndex s (s.pos - d))) s)
    have e : s.pos + (n + 1) = s.pos + 1 + n := by omega
    exact ⟨o, r, q1, q2, by rw [e]; exact h⟩

/-! ### Block registers -/

/-- A count changes `block_len` of its category only. -/
theorem countDown_eq (c : Cat) (s : State) :
    ∃ n, countDown c s = { s with mb := s.mb.setBlock c { s.mb.block c with blockLen := n } } := by
  unfold countDown
  split
  · exact ⟨_, rfl⟩
  · refine ⟨(s.mb.block c).blockLen, ?_⟩
    cases c <;> rfl

@[simp] theorem countDown_endBit (c : Cat) (s : State) : endBit (countDown c s) = endBit s := by
  obtain ⟨n, h⟩ := countDown_eq c s; rw [h]; rfl
theorem countDown_fits (c : Cat) (n : Nat) (s : State) : Fits n (countDown c s) ↔ Fits n s := by
  simp [Fits]

/-! ### Moves of the control point -/

theorem enterSym_goto (c : Cat) (s : State) : ∃ k, enterSym c s = goto k s := by
  unfold enterSym; split <;> exact ⟨_, rfl⟩

theorem endMetaBlock_goto (s : State) : ∃ k, endMetaBlock s = goto k s := by
  unfold endMetaBlock; split <;> exact ⟨_, rfl⟩

theorem nextCommand_goto (s : State) : ∃ k, nextCommand s = goto k s := by
  unfold nextCommand; split
  · exact enterSym_goto _ _
  · exact endMetaBlock_goto _

/-- What follows an insert changes the control point and the command registers only. -/
theorem nextInsert_eq (s : State) : ∃ k c, nextInsert s = { s with ctl := k, cmd := c } := by
  unfold nextInsert
  split
  · split
    · obtain ⟨k, h⟩ := enterSym_goto .literal s; exact ⟨k, s.cmd, h⟩
    · unfold enterDistance
      split
      · exact ⟨_, _, rfl⟩
      · obtain ⟨k, h⟩ := enterSym_goto .distance s; exact ⟨k, s.cmd, h⟩
  · obtain ⟨k, h⟩ := endMetaBlock_goto s; exact ⟨k, s.cmd, h⟩

/-! ### The header's continuations -/

theorem nextCategory_goto (c : Cat) (s : State) : ∃ k, nextCategory c s = goto k s := by
  cases c <;> exact ⟨_, rfl⟩

theorem storeMap_eq (m : MapSel) (e : List Nat) (s : State) :
    ∃ k b, storeMap m e s = { s with ctl := k, mb := b } := by
  cases m <;> exact ⟨_, _, rfl⟩

/-- A count's continuation changes the control point and the meta-block registers only. -/
theorem storeCount_eq (u : CountUse) (v : Nat) (s : State) :
    ∃ k b, storeCount u v s = { s with ctl := k, mb := b } := by
  rcases u with c | _ | _
  · simp only [storeCount, storeBlockTypes]
    split
    · exact ⟨_, _, rfl⟩
    · obtain ⟨k, h⟩ := nextCategory_goto c (setBlock c { s.block c with numTypes := v, blockLen := Config.hugeBlockLen } s)
      exact ⟨k, _, h⟩
  · simp only [storeCount, enterMap]
    split
    · exact ⟨_, _, rfl⟩
    · exact ⟨_, _, rfl⟩
  · simp only [storeCount, enterMap]
    split
    · exact ⟨_, _, rfl⟩
    · exact ⟨_, _, rfl⟩

theorem storeBlockLen_eq (c : Cat) (switch : Bool) (n : Nat) (s : State) :
    ∃ k b, storeBlockLen c switch n s = { s with ctl := k, mb := b } := by
  simp only [storeBlockLen]
  split
  · exact ⟨_, _, rfl⟩
  · obtain ⟨k, h⟩ := nextCategory_goto c (setBlock c { s.block c with blockLen := n } s)
    exact ⟨k, _, h⟩

/-- A code's continuation changes the control point and the meta-block registers only. -/
theorem storeCode_eq (u : CodeUse) (T : Code) (s : State) :
    ∃ k b, storeCode u T s = { s with ctl := k, mb := b } := by
  rcases u with c | c | ⟨m, r⟩ | _ | _ | _
  · exact ⟨_, _, rfl⟩
  · exact ⟨_, _, rfl⟩
  · exact ⟨_, s.mb, rfl⟩
  · simp only [storeCode]; split <;> exact ⟨_, _, rfl⟩
  · simp only [storeCode]; split <;> exact ⟨_, _, rfl⟩
  · simp only [storeCode]
    split
    · exact ⟨_, _, rfl⟩
    · obtain ⟨k, h⟩ := nextCommand_goto { s with mb := { s.mb with distCode := s.mb.distCode ++ [T] } }
      exact ⟨k, _, h⟩

/-- After a symbol length: the control point and the meta-block registers change, or `huffman_length_error` is raised. -/
theorem nextLength_eq (u : CodeUse) (T : Code) (st : LenLocals) (s : State) :
    (∃ k b, nextLength u T st s = { s with ctl := k, mb := b }) ∨
    nextLength u T st s = raise .huffmanLengthError s := by
  unfold nextLength
  split
  · exact .inl ⟨_, s.mb, rfl⟩
  · split
    · exact .inl (storeCode_eq u _ s)
    · exact .inr rfl

theorem applyRepeat_eq (u : CodeUse) (T : Code) (st : LenLocals) (newlen shift extra : Nat) (s : State) :
    (∃ k b, applyRepeat u T st newlen shift extra s = { s with ctl := k, mb := b }) ∨
    applyRepeat u T st newlen shift extra s = raise .huffmanLengthError s := by
  unfold applyRepeat
  split
  · exact nextLength_eq u T _ s
  · exact .inr rfl

theorem nextClEntry_eq (u : CodeUse) (st : ClLocals) (s : State) :
    (∃ k b, nextClEntry u st s = { s with ctl := k, mb := b }) ∨ nextClEntry u st s = raise .huffmanLengthError s := by
  unfold nextClEntry
  split
  · split
    · exact nextLength_eq u _ _ s
    · exact .inr rfl
  · exact .inl ⟨_, s.mb, rfl⟩

theorem finishSymbols_eq (u : CodeUse) (syms : List Nat) (bad : Bool) (s : State) :
    (∃ k b, finishSymbols u syms bad s = { s with ctl := k, mb := b }) ∨
    finishSymbols u syms bad s = raise .huffmanLengthError s := by
  unfold finishSymbols
  split
  · exact .inr rfl
  · split
    · exact .inl (storeCode_eq u _ s)
    · exact .inl (storeCode_eq u _ s)
    · exact .inl (storeCode_eq u _ s)
    · exact .inl ⟨_, s.mb, rfl⟩

/-! ### What a command's copy can do -/

/-- The step at `copy` raises `syntax_error`, perhaps after a push, or outputs bytes and goes on. -/
theorem finishCommand_eq (s : State) :
    (∃ h, finishCommand s = raise .syntaxError { s with hist := h }) ∨
    (∃ h o r p1 p2 n k, finishCommand s =
      { s with hist := h, outMem := o, ring := r, p1 := p1, p2 := p2, pos := s.pos + n, ctl := k } ∧
      s.pos + n ≤ s.mb.mbEnd ∧ s.pos + n ≤ s.cfgOutCap.toNat) := by
  have copy : ∀ (h : DistRing) (d n : Nat),
      copyBack d n { s with hist := h } = raise .syntaxError { s with hist := h } ∨
      (∃ o r p1 p2 k, copyBack d n { s with hist := h } =
        { s with hist := h, outMem := o, ring := r, p1 := p1, p2 := p2, pos := s.pos + n, ctl := k } ∧
        s.pos + n ≤ s.mb.mbEnd ∧ s.pos + n ≤ s.cfgOutCap.toNat) := by
    intro h d n
    unfold copyBack
    split
    · exact .inl rfl
    · rename_i hov
      obtain ⟨o, r, q1, q2, e⟩ := copyLoop_eq d n { s with hist := h }
      obtain ⟨k, ek⟩ := nextCommand_goto (copyLoop d n { s with hist := h })
      refine .inr ⟨o, r, q1, q2, k, ?_, ?_, ?_⟩
      · rw [ek, e]; rfl
      all_goals (simp [overruns] at hov; omega)
  have dict : ∀ t : List Byte, dictEmit t s = raise .syntaxError s ∨
      (∃ o r p1 p2 k, dictEmit t s =
        { s with outMem := o, ring := r, p1 := p1, p2 := p2, pos := s.pos + t.length, ctl := k } ∧
        s.pos + t.length ≤ s.mb.mbEnd ∧ s.pos + t.length ≤ s.cfgOutCap.toNat) := by
    intro t
    unfold dictEmit
    split
    · exact .inl rfl
    · rename_i hov
      obtain ⟨o, r, q1, q2, e⟩ := putBytes_eq t s
      obtain ⟨k, ek⟩ := nextCommand_goto (putBytes t s)
      refine .inr ⟨o, r, q1, q2, k, ?_, ?_, ?_⟩
      · rw [ek, e]; rfl
      all_goals (simp [overruns] at hov; omega)
  unfold finishCommand
  simp only
  split
  · split
    · rcases copy (s.hist.push s.cmd.distance) s.cmd.distance s.cmd.copyLen with e | ⟨o, r, q1, q2, k, e, b⟩
      · exact .inl ⟨_, e⟩
      · exact .inr ⟨_, o, r, q1, q2, _, k, e, b⟩
    · rcases copy s.hist s.cmd.distance s.cmd.copyLen with e | ⟨o, r, q1, q2, k, e, b⟩
      · exact .inl ⟨_, e⟩
      · exact .inr ⟨_, o, r, q1, q2, _, k, e, b⟩
  · unfold dictRef
    split
    · exact .inl ⟨s.hist, rfl⟩
    · simp only
      split
      · rcases dict (applyTransform _ _) with e | ⟨o, r, q1, q2, k, e, b⟩
        · exact .inl ⟨s.hist, e⟩
        · exact .inr ⟨s.hist, o, r, q1, q2, _, k, e, b⟩
      · exact .inl ⟨s.hist, rfl⟩

/-! ### The distance register -/

theorem storedDistance_of_nonneg {v : Int} (h : 0 ≤ v) : storedDistance v = v.toNat := by
  unfold storedDistance; rw [if_neg (by omega)]

/-- The free value of log 18 fits the register too. -/
theorem storedDistance_lt {v : Int} (h : v < 2 ^ 32) : storedDistance v < 2 ^ 32 := by
  unfold storedDistance
  split
  · exact BitVec.isLt _
  · omega

/-! ### Transforms -/

/-- A case change takes at least one byte. -/
theorem ferment_step (w : List Byte) (i : Nat) : 1 ≤ (ferment w i).2 := by
  unfold ferment; dsimp only; split_ifs <;> simp

theorem modify_append (a w : List Byte) (j : Nat) (f : Byte → Byte) :
    (a ++ w).modify (a.length + j) f = a ++ w.modify j f := by
  induction a with
  | nil => simp
  | cons x a ih => simp [Nat.succ_add, ih]

/-- A case change at a character does not see what stands before it. -/
theorem ferment_append (a w : List Byte) (i : Nat) :
    ferment (a ++ w) (a.length + i) = (a ++ (ferment w i).1, (ferment w i).2) := by
  have hg : (a ++ w).getD (a.length + i) 0 = w.getD i 0 := by
    simp [List.getD_eq_getElem?_getD, List.getElem?_append_right]
  unfold ferment
  simp only [hg, Nat.add_assoc]
  split_ifs <;> simp [modify_append]

theorem ferment_length (w : List Byte) (i : Nat) : (ferment w i).1.length = w.length := by
  unfold ferment; dsimp only; split_ifs <;> simp

theorem uppercaseFrom_length (fuel i : Nat) (w : List Byte) : (uppercaseFrom fuel i w).length = w.length := by
  induction fuel generalizing i w with
  | zero => rfl
  | succ n ih => simp only [uppercaseFrom]; split <;> simp [ih, ferment_length]

/-- The loop does not see what stands before its start. -/
theorem uppercaseFrom_append (n : Nat) (a w : List Byte) (i : Nat) :
    uppercaseFrom n (a.length + i) (a ++ w) = a ++ uppercaseFrom n i w := by
  induction n generalizing w i with
  | zero => rfl
  | succ n ih =>
    simp only [uppercaseFrom, List.length_append, Nat.add_lt_add_iff_left, ferment_append]
    split
    · rw [Nat.add_assoc, ih]
    · rfl

/-- Fuel that reaches the end of the word is enough. -/
theorem uppercaseFrom_fuel (n m : Nat) (w : List Byte) (i : Nat) (hn : w.length ≤ n + i) (hm : w.length ≤ m + i) :
    uppercaseFrom n i w = uppercaseFrom m i w := by
  induction n generalizing m w i with
  | zero => cases m <;> simp [uppercaseFrom]; omega
  | succ n ih =>
    cases m with
    | zero => simp [uppercaseFrom]; omega
    | succ m =>
      have := ferment_step w i
      simp only [uppercaseFrom]
      split
      · exact ih m _ _ (by rw [ferment_length]; omega) (by rw [ferment_length]; omega)
      · rfl

/-- Fermenting keeps a word's length. -/
theorem uppercaseAll_length (w : List Byte) : (uppercaseAll w).length = w.length := uppercaseFrom_length _ _ _

theorem uppercaseFirst_length (w : List Byte) : (uppercaseFirst w).length = w.length := by
  unfold uppercaseFirst; split
  · rfl
  · exact ferment_length _ _

end Sys2Proof.Machine
end

