-- ==== Sys2Proof/Tests/Slice0.lean ====
section
/-! SUPPORT. The model's own tests: ill-formed terms that the well-formedness checks refuse, words written out from the
spec's encodings, single steps on small states with the results of the spec's own examples, and for every statement with
hypotheses a witness that meets them. -/

set_option Elab.async false

namespace Sys2Proof.Tests

open Sys2Proof.Machine

/-! ### Well-formedness: each check refuses an ill-formed term -/

theorem test_wf_window_operands : ([.win17to24 0, .win10to15 1, .win10to15 0] : List Instr).all (!·.wf) = true := by
  decide +kernel
theorem test_wf_count_operands : ([.var256More 0, .vx 128] : List Instr).all (!·.wf) = true := by decide +kernel
theorem test_wf_symbol_operands : ([.symbol 704, .symbolInvalid 1024] : List Instr).all (!·.wf) = true := by decide +kernel
/-- A codeword has at most 15 bits (R90). -/
theorem test_wf_codeword_length :
    ([.clLength 16 0, .clRepeatPrev 16, .clRepeatZero 16, .cmapZero 16, .cmapRun 16 1, .cmapValue 16 1, .btypeLast 16,
      .btypeNext 16, .btypeExplicit 16 2, .bcount 16 0, .iacCell0 16 0 0, .iacCell1 16 0 0, .iacCell2 16 0 0,
      .iacCell3 16 0 0, .iacCell4 16 0 0, .iacCell5 16 0 0, .iacCell6 16 0 0, .iacCell7 16 0 0, .iacCell8 16 0 0,
      .iacCell9 16 0 0, .iacCell10 16 0 0, .literal 16 0, .distDirect 16 16, .distRanged 16 16] :
      List Instr).all (!·.wf) = true := by decide +kernel
theorem test_wf_short_distance_length :
    ([.distShort0 16, .distShort1 16, .distShort2 16, .distShort3 16, .distShort4 16, .distShort5 16, .distShort6 16,
      .distShort7 16, .distShort8 16, .distShort9 16, .distShort10 16, .distShort11 16, .distShort12 16, .distShort13 16,
      .distShort14 16, .distShort15 16] : List Instr).all (!·.wf) = true := by decide +kernel
theorem test_wf_symbol_ranges :
    ([.cmapRun 1 0, .cmapRun 1 17, .cmapValue 1 0, .cmapValue 1 272, .btypeExplicit 1 1, .btypeExplicit 1 258,
      .bcount 1 26, .distDirect 1 15, .distDirect 1 136, .distRanged 1 15, .distRanged 1 520] : List Instr).all
        (!·.wf) = true := by decide +kernel
theorem test_wf_extra_ranges :
    ([.padNonzero 0, .padNonzero 128, .bextra (2 ^ 24), .iextra (2 ^ 24), .cextra (2 ^ 24), .dextra (2 ^ 24),
      .runx (2 ^ 16)] : List Instr).all (!·.wf) = true := by decide +kernel
/-- R39, R87: a symbol outside the alphabet, a wrong array length, a length above 15, an incomplete code, an oversubscribed
one, a single length. -/
theorem test_code_validity :
    ([.single 3, .lengths [1, 1], .lengths [16, 1, 1], .lengths [1, 2, 0], .lengths [1, 1, 1], .lengths [1, 0, 0]] :
      List Code).all (fun T => !T.valid 3) = true := by decide +kernel
theorem test_slot_validity :
    ([.vx 0, .vx 8, .symbol 1 [], .symbol 705 [], .clSym (.single 18), .mapSym (.single 0) 17 2, .mapSym (.single 0) 0 1,
      .mapSym (.single 0) 0 257, .mapSym (.single 2) 0 2, .runx 0, .runx 17, .btype (.single 0) 1, .btype (.single 0) 257,
      .btype (.single 4) 2, .bcount (.single 26), .bextra 25, .iac (.single 704), .iextra 25, .cextra 25,
      .lit (.single 256), .dist (.single 0) 121 520, .dist (.single 0) 0 15, .dist (.single 0) 0 521,
      .dist (.single 64) 0 64, .dextra 25, .pad 8] : List Slot).all (!·.wf) = true := by decide +kernel

/-! ### Decoding: every constructor from a word written out of the spec, in read order -/

/-- R113's table. -/
theorem test_decode_window :
    ∀ e ∈ ([([false], .win16), ([true, true, false, false], .win17to24 1),
        ([true, true, true, true], .win17to24 7), ([true, false, false, false, false, false, false], .win17),
        ([true, false, false, false, true, false, false], .winReserved),
        ([true, false, false, false, false, true, false], .win10to15 2),
        ([true, false, false, false, true, true, true], .win10to15 7)] : List (List Bool × Instr)),
      decode .window (lookOf e.1) = .ok e.2 := by decide +kernel

/-- R114 to R117, R93, R107: the one-bit fields. -/
theorem test_decode_flags :
    ∀ e ∈ ([(.isLast, .isLast0, .isLast1), (.isLastEmpty, .isLastEmpty0, .isLastEmpty1),
        (.isUncompressed, .isUncompressed0, .isUncompressed1), (.rleMaxF, .rleMaxF0, .rleMaxF1),
        (.imtf, .imtf0, .imtf1), (.treeSel, .treeSel0, .treeSel1)] : List (Slot × Instr × Instr)),
      decode e.1 (lookOf [false]) = .ok e.2.1 ∧ decode e.1 (lookOf [true]) = .ok e.2.2 := by decide +kernel

/-- R92, R93, R100, R115: the two-bit fields; the first bit is the least significant (R46). -/
theorem test_decode_two_bit_fields :
    ∀ e ∈ ([(.mnibbles, .mnibbles4, .mnibbles5, .mnibbles6, .mnibblesReserved),
        (.cmode, .cmodeLsb6, .cmodeMsb6, .cmodeUtf8, .cmodeSigned),
        (.hskip, .hskipComplex0, .hskipSimple, .hskipComplex2, .hskipComplex3),
        (.nsymm1, .nsymm1One, .nsymm1Two, .nsymm1Three, .nsymm1Four),
        (.npostfix, .npostfix 0, .npostfix 1, .npostfix 2, .npostfix 3), (.r16, .r16 0, .r16 1, .r16 2, .r16 3)] :
        List (Slot × Instr × Instr × Instr × Instr)),
      decode e.1 (lookOf [false, false]) = .ok e.2.1 ∧ decode e.1 (lookOf [true, false]) = .ok e.2.2.1 ∧
      decode e.1 (lookOf [false, true]) = .ok e.2.2.2.1 ∧ decode e.1 (lookOf [true, true]) = .ok e.2.2.2.2 := by decide +kernel

/-- R95, R107, R116, R119, R122: the wider fields. -/
theorem test_decode_wide_fields :
    ∀ e ∈ ([(.mlenNib false, [true, false, true, false], .mlenNib 5), (.mlenNib false, [false], .mlenNib 0),
        (.mlenNib true, [false], .mlenNibLastZero), (.mlenNib true, [false, false, false, true], .mlenNib 8),
        (.var256, [false], .var256One), (.var256, [true, false, false, false], .var256Two),
        (.var256, [true, true, false, false], .var256More 1), (.var256, [true, false, false, true], .var256More 4),
        (.vx 2, [false, true, true], .vx 2), (.ndirectf, [true, false, false, false], .ndirectf 1),
        (.rleMaxM1, [false, false, true, false], .rleMaxM1 4), (.r17, [false, true, true], .r17 6),
        (.runx 5, [true, true, true, true, true], .runx 31), (.bextra 2, [false, true], .bextra 2),
        (.iextra 3, [true, true], .iextra 3), (.cextra 0, [true], .cextra 0), (.dextra 1, [true], .dextra 1)] :
        List (Slot × List Bool × Instr)),
      decode e.1 (lookOf e.2.1) = .ok e.2.2 := by decide +kernel

/-- R68's fixed code. -/
theorem test_decode_clen :
    ∀ e ∈ ([([false, false], .clen0), ([false, true], .clen3), ([true, false], .clen4), ([true, true, false], .clen2),
        ([true, true, true, false], .clen1), ([true, true, true, true], .clen5)] : List (List Bool × Instr)),
      decode .clen (lookOf e.1) = .ok e.2 := by decide +kernel

/-- R93: `ab(18) = 5` bits; a symbol at the alphabet's size or equal to an earlier one is invalid. -/
theorem test_decode_symbol :
    decode (.symbol 18 [3]) (lookOf [true, false, false, false, true]) = .ok (.symbol 17) ∧
    decode (.symbol 18 [3]) (lookOf [false, true, false, false, true]) = .ok (.symbolInvalid 18) ∧
    decode (.symbol 18 [3]) (lookOf [true, true]) = .ok (.symbolInvalid 3) := by decide +kernel

/-- R127. -/
theorem test_decode_pad :
    decode (.pad 5) (lookOf [false, false, false, false, false, true]) = .ok .padZero ∧
    decode (.pad 5) (lookOf [false, false, false, false, true]) = .ok (.padNonzero 16) ∧
    decode (.pad 0) (lookOf [true]) = .ok .padZero := by decide +kernel

/-- R94's example: symbols 1 to 4 with length 2, `1` to `00` up to `4` to `11`. -/
theorem test_decode_code_lengths :
    ∀ e ∈ ([([false, false], .clLength 2 1), ([false, true], .clLength 2 2), ([true, false], .clLength 2 3),
        ([true, true], .clLength 2 4)] : List (List Bool × Instr)),
      decode (.clSym (.lengths [0, 2, 2, 2, 2, 0, 0, 0, 0, 0, 0, 0, 0, 0, 0, 0, 0, 0])) (lookOf e.1) = .ok e.2 := by
  decide +kernel
/-- R95: program P4's code `2` to `0`, `17` to `1`, and a code with symbol 16. -/
theorem test_decode_repeats :
    decode (.clSym (.lengths [0, 0, 1, 0, 0, 0, 0, 0, 0, 0, 0, 0, 0, 0, 0, 0, 0, 1])) (lookOf [true])
      = .ok (.clRepeatZero 1) ∧
    decode (.clSym (.lengths [0, 1, 0, 0, 0, 0, 0, 0, 0, 0, 0, 0, 0, 0, 0, 0, 1, 0])) (lookOf [true])
      = .ok (.clRepeatPrev 1) := by decide +kernel
/-- R108: program P4's map code over 7 symbols with `RLEMAX = 5`, and one with the symbol 0. -/
theorem test_decode_map_symbols :
    decode (.mapSym (.lengths [0, 0, 0, 0, 0, 1, 1]) 5 2) (lookOf [false]) = .ok (.cmapRun 1 5) ∧
    decode (.mapSym (.lengths [0, 0, 0, 0, 0, 1, 1]) 5 2) (lookOf [true]) = .ok (.cmapValue 1 6) ∧
    decode (.mapSym (.lengths [1, 0, 0, 0, 0, 0, 1]) 5 2) (lookOf [false]) = .ok (.cmapZero 1) := by decide +kernel
/-- R88, R132: lengths 1, 2, 3, 3 give `0`, `10`, `110`, `111`. -/
theorem test_decode_block_types :
    decode (.btype (.lengths [1, 2, 3, 3]) 2) (lookOf [false]) = .ok (.btypeLast 1) ∧
    decode (.btype (.lengths [1, 2, 3, 3]) 2) (lookOf [true, false]) = .ok (.btypeNext 2) ∧
    decode (.btype (.lengths [1, 2, 3, 3]) 2) (lookOf [true, true, false]) = .ok (.btypeExplicit 3 2) ∧
    decode (.btype (.lengths [1, 2, 3, 3]) 2) (lookOf [true, true, true]) = .ok (.btypeExplicit 3 3) := by decide +kernel
/-- R121. -/
theorem test_decode_bcount :
    decode (.bcount (.lengths (List.replicate 24 0 ++ [1, 1]))) (lookOf [true]) = .ok (.bcount 1 25) := by decide +kernel
/-- R131's examples and R72's cells. -/
theorem test_decode_commands :
    ∀ e ∈ ([(0, .iacCell0 0 0 0), (10, .iacCell0 0 1 2), (127, .iacCell1 0 7 7), (130, .iacCell2 0 0 2),
        (146, .iacCell2 0 2 2), (169, .iacCell2 0 5 1), (192, .iacCell3 0 0 0), (257, .iacCell4 0 0 1),
        (328, .iacCell5 0 1 0), (384, .iacCell6 0 0 0), (448, .iacCell7 0 0 0), (512, .iacCell8 0 0 0),
        (576, .iacCell9 0 0 0), (640, .iacCell10 0 0 0), (703, .iacCell10 0 7 7)] : List (Nat × Instr)),
      decode (.iac (.single e.1)) 0 = .ok e.2 := by decide +kernel
theorem test_decode_command_bits :
    decode (.iac (.lengths (List.replicate 146 0 ++ [1] ++ List.replicate 556 0 ++ [1]))) (lookOf [true])
      = .ok (.iacCell10 1 7 7) := by decide +kernel
/-- Program P3's literal code: `'a'` to `0`, `'b'` to `1`. -/
theorem test_decode_literals :
    decode (.lit (.lengths (List.replicate 97 0 ++ [1, 1] ++ List.replicate 157 0))) (lookOf [false])
      = .ok (.literal 1 0x61) ∧
    decode (.lit (.lengths (List.replicate 97 0 ++ [1, 1] ++ List.replicate 157 0))) (lookOf [true])
      = .ok (.literal 1 0x62) := by decide +kernel
/-- R73, R140: sixteen symbols of length 4; the codeword of `d` is `d`, most significant bit first (R47). -/
theorem test_decode_short_distances :
    ∀ e ∈ ([(0, .distShort0 4), (8, .distShort1 4), (4, .distShort2 4), (12, .distShort3 4), (2, .distShort4 4),
        (10, .distShort5 4), (6, .distShort6 4), (14, .distShort7 4), (1, .distShort8 4), (9, .distShort9 4),
        (5, .distShort10 4), (13, .distShort11 4), (3, .distShort12 4), (11, .distShort13 4), (7, .distShort14 4),
        (15, .distShort15 4)] : List (BitVec 24 × Instr)),
      decode (.dist (.lengths (List.replicate 16 4 ++ List.replicate 48 0)) 0 64) e.1 = .ok e.2 := by decide +kernel
/-- R141, R142: with `NDIRECT = 2`, 16 and 17 are direct and 18 is ranged. -/
theorem test_decode_long_distances :
    decode (.dist (.single 17) 2 66) 0 = .ok (.distDirect 0 17) ∧
    decode (.dist (.single 18) 2 66) 0 = .ok (.distRanged 0 18) ∧
    decode (.dist (.single 65) 2 66) 0 = .ok (.distRanged 0 65) := by decide +kernel
/-- R77, R90: a symbol outside the alphabet and a lookahead without a codeword are rejected by name. -/
theorem test_decode_rejects :
    decode (.lit (.single 256)) 0 = .error .noRow ∧ decode (.clSym (.lengths [2])) 0xFFFFFF = .error .noCodeword := by
  decide +kernel

/-! ### Values -/

/-- R82's examples. -/
theorem test_peek :
    peekBits { State.reset with cfgInLen := 1, inMem := [(0, 0xA2)] } 1 = 0 ∧
    peekBits { State.reset with cfgInLen := 1, inMem := [(0, 0xA2)] } 4 = 2 ∧
    peekBits { State.reset with cfgInLen := 1, inMem := [(0, 0xA2)], bitpos := 1 } 4 = 1 ∧
    peekBits { State.reset with cfgInLen := 1, inMem := [(0, 0xA2), (1, 0xFF)], bitpos := 7 } 4 = 1 := by decide +kernel
/-- R66. -/
theorem test_alphabet_bits : [ab 2, ab 3, ab 18, ab 26, ab 256, ab 258, ab 704] = [1, 2, 5, 5, 8, 9, 10] := by decide +kernel
/-- R69 to R71: each row starts where the one before ends, and the last rows reach the maxima of R34 and R40. -/
theorem test_tables_meet :
    (∀ t ∈ [blenTable, insTable, cpyTable], ∀ k < t.length - 1,
      tableBase t (k + 1) = tableBase t k + 2 ^ tableExtra t k) ∧
    [tableBase blenTable 25, tableExtra blenTable 25, tableBase insTable 23, tableExtra insTable 23,
      tableBase cpyTable 23, tableExtra cpyTable 23] = [16625, 24, 22594, 24, 2118, 24] := by decide +kernel
/-- R74's table. -/
theorem test_dictionary_offsets :
    (List.range 21).map (fun k => doffset (k + 4)) =
      [0, 4096, 9216, 21504, 35840, 44032, 53248, 63488, 74752, 87040, 93696] ++
      [100864, 104704, 106752, 108928, 113536, 115968, 118528, 119872, 121280, 122016] := by decide +kernel
/-- R101 to R105's examples. -/
theorem test_context_ids :
    contextId Rom.reset .lsb6 0xC8 7 = 8 ∧ contextId Rom.reset .msb6 0xC8 0 = 50 ∧ contextId Rom.reset .msb6 0x78 0 = 30 ∧
    contextId Rom.reset .signed 0xC8 0 = 40 ∧ contextId Rom.reset .signed 0xFF 0xFF = 63 := by decide +kernel
/-- R109's examples. -/
theorem test_inverse_mtf : inverseMtf [1, 0, 1, 0] = [1, 1, 0, 0] ∧ inverseMtf [0, 0] = [0, 0] := by decide +kernel
/-- R89's examples. -/
theorem test_build : buildCode [1, 1, 1] = none ∧ buildCode [1, 2, 2] = some (.lengths [1, 2, 2]) ∧
    canonical [1, 2, 2] = [(1, 0, 0), (2, 2, 1), (2, 3, 2)] := by decide +kernel
/-- R93, program P4: listing `'x', 'z', 'y'` gives `'x'` to `0`, `'y'` to `10`, `'z'` to `11`. -/
theorem test_simple_code :
    canonical (listedLens 256 [120, 122, 121] [1, 2, 2]) = [(1, 0, 120), (2, 2, 121), (2, 3, 122)] := by decide +kernel
/-- R91 on the code of R88. -/
theorem test_range_form : decodeRange [1, 2, 3, 3] (lookOf [true, true, false]) = some (2, 3) := by decide +kernel
/-- R95's example: repeats of 17 combine to runs 3, 13 and 97. -/
theorem test_repeat_totals : [repeatTotal 0 3 0, repeatTotal 3 3 2, repeatTotal 13 3 6] = [3, 13, 97] := by decide +kernel
/-- R140: the start ring under the sixteen short codes. -/
theorem test_short_distances :
    (List.range 16).map (shortDistance DistRing.start) = [4, 11, 15, 16, 3, 5, 2, 6, 1, 7, 10, 12, 9, 13, 8, 14] := by
  decide +kernel
/-- R142's examples. -/
theorem test_ranged_distances :
    rangedDistance 1 2 18 1 = 5 ∧ rangedDistance 0 0 38 1046 = 9235 ∧ rangedBits 0 0 38 = 12 ∧
    [rangedDistance 0 0 16 0, rangedDistance 0 0 16 1, rangedDistance 0 0 17 0, rangedDistance 0 0 17 1] = [1, 2, 3, 4] := by
  decide +kernel
/-- R150 to R153's examples on `"time"` under the RFC ROM. -/
theorem test_transforms :
    [(rfcTransforms[0]), rfcTransforms[1], rfcTransforms[3], rfcTransforms[12], rfcTransforms[54], rfcTransforms[9]].map
        (applyTransform · [0x74, 0x69, 0x6D, 0x65]) =
      [[0x74, 0x69, 0x6D, 0x65], [0x74, 0x69, 0x6D, 0x65, 0x20], [0x69, 0x6D, 0x65], [0x74, 0x69, 0x6D], [],
       [0x54, 0x69, 0x6D, 0x65]] := by decide +kernel
/-- R154, R156's examples. -/
theorem test_ferment :
    (ferment [0xC3, 0xA9] 0).1 = [0xC3, 0x89] ∧ (ferment [0xE2, 0x82, 0xAC] 0).1 = [0xE2, 0x82, 0xA9] ∧
    ferment [0x61, 0x62, 0xC3] 2 = ([0x61, 0x62, 0xC3], 2) ∧
    uppercaseAll [0xC3, 0xA9, 0x74, 0xC3, 0xA9] = [0xC3, 0x89, 0x54, 0xC3, 0x89] ∧
    uppercaseAll [0xD9, 0x88, 0xD8, 0xB4] = [0xD9, 0xA8, 0xD8, 0x94] := by decide +kernel

/-! ### Single steps -/

/-- A compressed meta-block of 16 bytes with one tree of each kind: literal `'a'`, command 146, distance code 6, none of
which take bits. -/
def oneTree : MetaBlock :=
  let b : BlockState := ⟨1, 0, 1, 2 ^ 24, .single 0, .single 0⟩
  ⟨true, 16, 16, b, b, b, 0, 0, 64, [.lsb6], 1, 1, List.replicate 64 0, List.replicate 4 0, [.single 97], [.single 146],
    [.single 6]⟩

/-- A running decode at a control point, with a window of 16 bits and the given bytes as `IN`. -/
def running (c : Ctl) (bytes : List Byte) : State :=
  { State.reset with
    phase := .run, ctl := c, cfgInLen := BitVec.ofNat 32 bytes.length, cfgOutCap := 64, wbits := 16, maxBackward := 65520
    hist := DistRing.start, inMem := loadBytes bytes 0 [], mb := oneTree }

/-- Part of the state that a step answers. -/
def got {α : Type} (f : State → α) : Host.Outcome State Fault Refusal → Option α
  | .next t => some (f t)
  | _ => none

/-- R113: `1 100` gives 18. -/
theorem test_step_window :
    got (fun t => (t.wbits, t.maxBackward, t.bitpos)) (step (running .window [0x03])) = some (18, 262128, 4) := by
  decide +kernel
/-- R115, program P2: `1A` ends with `syntax_error` after 5 bits. -/
theorem test_step_metadata :
    got (fun t => (t.err, t.phase, t.bitpos)) (step { running .mnibbles [0x1A] with bitpos := 3 }) =
      some (.syntaxError, .done, 5) := by decide +kernel
/-- R127, program P1: `06` ends with `end` at bit 8, `86` with `syntax_error`. -/
theorem test_step_padding :
    got (fun t => (t.err, t.bitpos)) (step { running .pad [0x06] with bitpos := 3 }) = some (.endOk, 8) ∧
    got (fun t => (t.err, t.bitpos)) (step { running .pad [0x86] with bitpos := 3 }) = some (.syntaxError, 8) := by
  decide +kernel
/-- R83: a two-bit field with one bit left is not read. -/
theorem test_step_need_more_input :
    got (fun t => (t.err, t.phase, t.bitpos)) (step { running .npostfix [0xFF] with bitpos := 7 }) =
      some (.needMoreInput, .done, 7) := by decide +kernel
/-- R116, program P3: nibbles 5, 0, 0, 0 give `mlen = 6`. -/
theorem test_step_length :
    got (fun t => (t.mb.mlen, t.mb.mbEnd, t.ctl)) (step (running (.mlenNib 3 4 5) [0x00])) =
      some (6, 6, .count (.blockTypes .literal)) := by decide +kernel
/-- R119: `n = 7` reaches 256. -/
theorem test_step_count :
    got (fun t => t.mb.lit.numTypes) (step (running (.countX (.blockTypes .literal) 7) [0x7F])) = some 256 := by
  decide +kernel
/-- R122, program P4: `NPOSTFIX = 1` with field 1 gives `ndirect = 2`, `dist_alphabet = 114`. -/
theorem test_step_direct :
    got (fun t => (t.mb.ndirect, t.mb.distAlphabet))
      (step { running .ndirectf [0x01] with mb := { oneTree with npostfix := 1 } }) = some (2, 114) := by decide +kernel
/-- R107: a run that ends at the map's size is legal, one entry more is `context_map_error`. -/
theorem test_step_run :
    got (fun t => t.ctl) (step { running (.mapRun .distance 2 (.single 1) [1, 1] 1) [0x00] with
      mb := { oneTree with ntreesD := 2 } }) = some (.imtf .distance [1, 1, 0, 0]) ∧
    got (fun t => t.err) (step { running (.mapRun .distance 2 (.single 1) [1, 1] 1) [0x01] with
      mb := { oneTree with ntreesD := 2 } }) = some .contextMapError := by decide +kernel
/-- R94's example: the fourth entry `110` fills the space. -/
theorem test_step_clen :
    got (fun t => (t.ctl, t.bitpos)) (step (running
      (.clen .lit ⟨3, [0, 2, 2, 2, 0, 0, 0, 0, 0, 0, 0, 0, 0, 0, 0, 0, 0, 0], 8, 3⟩) [0x03])) =
      some (.clSym .lit (.lengths [0, 2, 2, 2, 2, 0, 0, 0, 0, 0, 0, 0, 0, 0, 0, 0, 0, 0]) LenLocals.start, 3) := by
  decide +kernel
/-- R93: a repeated symbol raises `huffman_length_error` after the last one. -/
theorem test_step_repeated_symbol :
    got (fun t => (t.err, t.bitpos)) (step (running (.symbol .lit 2 [5] false) [0x05])) =
      some (.huffmanLengthError, 8) := by decide +kernel
/-- R132, §8's block-switch arithmetic with `num_types = 4`. -/
theorem test_step_block_switch :
    ∀ e ∈ [(2, 0, 1, 2), (2, 1, 3, 2), (2, 5, 3, 2), (3, 1, 0, 3)],
      got (fun t => (t.mb.lit.blockType, t.mb.lit.lastBlockType)) (step { running (.btype .literal) [0] with
        mb := { oneTree with lit := ⟨4, e.1, 1, 0, .single e.2.1, .single 0⟩ } }) = some (e.2.2.1, e.2.2.2) := by
  decide +kernel
/-- R121, program P4: block-count symbol 0 with extra bits `0b10` gives 3. -/
theorem test_step_block_count :
    got (fun t => (t.mb.lit.blockLen, t.ctl)) (step (running (.bextra .literal true 0) [0x02])) = some (3, .lit) := by
  decide +kernel
/-- R131, program P3: symbol 146 has insert code 2, copy code 2 and no implicit zero. -/
theorem test_step_command :
    got (fun t => (t.ctl, t.cmd.implicit0)) (step (running .iac [0])) = some (.iextra 2 2, false) := by decide +kernel
/-- R146's example: at `pos = 5`, `'a'` goes to `OUT[5]` and `RING[5]`. -/
theorem test_step_literal :
    got (fun t => (t.outMem, t.ring, t.pos, t.p1, t.p2)) (step { running .lit [0] with
      pos := 5, p1 := 9, cmd := { CmdRegs.reset with insertLen := 2 } }) =
      some ([(5, 0x61)], [(5, 0x61)], 6, 0x61, 9) := by decide +kernel
/-- R140, R161: after a push of distance 1, code 4 gives 0, a `syntax_error` after the write; code 6 gives -1 (vector E9);
program P3: code 6 gives 2. -/
theorem test_step_short_distance :
    got (fun t => (t.err, t.phase, t.cmd.distance)) (step { running .dist [0] with
      hist := DistRing.start.push 1, cmd := ⟨0, 2, false, 0, 0, 7⟩, mb := { oneTree with distCode := [.single 4] } }) =
      some (.syntaxError, .done, 0) ∧
    got (fun t => (t.err, t.phase)) (step { running .dist [0] with hist := DistRing.start.push 1 }) =
      some (.syntaxError, .done) ∧
    got (fun t => (t.cmd.distance, t.ctl)) (step (running .dist [0])) = some (2, .copy) := by decide +kernel
/-- §8's back-reference: `"ab"` with copy length 4 and distance 2 gives `"ababab"`. -/
theorem test_step_copy :
    got (fun t => (t.outMem, t.pos, t.hist.last 1)) (step { running .copy [0] with
      pos := 2, outMem := [(0, 0x61), (1, 0x62)], ring := [(0, 0x61), (1, 0x62)], cmd := ⟨0, 4, false, 2, 6, 2⟩ }) =
      some ([(0, 0x61), (1, 0x62), (2, 0x61), (3, 0x62), (4, 0x61), (5, 0x62)], 6, 2) := by decide +kernel
/-- R148, program P4: at `pos = 5` the word id 9221 of length 4 is index 5 with transform 9, `"Code"`; R144: no push. -/
theorem test_step_dictionary :
    got (fun t => (t.outMem, t.pos, t.hist)) (step { running .copy [0] with
      pos := 5, rom := { Rom.reset with dict := [(20, 0x63), (21, 0x6F), (22, 0x64), (23, 0x65)] }
      cmd := ⟨0, 4, false, 2, 38, 9227⟩ }) =
      some ([(5, 0x43), (6, 0x6F), (7, 0x64), (8, 0x65)], 9, DistRing.start) := by decide +kernel
/-- R24, R171: START from reset. -/
theorem test_step_start :
    got (fun t => (t.phase, t.bitpos, t.hist.last 1, t.ctl)) (step { State.reset with
      cfgStartBit := 3, hostq := [.writeReg .ctrl 1] }) = some (.run, 3, 4, .window) := by decide +kernel
/-- A table word after reset: the first row of a size and value, and the position at which it is read (log 16). -/
theorem test_table_words :
    decodeTableWord 8 0 = some .win16 ∧ decodeTableWord 8 17 = some .winReserved ∧
    got (fun t => t.wbits) (step (State.reset.withFetchWord 8 0)) = some 16 := by decide +kernel

/-! ### Witnesses: states and operands that meet the hypotheses of the statements -/

/-- Exactly `n` stream bits are left. -/
def left (n : Nat) (s : State) : State := { s with cfgInLen := 4, bitpos := 32 - n }

/-- At the control point `c` an element of `n` bits just fits in one state, and just fails to in another. -/
def Edge (n : Nat) (c : Ctl) : Prop :=
  ((left n (running c [])).ctl = c ∧ Fits n (left n (running c []))) ∧
  ((left (n - 1) (running c [])).ctl = c ∧ ¬ Fits n (left (n - 1) (running c [])))

theorem endBit_left (n : Nat) (s : State) : endBit (left n s) = 32 := rfl

theorem edge (n : Nat) (c : Ctl) (h1 : 1 ≤ n) (h2 : n ≤ 32) : Edge n c := by
  refine ⟨⟨rfl, ?_⟩, ⟨rfl, ?_⟩⟩ <;> simp only [Fits, endBit_left] <;> simp only [left] <;> omega

/-- A decode at the point `copy`, two bytes into a meta-block of 16, with the distance 2 of code 6. -/
def copying : State :=
  { running .copy [0] with
    pos := 2, p1 := 0x62, p2 := 0x61, outMem := [(0, 0x61), (1, 0x62)], ring := [(0, 0x61), (1, 0x62)]
    cmd := ⟨0, 14, false, 3, 6, 2⟩ }

theorem copying_headerRead (c : Ctl) (n : Nat) (r : CmdRegs) (p : Nat) :
    HeaderRead { copying with ctl := c, bitpos := n, cmd := r, pos := p } ↔ InsideMetaBlock { copying with pos := p } := by
  simp only [HeaderRead, MapsRead, ModesRead, CategoriesRead, DistParams, MapOk, CodesOk, InsideMetaBlock, mapTrees,
    mapSize, State.block, MetaBlock.block, BlockState.Ok, copying, running, oneTree]
  constructor
  · rintro ⟨⟨⟨⟨h, -⟩, -⟩, -⟩, -⟩; exact h
  · intro h
    refine ⟨⟨⟨⟨h, by decide +kernel⟩, by decide +kernel⟩, by decide +kernel⟩, by decide +kernel⟩

/-- `copying` meets the invariant, whatever the distance, up to a copy length of 2 or more and an output inside the
meta-block. -/
theorem copying_inv (r : CmdRegs) (h1 : 2 ≤ r.copyLen) (h2 : 1 ≤ r.distance) :
    MachineInv { copying with cmd := r } := by
  refine ⟨⟨rfl, rfl, rfl, rfl⟩, ⟨fun h => (nomatch h), fun h => absurd rfl h⟩, fun _ => ⟨?_, ?_, fun _ => ⟨?_, ?_⟩, ?_⟩⟩
  · show 2 ≤ 64; omega
  · show ∀ i : BitVec 2, 1 ≤ DistRing.start.slot i ∧ DistRing.start.slot i ≤ 16; decide +kernel
  · show 0 ≤ 8; omega
  · show 10 ≤ 16 ∧ 16 ≤ 24 ∧ 65520 = 2 ^ 16 - 16; decide +kernel
  · have h3 : InsideMetaBlock { copying with pos := 2 } := by unfold InsideMetaBlock; decide +kernel
    exact ⟨(copying_headerRead .copy 0 r 2).2 h3, h3, h1, h2⟩

theorem copying_ringInv (r : CmdRegs) : RingInv { copying with cmd := r } := by
  intro _
  refine ⟨fun h => (nomatch h), fun i h _ => ?_⟩
  have : i = 0 ∨ i = 1 := by have : i < 2 := h; omega
  rcases this with rfl | rfl <;> rfl

/-- A window field; every control point; and a header that has been read, at a literal, a command and a distance. -/
theorem witness_StepRunsDecodedElement_points :
    (∀ c : Ctl, (running c []).ctl = c) ∧
    ∀ c ∈ [Ctl.lit, .iac, .dist], HeaderRead { copying with ctl := c } ∧ ({ copying with ctl := c } : State).ctl = c := by
  refine ⟨fun _ => rfl, fun c _ => ⟨(copying_headerRead c 0 copying.cmd 2).2 ?_, rfl⟩⟩
  unfold InsideMetaBlock; decide +kernel

theorem witness_StepRunsDecodedElement :
    (running .window [0x03]).hostq = [] ∧ (running .window [0x03]).phase = .run ∧
    slotOf (running .window [0x03]) = some .window ∧
    decode .window (lookahead (running .window [0x03])) = .ok (.win17to24 1) := by
  refine ⟨rfl, rfl, rfl, ?_⟩; decide +kernel

theorem witness_StepOutsideElements :
    ({ State.reset with hostq := [.writeReg .ctrl 1] } : State).hostq = .writeReg .ctrl 1 :: [] ∧
    (State.reset.hostq = [] ∧ State.reset.phase ≠ .run) ∧
    (copying.hostq = [] ∧ copying.phase = .run ∧ copying.ctl = .copy) := by
  refine ⟨rfl, ⟨rfl, by decide +kernel⟩, rfl, rfl, rfl⟩

theorem witness_StartInitialises :
    ({ State.reset with hostq := [.writeReg .ctrl 3] } : State).hostq = .writeReg .ctrl 3 :: [] ∧
    ({ State.reset with hostq := [.writeReg .ctrl 3] } : State).phase ≠ .run ∧ (3 : BitVec 35).getLsbD 0 = true := by
  refine ⟨rfl, by decide +kernel, by decide +kernel⟩

/-- A running decode, and an idle datapath for each kind of move. -/
theorem witness_HostMoves :
    (({ copying with hostq := [.writeReg .ctrl 1] } : State).hostq = .writeReg .ctrl 1 :: [] ∧ copying.phase = .run) ∧
    State.reset.phase ≠ .run ∧ (2 : BitVec 35).getLsbD 0 = false ∧
    (∀ c ∈ ([.writeReg .cfgInLen 5, .writeReg .cfgStartBit 5, .writeReg .cfgOutCap 5, .writeReg .ctrl 2,
        .writeReg .status 1, .writeReg .busy 1, .writeReg .bytesWritten 1, .writeReg .bitPos 1, .writeIn 4294967295 0,
        .writeOut 4294967295 1] : List HostCmd),
      ({ State.reset with hostq := [c] } : State).hostq = c :: []) ∧
    State.reset.inMem.wf = true ∧ State.reset.outMem.wf = true := by
  refine ⟨⟨rfl, rfl⟩, by decide +kernel, by decide +kernel, fun c _ => rfl, rfl, rfl⟩

theorem witness_HostViews :
    ({ State.reset with pos := 2 ^ 32 - 1, bitpos := 2 ^ 35 - 1 } : State).pos < 2 ^ 32 ∧
    ({ State.reset with pos := 2 ^ 32 - 1, bitpos := 2 ^ 35 - 1 } : State).bitpos < 2 ^ 35 := by decide +kernel

theorem witness_EndedDecodeStays :
    (raise .syntaxError State.reset).hostq = [] ∧ (raise .syntaxError State.reset).phase ≠ .run := by
  refine ⟨rfl, by decide +kernel⟩

theorem witness_AbortWritesNoOutput :
    (running .mnibbles [0x03]).phase = .run ∧
    ∃ t, exec .mnibblesReserved (running .mnibbles [0x03]) = .next t ∧ t.phase = .done := ⟨rfl, _, rfl, rfl⟩

/-- The last bit of `IN` and the first one past it. -/
theorem witness_PeekIsLittleEndian :
    15 < 8 * (running .window [1, 2]).cfgInLen.toNat ∧ 8 * (running .window [1, 2]).cfgInLen.toNat ≤ 16 := by
  decide +kernel

theorem witness_ElementTakesItsBits :
    slotOf (running .window [0x03]) = some .window ∧ Slot.window.wf = true ∧
    decode .window (lookahead (running .window [0x03])) = .ok (.win17to24 1) ∧
    ∃ t, exec (.win17to24 1) (running .window [0x03]) = .next t ∧ t.err ≠ .needMoreInput := by
  refine ⟨rfl, rfl, by decide +kernel, _, rfl, ?_⟩; decide +kernel

theorem witness_WindowField :
    Edge 1 .window ∧ Edge 4 .window ∧ Edge 7 .window ∧
    (Fits 4 (left 6 (running .window [])) ∧ ¬ Fits 7 (left 6 (running .window []))) ∧
    (Fits 1 (left 3 (running .window [])) ∧ ¬ Fits 4 (left 3 (running .window []))) ∧
    (1 : BitVec 3) ≠ 0 ∧ (7 : BitVec 3) ≠ 0 ∧ 2 ≤ (2 : BitVec 3).toNat ∧ 2 ≤ (7 : BitVec 3).toNat := by
  refine ⟨edge _ _ (by decide) (by decide), edge _ _ (by decide) (by decide), edge _ _ (by decide) (by decide), ?_⟩
  unfold Fits; decide +kernel

theorem witness_LastFlags : Edge 1 .isLast ∧ Edge 1 .isLastEmpty :=
  ⟨edge _ _ (by decide) (by decide), edge _ _ (by decide) (by decide)⟩

theorem witness_NibbleCounts : Edge 2 .mnibbles := edge _ _ (by decide) (by decide)

/-- A middle nibble, and a last one of a meta-block that is the last and of one that is not. -/
theorem witness_LengthField :
    (Edge 4 (.mlenNib 2 4 255) ∧ 255 < 16 ^ 2 ∧ 2 + 1 < 4) ∧
    (Edge 4 (.mlenNib 3 4 4095) ∧ 4095 < 16 ^ 3 ∧ 4 ≤ 3 + 1) ∧
    (left 4 (running (.mlenNib 3 4 4095) [])).mb.isLast = true ∧
    ({ left 4 (running (.mlenNib 3 4 4095) []) with mb := { oneTree with isLast := false } } : State).mb.isLast = false :=
  ⟨⟨edge _ _ (by decide) (by decide), by decide, by decide⟩, ⟨edge _ _ (by decide) (by decide), by decide, by decide⟩,
    rfl, rfl⟩

theorem witness_HeaderResetsCategories : Edge 1 .isUncompressed := edge _ _ (by decide) (by decide)

theorem witness_CountValues :
    Edge 1 (.count .treesL) ∧ Edge 4 (.count .treesL) ∧
    (Fits 1 (left 3 (running (.count .treesL) [])) ∧ ¬ Fits 4 (left 3 (running (.count .treesL) []))) ∧
    (7 : BitVec 3) ≠ 0 ∧ Edge 7 (.countX .treesD 7) :=
  ⟨edge _ _ (by decide) (by decide), edge _ _ (by decide) (by decide), by unfold Fits; decide +kernel, by decide,
    edge _ _ (by decide) (by decide)⟩

theorem witness_CountsStored : 2 ≤ 2 ∧ (1 : Nat) = 1 := by decide

theorem witness_DistanceParameters : Edge 2 .npostfix ∧ Edge 4 .ndirectf :=
  ⟨edge _ _ (by decide) (by decide), edge _ _ (by decide) (by decide)⟩

theorem witness_ContextModes : Edge 2 .cmode := edge _ _ (by decide) (by decide)

theorem witness_ContextMapElements :
    Edge 1 (.rleMaxF .literal) ∧ Edge 4 (.rleMaxM1 .distance) ∧ Edge 15 (.mapSym .literal 16 (.single 0) [0]) ∧
    Edge 16 (.mapRun .distance 16 (.single 0) [] 16) :=
  ⟨edge _ _ (by decide) (by decide), edge _ _ (by decide) (by decide), edge _ _ (by decide) (by decide),
    edge _ _ (by decide) (by decide)⟩

theorem witness_ContextMapStored : Edge 1 (.imtf .literal [1, 0]) ∧ Edge 1 (.imtf .distance [1, 0]) :=
  ⟨edge _ _ (by decide) (by decide), edge _ _ (by decide) (by decide)⟩

theorem witness_MtfStaysBelowTrees : 256 ≤ 256 ∧ (∀ e ∈ [255, 0, 1], e < 256) ∧ 255 < 256 := by decide

theorem witness_CodeHeader : Edge 2 (.hskip .lit) ∧ Edge 2 (.nsymm1 .dist) :=
  ⟨edge _ _ (by decide) (by decide), edge _ _ (by decide) (by decide)⟩

/-- A simple literal code: 8 bits a symbol, the first of one and the fourth of four. -/
theorem witness_SimpleCodeSymbols :
    Edge 1 (.treeSel .lit [1, 2, 3, 4]) ∧ Edge 8 (.symbol .lit 1 [] false) ∧ Edge 8 (.symbol .lit 4 [1, 2, 3] true) ∧
    2 ≤ 2 ∧ ab (alphabetOf .lit (running .pad [])) = 8 ∧ ([] : List Nat).length < 1 ∧ [1, 2, 3].length < 4 ∧ 4 ≤ 4 :=
  ⟨edge _ _ (by decide) (by decide), edge _ _ (by decide) (by decide), edge _ _ (by decide) (by decide), by decide,
    by decide +kernel, by decide, by decide, by decide⟩

theorem witness_ListedSymbolsGetTheirLengths :
    [3, 0].Nodup ∧ (∀ v ∈ [3, 0], v < 4) ∧ [3, 0].length = [1, 1].length ∧ [3, 0][0]? = some 3 ∧
    ((1 : Nat) < 4 ∧ 1 ∉ [3, 0]) := by decide

theorem witness_CodeLengthEntries :
    Edge 2 (.clen .lit (ClLocals.start 0)) ∧ Edge 4 (.clen .lit (ClLocals.start 3)) ∧ 0 < (ClLocals.start 3).space ∧
    0 < alphabetOf .lit (running .pad []) :=
  ⟨edge _ _ (by decide) (by decide), edge _ _ (by decide) (by decide), by decide, by decide⟩

theorem witness_SymbolLengths : Edge 5 (.clSym .iac (.single 0) LenLocals.start) := edge _ _ (by decide) (by decide)

theorem witness_SymbolLengthRepeats :
    (Edge 2 (.rep16 .iac (.single 16) LenLocals.start) ∧ (∃ x : BitVec 2, Instr.r16 3 = .r16 x ∧ 3 = x.toNat) ∧
      8 = LenLocals.start.prev) ∧
    (Edge 3 (.rep17 .iac (.single 17) LenLocals.start) ∧ ∃ x : BitVec 3, Instr.r17 7 = .r17 x ∧ 7 = x.toNat) :=
  ⟨⟨edge _ _ (by decide) (by decide), ⟨3, rfl, rfl⟩, rfl⟩, edge _ _ (by decide) (by decide), 7, rfl, rfl⟩

theorem witness_CodesStored :
    ({ oneTree with ntreesD := 3 }).distCode.length + 1 < ({ oneTree with ntreesD := 3 }).ntreesD ∧
    oneTree.ntreesD ≤ oneTree.distCode.length + 1 := by decide +kernel

/-- The deepest code: lengths 1 to 14 once each and 15 twice. -/
def deepest : List Nat := [1, 2, 3, 4, 5, 6, 7, 8, 9, 10, 11, 12, 13, 14, 15, 15]

theorem witness_CompleteCodeDecodes : (Code.lengths deepest).valid 16 = true := by decide +kernel
theorem witness_CodewordDecodesToItsSymbol :
    (Code.lengths deepest).valid 16 = true ∧ deepest[15]? = some 15 ∧ 15 ≠ 0 := by decide +kernel
theorem witness_RangeFormAgrees : (Code.lengths deepest).valid 16 = true := by decide +kernel

theorem witness_BlockSwitchTypes : Edge 15 (.btype .distance) := edge _ _ (by decide) (by decide)

theorem witness_BlockCounts :
    Edge 15 (.bcount .literal true) ∧ Edge 24 (.bextra .literal false 25) ∧ tableExtra blenTable 25 = 24 :=
  ⟨edge _ _ (by decide) (by decide), edge _ _ (by decide) (by decide), by decide⟩

/-- A category of two types with its count at 0 and at 1, and a category of one type. -/
theorem witness_BlockSwitchWhenDue :
    (2 ≤ (({ oneTree with lit := { oneTree.lit with numTypes := 2, blockLen := 0 } }).block .literal).numTypes ∧
      (({ oneTree with lit := { oneTree.lit with numTypes := 2, blockLen := 0 } }).block .literal).blockLen = 0) ∧
    0 < (({ oneTree with lit := { oneTree.lit with numTypes := 2, blockLen := 1 } }).block .literal).blockLen ∧
    (oneTree.block .literal).numTypes < 2 := by decide +kernel

theorem witness_CommandSymbols :
    703 < 704 ∧ Edge 15 .iac ∧ iacInstr 15 703 = some (.iacCell10 15 7 7) :=
  ⟨by decide, edge _ _ (by decide) (by decide), by decide⟩

theorem witness_CommandLengths :
    Edge 24 (.iextra 23 0) ∧ tableExtra insTable 23 = 24 ∧ Edge 24 (.cextra 23) ∧ tableExtra cpyTable 23 = 24 :=
  ⟨edge _ _ (by decide) (by decide), by decide, edge _ _ (by decide) (by decide), by decide⟩

/-- The meta-block just full, and one byte short of it with each kind of command. -/
theorem witness_CommandFlow :
    (({ copying with pos := 16 } : State).mb.mbEnd ≤ ({ copying with pos := 16 } : State).pos) ∧
    (({ copying with pos := 15 } : State).pos < ({ copying with pos := 15 } : State).mb.mbEnd) ∧
    0 < ({ copying with pos := 15, cmd := ⟨1, 2, false, 0, 0, 0⟩ } : State).cmd.insertLen ∧
    (({ copying with pos := 15, cmd := ⟨0, 2, false, 0, 0, 0⟩ } : State).cmd.insertLen = 0 ∧
      ({ copying with pos := 15, cmd := ⟨0, 2, false, 0, 0, 0⟩ } : State).cmd.implicit0 = false) ∧
    ({ copying with pos := 15, cmd := ⟨0, 2, true, 0, 0, 0⟩ } : State).cmd.implicit0 = true := by decide +kernel

/-- A literal of 15 bits at the last byte of `OUT`, with `OUT` full, and past `END`. -/
theorem witness_LiteralOutput :
    Edge 15 .lit ∧ MemoriesWf (running .lit []) ∧
    ({ left 15 (running .lit []) with pos := 63 } : State).pos < (left 15 (running .lit [])).cfgOutCap.toNat ∧
    (left 15 (running .lit [])).cfgOutCap.toNat ≤ ({ left 15 (running .lit []) with pos := 64 } : State).pos :=
  ⟨edge _ _ (by decide) (by decide), ⟨rfl, rfl, rfl, rfl⟩, by decide +kernel, by decide +kernel⟩

/-- Code 15, and codes 4 and 6 after a push of distance 1, whose results are 0 and -1; `D` is 14, 0 and -1. -/
theorem witness_ShortDistances :
    (-1 : Int) = ((DistRing.start.push 1).slot ((DistRing.start.push 1).idx - (shortTable.getD 6 (1, 0)).1) : Int) +
      (shortTable.getD 6 (1, 0)).2 ∧ (0 : Int) ≤ 0 ∧ distShortInstr 15 6 = some (.distShort6 15) ∧
    5 ≤ 5 ∧ 15 < 16 ∧ Edge 15 .dist ∧ distShortInstr 15 15 = some (.distShort15 15) ∧
    distShortInstr 15 4 = some (.distShort4 15) ∧
    (14 : Int) = (DistRing.start.slot (DistRing.start.idx - (shortTable.getD 15 (1, 0)).1) : Int) +
      (shortTable.getD 15 (1, 0)).2 ∧
    (0 : Int) = ((DistRing.start.push 1).slot ((DistRing.start.push 1).idx - (shortTable.getD 4 (1, 0)).1) : Int) +
      (shortTable.getD 4 (1, 0)).2 :=
  ⟨by decide +kernel, by decide, rfl, by decide, by decide, edge _ _ (by decide) (by decide), rfl, rfl, by decide +kernel,
    by decide +kernel⟩

theorem witness_DirectAndRangedDistances : Edge 15 .dist ∧ Edge 24 .dextra :=
  ⟨edge _ _ (by decide) (by decide), edge _ _ (by decide) (by decide)⟩

theorem witness_RangedDistancesDistinct :
    3 ≤ 3 ∧ 120 ≤ 120 ∧ 16 + 120 ≤ 519 ∧ 519 < 16 + 120 + 48 * 2 ^ 3 ∧ 2 ^ 24 - 1 < 2 ^ rangedBits 3 120 519 ∧
    16 + 120 ≤ 136 ∧ 1 < 2 ^ rangedBits 3 120 136 := by decide +kernel

/-- A copy that fills the meta-block, one that passes it, and one that passes `OUT_CAP`. -/
theorem witness_BackReferenceCopies :
    (MachineInv copying ∧ RingInv copying ∧ copying.hostq = [] ∧ copying.phase = .run ∧ copying.ctl = .copy ∧
      copying.cmd.distance ≤ min copying.pos copying.maxBackward ∧
      copying.pos + copying.cmd.copyLen ≤ copying.mb.mbEnd ∧
      copying.pos + copying.cmd.copyLen ≤ copying.cfgOutCap.toNat) ∧
    (MachineInv { copying with cmd := ⟨0, 15, false, 3, 6, 2⟩ } ∧ RingInv { copying with cmd := ⟨0, 15, false, 3, 6, 2⟩ } ∧
      copying.mb.mbEnd < copying.pos + 15) := by
  refine ⟨⟨copying_inv _ (by decide) (by decide), copying_ringInv _, rfl, rfl, rfl, ?_⟩,
    copying_inv _ (by decide) (by decide), copying_ringInv _, ?_⟩ <;> decide +kernel

/-- `copying` with a dictionary reference of copy length `n` and distance `d`. -/
def referring (n d : Nat) : State := { copying with cmd := ⟨0, n, false, 3, 16, d⟩ }

/-- The word of copy length `n` and transform 0 that distance 3 names. -/
def firstWord (n : Nat) : List Byte :=
  ((referring n 3).rom.transforms[0]).pre ++
    transformWord ((referring n 3).rom.transforms[0]).kind.val
      ((List.range n).map fun j => memRead (referring n 3).rom.dict (doffset n + 0 * n + j)) ++
    ((referring n 3).rom.transforms[0]).suf

theorem witness_DictionaryReference_hyps (n d : Nat) (h : 2 < d) :
    MemoriesWf (referring n d) ∧ (referring n d).hostq = [] ∧ (referring n d).phase = .run ∧
    (referring n d).ctl = .copy ∧ min (referring n d).pos (referring n d).maxBackward < (referring n d).cmd.distance :=
  ⟨⟨rfl, rfl, rfl, rfl⟩, rfl, rfl, rfl, by show 2 < d; exact h⟩

/-- Copy lengths 3, 4, 24, 25 around the dictionary's; the last transform and the first id past it; a word that ends at
the meta-block's end and one that passes it. -/
theorem witness_DictionaryReference :
    ((referring 3 3).cmd.copyLen < 4 ∧ 24 < (referring 25 3).cmd.copyLen) ∧
    (4 ≤ (referring 4 3).cmd.copyLen ∧ (referring 24 3).cmd.copyLen ≤ 24) ∧
    (121 * 1024 = (referring 4 (3 + 121 * 1024)).cmd.distance - min copying.pos copying.maxBackward - 1 ∧
      121 = 121 * 1024 / 2 ^ ndbits 4 ∧ 120 = (120 * 1024 + 1023) / 2 ^ ndbits 4) ∧
    (0 = (referring 14 3).cmd.distance - min copying.pos copying.maxBackward - 1 ∧ 0 = 0 / 2 ^ ndbits 14 ∧
      0 = 0 % 2 ^ ndbits 14) ∧
    (referring 15 3).mb.mbEnd < (referring 15 3).pos + (firstWord 15).length ∧
    ((referring 14 3).pos + (firstWord 14).length ≤ (referring 14 3).mb.mbEnd ∧
      (referring 14 3).pos + (firstWord 14).length ≤ (referring 14 3).cfgOutCap.toNat) := by decide +kernel

/-- The ends of each range of transform types and of first bytes; an empty word, words of one and two bytes, and a word
whose bytes go to different places of `RING`. -/
theorem witness_DictionaryReference_words :
    (∀ b ∈ ([0x60, 0x61, 0x7A, 0x7B, 0xBF] : List Byte), [b][0]? = some b ∧ b.toNat < 0xC0) ∧
    (∀ b ∈ ([0xC0, 0xDF] : List Byte), [b, 0xA9][0]? = some b ∧ 0xC0 ≤ b.toNat ∧ b.toNat < 0xE0 ∧
      [b, 0xA9][1]? = some 0xA9 ∧ [b][1]? = none) ∧
    (∀ b ∈ ([0xE0, 0xFF] : List Byte), [b, 0x82, 0xAC][0]? = some b ∧ 0xE0 ≤ b.toNat ∧
      [b, 0x82, 0xAC][2]? = some 0xAC ∧ [b, 0x82][2]? = none) ∧
    (1 ≤ 1 ∧ 9 ≤ 9 ∧ 12 ≤ 12 ∧ 20 ≤ 20) ∧ ([0x61] : List Byte) ≠ [] ∧
    ([0x61, 0x62] : List Byte) = [] ++ [0x61, 0x62] ∧
    (firstWord 14)[13]? = some 0 ∧ (∀ j, 13 < j → j < (firstWord 14).length →
      ((referring 14 3).pos + j) % 2 ^ (referring 14 3).wbits ≠ ((referring 14 3).pos + 13) % 2 ^ (referring 14 3).wbits) := by
  refine ⟨by decide +kernel, by decide +kernel, by decide +kernel, by decide, by decide, rfl, by decide +kernel, ?_⟩
  intro j h1 h2
  have h3 : (firstWord 14).length = 14 := by decide +kernel
  omega

theorem witness_DictionaryWordsInsideRom : 4 ≤ 4 ∧ 4 ≤ 24 ∧ 24 ≤ 24 ∧ 31 < 2 ^ ndbits 24 ∧ 23 < 24 := by decide

/-- No padding left, and one bit of it. -/
theorem witness_PaddingEndsDecode :
    ∀ b ∈ [8, 7], ({ running .pad [0] with bitpos := b } : State).ctl = .pad ∧
      ({ running .pad [0] with bitpos := b } : State).bitpos ≤ endBit { running .pad [0] with bitpos := b } := by
  decide +kernel

theorem witness_DecodeEncode :
    (Slot.btype (.lengths [1, 2, 3, 3]) 2).wf = true ∧
    (Slot.btype (.lengths [1, 2, 3, 3]) 2).admits (.btypeExplicit 3 3) = true ∧
    (Slot.bextra 24).wf = true ∧ (Slot.bextra 24).admits (.bextra (2 ^ 24 - 1)) = true := by decide +kernel
theorem witness_EncodeDecode : (Slot.btype (.lengths [1, 2, 3, 3]) 2).wf = true := by decide +kernel

theorem copying_next : ∃ t, step copying = .next t := ⟨_, rfl⟩

theorem witness_StepKeepsMachineInv : ∃ t, MachineInv copying ∧ step copying = .next t :=
  ⟨_, copying_inv _ (by decide) (by decide), rfl⟩
theorem witness_MachineInvNeverStops : MachineInv copying := copying_inv _ (by decide) (by decide)
theorem witness_RingHoldsTheWindow : ∃ t, MachineInv copying ∧ RingInv copying ∧ step copying = .next t :=
  ⟨_, copying_inv _ (by decide) (by decide), copying_ringInv _, rfl⟩
theorem witness_StepKeepsWidths : ∃ t, MachineInv copying ∧ WidthsOk copying ∧ step copying = .next t := by
  refine ⟨_, copying_inv _ (by decide) (by decide), ?_, rfl⟩
  unfold WidthsOk MetaBlock.WidthsOk BlockState.WidthsOk CmdRegs.WidthsOk
  decide +kernel
theorem witness_OutputOnlyAppended : ∃ t, MemoriesWf copying ∧ copying.hostq = [] ∧ step copying = .next t :=
  ⟨_, ⟨rfl, rfl, rfl, rfl⟩, rfl, rfl⟩
theorem witness_RegistersHaveTheirWriters : ∃ t, copying.hostq = [] ∧ step copying = .next t := ⟨_, rfl, rfl⟩

/-- Two starts that differ in every register that START does not write, in `OUT`, in `RING` and in `IN` past `IN_LEN`. -/
theorem witness_DecodeOutcomeIsDetermined :
    ∃ (s1 s2 t1 : State) (k : Nat), Started s1 ∧ Started s2 ∧ s1.cfgInLen = s2.cfgInLen ∧
      s1.cfgStartBit = s2.cfgStartBit ∧ s1.cfgOutCap = s2.cfgOutCap ∧ s1.rom = s2.rom ∧
      (∀ a, a < s1.cfgInLen.toNat → memRead s1.inMem a = memRead s2.inMem a) ∧
      Host.Core.run Sys2Proof.core k s1 = .next t1 ∧ k = 2 ∧ s1.mb ≠ s2.mb ∧ s1.ring ≠ s2.ring := by
  refine ⟨running .window [0x06], { running .window [0x06] with
      wbits := 3, mb := MetaBlock.reset, cmd := ⟨1, 2, true, 1, 5, 7⟩, inMem := [(0, 0x06), (1, 9)]
      outMem := [(0, 1)], ring := [(4, 2)] }, _, 2, ?_, ?_, rfl, rfl, rfl, rfl, ?_, rfl, rfl, ?_, ?_⟩
  · exact ⟨⟨rfl, rfl, rfl, rfl⟩, rfl, rfl, rfl, rfl, rfl, rfl, rfl, rfl, rfl⟩
  · exact ⟨⟨rfl, rfl, rfl, rfl⟩, rfl, rfl, rfl, rfl, rfl, rfl, rfl, rfl, rfl⟩
  · intro a ha
    have : a = 0 := by have : a < 1 := ha; omega
    subst this; rfl
  · decide +kernel
  · decide +kernel

/-- An RFC transform of id below 34 has a prefix or a suffix, or drops at most 3 bytes of the word. -/
theorem rfc_transforms_below_34 : ∀ i : Fin 34,
    (rfcTransforms[i.val]'(by omega)).pre ≠ [] ∨ (rfcTransforms[i.val]'(by omega)).suf ≠ [] ∨
    (rfcTransforms[i.val]'(by omega)).kind.val ≤ 3 ∨
    (10 ≤ (rfcTransforms[i.val]'(by omega)).kind.val ∧ (rfcTransforms[i.val]'(by omega)).kind.val ≤ 14) := by
  decide +kernel

/-- R177's premise holds of the RFC's transforms. -/
theorem rfc_emptyWordsAreLate : EmptyWordsAreLate Rom.reset := by
  intro tid h w h4 _ he
  by_contra hlt
  have hk := rfc_transforms_below_34 ⟨tid, by omega⟩
  simp only [applyTransform, List.append_eq_nil_iff] at he
  obtain ⟨⟨hp, hw⟩, hs⟩ := he
  have hw' := congrArg List.length hw
  have hp' : (rfcTransforms[tid]'h).pre = [] := hp
  have hs' : (rfcTransforms[tid]'h).suf = [] := hs
  have hw'' : (transformWord (rfcTransforms[tid]'h).kind.val w).length = 0 := hw'
  have hk' : (rfcTransforms[tid]'h).kind.val ≤ 3 ∨
      (10 ≤ (rfcTransforms[tid]'h).kind.val ∧ (rfcTransforms[tid]'h).kind.val ≤ 14) := by
    rcases hk with a | a | a
    · exact absurd hp' a
    · exact absurd hs' a
    · exact a
  generalize (rfcTransforms[tid]'h).kind.val = k at hk' hw''
  clear hk hw' hp hs hp' hs' hw
  unfold transformWord at hw''
  split_ifs at hw''
  · omega
  · rw [List.length_take] at hw''; omega
  · rw [uppercaseFirst_length] at hw''; omega
  · rw [uppercaseAll_length] at hw''; omega
  · rw [List.length_drop] at hw''; omega

theorem witness_EveryDecodeEnds :
    MachineInv copying ∧ copying.hostq = [] ∧ copying.phase = .run ∧ EmptyWordsAreLate copying.rom :=
  ⟨copying_inv _ (by decide) (by decide), rfl, rfl, rfc_emptyWordsAreLate⟩

end Sys2Proof.Tests
end

section
/-! What a step of a running decode can do: one inductive relation with a constructor for each kind of element and each
way to end, and the theorem that every step of a running decode is one of its moves. -/

namespace Sys2Proof.Machine

/-! ### Small facts about the bit reader's cursor -/

theorem advance_advance (m n : Nat) (s : State) : advance n (advance m s) = advance (m + n) s := by
  simp [advance, Nat.add_assoc]

theorem fits_advance {m n : Nat} {s : State} : Fits n (advance m s) ↔ Fits (m + n) s := by
  show s.bitpos + m + n ≤ endBit s ↔ s.bitpos + (m + n) ≤ endBit s
  rw [Nat.add_assoc]

theorem fieldOf_lt (look : BitVec 24) (w : Nat) : fieldOf look w < 2 ^ w := Nat.mod_lt _ (by positivity)

/-! ### The registers written before a distance is known (R133, R137, R138) -/

/-- A distance symbol is counted and `dist_ctx` is set before its bits are read. -/
def countDistance (s : State) : State :=
  setCmd { (countDown .distance s).cmd with distCtx := distCtxOf (countDown .distance s).cmd.copyLen }
    (countDown .distance s)

/-- The distance symbol `d` of `n` bits has been read into `dcode`. -/
def readDistance (n d : Nat) (s : State) : State :=
  setCmd { (advance n (countDistance s)).cmd with dcode := d } (advance n (countDistance s))

theorem takeDistance_eq {s : State} (hc : s.ctl = .dist) (n d : Nat) (k : State → Answer) :
    takeDistance n d s k =
      dropThen n (countDistance s) fun s' => k (setCmd { s'.cmd with dcode := d } s') := by
  simp only [takeDistance, hc, countDistance]

@[simp] theorem countDistance_cmd (s : State) :
    (countDistance s).cmd = { s.cmd with distCtx := distCtxOf s.cmd.copyLen } := by simp [countDistance]
@[simp] theorem readDistance_mb (n d : Nat) (s : State) : (readDistance n d s).mb = (countDown .distance s).mb := rfl
@[simp] theorem readDistance_cmd (n d : Nat) (s : State) :
    (readDistance n d s).cmd = { s.cmd with distCtx := distCtxOf s.cmd.copyLen, dcode := d } := by
  simp [readDistance]
@[simp] theorem readDistance_hist (n d : Nat) (s : State) : (readDistance n d s).hist = s.hist := by
  simp [readDistance, countDistance]

@[simp] theorem readDistance_pos (n d : Nat) (s : State) : (readDistance n d s).pos = s.pos := by
  simp [readDistance, countDistance]

theorem countDistance_fits (n : Nat) (s : State) : Fits n (countDistance s) ↔ Fits n s := countDown_fits .distance n s

/-! ### The moves -/

/-- R144: the last distances after the push that the step at `copy` may make. -/
def PushedHist (s : State) (h : DistRing) : Prop :=
  h = s.hist ∨ (s.cmd.distance ≤ maxDistance s ∧ h = s.hist.push s.cmd.distance)

/-- What a step of a running decode can make of the state `s` (R112 to R162). Every successful element carries the
control point it is read at, the number of bits it has dropped and what the decoder says of its operands. -/
inductive RunMove (s : State) : State → Prop
  /-- An error raised after `k` bits, before anything is written. -/
  | abort (e : ErrKind) (k : Nat) : e ≠ .ok → k = 0 ∨ Fits k s → RunMove s (raise e (advance k s))
  | window (w n : Nat) : s.ctl = .window → Fits n s → 10 ≤ w → w ≤ 24 → RunMove s (setWindow w (advance n s))
  | notLast : s.ctl = .isLast → Fits 1 s → RunMove s (goto .mnibbles (setIsLast false (advance 1 s)))
  | last : s.ctl = .isLast → Fits 1 s → RunMove s (goto .isLastEmpty (setIsLast true (advance 1 s)))
  | notEmpty : s.ctl = .isLastEmpty → Fits 1 s → RunMove s (goto .mnibbles (advance 1 s))
  | empty : s.ctl = .isLastEmpty → Fits 1 s → RunMove s (goto .pad (advance 1 s))
  | nibbles (n : Nat) : s.ctl = .mnibbles → Fits 2 s → 4 ≤ n → n ≤ 6 → RunMove s (goto (.mlenNib 0 n 0) (advance 2 s))
  | nibble (i n v : Nat) (x : BitVec 4) : s.ctl = .mlenNib i n v → Fits 4 s → i + 1 < n →
      RunMove s (goto (.mlenNib (i + 1) n (v + x.toNat <<< (4 * i))) (advance 4 s))
  | lastNibble (i n v : Nat) (x : BitVec 4) : s.ctl = .mlenNib i n v → Fits 4 s → n ≤ i + 1 →
      RunMove s (storeMlen (v + x.toNat <<< (4 * i)) (advance 4 s))
  | compressed : s.ctl = .isUncompressed → Fits 1 s → RunMove s (enterBlockInfo (advance 1 s))
  | count (u : CountUse) (v n : Nat) : s.ctl = .count u → Fits n s → 1 ≤ v → v ≤ 2 →
      RunMove s (storeCount u v (advance n s))
  | countMore (u : CountUse) (v1 : Nat) : s.ctl = .count u → Fits 4 s → 1 ≤ v1 → v1 ≤ 7 →
      RunMove s (goto (.countX u v1) (advance 4 s))
  | countExtra (u : CountUse) (v1 x : Nat) : s.ctl = .countX u v1 → Fits v1 s → x < 2 ^ v1 →
      RunMove s (storeCount u (2 ^ v1 + x + 1) (advance v1 s))
  | npostfix (v : BitVec 2) : s.ctl = .npostfix → Fits 2 s →
      RunMove s (goto .ndirectf { advance 2 s with mb := { s.mb with npostfix := v.toNat } })
  | ndirect (v : BitVec 4) : s.ctl = .ndirectf → Fits 4 s → RunMove s (goto .cmode (setDirect v.toNat (advance 4 s)))
  | mode (m : ContextMode) : s.ctl = .cmode → Fits 2 s →
      RunMove s (goto (if (s.mb.contextMode ++ [m]).length < s.mb.lit.numTypes then .cmode else .count .treesL)
        { advance 2 s with mb := { s.mb with contextMode := s.mb.contextMode ++ [m] } })
  | noRuns (m : MapSel) : s.ctl = .rleMaxF m → Fits 1 s → RunMove s (goto (.hskip (.cmap m 0)) (advance 1 s))
  | runs (m : MapSel) : s.ctl = .rleMaxF m → Fits 1 s → RunMove s (goto (.rleMaxM1 m) (advance 1 s))
  | rleMax (m : MapSel) (v : BitVec 4) : s.ctl = .rleMaxM1 m → Fits 4 s →
      RunMove s (goto (.hskip (.cmap m (v.toNat + 1))) (advance 4 s))
  | mapEntry (m : MapSel) (r : Nat) (T : Code) (acc : List Nat) (e n : Nat) : s.ctl = .mapSym m r T acc → Fits n s →
      e = 0 ∨ e < mapTrees m s → RunMove s (nextMapEntry m r T (acc ++ [e]) (advance n s))
  | mapRun (m : MapSel) (r : Nat) (T : Code) (acc : List Nat) (k n : Nat) : s.ctl = .mapSym m r T acc → Fits n s →
      1 ≤ k → k ≤ r → RunMove s (goto (.mapRun m r T acc k) (advance n s))
  | mapZeros (m : MapSel) (r : Nat) (T : Code) (acc : List Nat) (k run : Nat) : s.ctl = .mapRun m r T acc k → Fits k s →
      acc.length + run ≤ mapSize m s →
      RunMove s (nextMapEntry m r T (acc ++ List.replicate run 0) (advance k s))
  | mapRead (m : MapSel) (acc entries : List Nat) : s.ctl = .imtf m acc → Fits 1 s →
      entries = acc ∨ entries = inverseMtf acc → RunMove s (storeMap m entries (advance 1 s))
  | simple (u : CodeUse) : s.ctl = .hskip u → Fits 2 s → RunMove s (goto (.nsymm1 u) (advance 2 s))
  | complex (u : CodeUse) (k : Nat) : s.ctl = .hskip u → Fits 2 s → k < 4 →
      RunMove s (goto (.clen u (ClLocals.start k)) (advance 2 s))
  | symbolCount (u : CodeUse) (n : Nat) : s.ctl = .nsymm1 u → Fits 2 s → 1 ≤ n → n ≤ 4 →
      RunMove s (goto (.symbol u n [] false) (advance 2 s))
  | symbol (u : CodeUse) (nsym : Nat) (syms : List Nat) (bad bad' : Bool) (v n : Nat) :
      s.ctl = .symbol u nsym syms bad → Fits n s → (bad' = false → bad = false ∧ v < alphabetOf u s ∧ v ∉ syms) →
      (syms ++ [v]).length < nsym → RunMove s (goto (.symbol u nsym (syms ++ [v]) bad') (advance n s))
  | lastSymbol (u : CodeUse) (nsym : Nat) (syms : List Nat) (bad bad' : Bool) (v n : Nat) :
      s.ctl = .symbol u nsym syms bad → Fits n s → (bad' = false → bad = false ∧ v < alphabetOf u s ∧ v ∉ syms) →
      nsym ≤ (syms ++ [v]).length → RunMove s (finishSymbols u (syms ++ [v]) bad' (advance n s))
  | tree (u : CodeUse) (syms lens : List Nat) : s.ctl = .treeSel u syms → Fits 1 s →
      lens = [2, 2, 2, 2] ∨ lens = [1, 2, 3, 3] → RunMove s (simpleCode u syms lens (advance 1 s))
  | clEntry (u : CodeUse) (st : ClLocals) (v n : Nat) : s.ctl = .clen u st → Fits n s → v ≤ 5 →
      RunMove s (nextClEntry u (st.take v) (advance n s))
  | length (u : CodeUse) (T : Code) (st : LenLocals) (c : BitVec 4) (n : Nat) : s.ctl = .clSym u T st → Fits n s →
      RunMove s (nextLength u T (st.takeLength c.toNat) (advance n s))
  | repeatPrev (u : CodeUse) (T : Code) (st : LenLocals) (n : Nat) : s.ctl = .clSym u T st → Fits n s →
      RunMove s (goto (.rep16 u T st) (advance n s))
  | repeatZero (u : CodeUse) (T : Code) (st : LenLocals) (n : Nat) : s.ctl = .clSym u T st → Fits n s →
      RunMove s (goto (.rep17 u T st) (advance n s))
  | repeatedPrev (u : CodeUse) (T : Code) (st : LenLocals) (x : Nat) : s.ctl = .rep16 u T st → Fits 2 s →
      RunMove s (applyRepeat u T st st.prev 2 x (advance 2 s))
  | repeatedZero (u : CodeUse) (T : Code) (st : LenLocals) (x : Nat) : s.ctl = .rep17 u T st → Fits 3 s →
      RunMove s (applyRepeat u T st 0 3 x (advance 3 s))
  | blockType (c : Cat) (t n : Nat) : s.ctl = .btype c → Fits n s →
      t = (s.block c).lastBlockType ∨ t = (s.block c).blockType + 1 ∨ t < (s.block c).numTypes →
      RunMove s (switchType c t (advance n s))
  | blockCount (c : Cat) (sw : Bool) (k n : Nat) : s.ctl = .bcount c sw → Fits n s → k < Config.bcountAlphabet →
      RunMove s (goto (.bextra c sw k) (advance n s))
  | blockLen (c : Cat) (sw : Bool) (k x n : Nat) : s.ctl = .bextra c sw k → Fits n s → x < 2 ^ tableExtra blenTable k →
      RunMove s (storeBlockLen c sw (tableBase blenTable k + x) (advance n s))
  | abortCommand : s.ctl = .iac → RunMove s (raise .needMoreInput (countDown .insertCopy s))
  | command (icode ccode n : Nat) (imp : Bool) : s.ctl = .iac → Fits n s → icode < 24 → ccode < 24 →
      RunMove s (goto (.iextra icode ccode)
        (setCmd { s.cmd with implicit0 := imp } (advance n (countDown .insertCopy s))))
  | insertLen (icode ccode x n : Nat) : s.ctl = .iextra icode ccode → Fits n s → x < 2 ^ tableExtra insTable icode →
      RunMove s (goto (.cextra ccode) (setCmd { s.cmd with insertLen := tableBase insTable icode + x } (advance n s)))
  | copyLen (ccode x n : Nat) : s.ctl = .cextra ccode → Fits n s → x < 2 ^ tableExtra cpyTable ccode →
      RunMove s (nextInsert (setCmd { s.cmd with copyLen := tableBase cpyTable ccode + x } (advance n s)))
  | abortLiteral : s.ctl = .lit → RunMove s (raise .needMoreInput (countDown .literal s))
  | fullLiteral (n : Nat) : s.ctl = .lit → Fits n s → RunMove s (raise .syntaxError (advance n (countDown .literal s)))
  | literal (b : Byte) (n : Nat) : s.ctl = .lit → Fits n s → s.pos < s.cfgOutCap.toNat →
      RunMove s (nextInsert (countLiteral (putByte b (advance n (countDown .literal s)))))
  | abortDistance : s.ctl = .dist → RunMove s (raise .needMoreInput (countDistance s))
  | badShort (d n : Nat) : s.ctl = .dist → Fits n s → d < 16 → shortDistance s.hist d ≤ 0 →
      RunMove s (raise .syntaxError (writeDistance (storedDistance (shortDistance s.hist d)) (readDistance n d s)))
  | short (d n : Nat) : s.ctl = .dist → Fits n s → d < 16 → 0 < shortDistance s.hist d →
      RunMove s (setDistance (storedDistance (shortDistance s.hist d)) (readDistance n d s))
  | direct (d n : Nat) : s.ctl = .dist → Fits n s → 16 ≤ d → d < 16 + s.mb.ndirect →
      RunMove s (setDistance (d - 15) (readDistance n d s))
  | ranged (d n : Nat) : s.ctl = .dist → Fits n s → 16 + s.mb.ndirect ≤ d → d < s.mb.distAlphabet →
      RunMove s (goto .dextra (readDistance n d s))
  | rangedExtra (x n : Nat) : s.ctl = .dextra → Fits n s → x < 2 ^ rangedBits s.mb.npostfix s.mb.ndirect s.cmd.dcode →
      RunMove s (setDistance (rangedDistance s.mb.npostfix s.mb.ndirect s.cmd.dcode x) (advance n s))
  | abortCopy (h : DistRing) : s.ctl = .copy → PushedHist s h → RunMove s (raise .syntaxError { s with hist := h })
  | copy (h : DistRing) (bs : List Byte) : s.ctl = .copy → PushedHist s h → s.pos + bs.length ≤ s.mb.mbEnd →
      s.pos + bs.length ≤ s.cfgOutCap.toNat → RunMove s (nextCommand (putBytes bs { s with hist := h }))
  | padding (n : Nat) : s.ctl = .pad → Fits n s → RunMove s (terminate (advance n s))

/-! ### Shared shapes of the elements -/

variable {s t : State} {i : Instr} {look : BitVec 24}

/-- An element that drops its bits in one piece before it writes anything. -/
theorem RunMove.of_drop {n : Nat} {f : State → State} (h : dropThen n s (fun s' => .next (f s')) = .next t)
    (hf : Fits n s → RunMove s (f (advance n s))) : RunMove s t := by
  obtain ⟨hn, hk⟩ | ⟨-, rfl⟩ := dropThen_next h
  · cases hk
    exact hf hn
  · exact .abort .needMoreInput 0 (by decide) (.inl rfl)

/-- An element that drops more bits after the first `m`. -/
theorem RunMove.of_drop_drop {m n : Nat} {k : State → Answer} (h : dropThen n (advance m s) k = .next t)
    (hm : Fits m s) (hk : Fits (m + n) s → k (advance (m + n) s) = .next t → RunMove s t) : RunMove s t := by
  obtain ⟨hn, h'⟩ | ⟨-, rfl⟩ := dropThen_next h
  · rw [advance_advance] at h'
    exact hk (fits_advance.1 hn) h'
  · exact .abort .needMoreInput m (by decide) (.inr hm)

/-- An element whose first piece is followed by another one. -/
theorem RunMove.of_drop_then {n : Nat} {k : State → Answer} (h : dropThen n s k = .next t)
    (hk : Fits n s → k (advance n s) = .next t → RunMove s t) : RunMove s t := by
  obtain ⟨hn, h'⟩ | ⟨-, rfl⟩ := dropThen_next h
  · exact hk hn h'
  · exact .abort .needMoreInput 0 (by decide) (.inl rfl)

/-- A symbol-coded element is the row of a decoded symbol. -/
theorem decodeWith_ok {T : Code} {row : (n s : Nat) → Option Instr} (h : decodeWith T look row = .ok i) :
    ∃ n v, row n v = some i := by
  unfold decodeWith at h
  split at h
  · cases h
  · split at h
    · cases h
    · cases h
      exact ⟨_, _, ‹_›⟩

/-! ### The stream header and the meta-block header's first fields -/

theorem window_move (hc : s.ctl = .window) (hd : decode .window look = .ok i) (h : exec i s = .next t) :
    RunMove s t := by
  simp only [decode, decodeWindow, Except.ok.injEq] at hd
  split_ifs at hd with h0 h1 h2 h3 <;> subst hd
  · simp only [exec, execWin16, hc] at h
    exact .of_drop h fun hf => .window 16 1 hc hf (by decide) (by decide)
  · simp only [exec, execWin17to24, hc] at h
    refine .of_drop_then h fun hf h => .of_drop_drop h hf fun hf h => ?_
    cases h
    exact .window _ 4 hc hf (by omega) (by have := (look.extractLsb' 1 3).isLt; omega)
  · simp only [exec, execWin17, hc] at h
    refine .of_drop_then h fun hf h => .of_drop_drop h hf fun hf h => .of_drop_drop h hf fun hf h => ?_
    cases h
    exact .window 17 7 hc hf (by decide) (by decide)
  · simp only [exec, execWinReserved, hc] at h
    refine .of_drop_then h fun hf h => .of_drop_drop h hf fun hf h => .of_drop_drop h hf fun hf h => ?_
    cases h
    exact .abort .syntaxError 7 (by decide) (.inr hf)
  · simp only [exec, execWin10to15, hc] at h
    refine .of_drop_then h fun hf h => .of_drop_drop h hf fun hf h => .of_drop_drop h hf fun hf h => ?_
    cases h
    have hlo : 2 ≤ (look.extractLsb' 4 3).toNat := by
      generalize look.extractLsb' 4 3 = b at h2 h3
      revert b; decide
    exact .window _ 7 hc hf (by omega) (by have := (look.extractLsb' 4 3).isLt; omega)

theorem isLast_move (hc : s.ctl = .isLast) (hd : decode .isLast look = .ok i) (h : exec i s = .next t) :
    RunMove s t := by
  simp only [decode, Except.ok.injEq] at hd
  split_ifs at hd <;> subst hd
  · simp only [exec, execIsLast0, hc] at h
    exact .of_drop h fun hf => .notLast hc hf
  · simp only [exec, execIsLast1, hc] at h
    exact .of_drop h fun hf => .last hc hf

theorem isLastEmpty_move (hc : s.ctl = .isLastEmpty) (hd : decode .isLastEmpty look = .ok i) (h : exec i s = .next t) :
    RunMove s t := by
  simp only [decode, Except.ok.injEq] at hd
  split_ifs at hd <;> subst hd
  · simp only [exec, execIsLastEmpty0, hc] at h
    exact .of_drop h fun hf => .notEmpty hc hf
  · simp only [exec, execIsLastEmpty1, hc] at h
    exact .of_drop h fun hf => .empty hc hf

theorem startMlen_move {n : Nat} (hc : s.ctl = .mnibbles) (hn : 4 ≤ n ∧ n ≤ 6) (h : startMlen n s = .next t) :
    RunMove s t := by
  simp only [startMlen, hc] at h
  exact .of_drop h fun hf => .nibbles n hc hf hn.1 hn.2

theorem mnibbles_move (hc : s.ctl = .mnibbles) (hd : decode .mnibbles look = .ok i) (h : exec i s = .next t) :
    RunMove s t := by
  simp only [decode, decodeMnibbles, Except.ok.injEq] at hd
  split at hd <;> subst hd
  · exact startMlen_move (n := 4) hc (by decide) h
  · exact startMlen_move (n := 5) hc (by decide) h
  · exact startMlen_move (n := 6) hc (by decide) h
  · simp only [exec, execMnibblesReserved, hc] at h
    exact .of_drop h fun hf => .abort .syntaxError 2 (by decide) (.inr hf)

theorem mlenNib_move {j n v : Nat} {b : Bool} (hc : s.ctl = .mlenNib j n v) (hd : decode (.mlenNib b) look = .ok i)
    (h : exec i s = .next t) : RunMove s t := by
  simp only [decode, Except.ok.injEq] at hd
  split_ifs at hd <;> subst hd
  · simp only [exec, execMlenNibLastZero, hc] at h
    exact .of_drop h fun hf => .abort .syntaxError 4 (by decide) (.inr hf)
  · simp only [exec, execMlenNib, hc] at h
    refine .of_drop h fun hf => ?_
    split
    · exact .nibble j n v _ hc hf ‹_›
    · exact .lastNibble j n v _ hc hf (by omega)

theorem isUncompressed_move (hc : s.ctl = .isUncompressed) (hd : decode .isUncompressed look = .ok i)
    (h : exec i s = .next t) : RunMove s t := by
  simp only [decode, Except.ok.injEq] at hd
  split_ifs at hd <;> subst hd
  · simp only [exec, execIsUncompressed0, hc] at h
    exact .of_drop h fun hf => .compressed hc hf
  · simp only [exec, execIsUncompressed1, hc] at h
    exact .of_drop h fun hf => .abort .syntaxError 1 (by decide) (.inr hf)

theorem count_move {u : CountUse} (hc : s.ctl = .count u) (hd : decode .var256 look = .ok i) (h : exec i s = .next t) :
    RunMove s t := by
  simp only [decode, decodeVar256, Except.ok.injEq] at hd
  split_ifs at hd with h0 h1 <;> subst hd
  · simp only [exec, execVar256One, hc] at h
    exact .of_drop h fun hf => .count u 1 1 hc hf (by decide) (by decide)
  · simp only [exec, execVar256Two, hc] at h
    refine .of_drop_then h fun hf h => .of_drop_drop h hf fun hf h => ?_
    cases h
    exact .count u 2 4 hc hf (by decide) (by decide)
  · simp only [exec, execVar256More, hc] at h
    refine .of_drop_then h fun hf h => .of_drop_drop h hf fun hf h => ?_
    cases h
    have hpos : (look.extractLsb' 1 3).toNat ≠ 0 := fun e => h1 (BitVec.eq_of_toNat_eq e)
    exact .countMore u _ hc hf (by omega) (by have := (look.extractLsb' 1 3).isLt; omega)

theorem countX_move {u : CountUse} {v1 : Nat} (hc : s.ctl = .countX u v1) (hd : decode (.vx v1) look = .ok i)
    (h : exec i s = .next t) : RunMove s t := by
  cases hd
  simp only [exec, execVx, hc] at h
  exact .of_drop h fun hf => .countExtra u v1 _ hc hf (fieldOf_lt _ _)

/-! ### The distance parameters, the context modes and the context maps -/

theorem npostfix_move (hc : s.ctl = .npostfix) (hd : decode .npostfix look = .ok i) (h : exec i s = .next t) :
    RunMove s t := by
  cases hd
  simp only [exec, execNpostfix, hc] at h
  exact .of_drop h fun hf => .npostfix _ hc hf

theorem ndirectf_move (hc : s.ctl = .ndirectf) (hd : decode .ndirectf look = .ok i) (h : exec i s = .next t) :
    RunMove s t := by
  cases hd
  simp only [exec, execNdirectf, hc] at h
  exact .of_drop h fun hf => .ndirect _ hc hf

theorem takeMode_move {m : ContextMode} (hc : s.ctl = .cmode) (h : takeMode m s = .next t) : RunMove s t := by
  simp only [takeMode, hc] at h
  exact .of_drop h fun hf => .mode m hc hf

theorem cmode_move (hc : s.ctl = .cmode) (hd : decode .cmode look = .ok i) (h : exec i s = .next t) : RunMove s t := by
  simp only [decode, decodeCmode, Except.ok.injEq] at hd
  split at hd <;> subst hd
  · exact takeMode_move (m := .lsb6) hc h
  · exact takeMode_move (m := .msb6) hc h
  · exact takeMode_move (m := .utf8) hc h
  · exact takeMode_move (m := .signed) hc h

theorem rleMaxF_move {m : MapSel} (hc : s.ctl = .rleMaxF m) (hd : decode .rleMaxF look = .ok i)
    (h : exec i s = .next t) : RunMove s t := by
  simp only [decode, Except.ok.injEq] at hd
  split_ifs at hd <;> subst hd
  · simp only [exec, execRleMaxF0, hc] at h
    exact .of_drop h fun hf => .noRuns m hc hf
  · simp only [exec, execRleMaxF1, hc] at h
    exact .of_drop h fun hf => .runs m hc hf

theorem rleMaxM1_move {m : MapSel} (hc : s.ctl = .rleMaxM1 m) (hd : decode .rleMaxM1 look = .ok i)
    (h : exec i s = .next t) : RunMove s t := by
  cases hd
  simp only [exec, execRleMaxM1, hc] at h
  exact .of_drop h fun hf => .rleMax m _ hc hf

theorem mapSym_move {m : MapSel} {r : Nat} {T : Code} {acc : List Nat} (hc : s.ctl = .mapSym m r T acc)
    (hd : decode (.mapSym T r (mapTrees m s)) look = .ok i) (h : exec i s = .next t) : RunMove s t := by
  obtain ⟨n, v, hrow⟩ := decodeWith_ok hd
  unfold mapInstr at hrow
  split_ifs at hrow with h0 hr hv <;> cases hrow
  · simp only [exec, execCmapZero, hc] at h
    exact .of_drop h fun hf => .mapEntry m r T acc 0 n hc hf (.inl rfl)
  · simp only [exec, execCmapRun, hc] at h
    exact .of_drop h fun hf => .mapRun m r T acc v n hc hf (by omega) hr
  · simp only [exec, execCmapValue, hc] at h
    exact .of_drop h fun hf => .mapEntry m r T acc (v - r) n hc hf (.inr (by omega))

theorem mapRun_move {m : MapSel} {r k : Nat} {T : Code} {acc : List Nat} (hc : s.ctl = .mapRun m r T acc k)
    (hd : decode (.runx k) look = .ok i) (h : exec i s = .next t) : RunMove s t := by
  cases hd
  simp only [exec, execRunx, hc] at h
  refine .of_drop h fun hf => ?_
  split
  · exact .abort .contextMapError k (by decide) (.inr hf)
  · rename_i hsize
    exact .mapZeros m r T acc k _ hc hf (Nat.le_of_not_lt hsize)

theorem imtf_move {m : MapSel} {acc : List Nat} (hc : s.ctl = .imtf m acc) (hd : decode .imtf look = .ok i)
    (h : exec i s = .next t) : RunMove s t := by
  simp only [decode, Except.ok.injEq] at hd
  split_ifs at hd <;> subst hd
  · simp only [exec, execImtf0, hc] at h
    exact .of_drop h fun hf => .mapRead m acc _ hc hf (.inl rfl)
  · simp only [exec, execImtf1, hc] at h
    exact .of_drop h fun hf => .mapRead m acc _ hc hf (.inr rfl)

/-! ### The definitions of codes -/

theorem startComplex_move {u : CodeUse} {k : Nat} (hc : s.ctl = .hskip u) (hk : k < 4)
    (h : startComplex k s = .next t) : RunMove s t := by
  simp only [startComplex, hc] at h
  exact .of_drop h fun hf => .complex u k hc hf hk

theorem hskip_move {u : CodeUse} (hc : s.ctl = .hskip u) (hd : decode .hskip look = .ok i) (h : exec i s = .next t) :
    RunMove s t := by
  simp only [decode, decodeHskip, Except.ok.injEq] at hd
  split at hd <;> subst hd
  · exact startComplex_move (k := 0) hc (by decide) h
  · simp only [exec, execHskipSimple, hc] at h
    exact .of_drop h fun hf => .simple u hc hf
  · exact startComplex_move (k := 2) hc (by decide) h
  · exact startComplex_move (k := 3) hc (by decide) h

theorem startSimple_move {u : CodeUse} {n : Nat} (hc : s.ctl = .nsymm1 u) (hn : 1 ≤ n ∧ n ≤ 4)
    (h : startSimple n s = .next t) : RunMove s t := by
  simp only [startSimple, hc] at h
  exact .of_drop h fun hf => .symbolCount u n hc hf hn.1 hn.2

theorem nsymm1_move {u : CodeUse} (hc : s.ctl = .nsymm1 u) (hd : decode .nsymm1 look = .ok i)
    (h : exec i s = .next t) : RunMove s t := by
  simp only [decode, decodeNsymm1, Except.ok.injEq] at hd
  split at hd <;> subst hd
  · exact startSimple_move (n := 1) hc (by decide) h
  · exact startSimple_move (n := 2) hc (by decide) h
  · exact startSimple_move (n := 3) hc (by decide) h
  · exact startSimple_move (n := 4) hc (by decide) h

theorem takeSymbol_move {u : CodeUse} {nsym v : Nat} {syms : List Nat} {bad invalid : Bool}
    (hc : s.ctl = .symbol u nsym syms bad) (hv : invalid = false → v < alphabetOf u s ∧ v ∉ syms)
    (h : takeSymbol invalid v s = .next t) : RunMove s t := by
  simp only [takeSymbol, hc] at h
  have hbad : (bad || invalid) = false → bad = false ∧ v < alphabetOf u s ∧ v ∉ syms := by
    rw [Bool.or_eq_false_iff]
    exact fun hb => ⟨hb.1, hv hb.2⟩
  refine .of_drop h fun hf => ?_
  split
  · exact .symbol u nsym syms bad _ v _ hc hf hbad ‹_›
  · exact .lastSymbol u nsym syms bad _ v _ hc hf hbad (by omega)

theorem symbol_move {u : CodeUse} {nsym : Nat} {syms : List Nat} {bad : Bool} (hc : s.ctl = .symbol u nsym syms bad)
    (hd : decode (.symbol (alphabetOf u s) syms) look = .ok i) (h : exec i s = .next t) : RunMove s t := by
  simp only [decode, Except.ok.injEq] at hd
  split_ifs at hd with hv <;> subst hd
  · exact takeSymbol_move hc (fun _ => hv) h
  · exact takeSymbol_move (invalid := true) hc (by simp) h

theorem selectTree_move {u : CodeUse} {syms lens : List Nat} (hc : s.ctl = .treeSel u syms)
    (hl : lens = [2, 2, 2, 2] ∨ lens = [1, 2, 3, 3]) (h : selectTree lens s = .next t) : RunMove s t := by
  simp only [selectTree, hc] at h
  exact .of_drop h fun hf => .tree u syms lens hc hf hl

theorem treeSel_move {u : CodeUse} {syms : List Nat} (hc : s.ctl = .treeSel u syms)
    (hd : decode .treeSel look = .ok i) (h : exec i s = .next t) : RunMove s t := by
  simp only [decode, Except.ok.injEq] at hd
  split_ifs at hd <;> subst hd
  · exact selectTree_move hc (.inl rfl) h
  · exact selectTree_move hc (.inr rfl) h

theorem takeClen_move {u : CodeUse} {st : ClLocals} {n v : Nat} (hc : s.ctl = .clen u st) (hv : v ≤ 5)
    (h : takeClen n v s = .next t) : RunMove s t := by
  simp only [takeClen, hc] at h
  exact .of_drop h fun hf => .clEntry u st v n hc hf hv

theorem clen_move {u : CodeUse} {st : ClLocals} (hc : s.ctl = .clen u st) (hd : decode .clen look = .ok i)
    (h : exec i s = .next t) : RunMove s t := by
  simp only [decode, decodeClen, Except.ok.injEq] at hd
  split at hd
  · subst hd; exact takeClen_move (n := 2) (v := 0) hc (by decide) h
  · subst hd; exact takeClen_move (n := 2) (v := 4) hc (by decide) h
  · subst hd; exact takeClen_move (n := 2) (v := 3) hc (by decide) h
  · split_ifs at hd <;> subst hd
    · exact takeClen_move (n := 3) (v := 2) hc (by decide) h
    · exact takeClen_move (n := 4) (v := 1) hc (by decide) h
    · exact takeClen_move (n := 4) (v := 5) hc (by decide) h

theorem clSym_move {u : CodeUse} {T : Code} {st : LenLocals} (hc : s.ctl = .clSym u T st)
    (hd : decode (.clSym T) look = .ok i) (h : exec i s = .next t) : RunMove s t := by
  obtain ⟨n, v, hrow⟩ := decodeWith_ok hd
  unfold clInstr at hrow
  split_ifs at hrow <;> cases hrow
  · simp only [exec, execClLength, hc] at h
    exact .of_drop h fun hf => .length u T st _ n hc hf
  · simp only [exec, execClRepeatPrev, hc] at h
    exact .of_drop h fun hf => .repeatPrev u T st n hc hf
  · simp only [exec, execClRepeatZero, hc] at h
    exact .of_drop h fun hf => .repeatZero u T st n hc hf

theorem rep16_move {u : CodeUse} {T : Code} {st : LenLocals} (hc : s.ctl = .rep16 u T st)
    (hd : decode .r16 look = .ok i) (h : exec i s = .next t) : RunMove s t := by
  cases hd
  simp only [exec, execR16, hc] at h
  exact .of_drop h fun hf => .repeatedPrev u T st _ hc hf

theorem rep17_move {u : CodeUse} {T : Code} {st : LenLocals} (hc : s.ctl = .rep17 u T st)
    (hd : decode .r17 look = .ok i) (h : exec i s = .next t) : RunMove s t := by
  cases hd
  simp only [exec, execR17, hc] at h
  exact .of_drop h fun hf => .repeatedZero u T st _ hc hf

/-! ### Block switches and block counts -/

theorem btype_move {c : Cat} {T : Code} (hc : s.ctl = .btype c)
    (hd : decode (.btype T (s.block c).numTypes) look = .ok i) (h : exec i s = .next t) : RunMove s t := by
  obtain ⟨n, v, hrow⟩ := decodeWith_ok hd
  unfold btypeInstr at hrow
  split_ifs at hrow with h0 h1 hv <;> cases hrow
  · simp only [exec, execBtypeLast, hc] at h
    exact .of_drop h fun hf => .blockType c _ n hc hf (.inl rfl)
  · simp only [exec, execBtypeNext, hc] at h
    exact .of_drop h fun hf => .blockType c _ n hc hf (.inr (.inl rfl))
  · simp only [exec, execBtypeExplicit, hc] at h
    exact .of_drop h fun hf => .blockType c _ n hc hf (.inr (.inr (by omega)))

theorem bcount_move {c : Cat} {sw : Bool} {T : Code} (hc : s.ctl = .bcount c sw)
    (hd : decode (.bcount T) look = .ok i) (h : exec i s = .next t) : RunMove s t := by
  obtain ⟨n, v, hrow⟩ := decodeWith_ok hd
  unfold bcountInstr at hrow
  split_ifs at hrow with hv
  cases hrow
  simp only [exec, execBcount, hc] at h
  exact .of_drop h fun hf => .blockCount c sw v n hc hf hv

theorem bextra_move {c : Cat} {sw : Bool} {k : Nat} (hc : s.ctl = .bextra c sw k)
    (hd : decode (.bextra (tableExtra blenTable k)) look = .ok i) (h : exec i s = .next t) : RunMove s t := by
  cases hd
  simp only [exec, execBextra, hc] at h
  exact .of_drop h fun hf => .blockLen c sw k _ _ hc hf (fieldOf_lt _ _)

/-! ### The command up to its distance -/

theorem cellTable_codes_le (cell : Nat) :
    (cellTable.getD cell (0, 0, false)).1 ≤ 16 ∧ (cellTable.getD cell (0, 0, false)).2.1 ≤ 16 := by
  by_cases hcell : cell < 11
  · interval_cases cell <;> decide
  · rw [List.getD_eq_default _ _ (by simpa [cellTable] using hcell)]
    decide

theorem takeCommand_move {cell n : Nat} {ioff coff : BitVec 3} (hc : s.ctl = .iac)
    (h : takeCommand cell n ioff coff s = .next t) : RunMove s t := by
  simp only [takeCommand, hc] at h
  obtain ⟨hn, h⟩ | ⟨-, rfl⟩ := dropThen_next h
  · simp only [advance_cmd, countDown_cmd] at h
    cases h
    obtain ⟨hi, hk⟩ := cellTable_codes_le cell
    have := ioff.isLt
    have := coff.isLt
    exact .command _ _ n _ hc ((countDown_fits _ _ _).1 hn) (by omega) (by omega)
  · exact .abortCommand hc

/-- Every insert-and-copy symbol is the row of its cell. -/
theorem iacInstr_exec {n v : Nat} (h : iacInstr n v = some i) :
    ∃ cell ioff coff, ∀ s, exec i s = takeCommand cell n ioff coff s := by
  simp only [iacInstr] at h
  split at h <;> cases h <;> exact ⟨_, _, _, fun _ => rfl⟩

theorem iac_move {T : Code} (hc : s.ctl = .iac) (hd : decode (.iac T) look = .ok i) (h : exec i s = .next t) :
    RunMove s t := by
  obtain ⟨n, v, hrow⟩ := decodeWith_ok hd
  obtain ⟨cell, ioff, coff, he⟩ := iacInstr_exec hrow
  exact takeCommand_move hc ((he s).symm.trans h)

theorem iextra_move {icode ccode : Nat} (hc : s.ctl = .iextra icode ccode)
    (hd : decode (.iextra (tableExtra insTable icode)) look = .ok i) (h : exec i s = .next t) : RunMove s t := by
  cases hd
  simp only [exec, execIextra, hc] at h
  exact .of_drop h fun hf => .insertLen icode ccode _ _ hc hf (fieldOf_lt _ _)

theorem cextra_move {ccode : Nat} (hc : s.ctl = .cextra ccode)
    (hd : decode (.cextra (tableExtra cpyTable ccode)) look = .ok i) (h : exec i s = .next t) : RunMove s t := by
  cases hd
  simp only [exec, execCextra, hc] at h
  exact .of_drop h fun hf => .copyLen ccode _ _ hc hf (fieldOf_lt _ _)

theorem lit_move {T : Code} (hc : s.ctl = .lit) (hd : decode (.lit T) look = .ok i) (h : exec i s = .next t) :
    RunMove s t := by
  obtain ⟨n, v, hrow⟩ := decodeWith_ok hd
  unfold litInstr at hrow
  split_ifs at hrow
  cases hrow
  simp only [exec, execLiteral, hc] at h
  obtain ⟨hn, h⟩ | ⟨-, rfl⟩ := dropThen_next h
  · have hf := (countDown_fits _ _ _).1 hn
    obtain ⟨hcap, e⟩ | ⟨-, e⟩ := emitThen_cases (BitVec.ofNat 8 v) (advance n (countDown .literal s))
      (fun s => .next (nextInsert (countLiteral s))) <;> rw [e] at h <;> cases h
    · exact .literal _ n hc hf (by simpa using hcap)
    · exact .fullLiteral n hc hf
  · exact .abortLiteral hc

/-! ### The distance -/

/-- A distance symbol reads its bits into `dcode`, or raises `need_more_input`. -/
theorem takeDistance_next {n d : Nat} {k : State → Answer} (hc : s.ctl = .dist)
    (h : takeDistance n d s k = .next t) :
    (Fits n s ∧ k (readDistance n d s) = .next t) ∨ RunMove s t := by
  rw [takeDistance_eq hc] at h
  obtain ⟨hn, h⟩ | ⟨-, rfl⟩ := dropThen_next h
  · exact .inl ⟨(countDistance_fits n s).1 hn, h⟩
  · exact .inr (.abortDistance hc)

theorem takeShort_move {n d : Nat} (hc : s.ctl = .dist) (hd : d < 16) (h : takeShort n d s = .next t) :
    RunMove s t := by
  obtain ⟨hf, h⟩ | hm := takeDistance_next hc h
  · simp only [readDistance_hist] at h
    split_ifs at h with hv <;> cases h
    · exact .badShort d n hc hf hd hv
    · exact .short d n hc hf hd (by omega)
  · exact hm

/-- Every short code is a row of its own. -/
theorem distShortInstr_exec {n d : Nat} (hd : d < 16) (h : distShortInstr n d = some i) :
    ∀ s, exec i s = takeShort n d s := by
  interval_cases d <;> cases h <;> exact fun _ => rfl

theorem dist_move {T : Code} (hc : s.ctl = .dist) (hd : decode (.dist T s.mb.ndirect s.mb.distAlphabet) look = .ok i)
    (h : exec i s = .next t) : RunMove s t := by
  obtain ⟨n, d, hrow⟩ := decodeWith_ok hd
  unfold distInstr at hrow
  split_ifs at hrow with hs hdir hran
  · exact takeShort_move hc hs ((distShortInstr_exec hs hrow s).symm.trans h)
  · cases hrow
    simp only [exec, execDistDirect] at h
    obtain ⟨hf, h⟩ | hm := takeDistance_next hc h
    · cases h
      exact .direct d n hc hf (by omega) hdir
    · exact hm
  · cases hrow
    simp only [exec, execDistRanged] at h
    obtain ⟨hf, h⟩ | hm := takeDistance_next hc h
    · cases h
      exact .ranged d n hc hf (by omega) hran
    · exact hm

theorem dextra_move (hc : s.ctl = .dextra)
    (hd : decode (.dextra (rangedBits s.mb.npostfix s.mb.ndirect s.cmd.dcode)) look = .ok i) (h : exec i s = .next t) :
    RunMove s t := by
  cases hd
  simp only [exec, execDextra, hc] at h
  exact .of_drop h fun hf => .rangedExtra _ _ hc hf (fieldOf_lt _ _)

/-! ### The copy and the padding -/

/-- A copy outputs some list of bytes (R147). -/
theorem copyLoop_eq_putBytes (d n : Nat) (s : State) :
    ∃ bs : List Byte, bs.length = n ∧ copyLoop d n s = putBytes bs s := by
  induction n generalizing s with
  | zero => exact ⟨[], rfl, rfl⟩
  | succ n ih =>
    obtain ⟨bs, hl, e⟩ := ih (putByte (memRead s.ring (ringIndex s (s.pos - d))) s)
    exact ⟨_ :: bs, by rw [List.length_cons, hl], e⟩

theorem overruns_eq_false {n : Nat} {s : State} (h : ¬ overruns n s = true) :
    s.pos + n ≤ s.mb.mbEnd ∧ s.pos + n ≤ s.cfgOutCap.toNat := by
  simpa [overruns] using h

theorem copyBack_move {d n : Nat} {h : DistRing} (hc : s.ctl = .copy) (hh : PushedHist s h) :
    RunMove s (copyBack d n { s with hist := h }) := by
  unfold copyBack
  split
  · exact .abortCopy h hc hh
  · obtain ⟨hmb, hcap⟩ := overruns_eq_false ‹_›
    obtain ⟨bs, rfl, e⟩ := copyLoop_eq_putBytes d n { s with hist := h }
    rw [e]
    exact .copy h bs hc hh hmb hcap

theorem dictRef_move {wordId len : Nat} (hc : s.ctl = .copy) : RunMove s (dictRef wordId len s) := by
  unfold dictRef
  split
  · exact .abortCopy s.hist hc (.inl rfl)
  · dsimp only
    split
    · unfold dictEmit
      split
      · exact .abortCopy s.hist hc (.inl rfl)
      · obtain ⟨hmb, hcap⟩ := overruns_eq_false ‹_›
        exact .copy s.hist _ hc (.inl rfl) hmb hcap
    · exact .abortCopy s.hist hc (.inl rfl)

theorem finishCommand_move (hc : s.ctl = .copy) : RunMove s (finishCommand s) := by
  unfold finishCommand
  dsimp only
  split
  · split
    · exact copyBack_move hc (.inr ⟨‹_›, rfl⟩)
    · exact copyBack_move hc (.inl rfl)
  · exact dictRef_move hc

theorem pad_move (hc : s.ctl = .pad) (hd : decode (.pad (padWidth s)) look = .ok i) (h : exec i s = .next t) :
    RunMove s t := by
  simp only [decode, Except.ok.injEq] at hd
  split_ifs at hd <;> subst hd
  · simp only [exec, execPadZero, hc] at h
    exact .of_drop h fun hf => .padding _ hc hf
  · simp only [exec, execPadNonzero, hc] at h
    exact .of_drop h fun hf => .abort .syntaxError _ (by decide) (.inr hf)

/-! ### Every step of a running decode -/

theorem fetchAt_ok {p : Slot} (h : fetchAt p s = .ok i) : decode p (lookahead s) = .ok i := by
  unfold fetchAt at h
  split at h
  · cases h; assumption
  · cases h

/-- The element that is decoded at the state's grammar position makes one of the moves. -/
theorem element_move {p : Slot} (hp : slotOf s = some p) (hd : decode p (lookahead s) = .ok i)
    (h : exec i s = .next t) : RunMove s t := by
  unfold slotOf at hp
  split at hp <;> cases hp <;> rename_i hc
  · exact window_move hc hd h
  · exact isLast_move hc hd h
  · exact isLastEmpty_move hc hd h
  · exact mnibbles_move hc hd h
  · exact mlenNib_move hc hd h
  · exact isUncompressed_move hc hd h
  · exact count_move hc hd h
  · exact countX_move hc hd h
  · exact npostfix_move hc hd h
  · exact ndirectf_move hc hd h
  · exact cmode_move hc hd h
  · exact rleMaxF_move hc hd h
  · exact rleMaxM1_move hc hd h
  · exact mapSym_move hc hd h
  · exact mapRun_move hc hd h
  · exact imtf_move hc hd h
  · exact hskip_move hc hd h
  · exact nsymm1_move hc hd h
  · exact symbol_move hc hd h
  · exact treeSel_move hc hd h
  · exact clen_move hc hd h
  · exact clSym_move hc hd h
  · exact rep16_move hc hd h
  · exact rep17_move hc hd h
  · exact btype_move hc hd h
  · exact bcount_move hc hd h
  · exact bextra_move hc hd h
  · exact iac_move hc hd h
  · exact iextra_move hc hd h
  · exact cextra_move hc hd h
  · exact lit_move hc hd h
  · exact dist_move hc hd h
  · exact dextra_move hc hd h
  · exact pad_move hc hd h

theorem slotOf_eq_none (h : slotOf s = none) : s.ctl = .copy := by
  unfold slotOf at h
  split at h <;> cases h
  assumption

theorem runStep_move (h : runStep s = .next t) : RunMove s t := by
  unfold runStep at h
  split at h
  · cases h
    exact finishCommand_move (slotOf_eq_none ‹_›)
  · split at h
    · cases h
    · exact element_move ‹_› (fetchAt_ok ‹_›) h

/-- What a step can do: the oldest host move, nothing outside a decode, or a move of the running decode. -/
theorem step_cases (h : step s = .next t) :
    (∃ c rest, s.hostq = c :: rest ∧ t = hostMove c { s with hostq := rest }) ∨
    (s.hostq = [] ∧ s.phase ≠ .run ∧ t = s) ∨ (s.hostq = [] ∧ s.phase = .run ∧ RunMove s t) := by
  unfold step at h
  split at h
  · cases h
    exact .inl ⟨_, _, ‹_›, rfl⟩
  · rename_i hq
    split at h
    · cases h; exact .inr (.inl ⟨hq, by simp [*], rfl⟩)
    · cases h; exact .inr (.inl ⟨hq, by simp [*], rfl⟩)
    · exact .inr (.inr ⟨hq, ‹_›, runStep_move h⟩)

end Sys2Proof.Machine
end

section
/-! The host's moves and views, the steps outside a running decode, and the shared operations on block counts, codes and
last distances. -/

namespace Sys2Proof.Machine

/-! ### Steps that execute no element -/

theorem step_host {s : State} {c : HostCmd} {rest : List HostCmd} (h : s.hostq = c :: rest) :
    step s = .next (hostMove c { s with hostq := rest }) := by
  simp only [step, h]

theorem step_ended {s : State} (hq : s.hostq = []) (hp : s.phase ≠ .run) : step s = .next s := by
  cases e : s.phase <;> simp_all [step]

theorem step_run {s : State} (hq : s.hostq = []) (hp : s.phase = .run) : step s = runStep s := by
  simp only [step, hq, hp]

theorem runStep_copy {s : State} (hc : s.ctl = .copy) : runStep s = .next (finishCommand s) := by
  simp only [runStep, slotOf, hc]

/-! ### Host moves -/

theorem hostMove_running {s : State} (c : HostCmd) (h : s.phase = .run) : hostMove c s = s := by
  simp [hostMove, busy, h]

theorem hostMove_writeReg {s : State} (r : HostReg) (v : BitVec 35) (h : s.phase ≠ .run) :
    hostMove (.writeReg r v) s = writeHostReg r v s := by
  simp [hostMove, busy, h]

theorem hostMove_writeIn {s : State} (a : BitVec 32) (b : Byte) (h : s.phase ≠ .run) :
    hostMove (.writeIn a b) s = { s with inMem := memWrite s.inMem a.toNat b } := by
  simp [hostMove, busy, h]

theorem hostMove_writeOut {s : State} (a : BitVec 32) (b : Byte) (h : s.phase ≠ .run) :
    hostMove (.writeOut a b) s = { s with outMem := memWrite s.outMem a.toNat b } := by
  simp [hostMove, busy, h]

/-- A register write either starts a decode or changes a configuration register at most. -/
theorem writeHostReg_cases (r : HostReg) (v : BitVec 35) (s : State) :
    writeHostReg r v s = startDecode s ∨
    ∃ l b c, writeHostReg r v s = { s with cfgInLen := l, cfgStartBit := b, cfgOutCap := c } := by
  cases r
  case ctrl =>
    simp only [writeHostReg]
    split
    · exact .inl rfl
    · exact .inr ⟨_, _, _, rfl⟩
  all_goals exact .inr ⟨_, _, _, rfl⟩

/-- What a host move can do: nothing, start a decode, or change configuration registers, `IN` and `OUT` while the
datapath does not run. -/
theorem hostMove_cases (c : HostCmd) (s : State) :
    hostMove c s = s ∨ (s.phase ≠ .run ∧ hostMove c s = startDecode s) ∨
    (s.phase ≠ .run ∧ ∃ l b o i m, hostMove c s =
      { s with cfgInLen := l, cfgStartBit := b, cfgOutCap := o, inMem := i, outMem := m }) := by
  by_cases h : s.phase = .run
  · exact .inl (hostMove_running c h)
  · cases c with
    | writeReg r v =>
      rw [hostMove_writeReg r v h]
      obtain e | ⟨l, b, o, e⟩ := writeHostReg_cases r v s
      · exact .inr (.inl ⟨h, e⟩)
      · exact .inr (.inr ⟨h, l, b, o, s.inMem, s.outMem, e⟩)
    | writeIn a b => exact .inr (.inr ⟨h, _, _, _, _, _, hostMove_writeIn a b h⟩)
    | writeOut a b => exact .inr (.inr ⟨h, _, _, _, _, _, hostMove_writeOut a b h⟩)

/-! ### The last-distance ring -/

@[simp] theorem push_idx (h : DistRing) (d : Nat) : (h.push d).idx = h.idx + 1 := by
  unfold DistRing.push
  split_ifs <;> rfl

/-- A push writes the slot of the old index and no other. -/
theorem push_slot (h : DistRing) (d : Nat) (i : BitVec 2) :
    (h.push d).slot i = if i = h.idx then d else h.slot i := by
  obtain ⟨d0, d1, d2, d3, idx⟩ := h
  have hidx : idx = 0 ∨ idx = 1 ∨ idx = 2 ∨ idx = 3 := by revert idx; decide
  have hi : i = 0 ∨ i = 1 ∨ i = 2 ∨ i = 3 := by revert i; decide
  obtain rfl | rfl | rfl | rfl := hidx <;> obtain rfl | rfl | rfl | rfl := hi <;> rfl

/-- A push makes its distance the last one and moves the others one place back. -/
theorem push_last (h : DistRing) (d : Nat) (k : BitVec 2) :
    (h.push d).last (k + 1) = if k = 0 then d else h.last k := by
  simp only [DistRing.last, push_slot, push_idx, add_sub_add_right_eq_sub, sub_eq_self]

/-! ### The obligations -/

/-- Settles O2: each clause is the branch of `step` for its queue and phase. -/
theorem stepOutsideElements : Obligations.StepOutsideElements := by
  intro s
  exact ⟨fun c rest hq => step_host hq, step_ended,
    fun hq hp hc => (step_run hq hp).trans (runStep_copy hc)⟩

/-- Settles O5: a `1` in bit 0 of `CTRL` makes the pending host move a `startDecode`. -/
theorem startInitialises : Obligations.StartInitialises := by
  intro s v rest hq hp hv
  rw [step_host hq, hostMove_writeReg .ctrl v (s := { s with hostq := rest }) hp]
  simp only [writeHostReg, hv, if_true]
  rfl

/-- Settles O6: a host move is dropped while the datapath runs and is its own write while it does not. -/
theorem hostMoves : Obligations.HostMoves := by
  intro s c rest hq
  rw [step_host hq]
  refine ⟨fun hp => by rw [hostMove_running c (s := { s with hostq := rest }) hp], fun hp => ?_⟩
  have hreg : ∀ r v, hostMove (.writeReg r v) { s with hostq := rest } = writeHostReg r v { s with hostq := rest } :=
    fun r v => hostMove_writeReg r v hp
  refine ⟨?_, ?_, ?_, ?_, ?_, ?_, ?_⟩
  · rintro v rfl; rw [hreg]; rfl
  · rintro v rfl; rw [hreg]; rfl
  · rintro v rfl; rw [hreg]; rfl
  · rintro v rfl hv
    rw [hreg]
    simp only [writeHostReg, hv, Bool.false_eq_true, if_false]
  · rintro v (rfl | rfl | rfl | rfl) <;> rw [hreg] <;> rfl
  · rintro a b rfl hwf
    rw [hostMove_writeIn a b (s := { s with hostq := rest }) hp]
    exact ⟨_, rfl, rfl, memRead_memWrite hwf a.toNat b⟩
  · rintro a b rfl hwf
    rw [hostMove_writeOut a b (s := { s with hostq := rest }) hp]
    exact ⟨_, rfl, rfl, memRead_memWrite hwf a.toNat b⟩

/-- Settles O7: the status registers are views of `err`, `phase`, `pos` and `bitpos`, cut to their widths. -/
theorem hostViews : Obligations.HostViews := by
  intro s
  refine ⟨?_, ?_, rfl, fun hpos => ?_, fun hbit => ?_, ?_, rfl, ?_⟩
  · simp only [hostRead, statusReg]
    cases s.err <;> rfl
  · simp only [hostRead, busyReg, busy, beq_iff_eq]
    split <;> rfl
  · simp only [hostRead, bytesWrittenReg]
    rw [BitVec.toNat_setWidth_of_le (by decide), BitVec.toNat_ofNat, Nat.mod_eq_of_lt hpos]
  · simp only [hostRead, bitPosReg]
    rw [BitVec.toNat_ofNat, Nat.mod_eq_of_lt hbit]
  · simp only [hostRead]
    rw [BitVec.toNat_setWidth_of_le (by decide)]
  · simp only [hostRead]
    rw [BitVec.toNat_setWidth_of_le (by decide)]

/-- Settles O8, by induction on the number of steps. -/
theorem endedDecodeStays : Obligations.EndedDecodeStays := by
  intro s k hq hp
  induction k with
  | zero => rfl
  | succ k ih =>
    have hstep : Sys2Proof.core.step s = .next s := step_ended hq hp
    simp only [Host.Core.run, hstep, ih]

/-- Settles O30: each use of a code has its own arm of `storeCode`. -/
theorem codesStored : Obligations.CodesStored := by
  intro s T
  refine ⟨fun c => rfl, fun c => rfl, fun m r => rfl, ?_, ?_, fun h => ?_, fun h => ?_⟩
  · simp only [storeCode, List.length_append, List.length_singleton]
    split <;> rfl
  · simp only [storeCode, List.length_append, List.length_singleton]
    split <;> rfl
  · simp only [storeCode, List.length_append, List.length_singleton, if_pos h]
    rfl
  · simp only [storeCode, List.length_append, List.length_singleton, if_neg (Nat.not_lt.2 h)]

/-- Settles O36: both operations test the same two registers of the category. -/
theorem blockSwitchWhenDue : Obligations.BlockSwitchWhenDue := by
  intro s c
  refine ⟨fun h2 h0 => if_pos ⟨h2, h0⟩, fun h => ?_, fun h2 => if_pos h2, fun h => if_neg (Nat.not_le.2 h)⟩
  have hnot : ¬ (2 ≤ (s.block c).numTypes ∧ (s.block c).blockLen = 0) := by
    rintro ⟨h2, h0⟩
    exact h.elim (Nat.not_lt.2 h2) (Nat.ne_of_gt · h0)
  rw [enterSym, if_neg hnot]
  cases c <;> rfl

/-- Settles O45: the four distances are the instances `k = 0, 1, 2, 3` of `push_last`. -/
theorem pushShiftsTheDistances : Obligations.PushShiftsTheDistances := by
  refine ⟨fun h d => ⟨?_, ?_, ?_, ?_⟩, rfl, rfl, rfl, rfl⟩
  · exact push_last h d 0
  · exact push_last h d 1
  · exact push_last h d 2
  · exact push_last h d 3

/-- Settles O52: at reset the memories are canonical and no decode runs. -/
theorem machineInvAtReset : Obligations.MachineInvAtReset := by
  refine ⟨reset_memoriesWf, ?_, fun h => ?_⟩
  · exact ⟨fun h => (by cases h), fun h => absurd rfl h⟩
  · cases h

end Sys2Proof.Machine
end

section
/-! What a move of a running decode leaves unchanged: the footprint of a move, and what follows from it for the
memories, the output and the registers that few elements write. -/

namespace Sys2Proof.Machine

/-! ### `is_last` through the header's operations -/

@[simp] theorem setBlock_isLast (m : MetaBlock) (c : Cat) (b : BlockState) : (m.setBlock c b).isLast = m.isLast := by
  cases c <;> rfl

@[simp] theorem countDown_isLast (c : Cat) (s : State) : (countDown c s).mb.isLast = s.mb.isLast := by
  unfold countDown; split <;> simp

@[simp] theorem storeMap_isLast (m : MapSel) (l : List Nat) (s : State) : (storeMap m l s).mb.isLast = s.mb.isLast := by
  cases m <;> rfl

@[simp] theorem enterMap_isLast (m : MapSel) (s : State) : (enterMap m s).mb.isLast = s.mb.isLast := by
  unfold enterMap; split <;> simp

@[simp] theorem storeCount_isLast (u : CountUse) (v : Nat) (s : State) :
    (storeCount u v s).mb.isLast = s.mb.isLast := by
  cases u with
  | blockTypes c => simp only [storeCount, storeBlockTypes]; split <;> simp
  | treesL => simp [storeCount]
  | treesD => simp [storeCount]

@[simp] theorem storeBlockLen_isLast (c : Cat) (sw : Bool) (n : Nat) (s : State) :
    (storeBlockLen c sw n s).mb.isLast = s.mb.isLast := by
  unfold storeBlockLen; split <;> simp

@[simp] theorem storeCode_isLast (u : CodeUse) (T : Code) (s : State) : (storeCode u T s).mb.isLast = s.mb.isLast := by
  cases u with
  | btype c => exact setBlock_isLast _ _ _
  | bcount c => exact setBlock_isLast _ _ _
  | cmap m r => rfl
  | lit => simp only [storeCode]; split <;> rfl
  | iac => simp only [storeCode]; split <;> rfl
  | dist => simp only [storeCode]; split <;> simp

@[simp] theorem nextLength_isLast (u : CodeUse) (T : Code) (st : LenLocals) (s : State) :
    (nextLength u T st s).mb.isLast = s.mb.isLast := by
  unfold nextLength
  split
  · rfl
  · split <;> simp

@[simp] theorem applyRepeat_isLast (u : CodeUse) (T : Code) (st : LenLocals) (l k x : Nat) (s : State) :
    (applyRepeat u T st l k x s).mb.isLast = s.mb.isLast := by
  unfold applyRepeat; split <;> simp

@[simp] theorem nextClEntry_isLast (u : CodeUse) (st : ClLocals) (s : State) :
    (nextClEntry u st s).mb.isLast = s.mb.isLast := by
  unfold nextClEntry
  split
  · split <;> simp
  · rfl

@[simp] theorem finishSymbols_isLast (u : CodeUse) (syms : List Nat) (bad : Bool) (s : State) :
    (finishSymbols u syms bad s).mb.isLast = s.mb.isLast := by
  unfold finishSymbols simpleCode
  split
  · rfl
  · split <;> simp

/-! ### What a list of output bytes leaves unchanged -/

theorem putBytes_frame (bs : List Byte) (s : State) :
    putBytes bs s = { s with
      outMem := (putBytes bs s).outMem, ring := (putBytes bs s).ring, p1 := (putBytes bs s).p1
      p2 := (putBytes bs s).p2, pos := s.pos + bs.length } := by
  obtain ⟨o, r, q1, q2, h⟩ := putBytes_eq bs s
  rw [h]

@[simp] theorem putBytes_pos (bs : List Byte) (s : State) : (putBytes bs s).pos = s.pos + bs.length := by
  rw [putBytes_frame]
@[simp] theorem putBytes_hostq (bs : List Byte) (s : State) : (putBytes bs s).hostq = s.hostq := by rw [putBytes_frame]
@[simp] theorem putBytes_phase (bs : List Byte) (s : State) : (putBytes bs s).phase = s.phase := by rw [putBytes_frame]
@[simp] theorem putBytes_err (bs : List Byte) (s : State) : (putBytes bs s).err = s.err := by rw [putBytes_frame]
@[simp] theorem putBytes_bitpos (bs : List Byte) (s : State) : (putBytes bs s).bitpos = s.bitpos := by
  rw [putBytes_frame]
@[simp] theorem putBytes_wbits (bs : List Byte) (s : State) : (putBytes bs s).wbits = s.wbits := by rw [putBytes_frame]
@[simp] theorem putBytes_maxBackward (bs : List Byte) (s : State) : (putBytes bs s).maxBackward = s.maxBackward := by
  rw [putBytes_frame]
@[simp] theorem putBytes_hist (bs : List Byte) (s : State) : (putBytes bs s).hist = s.hist := by rw [putBytes_frame]
@[simp] theorem putBytes_inMem (bs : List Byte) (s : State) : (putBytes bs s).inMem = s.inMem := by rw [putBytes_frame]
@[simp] theorem putBytes_rom (bs : List Byte) (s : State) : (putBytes bs s).rom = s.rom := by rw [putBytes_frame]
@[simp] theorem putBytes_mb (bs : List Byte) (s : State) : (putBytes bs s).mb = s.mb := by rw [putBytes_frame]
@[simp] theorem putBytes_cmd (bs : List Byte) (s : State) : (putBytes bs s).cmd = s.cmd := by rw [putBytes_frame]
@[simp] theorem putBytes_cfgInLen (bs : List Byte) (s : State) : (putBytes bs s).cfgInLen = s.cfgInLen := by
  rw [putBytes_frame]
@[simp] theorem putBytes_cfgStartBit (bs : List Byte) (s : State) : (putBytes bs s).cfgStartBit = s.cfgStartBit := by
  rw [putBytes_frame]
@[simp] theorem putBytes_cfgOutCap (bs : List Byte) (s : State) : (putBytes bs s).cfgOutCap = s.cfgOutCap := by
  rw [putBytes_frame]

/-- R146: a list of output bytes writes the addresses from `pos` on, one for each byte. -/
theorem putBytes_out_outside (bs : List Byte) (s : State) (h : s.outMem.wf = true) {a : Nat}
    (ha : a < s.pos ∨ s.pos + bs.length ≤ a) : memRead (putBytes bs s).outMem a = memRead s.outMem a := by
  induction bs generalizing s with
  | nil => rfl
  | cons b bs ih =>
    have hlen : (b :: bs).length = bs.length + 1 := List.length_cons
    calc memRead (putBytes bs (putByte b s)).outMem a
        = memRead (putByte b s).outMem a := ih (putByte b s) (memWrite_wf h _ _) (by simp only [putByte_pos]; omega)
      _ = memRead s.outMem a := by
        have hne : a ≠ s.pos := by omega
        exact (memRead_memWrite h s.pos b a).trans (if_neg hne)

/-! ### The footprint of a move -/

/-- `is_last` is written at `ISLAST` only. -/
def KeepsIsLast (s : State) (m : MetaBlock) : Prop := m.isLast ≠ s.mb.isLast → s.ctl = .isLast

/-- What a move of a running decode can change (R21 to R31): the cursor, the control point, the meta-block and the
command registers by every move, `err` and `phase` when it ends the decode, the window registers at the window field,
and the output registers at a literal or a copy. -/
inductive Footprint (s : State) : State → Prop
  | goes (b : Nat) (k : Ctl) (m : MetaBlock) (c : CmdRegs) : s.ctl ≠ .window → s.bitpos ≤ b → b ≤ endBit s →
      KeepsIsLast s m →
      Footprint s { s with bitpos := b, ctl := k, mb := m, cmd := c }
  | ends (e : ErrKind) (b : Nat) (m : MetaBlock) (c : CmdRegs) : e ≠ .ok → s.bitpos ≤ b →
      b = s.bitpos ∨ b ≤ endBit s → KeepsIsLast s m →
      Footprint s { s with bitpos := b, mb := m, cmd := c, err := e, phase := .done }
  | window (w n : Nat) : s.ctl = .window → Fits n s → 10 ≤ w → w ≤ 24 → Footprint s (setWindow w (advance n s))
  | byte (x : Byte) (b : Nat) (k : Ctl) (m : MetaBlock) (c : CmdRegs) : s.ctl = .lit → s.bitpos ≤ b → b ≤ endBit s →
      s.pos < s.cfgOutCap.toNat → m.isLast = s.mb.isLast →
      Footprint s { putByte x s with bitpos := b, ctl := k, mb := m, cmd := c }
  | abortCopy (h : DistRing) : s.ctl = .copy → PushedHist s h → Footprint s (raise .syntaxError { s with hist := h })
  | copy (h : DistRing) (bs : List Byte) (k : Ctl) : s.ctl = .copy → PushedHist s h →
      s.pos + bs.length ≤ s.cfgOutCap.toNat → Footprint s (goto k (putBytes bs { s with hist := h }))

variable {s t : State} {n : Nat}

theorem KeepsIsLast.of_eq {m : MetaBlock} (h : m.isLast = s.mb.isLast) : KeepsIsLast s m := fun hne => absurd h hne

/-- An element that reads `n` bits and writes meta-block and command registers. -/
theorem Footprint.of_fits (hw : s.ctl ≠ .window) (hn : Fits n s) (k : Ctl) (m : MetaBlock) (c : CmdRegs)
    (hl : m.isLast = s.mb.isLast) : Footprint s { advance n s with ctl := k, mb := m, cmd := c } :=
  .goes (s.bitpos + n) k m c hw (Nat.le_add_right _ _) hn (.of_eq hl)

theorem Footprint.of_goto (hw : s.ctl ≠ .window) (hn : Fits n s) (k : Ctl) : Footprint s (goto k (advance n s)) :=
  .of_fits hw hn k s.mb s.cmd rfl

/-- An element whose continuation writes the control point and the meta-block registers. -/
theorem Footprint.of_header (hw : s.ctl ≠ .window) (hn : Fits n s) (hl : t.mb.isLast = s.mb.isLast)
    (h : ∃ k b, t = { advance n s with ctl := k, mb := b }) : Footprint s t := by
  obtain ⟨k, b, rfl⟩ := h
  exact .of_fits hw hn k b s.cmd hl

theorem Footprint.of_raise {e : ErrKind} (he : e ≠ .ok) (hn : n = 0 ∨ Fits n s) :
    Footprint s (raise e (advance n s)) :=
  .ends e (s.bitpos + n) s.mb s.cmd he (Nat.le_add_right _ _)
    (hn.imp (fun h => by rw [h, Nat.add_zero]) id) (.of_eq rfl)

/-- An element whose continuation may also raise `huffman_length_error`. -/
theorem Footprint.of_code (hw : s.ctl ≠ .window) (hn : Fits n s) (hl : t.mb.isLast = s.mb.isLast)
    (h : (∃ k b, t = { advance n s with ctl := k, mb := b }) ∨ t = raise .huffmanLengthError (advance n s)) :
    Footprint s t := by
  obtain h | rfl := h
  · exact .of_header hw hn hl h
  · exact .of_raise (by decide) (.inr hn)

/-- A state with its category's count taken. -/
theorem countDown_frame (c : Cat) (s : State) : countDown c s = { s with mb := (countDown c s).mb } := by
  obtain ⟨_, h⟩ := countDown_eq c s
  rw [h]

theorem storeMlen_header (v : Nat) (s : State) : ∃ k b, storeMlen v s = { s with ctl := k, mb := b } := by
  unfold storeMlen; dsimp only; split <;> exact ⟨_, _, rfl⟩

theorem storeMlen_isLast (v : Nat) (s : State) : (storeMlen v s).mb.isLast = s.mb.isLast := by
  unfold storeMlen; dsimp only; split <;> rfl

/-- The state in which a distance symbol has been read differs in the cursor, the counts and the command registers. -/
theorem readDistance_frame (n d : Nat) (s : State) :
    readDistance n d s = { advance n s with mb := (readDistance n d s).mb, cmd := (readDistance n d s).cmd } := by
  have h := countDown_frame .distance s
  generalize (countDown .distance s).mb = m at h
  simp only [readDistance, countDistance, h]
  rfl

theorem readDistance_isLast (n d : Nat) (s : State) : (readDistance n d s).mb.isLast = s.mb.isLast :=
  countDown_isLast .distance s

/-- A distance symbol that writes the control point and the command registers after it is read. -/
theorem Footprint.of_distance (hc : s.ctl = .dist) (hn : Fits n s) (d : Nat) (k : Ctl) (c : CmdRegs) :
    Footprint s { readDistance n d s with ctl := k, cmd := c } := by
  rw [readDistance_frame]
  exact .of_fits (by simp [hc]) hn k (readDistance n d s).mb c (readDistance_isLast n d s)

/-- A literal that fits. -/
theorem literal_footprint (b : Byte) (hc : s.ctl = .lit) (hn : Fits n s) (hcap : s.pos < s.cfgOutCap.toNat) :
    Footprint s (nextInsert (countLiteral (putByte b (advance n (countDown .literal s))))) := by
  have hd := countDown_frame .literal s
  have hl := countDown_isLast .literal s
  generalize (countDown .literal s).mb = m at hd hl
  rw [hd]
  obtain ⟨k, c, h⟩ := nextInsert_eq (countLiteral (putByte b (advance n { s with mb := m })))
  rw [h]
  exact .byte b (s.bitpos + n) k m c hc (Nat.le_add_right _ _) hn hcap hl

/-- Every move stays within the footprint. -/
theorem RunMove.footprint (h : RunMove s t) : Footprint s t := by
  cases h with
  | abort e k he hk => exact .of_raise he hk
  | window w n hc hn hlo hhi => exact .window w n hc hn hlo hhi
  | notLast hc hn => exact .goes (s.bitpos + 1) _ _ s.cmd (by simp [hc]) (Nat.le_add_right _ _) hn fun _ => hc
  | last hc hn => exact .goes (s.bitpos + 1) _ _ s.cmd (by simp [hc]) (Nat.le_add_right _ _) hn fun _ => hc
  | notEmpty hc hn | empty hc hn | nibbles _ hc hn | nibble _ _ _ _ hc hn | countMore _ _ hc hn | noRuns _ hc hn
  | runs _ hc hn | rleMax _ _ hc hn | mapRun _ _ _ _ _ _ hc hn | simple _ hc hn | complex _ _ hc hn
  | symbolCount _ _ hc hn | symbol _ _ _ _ _ _ _ hc hn | repeatPrev _ _ _ _ hc hn | repeatZero _ _ _ _ hc hn
  | blockCount _ _ _ _ hc hn => exact .of_goto (by simp [hc]) hn _
  | lastNibble j m v x hc hn =>
    exact .of_header (by simp [hc]) hn (storeMlen_isLast _ _) (storeMlen_header _ _)
  | compressed hc hn => exact .of_fits (by simp [hc]) hn _ _ s.cmd rfl
  | count u v n hc hn => exact .of_header (by simp [hc]) hn (by simp) (storeCount_eq u v _)
  | countExtra u v1 x hc hn => exact .of_header (by simp [hc]) hn (by simp) (storeCount_eq u _ _)
  | npostfix v hc hn => exact .of_fits (by simp [hc]) hn _ _ s.cmd rfl
  | ndirect v hc hn => exact .of_fits (by simp [hc]) hn _ _ s.cmd rfl
  | mode m hc hn => exact .of_fits (by simp [hc]) hn _ _ s.cmd rfl
  | mapEntry m r T acc e n hc hn =>
    refine .of_header (by simp [hc]) hn (by simp) ?_
    unfold nextMapEntry; split <;> exact ⟨_, s.mb, rfl⟩
  | mapZeros m r T acc k run hc hn =>
    refine .of_header (by simp [hc]) hn (by simp) ?_
    unfold nextMapEntry; split <;> exact ⟨_, s.mb, rfl⟩
  | mapRead m acc entries hc hn => exact .of_header (by simp [hc]) hn (by simp) (storeMap_eq m _ _)
  | lastSymbol u nsym syms bad bad' v n hc hn => exact .of_code (by simp [hc]) hn (by simp) (finishSymbols_eq u _ _ _)
  | tree u syms lens hc hn => exact .of_header (by simp [hc]) hn (by simp [simpleCode]) (storeCode_eq u _ _)
  | clEntry u st v n hc hn => exact .of_code (by simp [hc]) hn (by simp) (nextClEntry_eq u _ _)
  | length u T st c n hc hn => exact .of_code (by simp [hc]) hn (by simp) (nextLength_eq u T _ _)
  | repeatedPrev u T st x hc hn => exact .of_code (by simp [hc]) hn (by simp) (applyRepeat_eq u T st _ _ _ _)
  | repeatedZero u T st x hc hn => exact .of_code (by simp [hc]) hn (by simp) (applyRepeat_eq u T st _ _ _ _)
  | blockType c t n hc hn => exact .of_fits (by simp [hc]) hn _ _ s.cmd (by simp)
  | blockLen c sw k x n hc hn => exact .of_header (by simp [hc]) hn (by simp) (storeBlockLen_eq c sw _ _)
  | abortCommand hc =>
    rw [countDown_frame]
    exact .ends _ s.bitpos _ s.cmd (by decide) le_rfl (.inl rfl) (.of_eq (by simp))
  | command icode ccode n imp hc hn =>
    rw [countDown_frame]
    exact .of_fits (by simp [hc]) hn _ _ _ (by simp)
  | insertLen icode ccode x n hc hn => exact .of_fits (by simp [hc]) hn _ s.mb _ rfl
  | copyLen ccode x n hc hn =>
    obtain ⟨k, c, h⟩ := nextInsert_eq (setCmd { s.cmd with copyLen := tableBase cpyTable ccode + x } (advance n s))
    rw [h]
    exact .of_fits (by simp [hc]) hn k s.mb c rfl
  | abortLiteral hc =>
    rw [countDown_frame]
    exact .ends _ s.bitpos _ s.cmd (by decide) le_rfl (.inl rfl) (.of_eq (by simp))
  | fullLiteral n hc hn =>
    rw [countDown_frame]
    exact .ends _ (s.bitpos + n) _ s.cmd (by decide) (Nat.le_add_right _ _) (.inr hn) (.of_eq (by simp))
  | literal b n hc hn hcap => exact literal_footprint b hc hn hcap
  | abortDistance hc =>
    have h := countDown_frame .distance s
    simp only [countDistance]
    rw [h]
    exact .ends _ s.bitpos _ _ (by decide) le_rfl (.inl rfl) (.of_eq (by simp))
  | badShort d n hc hn =>
    rw [readDistance_frame]
    exact .ends _ (s.bitpos + n) (readDistance n d s).mb _ (by decide) (Nat.le_add_right _ _) (.inr hn)
      (.of_eq (readDistance_isLast n d s))
  | short d n hc hn => exact .of_distance hc hn d .copy _
  | direct d n hc hn => exact .of_distance hc hn d .copy _
  | ranged d n hc hn => exact .of_distance hc hn d .dextra _
  | rangedExtra x n hc hn => exact .of_fits (by simp [hc]) hn _ s.mb _ rfl
  | abortCopy h hc hh => exact .abortCopy h hc hh
  | copy h bs hc hh hmb hcap =>
    obtain ⟨k, e⟩ := nextCommand_goto (putBytes bs { s with hist := h })
    rw [e]
    exact .copy h bs k hc hh hcap
  | padding n hc hn =>
    exact .ends .endOk (s.bitpos + n) s.mb s.cmd (by decide) (Nat.le_add_right _ _) (.inr hn) (.of_eq rfl)

/-! ### What the footprint says -/

theorem Footprint.memoriesWf (h : Footprint s t) (hs : MemoriesWf s) : MemoriesWf t := by
  obtain ⟨hi, ho, hr, hd⟩ := hs
  cases h with
  | goes | ends | window | abortCopy => exact ⟨hi, ho, hr, hd⟩
  | byte x =>
    obtain ⟨ho', hr'⟩ := putByte_wf x s ho hr
    exact ⟨hi, ho', hr', hd⟩
  | copy h bs k =>
    obtain ⟨ho', hr'⟩ := putBytes_wf bs { s with hist := h } ho hr
    exact ⟨by simpa using hi, ho', hr', by simpa using hd⟩

/-- `phase` leaves RUN for DONE only, and `err` changes exactly then. -/
theorem Footprint.phase_err (h : Footprint s t) :
    (t.phase = s.phase ∧ t.err = s.err) ∨ (t.phase = .done ∧ t.err ≠ .ok) := by
  cases h with
  | goes | window | byte => exact .inl ⟨rfl, rfl⟩
  | copy => exact .inl ⟨by simp, by simp⟩
  | ends e _ _ _ he => exact .inr ⟨rfl, he⟩
  | abortCopy => exact .inr ⟨rfl, nofun⟩

theorem Footprint.output (h : Footprint s t) (hs : s.outMem.wf = true) :
    s.pos ≤ t.pos ∧ ∀ a, a < s.pos ∨ t.pos ≤ a → memRead t.outMem a = memRead s.outMem a := by
  cases h with
  | goes | ends | window | abortCopy => exact ⟨le_rfl, fun _ _ => rfl⟩
  | byte x => exact ⟨Nat.le_succ _, fun a ha => putBytes_out_outside [x] s hs ha⟩
  | copy h bs k =>
    refine ⟨by simp, fun a ha => ?_⟩
    exact putBytes_out_outside bs { s with hist := h } hs (by simpa using ha)

/-! ### The obligations -/

/-- Settles O57: a move writes `OUT` at a literal or a copy only, from `pos` on. -/
theorem outputOnlyAppended : Obligations.OutputOnlyAppended := by
  rintro s t ⟨-, ho, -, -⟩ hq h
  obtain ⟨c, rest, hcons, -⟩ | ⟨-, -, rfl⟩ | ⟨-, -, hm⟩ := step_cases h
  · exact absurd (hcons.symm.trans hq) (List.cons_ne_nil _ _)
  · exact ⟨le_rfl, fun _ _ => rfl⟩
  · exact hm.footprint.output ho

/-- Settles O58: each clause is read off the footprint of the move. -/
theorem registersHaveTheirWriters : Obligations.RegistersHaveTheirWriters := by
  intro s t hq h
  obtain ⟨c, rest, hcons, -⟩ | ⟨-, -, rfl⟩ | ⟨-, hp, hm⟩ := step_cases h
  · exact absurd (hcons.symm.trans hq) (List.cons_ne_nil _ _)
  · simp [hq]
  · have hend := hm.footprint.phase_err.imp id fun he => (⟨hp, he⟩ : s.phase = .run ∧ _)
    cases hm.footprint with
    | goes b k m c _ hb _ hl => exact ⟨hq, rfl, rfl, rfl, rfl, rfl, hb, by simp, hl, by simp, by simp, hend⟩
    | ends e b m c _ hb _ hl => exact ⟨hq, rfl, rfl, rfl, rfl, rfl, hb, by simp, hl, by simp, by simp, hend⟩
    | window w n hc hn => exact ⟨hq, rfl, rfl, rfl, rfl, rfl, by simp, by simp [hc], by simp, by simp, by simp, hend⟩
    | byte x b k m c hc hb _ _ hl =>
      exact ⟨hq, rfl, rfl, rfl, rfl, rfl, hb, by simp, by simp [hl], by simp, by simp [hc], hend⟩
    | abortCopy h hc => exact ⟨hq, rfl, rfl, rfl, rfl, rfl, le_rfl, by simp, by simp, by simp [hc], by simp, hend⟩
    | copy h bs k hc =>
      exact ⟨by simpa using hq, by simp, by simp, by simp, by simp, by simp, by simp, by simp, by simp, by simp [hc],
        by simp [hc], hend⟩

end Sys2Proof.Machine
end

section
/-! The values that the header computes: inverse move-to-front stays below the number of trees, and the length arrays of
simple and complex definitions are codes over their alphabets. -/

namespace Sys2Proof.Machine

/-! ### Inverse move-to-front (R109, R110) -/

theorem inverseMtfFrom_length (mtf m : List Nat) : (inverseMtfFrom mtf m).length = m.length := by
  induction m generalizing mtf with
  | nil => rfl
  | cons k m ih => simp [inverseMtfFrom, ih]

theorem inverseMtf_length (m : List Nat) : (inverseMtf m).length = m.length := inverseMtfFrom_length _ m

/-- Moving the value at a place below `trees` to the front keeps the first `trees` places below `trees`. -/
theorem moveToFront_lt {trees k : Nat} {mtf : List Nat} (hm : ∀ j < trees, mtf.getD j 0 < trees) (hk : k < trees) :
    ∀ j < trees, (mtf.getD k 0 :: mtf.eraseIdx k).getD j 0 < trees := by
  intro j hj
  cases j with
  | zero => exact hm k hk
  | succ j =>
    simp only [List.getD_eq_getElem?_getD, List.getElem?_cons_succ, List.getElem?_eraseIdx]
    split
    · exact List.getD_eq_getElem?_getD ▸ hm j (by omega)
    · exact List.getD_eq_getElem?_getD ▸ hm (j + 1) hj

theorem inverseMtfFrom_lt {trees : Nat} (m mtf : List Nat) (hm : ∀ e ∈ m, e < trees)
    (hmtf : ∀ j < trees, mtf.getD j 0 < trees) : ∀ e ∈ inverseMtfFrom mtf m, e < trees := by
  induction m generalizing mtf with
  | nil => exact fun e he => absurd he List.not_mem_nil
  | cons k m ih =>
    have hk : k < trees := hm k List.mem_cons_self
    intro e he
    obtain rfl | he := List.mem_cons.1 he
    · exact hmtf k hk
    · exact ih _ (fun e he => hm e (List.mem_cons_of_mem _ he)) (moveToFront_lt hmtf hk) e he

theorem inverseMtf_lt {trees : Nat} (ht : trees ≤ 256) (m : List Nat) (hm : ∀ e ∈ m, e < trees) :
    ∀ e ∈ inverseMtf m, e < trees := by
  refine inverseMtfFrom_lt m _ hm fun j hj => ?_
  rw [List.getD_eq_getElem _ _ (by simp; omega), List.getElem_range]
  exact hj

/-! ### Kraft sums (R87) -/

theorem kraftSum_append (L M : List Nat) : kraftSum (L ++ M) = kraftSum L + kraftSum M := by simp [kraftSum]

theorem kraftSum_replicate (n l : Nat) : kraftSum (List.replicate n l) = n * kraftShare l := by simp [kraftSum]

theorem kraftShare_le (l : Nat) : kraftShare l ≤ if 0 < l then 2 ^ 14 else 0 := by
  unfold kraftShare
  split_ifs with h0 h1 h1
  · omega
  · exact Nat.zero_le _
  · exact Nat.pow_le_pow_right (by decide) (by simp only [Config.maxCodeLen]; omega)
  · omega

/-- A codeword takes half the space at most. -/
theorem kraftSum_le_countP (L : List Nat) : kraftSum L ≤ L.countP (0 < ·) * 2 ^ 14 := by
  induction L with
  | nil => rfl
  | cons l L ih =>
    have hl := kraftShare_le l
    have hcons : kraftSum (l :: L) = kraftShare l + kraftSum L := by simp [kraftSum]
    rw [hcons, List.countP_cons]
    simp only [decide_eq_true_eq]
    split_ifs at hl ⊢ <;> omega

/-- A length array that fills the space is a code: two symbols at least share it. -/
theorem valid_of_full {A : Nat} {L : List Nat} (hl : L.length = A) (hb : ∀ l ∈ L, l ≤ Config.maxCodeLen)
    (hs : kraftSum L = Config.fullSpace) : (Code.lengths L).valid A = true := by
  have hcount : 2 ≤ L.countP (0 < ·) := by
    have := kraftSum_le_countP L
    rw [hs] at this
    simp only [Config.fullSpace] at this
    omega
  simp only [Code.valid, Bool.and_eq_true, beq_iff_eq, List.all_eq_true, decide_eq_true_eq]
  exact ⟨⟨⟨hl, hb⟩, hs⟩, hcount⟩

/-- Writing an entry that took no share adds the new entry's share. -/
theorem sum_map_set (f : Nat → Nat) (L : List Nat) (i v : Nat) (hi : i < L.length) (h0 : f (L.getD i 0) = 0) :
    ((L.set i v).map f).sum = (L.map f).sum + f v := by
  induction L generalizing i with
  | nil => exact absurd hi (Nat.not_lt_zero i)
  | cons l L ih =>
    cases i with
    | zero =>
      have hl : f l = 0 := h0
      simp [hl, Nat.add_comm]
    | succ i =>
      have := ih i (Nat.lt_of_succ_lt_succ hi) h0
      simp only [List.set_cons_succ, List.map_cons, List.sum_cons]
      omega

/-! ### Simple definitions (R93) -/

/-- The array that a list of distinct symbols and lengths writes over an array with no length at those symbols. -/
theorem foldl_set_facts (es : List (Nat × Nat)) (L : List Nat) (hn : (es.map (·.1)).Nodup)
    (he : ∀ e ∈ es, e.1 < L.length ∧ L.getD e.1 0 = 0) :
    (es.foldl (fun L e => L.set e.1 e.2) L).length = L.length ∧
    kraftSum (es.foldl (fun L e => L.set e.1 e.2) L) = kraftSum L + kraftSum (es.map (·.2)) ∧
    ∀ l ∈ es.foldl (fun L e => L.set e.1 e.2) L, l ∈ L ∨ l ∈ es.map (·.2) := by
  induction es generalizing L with
  | nil => simp [kraftSum]
  | cons e es ih =>
    obtain ⟨hnot, hn⟩ := List.nodup_cons.1 hn
    obtain ⟨hlt, h0⟩ := he e List.mem_cons_self
    have hrest : ∀ e' ∈ es, e'.1 < (L.set e.1 e.2).length ∧ (L.set e.1 e.2).getD e'.1 0 = 0 := by
      intro e' hmem
      obtain ⟨hlt', h0'⟩ := he e' (List.mem_cons_of_mem _ hmem)
      have hne : e.1 ≠ e'.1 := fun h => hnot (List.mem_map.2 ⟨e', hmem, h.symm⟩)
      refine ⟨by simpa using hlt', ?_⟩
      rw [List.getD_eq_getElem?_getD, List.getElem?_set_ne hne, ← List.getD_eq_getElem?_getD]
      exact h0'
    obtain ⟨hlen, hsum, hmem⟩ := ih (L.set e.1 e.2) hn hrest
    have hset : kraftSum (L.set e.1 e.2) = kraftSum L + kraftShare e.2 :=
      sum_map_set kraftShare L e.1 e.2 hlt (by rw [h0]; rfl)
    refine ⟨hlen.trans List.length_set, ?_, fun l hl => ?_⟩
    · simp only [List.foldl_cons, hsum, hset]
      simp only [kraftSum, List.map_cons, List.sum_cons]
      omega
    · obtain h | h := hmem l hl
      · obtain h | rfl := List.mem_or_eq_of_mem_set h
        · exact .inl h
        · exact .inr List.mem_cons_self
      · exact .inr (List.mem_cons_of_mem _ h)

/-- R93: distinct symbols of the alphabet with lengths that fill the space are a code. -/
theorem listedLens_valid {A : Nat} {syms lens : List Nat} (hs : SymsOk A syms) (hl : lens.length = syms.length)
    (hb : ∀ l ∈ lens, l ≤ Config.maxCodeLen) (hfull : kraftSum lens = Config.fullSpace) :
    (Code.lengths (listedLens A syms lens)).valid A = true := by
  obtain ⟨hnodup, hlt⟩ := hs
  have hfst : (syms.zip lens).map (·.1) = syms := List.map_fst_zip hl.ge
  have hsnd : (syms.zip lens).map (·.2) = lens := List.map_snd_zip hl.le
  obtain ⟨hlen, hsum, hmem⟩ := foldl_set_facts (syms.zip lens) (List.replicate A 0) (by rwa [hfst]) fun e he => by
    have : e.1 < A := hlt _ (hfst ▸ List.mem_map_of_mem (f := (·.1)) he)
    exact ⟨by simpa using this, by simp [this]⟩
  rw [hsnd] at hsum hmem
  refine valid_of_full (hlen.trans List.length_replicate) (fun l h => ?_) ?_
  · obtain h | h := hmem l h
    · rw [List.eq_of_mem_replicate h]; exact Nat.zero_le _
    · exact hb l h
  · show kraftSum (List.foldl _ _ _) = _
    rw [hsum, kraftSum_replicate, hfull]
    simp [kraftShare]

/-! ### The code-length code (R94) -/

/-- R94: what an entry of the code-length code keeps, whether or not the loop goes on. -/
structure ClLocals.Sound (st : ClLocals) : Prop where
  length : st.cl.length = Config.clAlphabet
  bound : ∀ l ∈ st.cl, l ≤ 5
  space : st.space + ((st.cl.map clShare).sum : Nat) = (Config.clSpace : Int)
  num : st.num = st.cl.countP (0 < ·)
  rest : ∀ k ∈ clOrder.drop st.i, st.cl.getD k 0 = 0

theorem ClLocals.ok_iff (st : ClLocals) : st.Ok ↔ st.Sound ∧ st.i < 18 ∧ 0 < st.space := by
  constructor
  · rintro ⟨hi, hl, hb, hpos, hsp, hn, hr⟩
    exact ⟨⟨hl, hb, hsp, hn, hr⟩, hi, hpos⟩
  · rintro ⟨⟨hl, hb, hsp, hn, hr⟩, hi, hpos⟩
    exact ⟨hi, hl, hb, hpos, hsp, hn, hr⟩

theorem ClLocals.start_ok {k : Nat} (hk : k < 4) : (ClLocals.start k).Ok := by
  interval_cases k <;> exact ⟨by decide, rfl, by decide, by decide, rfl, rfl, by decide⟩

theorem ClLocals.take_sound {st : ClLocals} (h : st.Ok) {v : Nat} (hv : v ≤ 5) : (st.take v).Sound := by
  obtain ⟨hs, hi, -⟩ := st.ok_iff.1 h
  have hget : clOrder.getD st.i 0 = clOrder[st.i]'hi := List.getD_eq_getElem _ _ hi
  have hdrop : clOrder.drop st.i = clOrder[st.i]'hi :: clOrder.drop (st.i + 1) := List.drop_eq_getElem_cons hi
  have hnodup : (clOrder.drop st.i).Nodup := (by decide : clOrder.Nodup).sublist (List.drop_sublist _ _)
  have hlt : clOrder[st.i]'hi < st.cl.length := by
    rw [hs.length]
    exact (by decide : ∀ k ∈ clOrder, k < Config.clAlphabet) _ (List.getElem_mem hi)
  have hold : st.cl.getD (clOrder[st.i]'hi) 0 = 0 := hs.rest _ (hdrop ▸ List.mem_cons_self)
  have hold' : st.cl[clOrder[st.i]'hi]'hlt = 0 := by rwa [List.getD_eq_getElem _ _ hlt] at hold
  refine ⟨?_, ?_, ?_, ?_, ?_⟩ <;> simp only [ClLocals.take, hget]
  · simpa using hs.length
  · intro l hl
    obtain hl | rfl := List.mem_or_eq_of_mem_set hl
    · exact hs.bound l hl
    · exact hv
  · have hsum := sum_map_set clShare st.cl _ v hlt (by rw [hold]; rfl)
    have hsp := hs.space
    rw [hsum]
    unfold clShare at hsum hsp ⊢
    split_ifs <;> omega
  · rw [List.countP_set hlt, hold', hs.num]
    by_cases h0 : v = 0
    · simp [h0]
    · simp [h0, Nat.pos_of_ne_zero h0]
  · intro k hk
    rw [hdrop] at hnodup
    have hne : clOrder[st.i]'hi ≠ k := fun h => (List.nodup_cons.1 hnodup).1 (h ▸ hk)
    rw [List.getD_eq_getElem?_getD, List.getElem?_set_ne hne, ← List.getD_eq_getElem?_getD]
    exact hs.rest k (hdrop ▸ List.mem_cons_of_mem _ hk)

theorem ClLocals.Sound.ok {st : ClLocals} (h : st.Sound) (hf : ¬ st.finished = true) : st.Ok := by
  simp only [ClLocals.finished, Bool.or_eq_true, decide_eq_true_eq, not_or, not_le] at hf
  exact st.ok_iff.2 ⟨h, hf.2, hf.1⟩

/-- The Kraft space of the code-length code is the 1024th part of the full space. -/
theorem kraftSum_eq_clShares {L : List Nat} (hb : ∀ l ∈ L, l ≤ 5) : kraftSum L = 1024 * (L.map clShare).sum := by
  induction L with
  | nil => rfl
  | cons l L ih =>
    have hl : l ≤ 5 := hb l List.mem_cons_self
    have hshare : kraftShare l = 1024 * clShare l := by interval_cases l <;> rfl
    have hrest := ih fun l hl => hb l (List.mem_cons_of_mem _ hl)
    simp only [kraftSum, List.map_cons, List.sum_cons] at hrest ⊢
    rw [hrest, hshare, Nat.mul_add]

theorem ClLocals.Sound.code_valid {st : ClLocals} (h : st.Sound) {T : Code} (hT : st.code = some T) :
    T.valid Config.clAlphabet = true := by
  unfold ClLocals.code at hT
  split_ifs at hT with hone hfull <;> cases hT
  · have hex : ∃ l ∈ st.cl, decide (l ≠ 0) = true := by
      have hpos : 0 < st.cl.countP (0 < ·) := by rw [← h.num, hone]; decide
      obtain ⟨l, hl, hl0⟩ := List.countP_pos_iff.1 hpos
      exact ⟨l, hl, by simpa [Nat.pos_iff_ne_zero] using hl0⟩
    have hlt := List.findIdx_lt_length_of_exists hex
    rw [h.length] at hlt
    exact decide_eq_true hlt
  · refine valid_of_full h.length (fun l hl => (h.bound l hl).trans (by decide)) ?_
    have hsp := h.space
    have : (st.cl.map clShare).sum = Config.clSpace := by omega
    rw [kraftSum_eq_clShares h.bound, this]
    rfl

/-! ### Symbol lengths (R95) -/

/-- R95: what a symbol of the length array keeps, whether or not the loop goes on. -/
structure LenLocals.Sound (A : Nat) (st : LenLocals) : Prop where
  length : st.lens.length ≤ A
  bound : ∀ l ∈ st.lens, l ≤ Config.maxCodeLen
  space : st.space + (kraftSum st.lens : Int) = (Config.fullSpace : Int)
  prev : 1 ≤ st.prev ∧ st.prev ≤ Config.maxCodeLen
  replen : st.replen ≤ Config.maxCodeLen
  rep : st.rep = 0 ∨ 3 ≤ st.rep

theorem LenLocals.ok_iff (A : Nat) (st : LenLocals) : st.Ok A ↔ st.Sound A ∧ st.lens.length < A ∧ 0 < st.space := by
  constructor
  · rintro ⟨hl, hb, hpos, hsp, hp1, hp2, hr, hrep⟩
    exact ⟨⟨hl.le, hb, hsp, ⟨hp1, hp2⟩, hr, hrep⟩, hl, hpos⟩
  · rintro ⟨⟨-, hb, hsp, ⟨hp1, hp2⟩, hr, hrep⟩, hl, hpos⟩
    exact ⟨hl, hb, hpos, hsp, hp1, hp2, hr, hrep⟩

theorem LenLocals.start_sound (A : Nat) : LenLocals.start.Sound A :=
  ⟨Nat.zero_le _, by simp [LenLocals.start], rfl, by decide, by decide, .inl rfl⟩

theorem LenLocals.takeLength_sound {A : Nat} {st : LenLocals} (h : st.Ok A) {c : Nat} (hc : c ≤ Config.maxCodeLen) :
    (st.takeLength c).Sound A := by
  obtain ⟨hs, hlt, -⟩ := (st.ok_iff A).1 h
  have hshare : (if c = 0 then 0 else Config.fullSpace >>> c) = kraftShare c := by
    simp only [Config.maxCodeLen] at hc
    interval_cases c <;> rfl
  refine ⟨?_, ?_, ?_, ?_, hs.replen, .inl rfl⟩ <;> simp only [LenLocals.takeLength]
  · simpa using hlt
  · exact List.forall_mem_append.2 ⟨hs.bound, List.forall_mem_singleton.2 hc⟩
  · have hsum : kraftSum (st.lens ++ [c]) = kraftSum st.lens + kraftShare c := by simp [kraftSum]
    have hsp := hs.space
    rw [hsum]
    split_ifs at hshare ⊢ <;> omega
  · split_ifs
    · exact hs.prev
    · exact ⟨by omega, hc⟩

theorem LenLocals.takeRepeat_sound {A : Nat} {st st' : LenLocals} (h : st.Ok A) {l k x : Nat}
    (hl : l ≤ Config.maxCodeLen) (ht : st.takeRepeat A l k x = some st') : st'.Sound A := by
  obtain ⟨hs, -, -⟩ := (st.ok_iff A).1 h
  simp only [LenLocals.takeRepeat] at ht
  generalize (if st.replen = l then st.rep else 0) = old at ht
  have htotal : 3 ≤ repeatTotal old k x := Nat.le_add_left _ _
  generalize repeatTotal old k x = rep at ht htotal
  generalize rep - old = n at ht
  by_cases hover : A < st.lens.length + n
  · rw [if_pos hover] at ht
    cases ht
  rw [if_neg hover] at ht
  cases ht
  refine ⟨by simpa using hover, ?_, ?_, hs.prev, hl, .inr htotal⟩
  · exact List.forall_mem_append.2 ⟨hs.bound, fun l' hl' => List.eq_of_mem_replicate hl' ▸ hl⟩
  · have hsum : kraftSum (st.lens ++ List.replicate n l) = kraftSum st.lens + n * kraftShare l := by
      rw [kraftSum_append, kraftSum_replicate]
    have hshare : (if l = 0 then 0 else n <<< (15 - l)) = n * kraftShare l := by
      by_cases h0 : l = 0
      · simp [kraftShare, h0]
      · simp only [kraftShare, h0, if_false]
        exact Nat.shiftLeft_eq _ _
    have hsp := hs.space
    simp only [hsum]
    split_ifs at hshare ⊢ <;> omega

/-- R95: the lengths that fill the space, with no length for the symbols after them, are a code. -/
theorem LenLocals.Sound.padLens_valid {A : Nat} {st : LenLocals} (h : st.Sound A) (h0 : st.space = 0) :
    (Code.lengths (padLens A st.lens)).valid A = true := by
  refine valid_of_full ?_ ?_ ?_
  · have := h.length
    simp only [padLens, List.length_append, List.length_replicate]
    omega
  · exact List.forall_mem_append.2 ⟨h.bound, fun l hl => List.eq_of_mem_replicate hl ▸ Nat.zero_le _⟩
  · have hsp := h.space
    rw [padLens, kraftSum_append, kraftSum_replicate]
    simp only [kraftShare, if_true, Nat.mul_zero, Nat.add_zero]
    omega

end Sys2Proof.Machine
end

section
/-! What each control point promises is kept by every move: one lemma for each continuation of the header and of a
command, then the case analysis over the moves. -/

namespace Sys2Proof.Machine

variable {s t : State}

/-! ### What the promises depend on -/

/-- The cursor is no part of a promise. -/
theorem ctlOk_advance (n : Nat) (s : State) : CtlOk (advance n s) ↔ CtlOk s := by
  cases s; exact Iff.rfl

/-- A header that has been read stays read while the meta-block registers stay and the meta-block is not full. -/
theorem HeaderRead.of_mb (h : HeaderRead s) (hmb : t.mb = s.mb) (hin : InsideMetaBlock t) : HeaderRead t := by
  simp only [HeaderRead, MapsRead, ModesRead, CategoriesRead, DistParams, MapOk, mapTrees, mapSize, State.block, hmb]
    at h ⊢
  tauto

theorem HeaderRead.inside (h : HeaderRead s) : InsideMetaBlock s := by
  obtain ⟨⟨⟨⟨hin, -⟩, -⟩, -⟩, -⟩ := h
  exact hin

/-! ### Categories (R120) -/

/-- A category of one type has all its fields once its count has been read (R34, R120). -/
theorem BlockState.Fresh.ok_of_one {b : BlockState} (h : b.Fresh) :
    ({ b with numTypes := 1, blockLen := Config.hugeBlockLen } : BlockState).Ok :=
  ⟨le_rfl, (by decide : 1 ≤ 256), by simp [h.1], (by decide : Config.hugeBlockLen ≤ 16793840),
    fun h2 => absurd h2 (by decide : ¬ 2 ≤ 1)⟩

theorem AtCategory.fresh {c : Cat} (h : AtCategory c s) : (s.block c).Fresh := by
  obtain ⟨-, -, -, -, hf⟩ := h
  cases c with
  | literal => exact hf.1
  | insertCopy => exact hf.1
  | distance => exact hf

/-- The fields of a category before its block type changes leave the header at the category. -/
theorem AtCategory.setBlock {c : Cat} {b : BlockState} (h : AtCategory c s) (hb : b.Fresh) :
    AtCategory c (setBlock c b s) := by
  obtain ⟨hin, hno, hm, hbef, hfr⟩ := h
  cases c with
  | literal => exact ⟨hin, hno, hm, trivial, hb, hfr.2⟩
  | insertCopy => exact ⟨hin, hno, hm, hbef, hb, hfr.2⟩
  | distance => exact ⟨hin, hno, hm, hbef, hb⟩

/-- The next category comes when the fields of this one have been read (R120, R122). -/
theorem AtCategory.nextCategory_ok {c : Cat} {b : BlockState} (h : AtCategory c s) (hb : b.Ok) :
    CtlOk (nextCategory c (Machine.setBlock c b s)) := by
  obtain ⟨hin, hno, hm, hbef, hfr⟩ := h
  cases c with
  | literal => exact (⟨hin, hno, hm, hb, hfr.2⟩ : AtCategory .insertCopy (Machine.setBlock .literal b s))
  | insertCopy => exact (⟨hin, hno, hm, ⟨hbef, hb⟩, hfr.2⟩ : AtCategory .distance (Machine.setBlock .insertCopy b s))
  | distance => exact ⟨⟨hin, hbef.1, hbef.2, hb⟩, hno, hm⟩

theorem enterBlockInfo_ok (h : InsideMetaBlock s) : CtlOk (enterBlockInfo s) :=
  (⟨h, ⟨rfl, rfl, rfl⟩, rfl, trivial, ⟨rfl, rfl⟩, ⟨rfl, rfl⟩, rfl, rfl⟩ :
    AtCategory .literal (newMetaBlock s))

theorem storeMlen_ok (v : Nat) (s : State) : CtlOk (storeMlen v s) := by
  have hin : s.pos < s.pos + (v + 1) := by omega
  simp only [storeMlen]
  split
  · exact enterBlockInfo_ok hin
  · exact hin

theorem storeBlockTypes_ok {c : Cat} {v : Nat} (h : AtCategory c s) (h1 : 1 ≤ v) (h256 : v ≤ 256) :
    CtlOk (storeBlockTypes c v s) := by
  unfold storeBlockTypes
  split
  · have hat : AtCategory c (setBlock c { s.block c with numTypes := v } s) := h.setBlock h.fresh
    exact ⟨hat, by simpa, by simpa⟩
  · obtain rfl : v = 1 := by omega
    exact h.nextCategory_ok h.fresh.ok_of_one

/-! ### Context maps (R124) -/

theorem storeMap_ok {m : MapSel} {l : List Nat} (hm : ModesRead s) (hno : NoCodes s) (hl : MapOk m l s)
    (hlit : m = .distance → MapOk .literal s.mb.litMap s) : CtlOk (storeMap m l s) := by
  cases m with
  | literal => exact ⟨hm, hno, hl⟩
  | distance =>
    obtain ⟨hlc, hic, hdc⟩ := hno
    refine (⟨⟨hm, hlit rfl, hl⟩, ?_, ?_, hic, hdc⟩ : AtCode .lit { s with mb := { s.mb with distMap := l } })
    · rw [hlc]; exact (hlit rfl).1
    · rw [hlc]; exact fun T hT => absurd hT List.not_mem_nil

theorem enterMap_ok {m : MapSel} (hm : ModesRead s) (hno : NoCodes s) (h1 : 1 ≤ mapTrees m s)
    (h256 : mapTrees m s ≤ 256) (hlit : m = .distance → MapOk .literal s.mb.litMap s) : CtlOk (enterMap m s) := by
  unfold enterMap
  split
  · refine storeMap_ok hm hno ⟨h1, h256, List.length_replicate, fun e he => ?_⟩ hlit
    rw [List.eq_of_mem_replicate he]
    exact h1
  · exact (⟨hm, hno, by omega, h256, hlit⟩ : AtMap m s)

/-- R119, R120, R124: the header is at the count for `u`. -/
def AtCount (u : CountUse) (s : State) : Prop :=
  match u with
  | .blockTypes c => AtCategory c s
  | .treesL => ModesRead s ∧ NoCodes s
  | .treesD => ModesRead s ∧ NoCodes s ∧ MapOk .literal s.mb.litMap s

theorem ctlOk_count {u : CountUse} (hc : s.ctl = .count u) : CtlOk s ↔ AtCount u s := by
  unfold CtlOk; rw [hc]; cases u <;> exact Iff.rfl

theorem ctlOk_countX {u : CountUse} {v1 : Nat} (hc : s.ctl = .countX u v1) :
    CtlOk s ↔ AtCount u s ∧ 1 ≤ v1 ∧ v1 ≤ 7 := by
  unfold CtlOk; rw [hc]; cases u <;> simp only [AtCount, and_assoc]

theorem storeCount_ok {u : CountUse} {v : Nat} (h : AtCount u s) (h1 : 1 ≤ v) (h256 : v ≤ 256) :
    CtlOk (storeCount u v s) := by
  cases u with
  | blockTypes c => exact storeBlockTypes_ok h h1 h256
  | treesL =>
    obtain ⟨hm, hno⟩ := h
    exact enterMap_ok (s := { s with mb := { s.mb with ntreesL := v } }) hm hno h1 h256 nofun
  | treesD =>
    obtain ⟨hm, hno, hlit⟩ := h
    exact enterMap_ok (s := { s with mb := { s.mb with ntreesD := v } }) hm hno h1 h256 fun _ => hlit

theorem AtMap.two_le_trees {m : MapSel} (h : AtMap m s) : 2 ≤ mapTrees m s := by
  obtain ⟨-, -, h2, -⟩ := h
  exact h2

theorem nextMapEntry_ok {m : MapSel} {r : Nat} {T : Code} {l : List Nat} (h : AtMap m s) (hr : r ≤ 16)
    (hT : T.valid (mapTrees m s + r) = true) (hl : l.length ≤ mapSize m s) (he : ∀ e ∈ l, e < mapTrees m s) :
    CtlOk (nextMapEntry m r T l s) := by
  unfold nextMapEntry
  split
  · exact ⟨h, hr, hT, ‹_›, he⟩
  · exact ⟨h, Nat.le_antisymm hl (Nat.not_lt.1 ‹_›), he⟩

/-! ### Block switches and the symbols of a command (R129 to R139) -/

/-- A category of a header that has been read may change its registers within their bounds. -/
theorem HeaderRead.setBlock {c : Cat} {b : BlockState} (h : HeaderRead s) (hb : b.Ok)
    (hn : b.numTypes = (s.block c).numTypes) : HeaderRead (setBlock c b s) := by
  obtain ⟨⟨⟨⟨hin, h1, h2, h3⟩, hd, hm⟩, hlm, hdm⟩, hcodes⟩ := h
  simp only [MapOk, mapSize, mapTrees] at hlm hdm
  cases c with
  | literal =>
    change b.numTypes = s.mb.lit.numTypes at hn
    rw [← hn] at hm hlm
    exact ⟨⟨⟨⟨hin, hb, h2, h3⟩, hd, hm⟩, hlm, hdm⟩, hcodes⟩
  | insertCopy =>
    change b.numTypes = s.mb.iac.numTypes at hn
    rw [← hn] at hcodes
    exact ⟨⟨⟨⟨hin, h1, hb, h3⟩, hd, hm⟩, hlm, hdm⟩, hcodes⟩
  | distance =>
    change b.numTypes = s.mb.dist.numTypes at hn
    rw [← hn] at hdm
    exact ⟨⟨⟨⟨hin, h1, h2, hb⟩, hd, hm⟩, hlm, hdm⟩, hcodes⟩

theorem HeaderRead.blockOk (h : HeaderRead s) (c : Cat) : (s.block c).Ok := by
  obtain ⟨⟨⟨⟨-, h1, h2, h3⟩, -⟩, -⟩, -⟩ := h
  cases c
  · exact h1
  · exact h2
  · exact h3

theorem HeaderRead.countDown (h : HeaderRead s) (c : Cat) : HeaderRead (countDown c s) := by
  obtain ⟨h1, h2, h3, h4, h5⟩ := h.blockOk c
  unfold Machine.countDown
  split
  · exact h.setBlock ⟨h1, h2, h3, (Nat.sub_le _ _).trans h4, h5⟩ rfl
  · exact h

/-- A read header makes the point before a symbol ready: the switch when it is due, else the symbol. -/
theorem enterSym_ok {c : Cat} (h : HeaderRead s) (hw : CommandWaits c s) : CtlOk (enterSym c s) := by
  unfold enterSym
  split
  · exact ⟨h, h.inside, ‹_›, hw⟩
  · rename_i hdue
    have hready : SymbolReady c s := fun h2 => Nat.pos_of_ne_zero fun h0 => hdue ⟨h2, h0⟩
    cases c with
    | literal => exact ⟨h, h.inside, hready, hw⟩
    | insertCopy => exact ⟨h, h.inside, hready⟩
    | distance => exact ⟨h, h.inside, hready, hw⟩

theorem endMetaBlock_ok (s : State) : CtlOk (endMetaBlock s) := by
  unfold endMetaBlock
  split
  · assumption
  · trivial

theorem nextCommand_ok (h : InsideMetaBlock s → HeaderRead s) : CtlOk (nextCommand s) := by
  unfold nextCommand
  split
  · exact enterSym_ok (h ‹_›) trivial
  · exact endMetaBlock_ok s

theorem nextInsert_ok (h : InsideMetaBlock s → HeaderRead s) (hcopy : 2 ≤ s.cmd.copyLen) (hlast : 1 ≤ s.hist.last 1) :
    CtlOk (nextInsert s) := by
  unfold nextInsert
  split
  · rename_i hin
    split
    · exact enterSym_ok (h hin) ⟨‹_›, hcopy⟩
    · unfold enterDistance
      split
      · exact ⟨h hin, hin, hcopy, hlast⟩
      · exact enterSym_ok (h hin) ⟨by simpa using ‹¬ s.cmd.implicit0 = true›, hcopy⟩
  · exact endMetaBlock_ok s

theorem reduceType_lt {num t : Nat} (h : t < 2 * num) : reduceType num t < num := by
  unfold reduceType; split <;> omega

/-- R132: the type that a block switch selects. -/
theorem switchType_ok {c : Cat} {v : Nat} (h : HeaderRead s) (hdue : SwitchDue c s) (hw : CommandWaits c s)
    (hv : v = (s.block c).lastBlockType ∨ v = (s.block c).blockType + 1 ∨ v < (s.block c).numTypes) :
    CtlOk (switchType c v s) := by
  obtain ⟨h1, h2, h3, h4, h5⟩ := h.blockOk c
  obtain ⟨hlast, hbt, hbc⟩ := h5 hdue.1
  have hlt : reduceType (s.block c).numTypes v < (s.block c).numTypes := reduceType_lt (by omega)
  have hh := h.setBlock (c := c) (b := { s.block c with
      lastBlockType := (s.block c).blockType, blockType := reduceType (s.block c).numTypes v })
    ⟨h1, h2, hlt, h4, fun _ => ⟨h3, hbt, hbc⟩⟩ rfl
  have hdue' : SwitchDue c (setBlock c { s.block c with
      lastBlockType := (s.block c).blockType, blockType := reduceType (s.block c).numTypes v } s) := by
    simpa [SwitchDue] using hdue
  cases c <;> exact ⟨hh, hh.inside, hdue', hw⟩

theorem blenTable_bounds {k x : Nat} (hk : k < Config.bcountAlphabet) (hx : x < 2 ^ tableExtra blenTable k) :
    1 ≤ tableBase blenTable k + x ∧ tableBase blenTable k + x ≤ 16793840 := by
  have hrow : 1 ≤ tableBase blenTable k ∧ tableBase blenTable k + 2 ^ tableExtra blenTable k ≤ 16793841 := by
    simp only [Config.bcountAlphabet] at hk
    interval_cases k <;> decide
  omega

/-- R121, R132: after the count of a block switch the symbol that waited for it may be read. -/
theorem storeBlockLen_switch_ok {c : Cat} {n : Nat} (h : HeaderRead s) (hw : CommandWaits c s) (h1 : 1 ≤ n)
    (hn : n ≤ 16793840) : CtlOk (storeBlockLen c true n s) := by
  obtain ⟨b1, b2, b3, -, b5⟩ := h.blockOk c
  have hh := h.setBlock (c := c) (b := { s.block c with blockLen := n }) ⟨b1, b2, b3, hn, b5⟩ rfl
  have hready : SymbolReady c (setBlock c { s.block c with blockLen := n } s) := fun _ => by simpa using h1
  cases c with
  | literal => exact ⟨hh, hh.inside, hready, hw⟩
  | insertCopy => exact ⟨hh, hh.inside, hready⟩
  | distance => exact ⟨hh, hh.inside, hready, hw⟩

/-- R120, R121: the first block count of a category with two or more types is its last field. -/
theorem storeBlockLen_header_ok {c : Cat} {n : Nat} (h : AtCategory c s) (h2 : 2 ≤ (s.block c).numTypes)
    (h256 : (s.block c).numTypes ≤ 256) (hbt : (s.block c).btypeCode.valid ((s.block c).numTypes + 2) = true)
    (hbc : (s.block c).bcountCode.valid Config.bcountAlphabet = true) (hn : n ≤ 16793840) :
    CtlOk (storeBlockLen c false n s) := by
  obtain ⟨hty, hlast⟩ := h.fresh
  exact h.nextCategory_ok ⟨Nat.le_of_succ_le h2, h256, hty.trans_lt (Nat.lt_of_succ_lt h2), hn,
    fun _ => ⟨hlast.trans_lt h2, hbt, hbc⟩⟩

/-! ### Codes (R107, R120, R125) -/

theorem CodesOk.append {A : Nat} {l : List Code} {T : Code} (h : CodesOk A l) (hT : T.valid A = true) :
    CodesOk A (l ++ [T]) :=
  List.forall_mem_append.2 ⟨h, List.forall_mem_singleton.2 hT⟩

theorem ModesRead.mapSize_pos (h : ModesRead s) (m : MapSel) : 0 < mapSize m s := by
  obtain ⟨⟨-, hl, -, hd⟩, -⟩ := h
  cases m <;> simp only [mapSize, Nat.shiftLeft_eq]
  · exact Nat.mul_pos hl.1 (by decide)
  · exact Nat.mul_pos hd.1 (by decide)

theorem storeCode_ok {u : CodeUse} {T : Code} (h : AtCode u s) (hT : T.valid (alphabetOf u s) = true) :
    CtlOk (storeCode u T s) := by
  cases u with
  | btype c =>
    obtain ⟨hat, h2, h256⟩ := h
    have hat' : AtCategory c (setBlock c { s.block c with btypeCode := T } s) := hat.setBlock hat.fresh
    exact (⟨hat', by simpa, by simpa, by simpa⟩ : AtCode (.bcount c) (setBlock c { s.block c with btypeCode := T } s))
  | bcount c =>
    obtain ⟨hat, h2, h256, hbt⟩ := h
    have hat' : AtCategory c (setBlock c { s.block c with bcountCode := T } s) := hat.setBlock hat.fresh
    have hb : (storeCode (.bcount c) T s).block c = { s.block c with bcountCode := T } := setBlock_block_same c _ s
    refine ⟨hat', ?_, ?_, ?_, ?_⟩ <;> rw [hb] <;> assumption
  | cmap m r =>
    obtain ⟨hat, hr⟩ := h
    exact ⟨hat, hr, hT, hat.1.mapSize_pos m, fun e he => absurd he List.not_mem_nil⟩
  | lit =>
    obtain ⟨hm, hlt, hl, hi, hd⟩ := h
    have hl' := hl.append hT
    simp only [storeCode, List.length_append, List.length_singleton]
    split
    · exact (⟨hm, by simpa using ‹_›, hl', hi, hd⟩ :
        AtCode .lit { s with mb := { s.mb with litCode := s.mb.litCode ++ [T] } })
    · refine (⟨hm, by simp; omega, hl', ?_, ?_, hd⟩ :
        AtCode .iac { s with mb := { s.mb with litCode := s.mb.litCode ++ [T] } })
      · obtain ⟨⟨⟨-, -, hb, -⟩, -⟩, -⟩ := hm
        simp only [hi]
        exact hb.1
      · simp only [hi]
        exact fun U hU => absurd hU List.not_mem_nil
  | iac =>
    obtain ⟨hm, hll, hl, hlt, hi, hd⟩ := h
    have hi' := hi.append hT
    simp only [storeCode, List.length_append, List.length_singleton]
    split
    · exact (⟨hm, hll, hl, by simpa using ‹_›, hi', hd⟩ :
        AtCode .iac { s with mb := { s.mb with iacCode := s.mb.iacCode ++ [T] } })
    · refine (⟨hm, hll, hl, by simp; omega, hi', ?_, ?_⟩ :
        AtCode .dist { s with mb := { s.mb with iacCode := s.mb.iacCode ++ [T] } })
      · obtain ⟨-, -, hdm⟩ := hm
        simp only [hd]
        exact hdm.1
      · simp only [hd]
        exact fun U hU => absurd hU List.not_mem_nil
  | dist =>
    obtain ⟨hm, hll, hl, hii, hi, hlt, hd⟩ := h
    have hd' := hd.append hT
    simp only [storeCode, List.length_append, List.length_singleton]
    split
    · exact (⟨hm, hll, hl, hii, hi, by simpa using ‹_›, hd'⟩ :
        AtCode .dist { s with mb := { s.mb with distCode := s.mb.distCode ++ [T] } })
    · exact nextCommand_ok fun _ => ⟨hm, hll, hl, hii, hi, by simp; omega, hd'⟩

/-- The promise of the next control point, if the decode goes on. -/
def OkIfRunning (s : State) : Prop := s.phase = .run → CtlOk s

theorem okIfRunning_raise (e : ErrKind) (s : State) : OkIfRunning (raise e s) := nofun

theorem nextLength_ok {u : CodeUse} {T : Code} {st : LenLocals} (h : AtCode u s)
    (hT : T.valid Config.clAlphabet = true) (hst : st.Sound (alphabetOf u s)) : OkIfRunning (nextLength u T st s) := by
  unfold nextLength
  split
  · exact fun _ => ⟨h, hT, (st.ok_iff _).2 ⟨hst, ‹_›⟩⟩
  · split
    · exact fun _ => storeCode_ok h (hst.padLens_valid ‹_›)
    · exact okIfRunning_raise _ s

theorem applyRepeat_ok {u : CodeUse} {T : Code} {st : LenLocals} {l k x : Nat} (h : AtCode u s)
    (hT : T.valid Config.clAlphabet = true) (hst : st.Ok (alphabetOf u s)) (hl : l ≤ Config.maxCodeLen) :
    OkIfRunning (applyRepeat u T st l k x s) := by
  unfold applyRepeat
  split
  · exact nextLength_ok h hT (LenLocals.takeRepeat_sound hst hl ‹_›)
  · exact okIfRunning_raise _ s

theorem nextClEntry_ok {u : CodeUse} {st : ClLocals} (h : AtCode u s) (hst : st.Sound) :
    OkIfRunning (nextClEntry u st s) := by
  unfold nextClEntry
  split
  · split
    · exact nextLength_ok h (hst.code_valid ‹_›) (LenLocals.start_sound _)
    · exact okIfRunning_raise _ s
  · exact fun _ => ⟨h, hst.ok ‹_›⟩

theorem simpleCode_ok {u : CodeUse} {syms lens : List Nat} (h : AtCode u s) (hs : SymsOk (alphabetOf u s) syms)
    (hl : lens.length = syms.length) (hb : ∀ l ∈ lens, l ≤ Config.maxCodeLen) (hf : kraftSum lens = Config.fullSpace) :
    CtlOk (simpleCode u syms lens s) :=
  storeCode_ok h (listedLens_valid hs hl hb hf)

/-- R93: one to four symbols of the alphabet, all distinct, make a code or wait for TREESEL. -/
theorem finishSymbols_ok {u : CodeUse} {syms : List Nat} {bad : Bool} (h : AtCode u s)
    (hs : bad = false → SymsOk (alphabetOf u s) syms) (h1 : 1 ≤ syms.length) (h4 : syms.length ≤ 4) :
    OkIfRunning (finishSymbols u syms bad s) := by
  unfold finishSymbols
  split
  · exact okIfRunning_raise _ s
  · have hs := hs (by simpa using ‹¬ bad = true›)
    intro _
    split
    · exact storeCode_ok h (decide_eq_true (hs.2 _ List.mem_cons_self))
    · exact simpleCode_ok h hs rfl (by decide) rfl
    · exact simpleCode_ok h hs rfl (by decide) rfl
    · rename_i hne1 hne2 hne3
      refine ⟨h, ?_, hs⟩
      match syms, h1, h4 with
      | [a], _, _ => exact absurd rfl (hne1 a)
      | [a, b], _, _ => exact absurd rfl (hne2 a b)
      | [a, b, c], _, _ => exact absurd rfl (hne3 a b c)
      | [_, _, _, _], _, _ => rfl

theorem SymsOk.append {A v : Nat} {syms : List Nat} (h : SymsOk A syms) (hv : v < A) (hn : v ∉ syms) :
    SymsOk A (syms ++ [v]) := by
  obtain ⟨hnodup, hlt⟩ := h
  exact ⟨hnodup.append (List.nodup_singleton v) (by simpa using hn),
    List.forall_mem_append.2 ⟨hlt, List.forall_mem_singleton.2 hv⟩⟩

/-! ### Lengths and distances -/

/-- R116: nibble `i` of the length. -/
theorem nibble_lt {v i : Nat} (x : BitVec 4) (hv : v < 16 ^ i) : v + x.toNat <<< (4 * i) < 16 ^ (i + 1) := by
  have hx := x.isLt
  calc v + x.toNat <<< (4 * i) < 16 ^ i + 15 * 16 ^ i := by
        rw [Nat.shiftLeft_eq, Nat.pow_mul]
        exact Nat.add_lt_add_of_lt_of_le hv (Nat.mul_le_mul_right _ (by omega))
    _ = 16 ^ (i + 1) := by ring

/-- R122: `ndirect` is at most 15 shifted by 3. -/
theorem ndirect_le {np : Nat} (v : BitVec 4) (hnp : np ≤ 3) : v.toNat <<< np ≤ 120 := by
  have hpow : 2 ^ np ≤ 2 ^ 3 := Nat.pow_le_pow_right (by decide) hnp
  rw [Nat.shiftLeft_eq]
  exact Nat.mul_le_mul (Nat.le_of_lt_succ v.isLt) hpow

theorem cpyTable_base {k : Nat} (hk : k < 24) : 2 ≤ tableBase cpyTable k := by
  interval_cases k <;> decide

theorem storedDistance_pos {v : Int} (h : 0 < v) : 1 ≤ storedDistance v := by
  rw [storedDistance_of_nonneg h.le]; omega

theorem DistRing.Ok.last_pos {far : Nat} {h : DistRing} (hh : h.Ok far) (k : BitVec 2) : 1 ≤ h.last k := (hh _).1

theorem DistRing.Ok.mono {far far' : Nat} {h : DistRing} (hh : h.Ok far) (hf : far ≤ far') : h.Ok far' :=
  fun i => ⟨(hh i).1, (hh i).2.trans hf⟩

theorem DistRing.Ok.push {far d : Nat} {h : DistRing} (hh : h.Ok far) (h1 : 1 ≤ d) (hd : d ≤ far) :
    (h.push d).Ok far := by
  intro i
  rw [push_slot]
  split
  · exact ⟨h1, hd⟩
  · exact hh i

theorem HeaderRead.readDistance (h : HeaderRead s) (n d : Nat) : HeaderRead (readDistance n d s) := by
  have hcount := h.countDown .distance
  refine hcount.of_mb (readDistance_mb n d s) ?_
  have hin := hcount.inside
  unfold InsideMetaBlock at hin ⊢
  rwa [readDistance_pos, readDistance_mb, ← countDown_pos .distance]

/-- The command registers that a copy needs, once a distance has been set (R138 to R142). -/
theorem setDistance_ok {d : Nat} (h : HeaderRead s) (hcopy : 2 ≤ s.cmd.copyLen) (hd : 1 ≤ d) :
    CtlOk (setDistance d s) :=
  ⟨h, h.inside, hcopy, hd⟩

end Sys2Proof.Machine
end

section
/-! Every step keeps the machine's invariant: the promises of the control points by the case analysis over the moves,
the bounds of the cursor, the output, the window and the last distances by the footprint. -/

namespace Sys2Proof.Machine

variable {s t : State}

/-- Every move of a running decode that goes on makes the promise of its next control point. -/
theorem RunMove.ctlOk (hm : RunMove s t) (hlast : ∀ k, 1 ≤ s.hist.last k) (hok : CtlOk s) : OkIfRunning t := by
  have h : ∀ n, CtlOk (advance n s) := fun n => (ctlOk_advance n s).2 hok
  cases hm with
  | abort | abortCommand | abortLiteral | fullLiteral | abortDistance | badShort | abortCopy =>
    exact okIfRunning_raise _ _
  | padding => exact nofun
  | window | notLast | notEmpty => exact fun _ => trivial
  | last => exact fun _ => rfl
  | empty hc =>
    simp only [CtlOk, hc] at hok
    exact fun _ => hok
  | nibbles n hc hn hlo hhi => exact fun _ => ⟨by omega, hlo, hhi, by decide⟩
  | nibble i n v x hc hn hi =>
    simp only [CtlOk, hc] at hok
    obtain ⟨-, hlo, hhi, hv⟩ := hok
    exact fun _ => ⟨hi, hlo, hhi, nibble_lt x hv⟩
  | lastNibble => exact fun _ => storeMlen_ok _ _
  | compressed hc =>
    simp only [CtlOk, hc] at hok
    exact fun _ => enterBlockInfo_ok hok
  | count u v n hc hn h1 h2 => exact fun _ => storeCount_ok ((ctlOk_count hc).1 (h n)) h1 (h2.trans (by decide))
  | countMore u v1 hc hn h1 h7 => exact fun _ => (ctlOk_countX rfl).2 ⟨(ctlOk_count hc).1 (h 4), h1, h7⟩
  | countExtra u v1 x hc hn hx =>
    obtain ⟨hat, -, h7⟩ := (ctlOk_countX hc).1 (h v1)
    have hpow : 2 ^ v1 ≤ 2 ^ 7 := Nat.pow_le_pow_right (by decide) h7
    exact fun _ => storeCount_ok hat (Nat.le_add_left _ _) (by omega)
  | npostfix v hc =>
    simp only [CtlOk, hc] at hok
    obtain ⟨hcat, hno, hmode⟩ := hok
    exact fun _ => ⟨hcat, hno, hmode, Nat.le_of_lt_succ v.isLt⟩
  | ndirect v hc =>
    simp only [CtlOk, hc] at hok
    obtain ⟨hcat, hno, hmode, hnp⟩ := hok
    refine fun _ => ⟨hcat, ⟨hnp, ?_, rfl⟩, hno, ?_⟩
    · exact ndirect_le v hnp
    · obtain ⟨-, hlit, -⟩ := hcat
      show s.mb.contextMode.length < s.mb.lit.numTypes
      rw [hmode]
      exact hlit.1
  | mode m hc =>
    simp only [CtlOk, hc] at hok
    obtain ⟨hcat, hdist, hno, hlen⟩ := hok
    intro _
    split
    · exact ⟨hcat, hdist, hno, ‹_›⟩
    · rename_i hfull
      refine ⟨⟨hcat, hdist, ?_⟩, hno⟩
      rw [List.length_append, List.length_singleton] at hfull
      show (s.mb.contextMode ++ [m]).length = s.mb.lit.numTypes
      rw [List.length_append, List.length_singleton]
      omega
  | noRuns m hc =>
    simp only [CtlOk, hc] at hok
    exact fun _ => ⟨hok, Nat.zero_le _⟩
  | runs m hc =>
    simp only [CtlOk, hc] at hok
    exact fun _ => hok
  | rleMax m v hc =>
    simp only [CtlOk, hc] at hok
    exact fun _ => ⟨hok, v.isLt⟩
  | mapEntry m r T acc e n hc hn he =>
    simp only [CtlOk, advance_ctl, hc] at h
    obtain ⟨hat, hr, hT, hlen, hacc⟩ := h n
    have h2 := hat.two_le_trees
    have he : e < mapTrees m (advance n s) := he.elim (fun h0 => by omega) id
    exact fun _ => nextMapEntry_ok hat hr hT (by simpa using hlen)
      (List.forall_mem_append.2 ⟨hacc, List.forall_mem_singleton.2 he⟩)
  | mapRun m r T acc k n hc hn h1 hk =>
    simp only [CtlOk, hc] at hok
    obtain ⟨hat, hr, hT, hlen, hacc⟩ := hok
    exact fun _ => ⟨hat, hr, hT, hlen, hacc, h1, hk⟩
  | mapZeros m r T acc k run hc hn hsize =>
    simp only [CtlOk, advance_ctl, hc] at h
    obtain ⟨hat, hr, hT, -, hacc, -⟩ := h k
    have h0 : 0 < mapTrees m (advance k s) := Nat.lt_of_lt_of_le (by decide) hat.two_le_trees
    exact fun _ => nextMapEntry_ok hat hr hT (by rw [List.length_append, List.length_replicate]; exact hsize)
      (List.forall_mem_append.2 ⟨hacc, fun e he => List.eq_of_mem_replicate he ▸ h0⟩)
  | mapRead m acc entries hc hn he =>
    simp only [CtlOk, advance_ctl, hc] at h
    obtain ⟨⟨hmodes, hno, h2, h256, hlit⟩, hlen, hacc⟩ := h 1
    refine fun _ => storeMap_ok hmodes hno ⟨by omega, h256, ?_⟩ hlit
    obtain rfl | rfl := he
    · exact ⟨hlen, hacc⟩
    · exact ⟨(inverseMtf_length acc).trans hlen, inverseMtf_lt h256 acc hacc⟩
  | simple u hc =>
    simp only [CtlOk, advance_ctl, hc] at h
    exact fun _ => h 2
  | complex u k hc hn hk =>
    simp only [CtlOk, advance_ctl, hc] at h
    exact fun _ => ⟨h 2, ClLocals.start_ok hk⟩
  | symbolCount u n hc hn h1 h4 =>
    simp only [CtlOk, advance_ctl, hc] at h
    exact fun _ => ⟨h 2, h4, h1, fun _ => ⟨List.nodup_nil, fun _ hv => absurd hv List.not_mem_nil⟩⟩
  | symbol u nsym syms bad bad' v n hc hn hv hlen =>
    simp only [CtlOk, advance_ctl, hc] at h
    obtain ⟨hat, h4, -, hs⟩ := h n
    refine fun _ => ⟨hat, h4, hlen, fun hb => ?_⟩
    obtain ⟨hb, hlt, hnew⟩ := hv hb
    exact (hs hb).append hlt hnew
  | lastSymbol u nsym syms bad bad' v n hc hn hv hlen =>
    simp only [CtlOk, advance_ctl, hc] at h
    obtain ⟨hat, h4, hshort, hs⟩ := h n
    refine finishSymbols_ok hat (fun hb => ?_) (by simp) (by simp; omega)
    obtain ⟨hb, hlt, hnew⟩ := hv hb
    exact (hs hb).append hlt hnew
  | tree u syms lens hc hn hl =>
    simp only [CtlOk, advance_ctl, hc] at h
    obtain ⟨hat, hlen, hs⟩ := h 1
    obtain rfl | rfl := hl
    · exact fun _ => simpleCode_ok hat hs hlen.symm (by decide) rfl
    · exact fun _ => simpleCode_ok hat hs hlen.symm (by decide) rfl
  | clEntry u st v n hc hn hv =>
    simp only [CtlOk, advance_ctl, hc] at h
    obtain ⟨hat, hst⟩ := h n
    exact nextClEntry_ok hat (ClLocals.take_sound hst hv)
  | length u T st c n hc hn =>
    simp only [CtlOk, advance_ctl, hc] at h
    obtain ⟨hat, hT, hst⟩ := h n
    exact nextLength_ok hat hT (LenLocals.takeLength_sound hst (Nat.le_of_lt_succ c.isLt))
  | repeatPrev u T st n hc | repeatZero u T st n hc =>
    simp only [CtlOk, advance_ctl, hc] at h
    exact fun _ => h n
  | repeatedPrev u T st x hc hn =>
    simp only [CtlOk, advance_ctl, hc] at h
    obtain ⟨hat, hT, hst⟩ := h 2
    exact applyRepeat_ok hat hT hst ((st.ok_iff _).1 hst).1.prev.2
  | repeatedZero u T st x hc hn =>
    simp only [CtlOk, advance_ctl, hc] at h
    obtain ⟨hat, hT, hst⟩ := h 3
    exact applyRepeat_ok hat hT hst (Nat.zero_le _)
  | blockType c v n hc hn hv =>
    simp only [CtlOk, advance_ctl, hc] at h
    obtain ⟨hh, -, hdue, hw⟩ := h n
    exact fun _ => switchType_ok hh hdue hw hv
  | blockCount c sw k n hc hn hk =>
    cases sw <;> simp only [CtlOk, hc] at hok
    · obtain ⟨hat, h2, h256, hbt, hbc⟩ := hok
      exact fun _ => ⟨hat, h2, h256, hbt, hbc, hk⟩
    · obtain ⟨hh, hin, hdue, hw⟩ := hok
      exact fun _ => ⟨hh, hin, hdue, hw, hk⟩
  | blockLen c sw k x n hc hn hx =>
    cases sw <;> simp only [CtlOk, advance_ctl, hc] at h
    · obtain ⟨hat, h2, h256, hbt, hbc, hk⟩ := h n
      exact fun _ => storeBlockLen_header_ok hat h2 h256 hbt hbc (blenTable_bounds hk hx).2
    · obtain ⟨hh, -, -, hw, hk⟩ := h n
      obtain ⟨hlo, hhi⟩ := blenTable_bounds hk hx
      exact fun _ => storeBlockLen_switch_ok hh hw hlo hhi
  | command icode ccode n imp hc hn hi hk =>
    simp only [CtlOk, hc] at hok
    obtain ⟨hh, -⟩ := hok
    exact fun _ => ⟨hh.countDown .insertCopy, (hh.countDown .insertCopy).inside, hi, hk⟩
  | insertLen icode ccode x n hc =>
    simp only [CtlOk, hc] at hok
    obtain ⟨hh, hin, -, hk⟩ := hok
    exact fun _ => ⟨hh, hin, hk⟩
  | copyLen ccode x n hc =>
    simp only [CtlOk, hc] at hok
    obtain ⟨hh, -, hk⟩ := hok
    exact fun _ => nextInsert_ok (fun _ => hh) (Nat.le_add_right_of_le (cpyTable_base hk)) (hlast 1)
  | literal b n hc =>
    simp only [CtlOk, hc] at hok
    obtain ⟨hh, -, -, -, hcopy⟩ := hok
    exact fun _ => nextInsert_ok (fun hin => (hh.countDown .literal).of_mb rfl hin) (by simpa using hcopy)
      (by simpa using hlast 1)
  | short d n hc hn hd hv =>
    simp only [CtlOk, hc] at hok
    obtain ⟨hh, -, -, -, hcopy⟩ := hok
    exact fun _ => setDistance_ok (hh.readDistance n d) (by simpa using hcopy) (storedDistance_pos hv)
  | direct d n hc hn hd =>
    simp only [CtlOk, hc] at hok
    obtain ⟨hh, -, -, -, hcopy⟩ := hok
    exact fun _ => setDistance_ok (hh.readDistance n d) (by simpa using hcopy) (by omega)
  | ranged d n hc hn hlo hhi =>
    simp only [CtlOk, hc] at hok
    obtain ⟨hh, -, -, -, hcopy⟩ := hok
    have hr := hh.readDistance n d
    have hmb : (countDown .distance s).mb.ndirect = s.mb.ndirect ∧
        (countDown .distance s).mb.distAlphabet = s.mb.distAlphabet := by
      unfold countDown; split <;> exact ⟨rfl, rfl⟩
    exact fun _ => ⟨hr, hr.inside, by simpa using hcopy, by simpa [hmb.1] using hlo, by simpa [hmb.2] using hhi⟩
  | rangedExtra x n hc =>
    simp only [CtlOk, advance_ctl, hc] at h
    obtain ⟨hh, -, hcopy, -⟩ := h n
    exact fun _ => setDistance_ok hh hcopy (Nat.le_add_left 1 _)
  | copy hist bs hc =>
    simp only [CtlOk, hc] at hok
    obtain ⟨hh, -⟩ := hok
    exact fun _ => nextCommand_ok fun hin => hh.of_mb (by simp) hin

/-! ### Cursor, output, window and last distances -/

/-- The last distances after a copy reach no further than the output then. -/
theorem PushedHist.ok {h : DistRing} (hp : PushedHist s h) (hs : s.hist.Ok (max 16 (maxDistance s)))
    (h1 : 1 ≤ s.cmd.distance) : h.Ok (max 16 (maxDistance s)) := by
  obtain rfl | ⟨hd, rfl⟩ := hp
  · exact hs
  · exact hs.push h1 (hd.trans (le_max_right _ _))

theorem maxDistance_mono (hpos : s.pos ≤ t.pos) (hb : t.maxBackward = s.maxBackward) :
    max 16 (maxDistance s) ≤ max 16 (maxDistance t) := by
  unfold maxDistance
  rw [hb]
  exact max_le_max_left 16 (min_le_min_right _ hpos)

/-- The bounds of a running decode that do not depend on the control point. -/
theorem Footprint.bounds (h : Footprint s t) (hs : RunOk s) (hrun : t.phase = .run) :
    t.pos ≤ t.cfgOutCap.toNat ∧ t.hist.Ok (max 16 (maxDistance t)) ∧
    (t.ctl ≠ .window → t.bitpos ≤ endBit t ∧ WindowOk t) := by
  obtain ⟨hpos, hhist, hwin, hok⟩ := hs
  cases h with
  | goes b k m c hw hb hend => exact ⟨hpos, hhist, fun _ => ⟨hend, (hwin hw).2⟩⟩
  | ends | abortCopy => exact absurd hrun nofun
  | window w n hc hn hlo hhi =>
    simp only [CtlOk, hc] at hok
    have hfar : max 16 (maxDistance s) = 16 := by simp [maxDistance, hok]
    exact ⟨hpos, (hfar ▸ hhist).mono (le_max_left _ _), fun _ => ⟨hn, hlo, hhi, rfl⟩⟩
  | byte x b k m c hc hb hend hcap =>
    have hfar : max 16 (maxDistance s) ≤ max 16 (maxDistance (putByte x s)) :=
      maxDistance_mono (Nat.le_succ _) rfl
    exact ⟨hcap, hhist.mono hfar, fun _ => ⟨hend, (hwin (by simp [hc])).2⟩⟩
  | copy h bs k hc hp hcap =>
    simp only [CtlOk, hc] at hok
    obtain ⟨-, -, -, hdist⟩ := hok
    have hfar : max 16 (maxDistance s) ≤ max 16 (maxDistance (goto k (putBytes bs { s with hist := h }))) :=
      maxDistance_mono (by simp) (by simp)
    obtain ⟨hbit, hwindow⟩ := hwin (by simp [hc])
    refine ⟨by simpa using hcap, ?_, fun _ => ⟨?_, ?_⟩⟩
    · simpa using (hp.ok hhist hdist).mono hfar
    · simpa [endBit] using hbit
    · simpa [WindowOk] using hwindow

/-! ### The invariant -/

theorem RunMove.machineInv (hm : RunMove s t) (h : MachineInv s) (hrun : s.phase = .run) : MachineInv t := by
  obtain ⟨hmem, herr, hrunOk⟩ := h
  have hs := hrunOk hrun
  obtain ⟨-, hhistOk, -, hok⟩ := id hs
  refine ⟨hm.footprint.memoriesWf hmem, ?_, fun ht => ?_⟩
  · obtain ⟨hp, he⟩ | ⟨hp, he⟩ := hm.footprint.phase_err
    · unfold PhaseMatchesErr
      rwa [hp, he]
    · exact iff_of_true hp he
  · obtain ⟨hpos, hhist, hwin⟩ := hm.footprint.bounds hs ht
    exact ⟨hpos, hhist, hwin, hm.ctlOk (fun k => hhistOk.last_pos k) hok ht⟩

/-- R171: a started decode meets the promise of the window field. -/
theorem startDecode_runOk (s : State) : RunOk (startDecode s) := by
  refine ⟨Nat.zero_le _, ?_, fun h => absurd rfl h, rfl⟩
  have hstart : DistRing.start.Ok 16 := by unfold DistRing.Ok; decide
  exact hstart.mono (le_max_left _ _)

theorem hostMove_machineInv (c : HostCmd) (h : MachineInv s) : MachineInv (hostMove c s) := by
  have hmem := hostMove_wf c s h.1
  obtain ⟨-, herr, hrunOk⟩ := h
  obtain e | ⟨-, e⟩ | ⟨hp, l, b, o, i, m, e⟩ := hostMove_cases c s <;> rw [e] at hmem ⊢
  · exact ⟨hmem, herr, hrunOk⟩
  · exact ⟨hmem, ⟨nofun, fun h => absurd rfl h⟩, fun _ => startDecode_runOk s⟩
  · exact ⟨hmem, herr, fun h => absurd h hp⟩

/-- Settles O53: a host move starts a decode at most, and a move of a running decode keeps each part of the
invariant. -/
theorem stepKeepsMachineInv : Obligations.StepKeepsMachineInv := by
  intro s t h hstep
  obtain ⟨c, rest, -, rfl⟩ | ⟨-, -, rfl⟩ | ⟨-, hrun, hm⟩ := step_cases hstep
  · exact hostMove_machineInv (s := { s with hostq := rest }) c h
  · exact h
  · exact hm.machineInv h hrun

end Sys2Proof.Machine
end

section
/-! Every step keeps the registers within their widths (10_state.md). -/

namespace Sys2Proof.Machine

variable {s t : State}

/-! ### The meta-block registers -/

theorem MetaBlock.WidthsOk.block {m : MetaBlock} (h : m.WidthsOk) (c : Cat) : (m.block c).WidthsOk := by
  obtain ⟨-, -, hl, hi, hd, -⟩ := h
  cases c
  · exact hl
  · exact hi
  · exact hd

theorem MetaBlock.WidthsOk.setBlock {m : MetaBlock} (h : m.WidthsOk) {c : Cat} {b : BlockState} (hb : b.WidthsOk) :
    (m.setBlock c b).WidthsOk := by
  obtain ⟨h1, h2, hl, hi, hd, hrest⟩ := h
  cases c
  · exact ⟨h1, h2, hb, hi, hd, hrest⟩
  · exact ⟨h1, h2, hl, hb, hd, hrest⟩
  · exact ⟨h1, h2, hl, hi, hb, hrest⟩

theorem countDown_widths (c : Cat) (h : s.mb.WidthsOk) : (countDown c s).mb.WidthsOk := by
  obtain ⟨h1, h2, h3, h4⟩ := h.block c
  unfold countDown
  split
  · exact h.setBlock ⟨h1, h2, h3, (Nat.sub_le _ _).trans_lt h4⟩
  · exact h

theorem BlockState.WidthsOk.newMetaBlock {b : BlockState} (h : b.WidthsOk) : b.newMetaBlock.WidthsOk := by
  obtain ⟨h1, -, -, h4⟩ := h
  exact ⟨h1, (by decide : 0 < 2 ^ 8), (by decide : 1 < 2 ^ 8), h4⟩

theorem enterBlockInfo_widths (h : s.mb.WidthsOk) : (enterBlockInfo s).mb.WidthsOk := by
  obtain ⟨h1, h2, hl, hi, hd, h6, h7, h8, h9, h10, -, -⟩ := h
  have hnil : ∀ e ∈ ([] : List Nat), e < 2 ^ 8 := fun e he => absurd he List.not_mem_nil
  exact ⟨h1, h2, hl.newMetaBlock, hi.newMetaBlock, hd.newMetaBlock, h6, h7, h8, h9, h10, hnil, hnil⟩

/-- `mb_end` needs 33 bits (log 8). -/
theorem storeMlen_widths {v : Nat} (h : s.mb.WidthsOk) (hpos : s.pos < 2 ^ 32) (hv : v < 2 ^ 24) :
    (storeMlen v s).mb.WidthsOk := by
  obtain ⟨-, -, hrest⟩ := h
  have hnew : ({ s.mb with mlen := v + 1, mbEnd := s.pos + (v + 1) } : MetaBlock).WidthsOk :=
    ⟨show v + 1 < 2 ^ 25 by omega, show s.pos + (v + 1) < 2 ^ 33 by omega, hrest⟩
  simp only [storeMlen]
  split
  · exact enterBlockInfo_widths (s := { s with mb := _ }) hnew
  · exact hnew

theorem storeMap_widths {m : MapSel} {l : List Nat} (h : s.mb.WidthsOk) (hl : ∀ e ∈ l, e < 2 ^ 8) :
    (storeMap m l s).mb.WidthsOk := by
  obtain ⟨h1, h2, h3, h4, h5, h6, h7, h8, h9, h10, h11, h12⟩ := h
  cases m
  · exact ⟨h1, h2, h3, h4, h5, h6, h7, h8, h9, h10, hl, h12⟩
  · exact ⟨h1, h2, h3, h4, h5, h6, h7, h8, h9, h10, h11, hl⟩

theorem enterMap_widths {m : MapSel} (h : s.mb.WidthsOk) : (enterMap m s).mb.WidthsOk := by
  unfold enterMap
  split
  · exact storeMap_widths h fun e he => List.eq_of_mem_replicate he ▸ by decide
  · exact h

theorem storeBlockTypes_widths {c : Cat} {v : Nat} (h : s.mb.WidthsOk) (hv : v ≤ 256) :
    (storeBlockTypes c v s).mb.WidthsOk := by
  have hv9 : v < 2 ^ 9 := by omega
  obtain ⟨-, h2, h3, h4⟩ := h.block c
  unfold storeBlockTypes
  split
  · exact h.setBlock ⟨hv9, h2, h3, h4⟩
  · rw [nextCategory_mb]
    exact h.setBlock ⟨hv9, h2, h3, (by decide : Config.hugeBlockLen < 2 ^ 25)⟩

theorem storeCount_widths {u : CountUse} {v : Nat} (h : s.mb.WidthsOk) (hv : v ≤ 256) :
    (storeCount u v s).mb.WidthsOk := by
  have hv9 : v < 2 ^ 9 := by omega
  cases u with
  | blockTypes c => exact storeBlockTypes_widths h hv
  | treesL =>
    obtain ⟨h1, h2, h3, h4, h5, h6, h7, h8, -, h10⟩ := h
    exact enterMap_widths (s := { s with mb := { s.mb with ntreesL := v } })
      ⟨h1, h2, h3, h4, h5, h6, h7, h8, hv9, h10⟩
  | treesD =>
    obtain ⟨h1, h2, h3, h4, h5, h6, h7, h8, h9, -, h11⟩ := h
    exact enterMap_widths (s := { s with mb := { s.mb with ntreesD := v } })
      ⟨h1, h2, h3, h4, h5, h6, h7, h8, h9, hv9, h11⟩

theorem storeBlockLen_widths {c : Cat} {sw : Bool} {n : Nat} (h : s.mb.WidthsOk) (hn : n < 2 ^ 25) :
    (storeBlockLen c sw n s).mb.WidthsOk := by
  obtain ⟨h1, h2, h3, -⟩ := h.block c
  unfold storeBlockLen
  split
  · exact h.setBlock ⟨h1, h2, h3, hn⟩
  · rw [nextCategory_mb]
    exact h.setBlock ⟨h1, h2, h3, hn⟩

theorem switchType_widths {c : Cat} {v : Nat} (h : s.mb.WidthsOk) (hv : reduceType (s.block c).numTypes v < 2 ^ 8) :
    (switchType c v s).mb.WidthsOk := by
  obtain ⟨h1, h2, -, h4⟩ := h.block c
  exact h.setBlock ⟨h1, hv, h2, h4⟩

/-- Storing a code writes no register with a width. -/
theorem storeCode_widths {u : CodeUse} {T : Code} (h : s.mb.WidthsOk) : (storeCode u T s).mb.WidthsOk := by
  cases u with
  | btype c => exact h.setBlock (h.block c)
  | bcount c => exact h.setBlock (h.block c)
  | cmap => exact h
  | lit => simp only [storeCode]; split <;> exact h
  | iac => simp only [storeCode]; split <;> exact h
  | dist =>
    simp only [storeCode]
    split
    · exact h
    · rw [nextCommand_mb]; exact h

theorem nextLength_widths {u : CodeUse} {T : Code} {st : LenLocals} (h : s.mb.WidthsOk) :
    (nextLength u T st s).mb.WidthsOk := by
  unfold nextLength
  split
  · exact h
  · split
    · exact storeCode_widths h
    · exact h

theorem applyRepeat_widths {u : CodeUse} {T : Code} {st : LenLocals} {l k x : Nat} (h : s.mb.WidthsOk) :
    (applyRepeat u T st l k x s).mb.WidthsOk := by
  unfold applyRepeat
  split
  · exact nextLength_widths h
  · exact h

theorem nextClEntry_widths {u : CodeUse} {st : ClLocals} (h : s.mb.WidthsOk) : (nextClEntry u st s).mb.WidthsOk := by
  unfold nextClEntry
  split
  · split
    · exact nextLength_widths h
    · exact h
  · exact h

theorem finishSymbols_widths {u : CodeUse} {syms : List Nat} {bad : Bool} (h : s.mb.WidthsOk) :
    (finishSymbols u syms bad s).mb.WidthsOk := by
  unfold finishSymbols simpleCode
  split
  · exact h
  · split
    · exact storeCode_widths h
    · exact storeCode_widths h
    · exact storeCode_widths h
    · exact h

/-! ### The command registers -/

/-- The header's continuations write no command register. -/
theorem cmd_widths_of_header {e : ErrKind} (h : (∃ k b, t = { s with ctl := k, mb := b }) ∨ t = raise e s)
    (hw : s.cmd.WidthsOk) : t.cmd.WidthsOk := by
  obtain ⟨k, b, rfl⟩ | rfl := h <;> exact hw

theorem insTable_bound {k x : Nat} (hk : k < 24) (hx : x < 2 ^ tableExtra insTable k) :
    tableBase insTable k + x < 2 ^ 25 := by
  have hrow : tableBase insTable k + 2 ^ tableExtra insTable k ≤ 2 ^ 25 := by interval_cases k <;> decide
  omega

theorem cpyTable_bound {k x : Nat} (hk : k < 24) (hx : x < 2 ^ tableExtra cpyTable k) :
    tableBase cpyTable k + x < 2 ^ 25 := by
  have hrow : tableBase cpyTable k + 2 ^ tableExtra cpyTable k ≤ 2 ^ 25 := by interval_cases k <;> decide
  omega

theorem distCtxOf_lt (n : Nat) : distCtxOf n < 2 ^ 2 := by unfold distCtxOf; split_ifs <;> decide

theorem nextInsert_widths (h : s.cmd.WidthsOk) (hlast : s.hist.last 1 < 2 ^ 32) : (nextInsert s).cmd.WidthsOk := by
  unfold nextInsert
  split
  · split
    · rw [enterSym_cmd]; exact h
    · unfold enterDistance
      split
      · obtain ⟨h1, h2, h3, -, -⟩ := h
        exact ⟨h1, h2, h3, (by decide : 0 < 2 ^ 10), hlast⟩
      · rw [enterSym_cmd]; exact h
  · rw [endMetaBlock_cmd]; exact h

theorem readDistance_widths {n d : Nat} (h : s.cmd.WidthsOk) (hd : d < 2 ^ 10) :
    (readDistance n d s).cmd.WidthsOk := by
  obtain ⟨h1, h2, -, -, h5⟩ := h
  rw [readDistance_cmd]
  exact ⟨h1, h2, distCtxOf_lt _, hd, h5⟩

theorem CmdRegs.WidthsOk.distance {c : CmdRegs} (h : c.WidthsOk) {d : Nat} (hd : d < 2 ^ 32) :
    ({ c with distance := d } : CmdRegs).WidthsOk := by
  obtain ⟨h1, h2, h3, h4, -⟩ := h
  exact ⟨h1, h2, h3, h4, hd⟩

/-- A short code adds at most 3 to a last distance. -/
theorem shortDistance_lt {h : DistRing} {d far : Nat} (hh : h.Ok far) (hd : d < 16) (hfar : far < 2 ^ 24) :
    shortDistance h d < 2 ^ 32 := by
  have hdelta : (shortTable.getD d (1, 0)).2 ≤ 3 := by interval_cases d <;> decide
  have hlast : h.last (shortTable.getD d (1, 0)).1 ≤ far := (hh _).2
  simp only [shortDistance]
  omega

theorem rangedBits_le {np nd d : Nat} (hd : d < 16 + nd + 48 <<< np) : rangedBits np nd d ≤ 24 := by
  have hk : d - nd - 16 < 2 ^ (np + 1) * 24 := by
    have : 48 <<< np = 2 ^ (np + 1) * 24 := by rw [Nat.shiftLeft_eq]; ring
    have := Nat.two_pow_pos (np + 1)
    omega
  have hdiv := Nat.div_lt_of_lt_mul hk
  rw [← Nat.shiftRight_eq_div_pow] at hdiv
  simp only [rangedBits]
  omega

/-- R142: the widest ranged distance. -/
theorem rangedDistance_lt {np nd d x : Nat} (hnp : np ≤ 3) (hnd : nd ≤ 120) (hd : d < 16 + nd + 48 <<< np)
    (hx : x < 2 ^ rangedBits np nd d) : rangedDistance np nd d x < 2 ^ 32 := by
  have hbits : 2 ^ rangedBits np nd d ≤ 2 ^ 24 := Nat.pow_le_pow_right (by decide) (rangedBits_le hd)
  have hnp8 : 2 ^ np ≤ 2 ^ 3 := Nat.pow_le_pow_right (by decide) hnp
  have hlow : (d - nd - 16) % 2 ^ np < 2 ^ np := Nat.mod_lt _ (Nat.two_pow_pos np)
  have hhead : 2 + ((d - nd - 16) >>> np) % 2 ≤ 3 := by omega
  simp only [rangedDistance, Nat.shiftLeft_eq]
  generalize 2 + ((d - nd - 16) >>> np) % 2 = head at hhead
  have hoffset : head * 2 ^ rangedBits np nd d ≤ 3 * 2 ^ 24 := Nat.mul_le_mul hhead hbits
  have hsum : head * 2 ^ rangedBits np nd d - 4 + x ≤ 2 ^ 26 := by omega
  have hprod := Nat.mul_le_mul hsum hnp8
  omega

/-! ### Every move -/

/-- A distance symbol that is read keeps the widths, and so does the distance that is then set. -/
theorem distance_widths {n d v : Nat} (hmb : s.mb.WidthsOk) (hcmd : s.cmd.WidthsOk) (hd : d < 2 ^ 10)
    (hv : v < 2 ^ 32) : (readDistance n d s).mb.WidthsOk ∧
    ({ (readDistance n d s).cmd with distance := v } : CmdRegs).WidthsOk := by
  rw [readDistance_mb]
  exact ⟨countDown_widths .distance hmb, (readDistance_widths hcmd hd).distance hv⟩

theorem RunMove.registers_widths (hm : RunMove s t) (hs : RunOk s) (hw : WidthsOk s) :
    t.mb.WidthsOk ∧ t.cmd.WidthsOk := by
  obtain ⟨-, hhistOk, -, hok⟩ := hs
  obtain ⟨-, hpos, -, hback, hhist, hmb, hcmd⟩ := hw
  have hfar : max 16 (maxDistance s) < 2 ^ 24 := by unfold maxDistance; omega
  cases hm with
  | abort | window | notLast | last | notEmpty | empty | nibbles | nibble | countMore | mode | noRuns | runs | rleMax
  | mapRun | simple | complex | symbolCount | symbol | repeatPrev | repeatZero | blockCount | abortCopy | padding =>
    exact ⟨hmb, hcmd⟩
  | lastNibble i n v x hc hn hi =>
    simp only [CtlOk, hc] at hok
    obtain ⟨hin, -, h6, hv⟩ := hok
    have hlt := nibble_lt x hv
    have hpow : 16 ^ (i + 1) ≤ 16 ^ 6 := Nat.pow_le_pow_right (by decide) (by omega)
    refine ⟨storeMlen_widths hmb hpos (by omega), ?_⟩
    obtain ⟨k, b, e⟩ := storeMlen_header (v + x.toNat <<< (4 * i)) (advance 4 s)
    rw [e]
    exact hcmd
  | compressed => exact ⟨enterBlockInfo_widths hmb, hcmd⟩
  | count u v n hc hn h1 h2 => exact ⟨storeCount_widths hmb (h2.trans (by decide)), by simpa using hcmd⟩
  | countExtra u v1 x hc hn hx =>
    obtain ⟨-, -, h7⟩ := (ctlOk_countX hc).1 hok
    have hpow : 2 ^ v1 ≤ 2 ^ 7 := Nat.pow_le_pow_right (by decide) h7
    exact ⟨storeCount_widths hmb (by omega), by simpa using hcmd⟩
  | npostfix v =>
    obtain ⟨h1, h2, h3, h4, h5, -, h7⟩ := hmb
    exact ⟨⟨h1, h2, h3, h4, h5, v.isLt, h7⟩, hcmd⟩
  | ndirect v hc =>
    simp only [CtlOk, hc] at hok
    obtain ⟨-, -, -, hnp⟩ := hok
    obtain ⟨h1, h2, h3, h4, h5, h6, -, -, h9⟩ := hmb
    have hnd : v.toNat <<< s.mb.npostfix ≤ 120 := ndirect_le v hnp
    have hpow : 2 ^ s.mb.npostfix ≤ 2 ^ 3 := Nat.pow_le_pow_right (by decide) hnp
    have halpha : 16 + v.toNat <<< s.mb.npostfix + 48 <<< s.mb.npostfix < 2 ^ 10 := by
      rw [Nat.shiftLeft_eq 48]; omega
    exact ⟨⟨h1, h2, h3, h4, h5, h6, Nat.lt_of_le_of_lt hnd (by decide), halpha, h9⟩, hcmd⟩
  | mapEntry => exact ⟨by simpa using hmb, by simpa using hcmd⟩
  | mapZeros => exact ⟨by simpa using hmb, by simpa using hcmd⟩
  | mapRead m acc entries hc hn he =>
    simp only [CtlOk, hc] at hok
    obtain ⟨⟨-, -, -, h256, -⟩, -, hacc⟩ := hok
    refine ⟨storeMap_widths hmb fun e hmem => ?_, by simpa using hcmd⟩
    obtain rfl | rfl := he
    · exact (hacc e hmem).trans_le h256
    · exact (inverseMtf_lt h256 acc hacc e hmem).trans_le h256
  | lastSymbol u nsym syms bad bad' v n =>
    exact ⟨finishSymbols_widths hmb, cmd_widths_of_header (finishSymbols_eq u _ _ _) hcmd⟩
  | tree => exact ⟨storeCode_widths hmb, by simpa [simpleCode] using hcmd⟩
  | clEntry u st v n => exact ⟨nextClEntry_widths hmb, cmd_widths_of_header (nextClEntry_eq u _ _) hcmd⟩
  | length => exact ⟨nextLength_widths hmb, by simpa using hcmd⟩
  | repeatedPrev u T st x => exact ⟨applyRepeat_widths hmb, cmd_widths_of_header (applyRepeat_eq u T st _ _ _ _) hcmd⟩
  | repeatedZero u T st x => exact ⟨applyRepeat_widths hmb, cmd_widths_of_header (applyRepeat_eq u T st _ _ _ _) hcmd⟩
  | blockType c v n hc hn hv =>
    simp only [CtlOk, hc] at hok
    obtain ⟨hh, -, ⟨h2, -⟩, -⟩ := hok
    obtain ⟨-, h256, h3, -, h5⟩ := hh.blockOk c
    have hlast := (h5 h2).1
    have hlt : reduceType (s.block c).numTypes v < (s.block c).numTypes := reduceType_lt (by omega)
    exact ⟨switchType_widths hmb (hlt.trans_le h256), hcmd⟩
  | blockLen c sw k x n hc hn hx =>
    have hk : k < Config.bcountAlphabet := by
      cases sw <;> simp only [CtlOk, hc] at hok
      · obtain ⟨-, -, -, -, -, hk⟩ := hok
        exact hk
      · obtain ⟨-, -, -, -, hk⟩ := hok
        exact hk
    refine ⟨storeBlockLen_widths hmb ?_, by simpa using hcmd⟩
    exact Nat.lt_of_le_of_lt (blenTable_bounds hk hx).2 (by decide)
  | abortCommand | abortLiteral | fullLiteral => exact ⟨countDown_widths _ hmb, by simpa using hcmd⟩
  | command => exact ⟨countDown_widths _ hmb, hcmd⟩
  | insertLen icode ccode x n hc hn hx =>
    simp only [CtlOk, hc] at hok
    obtain ⟨-, -, hk, -⟩ := hok
    obtain ⟨-, hrest⟩ := hcmd
    exact ⟨hmb, insTable_bound hk hx, hrest⟩
  | copyLen ccode x n hc hn hx =>
    simp only [CtlOk, hc] at hok
    obtain ⟨-, -, hk⟩ := hok
    obtain ⟨h1, -, hrest⟩ := hcmd
    exact ⟨by simpa using hmb, nextInsert_widths ⟨h1, cpyTable_bound hk hx, hrest⟩ (hhist _)⟩
  | literal b n hc =>
    obtain ⟨h1, hrest⟩ := hcmd
    have hlast : s.hist.last 1 < 2 ^ 32 := hhist _
    refine ⟨by simpa using countDown_widths .literal hmb, nextInsert_widths ?_ (by simpa using hlast)⟩
    rw [countLiteral_cmd]
    simp only [putByte_cmd, advance_cmd, countDown_cmd]
    exact ⟨(Nat.sub_le _ _).trans_lt h1, hrest⟩
  | abortDistance hc =>
    obtain ⟨h1, h2, -, hrest⟩ := hcmd
    refine ⟨countDown_widths _ hmb, ?_⟩
    rw [raise_cmd, countDistance_cmd]
    exact ⟨h1, h2, distCtxOf_lt _, hrest⟩
  | badShort d n hc hn hd hv =>
    rw [raise_mb, raise_cmd, writeDistance_mb, writeDistance_cmd]
    exact distance_widths hmb hcmd (by omega) (storedDistance_lt (shortDistance_lt hhistOk hd hfar))
  | short d n hc hn hd hv =>
    rw [setDistance_mb, setDistance_cmd]
    exact distance_widths hmb hcmd (by omega) (storedDistance_lt (shortDistance_lt hhistOk hd hfar))
  | direct d n hc hn hlo hd =>
    obtain ⟨-, -, -, -, -, -, hnd, -⟩ := id hmb
    rw [setDistance_mb, setDistance_cmd]
    exact distance_widths hmb hcmd (by omega) (by omega)
  | ranged d n hc hn hlo hd =>
    obtain ⟨-, -, -, -, -, -, -, halpha, -⟩ := id hmb
    rw [goto_mb, goto_cmd, readDistance_mb]
    exact ⟨countDown_widths _ hmb, readDistance_widths hcmd (hd.trans halpha)⟩
  | rangedExtra x n hc hn hx =>
    simp only [CtlOk, hc] at hok
    obtain ⟨⟨⟨⟨-, ⟨hnp, hnd, halpha⟩, -⟩, -⟩, -⟩, -, -, -, hd⟩ := hok
    exact ⟨hmb, hcmd.distance (rangedDistance_lt hnp hnd (halpha ▸ hd) hx)⟩
  | copy => exact ⟨by simpa using hmb, by simpa using hcmd⟩

theorem endBit_lt (s : State) : endBit s < 2 ^ 35 := by
  have := s.cfgInLen.isLt
  unfold endBit
  omega

theorem PushedHist.slot_lt {h : DistRing} (hp : PushedHist s h) (hs : ∀ i, s.hist.slot i < 2 ^ 32)
    (hd : s.cmd.distance < 2 ^ 32) (i : BitVec 2) : h.slot i < 2 ^ 32 := by
  obtain rfl | ⟨-, rfl⟩ := hp
  · exact hs i
  · rw [push_slot]
    split
    · exact hd
    · exact hs i

/-- The widths of the registers outside the meta-block and command registers. -/
theorem Footprint.widths (h : Footprint s t) (hw : WidthsOk s) (hmb : t.mb.WidthsOk) (hcmd : t.cmd.WidthsOk) :
    WidthsOk t := by
  obtain ⟨hbit, hpos, hwb, hback, hhist, -, ⟨-, -, -, -, hdist⟩⟩ := hw
  have hend := endBit_lt s
  have hcap := s.cfgOutCap.isLt
  cases h with
  | goes b k m c hc hb hle => exact ⟨hle.trans_lt hend, hpos, hwb, hback, hhist, hmb, hcmd⟩
  | ends e b m c he hb hle =>
    exact ⟨hle.elim (fun h => h ▸ hbit) (fun h => h.trans_lt hend), hpos, hwb, hback, hhist, hmb, hcmd⟩
  | window w n hc hn hlo hhi =>
    have hpow : 2 ^ w ≤ 2 ^ 24 := Nat.pow_le_pow_right (by decide) hhi
    have hwindow : 2 ^ w - 16 < 2 ^ 24 := by have := Nat.two_pow_pos w; omega
    exact ⟨Nat.lt_of_le_of_lt hn hend, hpos, Nat.lt_of_le_of_lt hhi (by decide), hwindow, hhist, hmb, hcmd⟩
  | byte x b k m c hc hb hle hlt => exact ⟨hle.trans_lt hend, Nat.lt_of_le_of_lt hlt hcap, hwb, hback, hhist, hmb, hcmd⟩
  | abortCopy h hc hp => exact ⟨hbit, hpos, hwb, hback, hp.slot_lt hhist hdist, hmb, hcmd⟩
  | copy h bs k hc hp hle =>
    exact ⟨by simpa using hbit, by simpa using hle.trans_lt hcap, by simpa using hwb, by simpa using hback,
      by simpa using hp.slot_lt hhist hdist, hmb, hcmd⟩

theorem hostMove_widths (c : HostCmd) (h : WidthsOk s) : WidthsOk (hostMove c s) := by
  obtain e | ⟨-, e⟩ | ⟨-, l, b, o, i, m, e⟩ := hostMove_cases c s <;> rw [e]
  · exact h
  · obtain ⟨-, -, hwb, hback, -, hmb, hcmd⟩ := h
    exact ⟨s.cfgStartBit.isLt, (by decide : 0 < 2 ^ 32), hwb, hback,
      (by decide : ∀ i : BitVec 2, DistRing.start.slot i < 2 ^ 32), hmb, hcmd⟩
  · exact h

/-- Settles O56: the meta-block and command registers by the case analysis over the moves, the others by the
footprint. -/
theorem stepKeepsWidths : Obligations.StepKeepsWidths := by
  intro s t h hw hstep
  obtain ⟨c, rest, -, rfl⟩ | ⟨-, -, rfl⟩ | ⟨-, hrun, hm⟩ := step_cases hstep
  · exact hostMove_widths (s := { s with hostq := rest }) c hw
  · exact hw
  · obtain ⟨-, -, hrunOk⟩ := h
    obtain ⟨hmb, hcmd⟩ := hm.registers_widths (hrunOk hrun) hw
    exact hm.footprint.widths hw hmb hcmd

end Sys2Proof.Machine
end

section
/-! The memories: the bit reader's view of `IN`, the words of `DICT`, and `RING` as the last window of `OUT`. -/

namespace Sys2Proof.Machine

variable {s t : State}

/-! ### `PeekBits` -/

/-- A peek of one more bit puts that bit on top. -/
theorem peekBits_succ (s : State) (n : Nat) :
    peekBits s (n + 1) = 2 ^ n * (streamBit s (s.bitpos + n)).toNat + peekBits s n := by
  rw [peekBits, Nat.shiftLeft_eq, Nat.mul_comm, Nat.add_comm]

theorem peekBits_lt (s : State) (n : Nat) : peekBits s n < 2 ^ n := by
  induction n with
  | zero => exact Nat.one_pos
  | succ n ih =>
    have hbit := Nat.mul_le_mul_left (2 ^ n) (Bool.toNat_le (streamBit s (s.bitpos + n)))
    rw [peekBits_succ, Nat.pow_succ]
    omega

/-- R45: bit `i` of a peek is stream bit `bitpos + i`. -/
theorem peekBits_testBit (s : State) (n i : Nat) :
    (peekBits s n).testBit i = (decide (i < n) && streamBit s (s.bitpos + i)) := by
  induction n with
  | zero => simp [peekBits]
  | succ n ih =>
    rw [peekBits_succ, Nat.testBit_two_pow_mul_add _ (peekBits_lt s n), ih, Nat.testBit_bool_toNat]
    obtain hi | rfl | hi := Nat.lt_trichotomy i n
    · simp [hi, Nat.lt_succ_of_lt hi]
    · simp
    · simp [Nat.not_lt.2 hi.le, Nat.not_le.2 hi, Nat.sub_ne_zero_of_lt hi]

/-- The cursor is no part of what a stream bit is. -/
@[simp] theorem streamBit_advance (n : Nat) (s : State) (k : Nat) : streamBit (advance n s) k = streamBit s k := rfl

/-- R48: a longer peek is a shorter one with a peek at the moved cursor above it. -/
theorem peekBits_add (s : State) (a b : Nat) :
    peekBits s (a + b) = peekBits s a + 2 ^ a * peekBits (advance a s) b := by
  induction b with
  | zero => simp [peekBits]
  | succ b ih =>
    rw [← Nat.add_assoc, peekBits_succ, peekBits_succ, ih, streamBit_advance, advance_bitpos, Nat.add_assoc s.bitpos]
    ring

/-! ### The words of `DICT` -/

theorem doffset_succ {l : Nat} (hl : 4 ≤ l) : doffset (l + 1) = doffset l + l * 2 ^ ndbits l := by
  rw [doffset, if_neg (Nat.not_lt.2 hl)]

/-- The words of a length lie before those of every greater length. -/
theorem doffset_mono {l m : Nat} (hl : 4 ≤ l) (hm : l ≤ m) : doffset l ≤ doffset m := by
  induction m, hm using Nat.le_induction with
  | base => exact le_rfl
  | succ m hm ih =>
    rw [doffset_succ (hl.trans hm)]
    exact ih.trans (Nat.le_add_right _ _)

/-- The words of length 24 are the last ones. -/
theorem doffset_end : doffset 25 = Config.dictSize := by decide

/-- Byte `j` of word `idx` lies before the end of its length's words. -/
theorem word_byte_lt {idx n j len : Nat} (hidx : idx < n) (hj : j < len) : idx * len + j < len * n :=
  calc idx * len + j < idx * len + len := Nat.add_lt_add_left hj _
    _ = (idx + 1) * len := (Nat.succ_mul idx len).symm
    _ ≤ n * len := Nat.mul_le_mul_right len hidx
    _ = len * n := Nat.mul_comm n len

theorem dictWord_byte_lt {len idx j : Nat} (h4 : 4 ≤ len) (h24 : len ≤ 24) (hidx : idx < 2 ^ ndbits len) (hj : j < len) :
    doffset len + idx * len + j < Config.dictSize :=
  calc doffset len + idx * len + j = doffset len + (idx * len + j) := Nat.add_assoc _ _ _
    _ < doffset len + len * 2 ^ ndbits len := Nat.add_lt_add_left (word_byte_lt hidx hj) _
    _ = doffset (len + 1) := (doffset_succ h4).symm
    _ ≤ doffset 25 := doffset_mono (by omega) (by omega)
    _ = Config.dictSize := doffset_end

/-! ### `RING` as the last window of `OUT` -/

/-- R32: two output positions less than a ring apart have different ring indices. -/
theorem ring_index_ne {i p w : Nat} (hi : i < p) (hp : p < i + w) : i % w ≠ p % w := by
  intro h
  have hdvd : w ∣ p - i := (Nat.modEq_iff_dvd' hi.le).1 h
  have := Nat.le_of_dvd (by omega) hdvd
  omega

/-- With nothing output there is nothing to agree on. -/
theorem RingAgrees.of_pos_eq_zero (h : s.pos = 0) : RingAgrees s :=
  fun i hi => absurd hi (by omega)

/-- R146: an output byte goes to `OUT` and to `RING`, where it displaces the byte one window back. -/
theorem RingAgrees.putByte (h : RingAgrees s) (ho : s.outMem.wf = true) (hr : s.ring.wf = true) (b : Byte) :
    RingAgrees (putByte b s) := by
  intro i hi hwin
  simp only [putByte_pos, putByte_wbits] at hi hwin
  simp only [putByte_ring, putByte_outMem, putByte_wbits, ringIndex, memRead_memWrite hr, memRead_memWrite ho]
  obtain hlt | rfl := Nat.lt_succ_iff_lt_or_eq.1 hi
  · rw [if_neg (ring_index_ne hlt (by omega)), if_neg hlt.ne]
    exact h i hlt (by omega)
  · rw [if_pos rfl, if_pos rfl]

theorem RingAgrees.putBytes (h : RingAgrees s) (ho : s.outMem.wf = true) (hr : s.ring.wf = true) (bs : List Byte) :
    RingAgrees (putBytes bs s) := by
  induction bs generalizing s with
  | nil => exact h
  | cons b bs ih =>
    obtain ⟨ho', hr'⟩ := putByte_wf b s ho hr
    exact ih (h.putByte ho hr b) ho' hr'

/-- A move of a running decode that goes on keeps `RING` the last window of `OUT`. -/
theorem Footprint.ringAgrees (hf : Footprint s t) (hmem : MemoriesWf s) (hwindow : s.ctl = .window → s.pos = 0)
    (h : RingAgrees s) (hrun : t.phase = .run) : RingAgrees t := by
  obtain ⟨-, ho, hr, -⟩ := hmem
  cases hf with
  | goes => exact h
  | ends | abortCopy => exact absurd hrun nofun
  | window w n hc => exact .of_pos_eq_zero (hwindow hc)
  | byte x => exact h.putByte ho hr x
  | copy hist bs => exact RingAgrees.putBytes (s := { s with hist := hist }) h ho hr bs

/-- The invariant's promise at the window field. -/
theorem MachineInv.pos_eq_zero (h : MachineInv s) (hrun : s.phase = .run) (hc : s.ctl = .window) : s.pos = 0 := by
  obtain ⟨-, -, hrunOk⟩ := h
  obtain ⟨-, -, -, hok⟩ := hrunOk hrun
  simpa only [CtlOk, hc] using hok

theorem hostMove_ringAgrees (c : HostCmd) (h : s.phase = .run → RingAgrees s)
    (hrun : (hostMove c s).phase = .run) : RingAgrees (hostMove c s) := by
  obtain e | ⟨-, e⟩ | ⟨hp, l, b, o, i, m, e⟩ := hostMove_cases c s <;> rw [e] at hrun ⊢
  · exact h hrun
  · exact .of_pos_eq_zero rfl
  · exact absurd hrun hp

/-! ### The obligations -/

/-- Settles O55: nothing has been output where the window is set, and every output byte goes to both memories. That
nothing has been output at the window field afterwards is part of the machine's invariant. -/
theorem ringHoldsTheWindow : Obligations.RingHoldsTheWindow := by
  intro s t h hring hstep hrun
  refine ⟨(stepKeepsMachineInv s t h hstep).pos_eq_zero hrun, ?_⟩
  have hagrees : s.phase = .run → RingAgrees s := fun hs => (hring hs).2
  obtain ⟨c, rest, -, rfl⟩ | ⟨-, -, rfl⟩ | ⟨-, hs, hm⟩ := step_cases hstep
  · exact hostMove_ringAgrees (s := { s with hostq := rest }) c hagrees hrun
  · exact hagrees hrun
  · obtain ⟨hmem, -, -⟩ := id h
    exact hm.footprint.ringAgrees hmem (h.pos_eq_zero hs) (hagrees hs) hrun

/-- Settles O10: the bits of a peek and its split by induction on its width; a stream bit is defined by its side of
`END`. -/
theorem peekIsLittleEndian : Obligations.PeekIsLittleEndian := by
  intro s
  exact ⟨peekBits_testBit s, peekBits_add s, fun k hk => if_pos hk, fun k hk => if_neg (Nat.not_lt.2 hk)⟩

/-- Settles O48: the words of each length end where the next length's begin, and those of length 24 at the size of
`DICT`. -/
theorem dictionaryWordsInsideRom : Obligations.DictionaryWordsInsideRom :=
  ⟨by decide, rfl, fun _ => doffset_succ, rfl, fun _ _ _ => dictWord_byte_lt,
    (doffset_succ (by decide)).symm.trans doffset_end⟩

end Sys2Proof.Machine
end

section
/-! Prefix codes: the canonical codewords of a complete length array split the 15-bit lookahead values into one interval
for each symbol, so that the bit-by-bit lookup finds exactly one codeword (R87, R88, R90, R98). -/

namespace Sys2Proof.Machine

/-! ### The sorted symbols -/

theorem mem_symsOfLen {L : List Nat} {l s : Nat} : s ∈ symsOfLen L l ↔ L[s]? = some l := by
  simp [symsOfLen, List.mk_mem_zipIdx_iff_getElem?]

/-- R88: the symbols with a codeword are those of a length from 1 to 15. -/
theorem mem_sortedSyms {L : List Nat} {l s : Nat} :
    (l, s) ∈ sortedSyms L ↔ L[s]? = some l ∧ 1 ≤ l ∧ l ≤ Config.maxCodeLen := by
  simp only [sortedSyms, List.mem_flatMap, List.mem_range, List.mem_map, Prod.mk.injEq, mem_symsOfLen]
  constructor
  · rintro ⟨k, hk, s, hs, rfl, rfl⟩
    exact ⟨hs, Nat.le_add_left 1 k, hk⟩
  · rintro ⟨hs, h1, h15⟩
    exact ⟨l - 1, by omega, s, by rwa [Nat.sub_add_cancel h1], Nat.sub_add_cancel h1, rfl⟩

theorem sortedSyms_sorted (L : List Nat) : (sortedSyms L).Pairwise (fun a b => a.1 ≤ b.1) := by
  rw [sortedSyms, List.pairwise_flatMap]
  refine ⟨fun k _ => ?_, List.pairwise_lt_range.imp fun {j k} hjk a ha b hb => ?_⟩
  · exact List.pairwise_map.2 (List.pairwise_of_forall fun _ _ => le_rfl)
  · obtain ⟨-, -, rfl⟩ := List.mem_map.1 ha
    obtain ⟨-, -, rfl⟩ := List.mem_map.1 hb
    exact Nat.succ_le_succ hjk.le

theorem symsOfLen_nodup (L : List Nat) (l : Nat) : (symsOfLen L l).Nodup := by
  have hidx : (L.zipIdx.map (·.2)).Nodup := by
    rw [List.zipIdx_map_snd]
    exact List.nodup_range'
  exact hidx.sublist (List.filter_sublist.map _)

theorem sortedSyms_nodup (L : List Nat) : (sortedSyms L).Nodup := by
  rw [sortedSyms, List.nodup_flatMap]
  refine ⟨fun k _ => (symsOfLen_nodup L (k + 1)).map (Prod.mk_right_injective _), ?_⟩
  refine List.nodup_range.imp fun {j k} hne => ?_
  rw [Function.onFun, List.disjoint_left]
  intro e hmj hmk
  obtain ⟨a, -, rfl⟩ := List.mem_map.1 hmj
  obtain ⟨b, -, he⟩ := List.mem_map.1 hmk
  exact hne (Nat.succ_injective (congrArg Prod.fst he)).symm

/-! ### The Kraft space of the sorted symbols (R87) -/

/-- The space that a list of (length, symbol) pairs takes. -/
def spaceOf (es : List (Nat × Nat)) : Nat := (es.map fun e => 2 ^ (Config.maxCodeLen - e.1)).sum

theorem spaceOf_symsOfLen (L : List Nat) (l : Nat) :
    spaceOf ((symsOfLen L l).map fun s => (l, s)) = L.count l * 2 ^ (Config.maxCodeLen - l) := by
  have hlen : (symsOfLen L l).length = L.count l := by
    rw [symsOfLen, List.length_map, ← List.countP_eq_length_filter]
    conv_rhs => rw [← List.zipIdx_map_fst 0 L, List.count, List.countP_map]
    rfl
  simp [spaceOf, Function.comp_def, hlen]

theorem kraftSum_eq_counts {L : List Nat} (hL : ∀ l ∈ L, l ≤ Config.maxCodeLen) : kraftSum L =
    ((List.range Config.maxCodeLen).map fun k => L.count (k + 1) * 2 ^ (Config.maxCodeLen - (k + 1))).sum := by
  induction L with
  | nil => rfl
  | cons l L ih =>
    have hl : l ≤ Config.maxCodeLen := hL l List.mem_cons_self
    have hhead : kraftShare l = ((List.range Config.maxCodeLen).map fun k =>
        (if l = k + 1 then 1 else 0) * 2 ^ (Config.maxCodeLen - (k + 1))).sum := by
      simp only [Config.maxCodeLen] at hl
      interval_cases l <;> rfl
    have hrest := ih fun m hm => hL m (List.mem_cons_of_mem _ hm)
    simp only [kraftSum, List.map_cons, List.sum_cons] at hrest ⊢
    simp only [List.count_cons, beq_iff_eq, Nat.add_mul, List.sum_map_add, hhead, ← hrest]
    exact Nat.add_comm _ _

/-- The sorted symbols take the space of the array. -/
theorem spaceOf_sortedSyms {L : List Nat} (hL : ∀ l ∈ L, l ≤ Config.maxCodeLen) :
    spaceOf (sortedSyms L) = kraftSum L := by
  rw [kraftSum_eq_counts hL]
  simp only [← spaceOf_symsOfLen]
  simp only [spaceOf, sortedSyms, List.flatMap_def, List.map_flatten, List.sum_flatten, List.map_map,
    Function.comp_def]

/-! ### Codewords as intervals (R88) -/

/-- The 15-bit value `x`, its first stream bit on top, begins with the codeword of the entry `e`. -/
def Covers (x : Nat) (e : Nat × Nat × Nat) : Prop := x / 2 ^ (Config.maxCodeLen - e.1) = e.2.1

theorem covers_iff {x : Nat} {e : Nat × Nat × Nat} : Covers x e ↔
    e.2.1 * 2 ^ (Config.maxCodeLen - e.1) ≤ x ∧ x < (e.2.1 + 1) * 2 ^ (Config.maxCodeLen - e.1) := by
  have hpos := Nat.two_pow_pos (Config.maxCodeLen - e.1)
  rw [Covers, Nat.div_eq_iff hpos, Nat.add_mul]
  omega

/-- The assignment keeps the lengths and symbols. -/
theorem assign_syms (es : List (Nat × Nat)) (code prevlen : Nat) :
    (assign es code prevlen).map (fun e => (e.1, e.2.2)) = es := by
  induction es generalizing code prevlen with
  | nil => rfl
  | cons e es ih => simp only [assign, List.map_cons, ih]

/-- Lengths that can follow `prevlen` in the sorted order. -/
def LengthsFrom (prevlen : Nat) (es : List (Nat × Nat)) : Prop :=
  es.Pairwise (fun a b => a.1 ≤ b.1) ∧ ∀ e ∈ es, prevlen ≤ e.1 ∧ e.1 ≤ Config.maxCodeLen

theorem LengthsFrom.tail {p : Nat} {e : Nat × Nat} {es : List (Nat × Nat)} (h : LengthsFrom p (e :: es)) :
    LengthsFrom e.1 es := by
  obtain ⟨hs, hb⟩ := h
  obtain ⟨hle, hs⟩ := List.pairwise_cons.1 hs
  exact ⟨hs, fun e' he' => ⟨hle e' he', (hb e' (List.mem_cons_of_mem _ he')).2⟩⟩

/-- The next codeword starts where the last one ended. -/
theorem shifted_code_start {code p l : Nat} (hp : p ≤ l) (hl : l ≤ Config.maxCodeLen) :
    code <<< (l - p) * 2 ^ (Config.maxCodeLen - l) = code * 2 ^ (Config.maxCodeLen - p) := by
  rw [Nat.shiftLeft_eq, Nat.mul_assoc, ← Nat.pow_add]
  congr 2
  omega

/-- The assigned codewords split the space from the start of the first one into one interval for each entry. -/
theorem assign_covers (es : List (Nat × Nat)) (code p : Nat) (h : LengthsFrom p es) :
    (∀ x e, e ∈ assign es code p → Covers x e →
      code * 2 ^ (Config.maxCodeLen - p) ≤ x ∧ x < code * 2 ^ (Config.maxCodeLen - p) + spaceOf es) ∧
    ∀ x, code * 2 ^ (Config.maxCodeLen - p) ≤ x → x < code * 2 ^ (Config.maxCodeLen - p) + spaceOf es →
      ∃! e, e ∈ assign es code p ∧ Covers x e := by
  induction es generalizing code p with
  | nil => exact ⟨nofun, fun x h1 h2 => absurd h1 (Nat.not_le.2 h2)⟩
  | cons e es ih =>
    obtain ⟨l, s⟩ := e
    obtain ⟨hp, hl⟩ := h.2 _ List.mem_cons_self
    have hstart := shifted_code_start (code := code) hp hl
    obtain ⟨hin, hex⟩ := ih (code <<< (l - p) + 1) l h.tail
    have hhead : ∀ x, Covers x (l, code <<< (l - p), s) ↔ code * 2 ^ (Config.maxCodeLen - p) ≤ x ∧
        x < code * 2 ^ (Config.maxCodeLen - p) + 2 ^ (Config.maxCodeLen - l) := by
      intro x
      rw [covers_iff, Nat.add_mul, hstart, Nat.one_mul]
    have hpos := Nat.two_pow_pos (Config.maxCodeLen - l)
    have hspace : spaceOf ((l, s) :: es) = 2 ^ (Config.maxCodeLen - l) + spaceOf es := by simp [spaceOf]
    simp only [Nat.add_mul, hstart, Nat.one_mul] at hin hex
    simp only [assign, List.mem_cons, hspace]
    refine ⟨fun x e he hc => ?_, fun x h1 h2 => ?_⟩
    · obtain rfl | he := he
      · have := (hhead x).1 hc
        omega
      · have := hin x e he hc
        omega
    · by_cases hx : x < code * 2 ^ (Config.maxCodeLen - p) + 2 ^ (Config.maxCodeLen - l)
      · refine ⟨_, ⟨.inl rfl, (hhead x).2 ⟨h1, hx⟩⟩, fun e ⟨he, hc⟩ => he.resolve_right fun he => ?_⟩
        have := hin x e he hc
        omega
      · obtain ⟨e, ⟨he, hc⟩, huniq⟩ := hex x (by omega) (by omega)
        refine ⟨e, ⟨.inr he, hc⟩, fun e' ⟨he', hc'⟩ => ?_⟩
        obtain rfl | he' := he'
        · exact absurd ((hhead x).1 hc').2 hx
        · exact huniq e' ⟨he', hc'⟩

/-! ### The codewords of a complete length array -/

theorem valid_lengths {A : Nat} {L : List Nat} (h : (Code.lengths L).valid A = true) :
    L.length = A ∧ (∀ l ∈ L, l ≤ Config.maxCodeLen) ∧ kraftSum L = Config.fullSpace := by
  simp only [Code.valid, Bool.and_eq_true, beq_iff_eq, List.all_eq_true, decide_eq_true_eq] at h
  obtain ⟨⟨⟨hlen, hb⟩, hsum⟩, -⟩ := h
  exact ⟨hlen, hb, hsum⟩

theorem sortedSyms_lengthsFrom (L : List Nat) : LengthsFrom 0 (sortedSyms L) :=
  ⟨sortedSyms_sorted L, fun _ he => ⟨Nat.zero_le _, (mem_sortedSyms.1 he).2.2⟩⟩

/-- Every 15-bit value begins with exactly one codeword of a complete code. -/
theorem canonical_covers {A : Nat} {L : List Nat} (h : (Code.lengths L).valid A = true) {x : Nat}
    (hx : x < 2 ^ Config.maxCodeLen) : ∃! e, e ∈ canonical L ∧ Covers x e := by
  obtain ⟨-, hb, hsum⟩ := valid_lengths h
  refine (assign_covers _ 0 0 (sortedSyms_lengthsFrom L)).2 x (by omega) ?_
  rw [spaceOf_sortedSyms hb, hsum, Nat.zero_mul, Nat.zero_add]
  exact hx

/-- The values that begin with a codeword have 15 bits. -/
theorem lt_of_covers {A : Nat} {L : List Nat} (h : (Code.lengths L).valid A = true) {e : Nat × Nat × Nat}
    (he : e ∈ canonical L) {x : Nat} (hc : Covers x e) : x < 2 ^ Config.maxCodeLen := by
  obtain ⟨-, hb, hsum⟩ := valid_lengths h
  have := ((assign_covers _ 0 0 (sortedSyms_lengthsFrom L)).1 x e he hc).2
  rwa [spaceOf_sortedSyms hb, hsum, Nat.zero_mul, Nat.zero_add] at this

theorem canonical_syms (L : List Nat) : (canonical L).map (fun e => (e.1, e.2.2)) = sortedSyms L :=
  assign_syms _ 0 0

/-- The length of an entry is that of its symbol. -/
theorem canonical_length {L : List Nat} {e : Nat × Nat × Nat} (he : e ∈ canonical L) :
    L[e.2.2]? = some e.1 ∧ 1 ≤ e.1 ∧ e.1 ≤ Config.maxCodeLen :=
  mem_sortedSyms.1 (canonical_syms L ▸ List.mem_map_of_mem he)

/-- A symbol has one codeword. -/
theorem canonical_unique {L : List Nat} {e e' : Nat × Nat × Nat} (he : e ∈ canonical L) (he' : e' ∈ canonical L)
    (h : e.2.2 = e'.2.2) : e = e' := by
  have hl : e.1 = e'.1 := by
    have := (canonical_length he).1
    rw [h, (canonical_length he').1] at this
    exact (Option.some.inj this).symm
  have hnodup : ((canonical L).map fun e => (e.1, e.2.2)).Nodup := (canonical_syms L).symm ▸ sortedSyms_nodup L
  exact List.inj_on_of_nodup_map hnodup he he' (Prod.ext hl h)

/-- A codeword of `l` bits is below `2^l`. -/
theorem canonical_code_lt {A : Nat} {L : List Nat} (h : (Code.lengths L).valid A = true) {e : Nat × Nat × Nat}
    (he : e ∈ canonical L) : e.2.1 < 2 ^ e.1 := by
  have hc : Covers (e.2.1 * 2 ^ (Config.maxCodeLen - e.1)) e := Nat.mul_div_cancel _ (Nat.two_pow_pos _)
  have hlt := lt_of_covers h he hc
  have hl : Config.maxCodeLen = e.1 + (Config.maxCodeLen - e.1) := by have := (canonical_length he).2.2; omega
  rw [hl, Nat.pow_add, ← hl] at hlt
  exact lt_of_mul_lt_mul_right hlt (Nat.zero_le _)

/-! ### The bits of a lookahead -/

/-- The bits `l` stand in the lookahead from bit `k` on. -/
def Spells (look : BitVec 24) : Nat → List Bool → Prop
  | _, [] => True
  | k, b :: l => look.getLsbD k = b ∧ Spells look (k + 1) l

@[simp] theorem spells_nil (look : BitVec 24) (k : Nat) : Spells look k [] := trivial

@[simp] theorem spells_cons (look : BitVec 24) (k : Nat) (b : Bool) (l : List Bool) :
    Spells look k (b :: l) ↔ look.getLsbD k = b ∧ Spells look (k + 1) l := Iff.rfl

theorem spells_iff {look : BitVec 24} {k : Nat} {l : List Bool} :
    Spells look k l ↔ ∀ j, j < l.length → l[j]? = some (look.getLsbD (k + j)) := by
  induction l generalizing k with
  | nil => simp
  | cons b l ih =>
    rw [spells_cons, ih]
    constructor
    · rintro ⟨rfl, h⟩ j hj
      cases j with
      | zero => rfl
      | succ j =>
        rw [List.getElem?_cons_succ, h j (Nat.lt_of_succ_lt_succ hj), Nat.add_right_comm, Nat.add_assoc]
    · intro h
      refine ⟨(Option.some.inj (h 0 (Nat.succ_pos _))).symm, fun j hj => ?_⟩
      rw [← List.getElem?_cons_succ (a := b), h (j + 1) (Nat.succ_lt_succ hj), Nat.add_right_comm, Nat.add_assoc]

@[simp] theorem spells_append {look : BitVec 24} {k : Nat} {l m : List Bool} :
    Spells look k (l ++ m) ↔ Spells look k l ∧ Spells look (k + l.length) m := by
  induction l generalizing k with
  | nil => simp
  | cons b l ih =>
    rw [List.cons_append, spells_cons, ih, spells_cons, List.length_cons, and_assoc, Nat.add_assoc, Nat.add_comm 1]

/-- A list of bits given by a function of the place. -/
theorem spells_map_range {look : BitVec 24} {k n : Nat} {f : Nat → Bool} :
    Spells look k ((List.range n).map f) ↔ ∀ j, j < n → look.getLsbD (k + j) = f j := by
  rw [spells_iff, List.length_map, List.length_range]
  refine forall₂_congr fun j hj => ?_
  rw [List.getElem?_map, List.getElem?_range hj, Option.map_some, Option.some.injEq, eq_comm]

/-- The number that a list of bits stands for, the first bit least significant. -/
def bitsValue (l : List Bool) : Nat := (l.zipIdx.map fun e => e.1.toNat <<< e.2).sum

theorem bitsValue_cons (b : Bool) (l : List Bool) : bitsValue (b :: l) = 2 * bitsValue l + b.toNat := by
  simp only [bitsValue, List.zipIdx_cons', List.map_cons, List.sum_cons, List.map_map, Function.comp_def,
    Prod.map_fst, Prod.map_snd, id_eq, Nat.shiftLeft_eq, Nat.pow_succ', Nat.mul_left_comm _ 2, List.sum_map_mul_left]
  omega

theorem bitsValue_testBit (l : List Bool) (j : Nat) : (bitsValue l).testBit j = l.getD j false := by
  induction l generalizing j with
  | nil => exact Nat.zero_testBit j
  | cons b l ih =>
    rw [bitsValue_cons]
    cases j with
    | zero => cases b <;> simp
    | succ j =>
      rw [Nat.testBit_succ, Nat.mul_add_div (by decide), Nat.div_eq_of_lt (by cases b <;> decide), Nat.add_zero, ih]
      rfl

theorem lookOf_getLsbD {l : List Bool} {j : Nat} (hj : j < 24) : (lookOf l).getLsbD j = l.getD j false := by
  have hval : lookOf l = BitVec.ofNat 24 (bitsValue (l.take 24)) := rfl
  rw [hval, BitVec.getLsbD_ofNat, bitsValue_testBit, List.getD_eq_getElem?_getD, List.getElem?_take_of_lt hj,
    List.getD_eq_getElem?_getD]
  simp [hj]

/-- A lookahead begins with the bits it is made from. -/
theorem spells_lookOf {l m : List Bool} (hl : l.length ≤ 24) : Spells (lookOf (l ++ m)) 0 l := by
  rw [spells_iff]
  intro j hj
  rw [Nat.zero_add, lookOf_getLsbD (by omega), List.getD_eq_getElem?_getD, List.getElem?_append_left hj,
    List.getElem?_eq_getElem hj, Option.getD_some]

/-! ### The walk of the lookup (R90) -/

/-- The first `l` stream bits as a number, the first one on top. -/
def topBits (look : BitVec 24) : Nat → Nat
  | 0 => 0
  | l + 1 => 2 * topBits look l + (look.getLsbD l).toNat

theorem topBits_lt (look : BitVec 24) (l : Nat) : topBits look l < 2 ^ l := by
  induction l with
  | zero => exact Nat.one_pos
  | succ l ih =>
    have := Bool.toNat_le (look.getLsbD l)
    rw [topBits, Nat.pow_succ]
    omega

theorem topBits_add_div (look : BitVec 24) (l k : Nat) : topBits look (l + k) / 2 ^ k = topBits look l := by
  induction k with
  | zero => simp
  | succ k ih =>
    have := Bool.toNat_le (look.getLsbD (l + k))
    rw [Nat.pow_succ', ← Nat.div_div_eq_div_mul, ← Nat.add_assoc, topBits]
    rw [show (2 * topBits look (l + k) + (look.getLsbD (l + k)).toNat) / 2 = topBits look (l + k) by omega, ih]

/-- The first `l` bits are a codeword exactly where they spell it. -/
theorem topBits_eq_iff {look : BitVec 24} {l c : Nat} (hc : c < 2 ^ l) :
    topBits look l = c ↔ Spells look 0 (codeBits l c) := by
  rw [codeBits, spells_map_range]
  induction l generalizing c with
  | zero => simp [topBits]; omega
  | succ l ih =>
    have hb := Bool.toNat_le (look.getLsbD l)
    have hc2 : c / 2 < 2 ^ l := by rw [Nat.pow_succ] at hc; omega
    have hlast : topBits look (l + 1) = c ↔ topBits look l = c / 2 ∧ look.getLsbD l = c.testBit 0 := by
      rw [topBits, Nat.testBit_zero]
      cases look.getLsbD l <;> simp <;> omega
    have hshift : ∀ j, j < l → c.testBit (l + 1 - 1 - j) = (c / 2).testBit (l - 1 - j) := by
      intro j hj
      rw [← Nat.testBit_succ]
      congr 1
      omega
    rw [hlast, ih hc2, Nat.forall_lt_succ_right]
    refine and_congr (forall₂_congr fun j hj => ?_) ?_
    · rw [hshift j hj]
    · simp

/-- The first 15 stream bits of a lookahead. -/
def top15 (look : BitVec 24) : Nat := topBits look Config.maxCodeLen

theorem covers_top15 {look : BitVec 24} {e : Nat × Nat × Nat} (he : e.1 ≤ Config.maxCodeLen) :
    Covers (top15 look) e ↔ topBits look e.1 = e.2.1 := by
  have hl : Config.maxCodeLen = e.1 + (Config.maxCodeLen - e.1) := by omega
  rw [Covers, top15]
  nth_rewrite 1 [hl]
  rw [topBits_add_div]

theorem lookupCode_eq_some {m : List (Nat × Nat × Nat)} {l c s : Nat} (h : lookupCode m l c = some s) :
    (l, c, s) ∈ m := by
  obtain ⟨e, hfind, rfl⟩ := Option.map_eq_some_iff.1 h
  have hm := List.mem_of_find?_eq_some hfind
  have hp := List.find?_some hfind
  simp only [Bool.and_eq_true, beq_iff_eq] at hp
  obtain ⟨rfl, rfl⟩ := hp
  exact hm

theorem lookupCode_isSome {m : List (Nat × Nat × Nat)} {e : Nat × Nat × Nat} (he : e ∈ m) :
    lookupCode m e.1 e.2.1 ≠ none := by
  simp only [lookupCode, ne_eq, Option.map_eq_none_iff, List.find?_eq_none, not_forall]
  exact ⟨e, he, by simp⟩

/-- The walk stops at the one entry whose codeword begins the lookahead. -/
theorem walkCode_eq {m : List (Nat × Nat × Nat)} {look : BitVec 24} {e : Nat × Nat × Nat} (he : e ∈ m)
    (htop : topBits look e.1 = e.2.1) (huniq : ∀ e' ∈ m, topBits look e'.1 = e'.2.1 → e' = e) (fuel l : Nat)
    (hl : l + 1 ≤ e.1) (hfuel : e.1 ≤ l + fuel) :
    walkCode m look fuel (l + 1) (topBits look l) = some (e.2.2, e.1) := by
  induction fuel generalizing l with
  | zero => omega
  | succ fuel ih =>
    have hc : 2 * topBits look l + (look.getLsbD (l + 1 - 1)).toNat = topBits look (l + 1) := rfl
    simp only [walkCode, hc]
    split
    · next s hs =>
      obtain rfl := huniq _ (lookupCode_eq_some hs) rfl
      rfl
    · next hnone =>
      refine ih (l + 1) (Nat.lt_of_le_of_ne hl fun heq => ?_) (by omega)
      rw [heq, htop] at hnone
      exact lookupCode_isSome he hnone

/-! ### `DecodeSym` (R90) and the encoder's codewords (R98) -/

/-- A codeword begins the lookahead exactly where the top bits are its value. -/
theorem spells_codeword {A : Nat} {L : List Nat} (h : (Code.lengths L).valid A = true) {e : Nat × Nat × Nat}
    (he : e ∈ canonical L) (look : BitVec 24) : Covers (top15 look) e ↔ Spells look 0 (codeBits e.1 e.2.1) := by
  rw [covers_top15 (canonical_length he).2.2, topBits_eq_iff (canonical_code_lt h he)]

/-- The encoder's codeword of the symbol of an entry. -/
theorem symBits_canonical {L : List Nat} {e : Nat × Nat × Nat} (he : e ∈ canonical L) :
    symBits (.lengths L) e.2.2 = codeBits e.1 e.2.1 := by
  have hsome : (canonical L).find? (fun e' => e'.2.2 == e.2.2) = some e := by
    cases hf : (canonical L).find? (fun e' => e'.2.2 == e.2.2) with
    | none => exact absurd (List.find?_eq_none.1 hf e he) (by simp)
    | some e' =>
      have hs := List.find?_some hf
      rw [canonical_unique (List.mem_of_find?_eq_some hf) he (by simpa using hs)]
  simp only [symBits, hsome]

/-- A length array that is a code decodes the entry whose codeword begins the lookahead. -/
theorem decodeSym_lengths {A : Nat} {L : List Nat} (h : (Code.lengths L).valid A = true) (look : BitVec 24) :
    ∃ e ∈ canonical L, Covers (top15 look) e ∧ decodeSym (.lengths L) look = some (e.2.2, e.1) ∧
      ∀ e' ∈ canonical L, Covers (top15 look) e' → e' = e := by
  obtain ⟨e, ⟨he, hc⟩, huniq⟩ := canonical_covers h (topBits_lt look Config.maxCodeLen)
  have huniq' : ∀ e' ∈ canonical L, Covers (top15 look) e' → e' = e := fun e' he' hc' => huniq e' ⟨he', hc'⟩
  obtain ⟨-, h1, h15⟩ := canonical_length he
  refine ⟨e, he, hc, ?_, huniq'⟩
  refine walkCode_eq he ((covers_top15 h15).1 hc) (fun e' he' ht => ?_) _ 0 h1 (by omega)
  exact huniq' e' he' ((covers_top15 (canonical_length he').2.2).2 ht)

/-- What `symLen` says of a length array. -/
theorem symLen_lengths {L : List Nat} {s n : Nat} : symLen (.lengths L) s = some n ↔ L[s]? = some n ∧ n ≠ 0 := by
  simp only [symLen]
  split
  · simp [*]
  · rename_i l hl
    rw [hl, Option.some.injEq]
    split <;> simp <;> omega

theorem mem_canonical_of_symLen {A : Nat} {L : List Nat} (h : (Code.lengths L).valid A = true) {s n : Nat}
    (hs : symLen (.lengths L) s = some n) : ∃ c, (n, c, s) ∈ canonical L := by
  obtain ⟨hget, h0⟩ := symLen_lengths.1 hs
  have hmem : (n, s) ∈ sortedSyms L :=
    mem_sortedSyms.2 ⟨hget, Nat.pos_of_ne_zero h0, (valid_lengths h).2.1 n (List.mem_of_getElem? hget)⟩
  rw [← canonical_syms L] at hmem
  obtain ⟨⟨n', c, s'⟩, he, heq⟩ := List.mem_map.1 hmem
  cases heq
  exact ⟨c, he⟩

/-- R98, R90: a stored code decodes a symbol exactly where the symbol's codeword begins the lookahead. -/
theorem decodeSym_iff {A : Nat} {T : Code} (h : T.valid A = true) (look : BitVec 24) (s n : Nat) :
    decodeSym T look = some (s, n) ↔ symLen T s = some n ∧ Spells look 0 (symBits T s) := by
  cases T with
  | single t =>
    simp only [decodeSym, symLen, symBits, spells_nil, and_true, Option.some.injEq, Prod.mk.injEq]
    split <;> simp [*, eq_comm]
  | lengths L =>
    obtain ⟨e, he, hc, hd, huniq⟩ := decodeSym_lengths h look
    rw [hd, Option.some.injEq, Prod.mk.injEq]
    constructor
    · rintro ⟨rfl, rfl⟩
      obtain ⟨hget, h1, -⟩ := canonical_length he
      exact ⟨symLen_lengths.2 ⟨hget, by omega⟩, symBits_canonical he ▸ (spells_codeword h he look).1 hc⟩
    · rintro ⟨hlen, hsp⟩
      obtain ⟨c, he'⟩ := mem_canonical_of_symLen h hlen
      have hsp' : Spells look 0 (codeBits n c) := symBits_canonical he' ▸ hsp
      rw [← huniq _ he' ((spells_codeword h he' look).2 hsp')]
      exact ⟨rfl, rfl⟩

/-- R77, R88: a stored code decodes every lookahead, to a symbol of its alphabet. -/
theorem decodeSym_total {A : Nat} {T : Code} (h : T.valid A = true) (look : BitVec 24) :
    ∃ s n, decodeSym T look = some (s, n) ∧ s < A ∧ n ≤ Config.maxCodeLen := by
  cases T with
  | single t => exact ⟨t, 0, rfl, of_decide_eq_true h, Nat.zero_le _⟩
  | lengths L =>
    obtain ⟨e, he, -, hd, -⟩ := decodeSym_lengths h look
    obtain ⟨hget, -, h15⟩ := canonical_length he
    exact ⟨_, _, hd, (valid_lengths h).1 ▸ (List.getElem?_eq_some_iff.1 hget).1, h15⟩

/-- The codeword of a symbol has the symbol's length. -/
theorem symBits_length {A : Nat} {T : Code} (h : T.valid A = true) {s n : Nat} (hs : symLen T s = some n) :
    (symBits T s).length = n := by
  cases T with
  | single t =>
    simp only [symLen] at hs
    split at hs <;> cases hs
    rfl
  | lengths L =>
    obtain ⟨c, he⟩ := mem_canonical_of_symLen h hs
    have hbits : symBits (.lengths L) s = codeBits n c := symBits_canonical he
    rw [hbits, codeBits, List.length_map, List.length_range]

theorem symLen_le {A : Nat} {T : Code} (h : T.valid A = true) {s n : Nat} (hs : symLen T s = some n) :
    n ≤ Config.maxCodeLen := by
  cases T with
  | single t =>
    simp only [symLen] at hs
    split at hs <;> cases hs
    exact Nat.zero_le _
  | lengths L =>
    obtain ⟨c, he⟩ := mem_canonical_of_symLen h hs
    exact (canonical_length he).2.2

end Sys2Proof.Machine
end

section
/-! Decoder and encoder are inverse at every grammar position (R60 to R64, R77, R79): what the decoder reads is exactly
an admitted instruction whose encoding begins the lookahead. Most positions read one field of fixed width; a position
with a code reads a symbol; the window field, the counts and the code-length entries have rows of several
widths. -/

namespace Sys2Proof.Machine

variable {look : BitVec 24} {i : Instr}

/-! ### Fields (R61) -/

theorem fieldBits_length (w v : Nat) : (fieldBits w v).length = w := by
  rw [fieldBits, List.length_map, List.length_range]

theorem fieldOf_testBit (look : BitVec 24) (w j : Nat) :
    (fieldOf look w).testBit j = (decide (j < w) && look.getLsbD j) := by
  rw [fieldOf, Nat.testBit_mod_two_pow, BitVec.testBit_toNat]

/-- A field's value is spelled by its bits. -/
theorem spells_field {w v : Nat} (hv : v < 2 ^ w) : Spells look 0 (fieldBits w v) ↔ fieldOf look w = v := by
  rw [fieldBits, spells_map_range]
  constructor
  · intro h
    refine Nat.eq_of_testBit_eq fun j => ?_
    rw [fieldOf_testBit]
    by_cases hj : j < w
    · rw [← h j hj, Nat.zero_add, decide_eq_true hj, Bool.true_and]
    · rw [decide_eq_false hj, Bool.false_and]
      exact (Nat.testBit_lt_two_pow (hv.trans_le (Nat.pow_le_pow_right (by decide) (Nat.not_lt.1 hj)))).symm
  · rintro rfl j hj
    rw [fieldOf_testBit, decide_eq_true hj, Bool.true_and, Nat.zero_add]

/-- A field held as a bit vector is spelled by its bits, wherever it stands. -/
theorem spells_bits {k w : Nat} (x : BitVec w) :
    Spells look k (fieldBits w x.toNat) ↔ look.extractLsb' k w = x := by
  rw [fieldBits, spells_map_range, BitVec.eq_of_getLsbD_eq_iff]
  refine forall₂_congr fun j hj => ?_
  rw [BitVec.getLsbD_extractLsb', decide_eq_true hj, Bool.true_and, BitVec.testBit_toNat]

theorem extractLsb'_zero (look : BitVec 24) (w : Nat) : look.extractLsb' 0 w = BitVec.ofNat w (fieldOf look w) :=
  BitVec.eq_of_toNat_eq (by simp [fieldOf])

/-- R66: `ab(A)` is the least width that holds every symbol of the alphabet. -/
theorem ab_le_iff {A : Nat} (hA : 2 ≤ A) (n : Nat) : ab A ≤ n ↔ A - 1 < 2 ^ n := by
  rw [ab, if_neg (by omega), Nat.succ_le_iff, Nat.log2_lt (by omega)]

theorem lt_two_pow_ab {A v : Nat} (hA : 2 ≤ A) (hv : v < A) : v < 2 ^ ab A := by
  have := (ab_le_iff hA (ab A)).1 le_rfl
  omega

/-! ### The statement for one position -/

/-- What the decoder reads at the position `p` is exactly an admitted instruction whose encoding begins the
lookahead. -/
def InverseAt (p : Slot) : Prop :=
  ∀ (look : BitVec 24) (i : Instr), decode p look = .ok i ↔ p.admits i = true ∧ Spells look 0 (encode p i)

/-- Every lookahead at the position `p` is a well-formed instruction. -/
def TotalAt (p : Slot) : Prop := ∀ look : BitVec 24, ∃ i, decode p look = .ok i ∧ i.wf = true

/-- Every instruction that the position `p` admits fits a lookahead. -/
def ShortAt (p : Slot) : Prop := ∀ i : Instr, p.admits i = true → (encode p i).length ≤ 24

/-! ### Positions that read one field -/

/-- The position `p` reads a field of `w` bits, and the value `v` is the instruction `row v`. -/
structure ReadsField (p : Slot) (w : Nat) (row : Nat → Instr) : Prop where
  decodes : ∀ look, decode p look = .ok (row (fieldOf look w))
  encodes : ∀ v, v < 2 ^ w → encode p (row v) = fieldBits w v
  admitted : ∀ v, v < 2 ^ w → p.admits (row v) = true
  rows : ∀ i, p.admits i = true → ∃ v, v < 2 ^ w ∧ i = row v

namespace ReadsField

variable {p : Slot} {w : Nat} {row : Nat → Instr}

theorem inverseAt (h : ReadsField p w row) : InverseAt p := by
  intro look i
  rw [h.decodes, Except.ok.injEq]
  constructor
  · rintro rfl
    have hlt := fieldOf_lt look w
    exact ⟨h.admitted _ hlt, (h.encodes _ hlt).symm ▸ (spells_field hlt).2 rfl⟩
  · rintro ⟨hadm, hsp⟩
    obtain ⟨v, hv, rfl⟩ := h.rows i hadm
    rw [h.encodes v hv, spells_field hv] at hsp
    rw [hsp]

theorem totalAt (h : ReadsField p w row) (hwf : ∀ v, v < 2 ^ w → (row v).wf = true) : TotalAt p :=
  fun look => ⟨_, h.decodes look, hwf _ (fieldOf_lt look w)⟩

/-- What is admitted takes the field's width. -/
theorem encode_length (h : ReadsField p w row) (hadm : p.admits i = true) : (encode p i).length = w := by
  obtain ⟨v, hv, rfl⟩ := h.rows i hadm
  rw [h.encodes v hv, fieldBits_length]

theorem shortAt (h : ReadsField p w row) (hw : w ≤ 24) : ShortAt p := fun _ hadm => (h.encode_length hadm).trans_le hw

end ReadsField

/-- The rows of a flag. -/
def flagRow (a b : Instr) (v : Nat) : Instr := if v.testBit 0 = false then a else b

/-- The rows of a two-bit field. -/
def pairRow (a b c d : Instr) : Nat → Instr
  | 0 => a
  | 1 => b
  | 2 => c
  | _ => d

theorem flagRow_fieldOf (look : BitVec 24) (a b : Instr) :
    flagRow a b (fieldOf look 1) = if look.getLsbD 0 = false then a else b := by
  rw [flagRow, fieldOf_testBit]
  rfl

/-- A flag's position admits its two rows. -/
theorem readsField_flag {p : Slot} {a b : Instr}
    (hd : ∀ look, decode p look = .ok (if look.getLsbD 0 = false then a else b)) (ha : encode p a = [false])
    (hb : encode p b = [true]) (hadm : p.admits a = true ∧ p.admits b = true)
    (hrows : ∀ i, p.admits i = true → i = a ∨ i = b) : ReadsField p 1 (flagRow a b) where
  decodes look := by rw [flagRow_fieldOf, hd]
  encodes v hv := by interval_cases v <;> assumption
  admitted v hv := by interval_cases v; exacts [hadm.1, hadm.2]
  rows i hi := (hrows i hi).elim (fun h => ⟨0, by decide, h⟩) fun h => ⟨1, by decide, h⟩

theorem isLast_field : ReadsField .isLast 1 (flagRow .isLast0 .isLast1) := by
  refine readsField_flag (fun _ => rfl) rfl rfl ⟨rfl, rfl⟩ fun i h => ?_
  cases i with
  | isLast0 => exact .inl rfl
  | isLast1 => exact .inr rfl
  | _ => cases h

theorem isLastEmpty_field : ReadsField .isLastEmpty 1 (flagRow .isLastEmpty0 .isLastEmpty1) := by
  refine readsField_flag (fun _ => rfl) rfl rfl ⟨rfl, rfl⟩ fun i h => ?_
  cases i with
  | isLastEmpty0 => exact .inl rfl
  | isLastEmpty1 => exact .inr rfl
  | _ => cases h

theorem isUncompressed_field : ReadsField .isUncompressed 1 (flagRow .isUncompressed0 .isUncompressed1) := by
  refine readsField_flag (fun _ => rfl) rfl rfl ⟨rfl, rfl⟩ fun i h => ?_
  cases i with
  | isUncompressed0 => exact .inl rfl
  | isUncompressed1 => exact .inr rfl
  | _ => cases h

theorem rleMaxF_field : ReadsField .rleMaxF 1 (flagRow .rleMaxF0 .rleMaxF1) := by
  refine readsField_flag (fun _ => rfl) rfl rfl ⟨rfl, rfl⟩ fun i h => ?_
  cases i with
  | rleMaxF0 => exact .inl rfl
  | rleMaxF1 => exact .inr rfl
  | _ => cases h

theorem imtf_field : ReadsField .imtf 1 (flagRow .imtf0 .imtf1) := by
  refine readsField_flag (fun _ => rfl) rfl rfl ⟨rfl, rfl⟩ fun i h => ?_
  cases i with
  | imtf0 => exact .inl rfl
  | imtf1 => exact .inr rfl
  | _ => cases h

theorem treeSel_field : ReadsField .treeSel 1 (flagRow .treeSel0 .treeSel1) := by
  refine readsField_flag (fun _ => rfl) rfl rfl ⟨rfl, rfl⟩ fun i h => ?_
  cases i with
  | treeSel0 => exact .inl rfl
  | treeSel1 => exact .inr rfl
  | _ => cases h

theorem mnibbles_field : ReadsField .mnibbles 2 (pairRow .mnibbles4 .mnibbles5 .mnibbles6 .mnibblesReserved) where
  decodes _ := rfl
  encodes v hv := by interval_cases v <;> rfl
  admitted v hv := by interval_cases v <;> rfl
  rows i h := by
    cases i with
    | mnibbles4 => exact ⟨0, by decide, rfl⟩
    | mnibbles5 => exact ⟨1, by decide, rfl⟩
    | mnibbles6 => exact ⟨2, by decide, rfl⟩
    | mnibblesReserved => exact ⟨3, by decide, rfl⟩
    | _ => cases h

theorem cmode_field : ReadsField .cmode 2 (pairRow .cmodeLsb6 .cmodeMsb6 .cmodeUtf8 .cmodeSigned) where
  decodes _ := rfl
  encodes v hv := by interval_cases v <;> rfl
  admitted v hv := by interval_cases v <;> rfl
  rows i h := by
    cases i with
    | cmodeLsb6 => exact ⟨0, by decide, rfl⟩
    | cmodeMsb6 => exact ⟨1, by decide, rfl⟩
    | cmodeUtf8 => exact ⟨2, by decide, rfl⟩
    | cmodeSigned => exact ⟨3, by decide, rfl⟩
    | _ => cases h

theorem hskip_field : ReadsField .hskip 2 (pairRow .hskipComplex0 .hskipSimple .hskipComplex2 .hskipComplex3) where
  decodes _ := rfl
  encodes v hv := by interval_cases v <;> rfl
  admitted v hv := by interval_cases v <;> rfl
  rows i h := by
    cases i with
    | hskipComplex0 => exact ⟨0, by decide, rfl⟩
    | hskipSimple => exact ⟨1, by decide, rfl⟩
    | hskipComplex2 => exact ⟨2, by decide, rfl⟩
    | hskipComplex3 => exact ⟨3, by decide, rfl⟩
    | _ => cases h

theorem nsymm1_field : ReadsField .nsymm1 2 (pairRow .nsymm1One .nsymm1Two .nsymm1Three .nsymm1Four) where
  decodes _ := rfl
  encodes v hv := by interval_cases v <;> rfl
  admitted v hv := by interval_cases v <;> rfl
  rows i h := by
    cases i with
    | nsymm1One => exact ⟨0, by decide, rfl⟩
    | nsymm1Two => exact ⟨1, by decide, rfl⟩
    | nsymm1Three => exact ⟨2, by decide, rfl⟩
    | nsymm1Four => exact ⟨3, by decide, rfl⟩
    | _ => cases h

/-- A position whose one row carries its bits. -/
theorem readsField_bits {p : Slot} {w : Nat} {mk : BitVec w → Instr}
    (hd : ∀ look, decode p look = .ok (mk (look.extractLsb' 0 w))) (he : ∀ x, encode p (mk x) = fieldBits w x.toNat)
    (hadm : ∀ x, p.admits (mk x) = true) (hrows : ∀ i, p.admits i = true → ∃ x, i = mk x) :
    ReadsField p w (fun v => mk (BitVec.ofNat w v)) where
  decodes look := by rw [hd, extractLsb'_zero]
  encodes v hv := by rw [he, BitVec.toNat_ofNat, Nat.mod_eq_of_lt hv]
  admitted v _ := hadm _
  rows i hi := by
    obtain ⟨x, rfl⟩ := hrows i hi
    exact ⟨x.toNat, x.isLt, by rw [BitVec.ofNat_toNat, BitVec.setWidth_eq]⟩

theorem npostfix_field : ReadsField .npostfix 2 (fun v => .npostfix (BitVec.ofNat 2 v)) := by
  refine readsField_bits (fun _ => rfl) (fun _ => rfl) (fun _ => rfl) fun i h => ?_
  cases i with
  | npostfix v => exact ⟨v, rfl⟩
  | _ => cases h

theorem ndirectf_field : ReadsField .ndirectf 4 (fun v => .ndirectf (BitVec.ofNat 4 v)) := by
  refine readsField_bits (fun _ => rfl) (fun _ => rfl) (fun _ => rfl) fun i h => ?_
  cases i with
  | ndirectf v => exact ⟨v, rfl⟩
  | _ => cases h

theorem rleMaxM1_field : ReadsField .rleMaxM1 4 (fun v => .rleMaxM1 (BitVec.ofNat 4 v)) := by
  refine readsField_bits (fun _ => rfl) (fun _ => rfl) (fun _ => rfl) fun i h => ?_
  cases i with
  | rleMaxM1 v => exact ⟨v, rfl⟩
  | _ => cases h

theorem r16_field : ReadsField .r16 2 (fun v => .r16 (BitVec.ofNat 2 v)) := by
  refine readsField_bits (fun _ => rfl) (fun _ => rfl) (fun _ => rfl) fun i h => ?_
  cases i with
  | r16 v => exact ⟨v, rfl⟩
  | _ => cases h

theorem r17_field : ReadsField .r17 3 (fun v => .r17 (BitVec.ofNat 3 v)) := by
  refine readsField_bits (fun _ => rfl) (fun _ => rfl) (fun _ => rfl) fun i h => ?_
  cases i with
  | r17 v => exact ⟨v, rfl⟩
  | _ => cases h

/-- A position whose one row carries the value of a field of the position's width. -/
theorem readsField_value {p : Slot} {w : Nat} {mk : Nat → Instr}
    (hd : ∀ look, decode p look = .ok (mk (fieldOf look w))) (he : ∀ v, encode p (mk v) = fieldBits w v)
    (hadm : ∀ v, p.admits (mk v) = decide (v < 2 ^ w)) (hrows : ∀ i, p.admits i = true → ∃ v, i = mk v) :
    ReadsField p w mk where
  decodes := hd
  encodes v _ := he v
  admitted v hv := by rw [hadm, decide_eq_true hv]
  rows i hi := by
    obtain ⟨v, rfl⟩ := hrows i hi
    rw [hadm] at hi
    exact ⟨v, of_decide_eq_true hi, rfl⟩

theorem vx_field (w : Nat) : ReadsField (.vx w) w .vx := by
  refine readsField_value (fun _ => rfl) (fun _ => rfl) (fun _ => rfl) fun i h => ?_
  cases i with
  | vx v => exact ⟨v, rfl⟩
  | _ => cases h

theorem runx_field (w : Nat) : ReadsField (.runx w) w .runx := by
  refine readsField_value (fun _ => rfl) (fun _ => rfl) (fun _ => rfl) fun i h => ?_
  cases i with
  | runx v => exact ⟨v, rfl⟩
  | _ => cases h

theorem bextra_field (w : Nat) : ReadsField (.bextra w) w .bextra := by
  refine readsField_value (fun _ => rfl) (fun _ => rfl) (fun _ => rfl) fun i h => ?_
  cases i with
  | bextra v => exact ⟨v, rfl⟩
  | _ => cases h

theorem iextra_field (w : Nat) : ReadsField (.iextra w) w .iextra := by
  refine readsField_value (fun _ => rfl) (fun _ => rfl) (fun _ => rfl) fun i h => ?_
  cases i with
  | iextra v => exact ⟨v, rfl⟩
  | _ => cases h

theorem cextra_field (w : Nat) : ReadsField (.cextra w) w .cextra := by
  refine readsField_value (fun _ => rfl) (fun _ => rfl) (fun _ => rfl) fun i h => ?_
  cases i with
  | cextra v => exact ⟨v, rfl⟩
  | _ => cases h

theorem dextra_field (w : Nat) : ReadsField (.dextra w) w .dextra := by
  refine readsField_value (fun _ => rfl) (fun _ => rfl) (fun _ => rfl) fun i h => ?_
  cases i with
  | dextra v => exact ⟨v, rfl⟩
  | _ => cases h

/-- The rows of a padding field (R127). -/
def padRow (v : Nat) : Instr := if v = 0 then .padZero else .padNonzero v

theorem pad_field (w : Nat) : ReadsField (.pad w) w padRow where
  decodes _ := rfl
  encodes v _ := by
    unfold padRow
    split
    · next h0 => subst h0; rfl
    · rfl
  admitted v hv := by
    unfold padRow
    split
    · rfl
    · simp [Slot.admits, hv]; omega
  rows i h := by
    cases i with
    | padZero => exact ⟨0, Nat.two_pow_pos w, rfl⟩
    | padNonzero v =>
      simp only [Slot.admits, Bool.and_eq_true, decide_eq_true_eq] at h
      exact ⟨v, h.2, (if_neg (by omega)).symm⟩
    | _ => cases h

/-- The rows of a nibble of `MLEN` (R116). -/
def nibbleRow (lastOfLong : Bool) (v : Nat) : Instr :=
  if lastOfLong = true ∧ BitVec.ofNat 4 v = 0 then .mlenNibLastZero else .mlenNib (BitVec.ofNat 4 v)

theorem admits_mlenNib (b : Bool) (x : BitVec 4) :
    (Slot.mlenNib b).admits (.mlenNib x) = true ↔ ¬ (b = true ∧ x = 0) := by
  cases b <;> simp [Slot.admits]

theorem mlenNib_field (b : Bool) : ReadsField (.mlenNib b) 4 (nibbleRow b) where
  decodes look := by rw [nibbleRow, ← extractLsb'_zero]; rfl
  encodes v hv := by
    have hval : (BitVec.ofNat 4 v).toNat = v := by rw [BitVec.toNat_ofNat, Nat.mod_eq_of_lt hv]
    unfold nibbleRow
    split
    · next h =>
      rw [h.2] at hval
      rw [← hval]
      rfl
    · show fieldBits 4 (BitVec.ofNat 4 v).toNat = _
      rw [hval]
  admitted v _ := by
    unfold nibbleRow
    split
    · next h => exact h.1
    · next h => exact (admits_mlenNib b _).2 h
  rows i h := by
    cases i with
    | mlenNib x =>
      refine ⟨x.toNat, x.isLt, ?_⟩
      rw [nibbleRow, BitVec.ofNat_toNat, BitVec.setWidth_eq, if_neg ((admits_mlenNib b x).1 h)]
    | mlenNibLastZero => exact ⟨0, by decide, (if_pos ⟨h, rfl⟩).symm⟩
    | _ => cases h

/-- The rows of a `SYMBOL` (R93). -/
def symbolRow (A : Nat) (earlier : List Nat) (v : Nat) : Instr :=
  if v < A ∧ v ∉ earlier then .symbol v else .symbolInvalid v

theorem symbol_field {A : Nat} (hA : 2 ≤ A) (earlier : List Nat) :
    ReadsField (.symbol A earlier) (ab A) (symbolRow A earlier) where
  decodes _ := rfl
  encodes v _ := by unfold symbolRow; split <;> rfl
  admitted v hv := by
    unfold symbolRow
    split
    · next h => simpa [Slot.admits] using h
    · next h =>
      simp only [Slot.admits, hv, decide_true, Bool.true_and, Bool.or_eq_true, decide_eq_true_eq, List.contains_iff_mem]
      exact (not_and_or.1 h).imp Nat.not_lt.1 not_not.1
  rows i h := by
    cases i with
    | symbol v =>
      have hv : v < A ∧ v ∉ earlier := by simpa [Slot.admits] using h
      exact ⟨v, lt_two_pow_ab hA hv.1, (if_pos hv).symm⟩
    | symbolInvalid v =>
      have hv : v < 2 ^ ab A ∧ (A ≤ v ∨ v ∈ earlier) := by simpa [Slot.admits] using h
      exact ⟨v, hv.1, (if_neg (by rintro ⟨hlt, hnot⟩; exact hv.2.elim (Nat.not_le.2 hlt) hnot)).symm⟩
    | _ => cases h


/-! ### Positions whose rows have several widths -/

/-- The bits of the window field's second tier, and of the counts after their first bit. -/
theorem spells_tier {x : BitVec 3} :
    Spells look 0 (true :: fieldBits 3 x.toNat) ↔ look.getLsbD 0 = true ∧ look.extractLsb' 1 3 = x := by
  rw [spells_cons, spells_bits]

/-- The bits of the window field's third tier. -/
theorem spells_tiers {x y : BitVec 3} : Spells look 0 (true :: (fieldBits 3 x.toNat ++ fieldBits 3 y.toNat)) ↔
    look.getLsbD 0 = true ∧ look.extractLsb' 1 3 = x ∧ look.extractLsb' 4 3 = y := by
  rw [spells_cons, spells_append, spells_bits, spells_bits, fieldBits_length]

/-- R113: the window field reads its tiers one after another. -/
theorem window_inverseAt : InverseAt .window := by
  intro look i
  have hreserved : encode .window .winReserved =
    true :: (fieldBits 3 (0 : BitVec 3).toNat ++ fieldBits 3 (1 : BitVec 3).toNat) := rfl
  have h17 : encode .window .win17 =
    true :: (fieldBits 3 (0 : BitVec 3).toNat ++ fieldBits 3 (0 : BitVec 3).toNat) := rfl
  have h10 (x : BitVec 3) : encode .window (.win10to15 x) =
    true :: (fieldBits 3 (0 : BitVec 3).toNat ++ fieldBits 3 x.toNat) := rfl
  have hlow (x : BitVec 3) : 2 ≤ x.toNat ↔ ¬ x = 0 ∧ ¬ x = 1 := by revert x; decide
  constructor
  · intro h
    simp only [decode, decodeWindow, Except.ok.injEq] at h
    split_ifs at h with h0 h1 h2 h3 <;> subst h
    · exact ⟨rfl, h0, trivial⟩
    · exact ⟨bne_iff_ne.2 h1, spells_tier.2 ⟨by simpa using h0, rfl⟩⟩
    · exact ⟨rfl, h17 ▸ spells_tiers.2 ⟨by simpa using h0, not_not.1 h1, h2⟩⟩
    · exact ⟨rfl, hreserved ▸ spells_tiers.2 ⟨by simpa using h0, not_not.1 h1, h3⟩⟩
    · exact ⟨decide_eq_true ((hlow _).2 ⟨h2, h3⟩), h10 _ ▸ spells_tiers.2 ⟨by simpa using h0, not_not.1 h1, rfl⟩⟩
  · rintro ⟨hadm, hsp⟩
    cases i with
    | win16 =>
      obtain ⟨h0, -⟩ := hsp
      exact congrArg Except.ok (if_pos h0)
    | win17to24 x =>
      obtain ⟨h0, rfl⟩ := spells_tier.1 hsp
      have hx : look.extractLsb' 1 3 ≠ 0 := bne_iff_ne.1 hadm
      simp only [decode, decodeWindow, h0, if_pos hx, Bool.true_eq_false, if_false]
    | win17 =>
      obtain ⟨h0, h1, h2⟩ := spells_tiers.1 (h17 ▸ hsp)
      simp [decode, decodeWindow, h0, h1, h2]
    | winReserved =>
      obtain ⟨h0, h1, h2⟩ := spells_tiers.1 (hreserved ▸ hsp)
      simp [decode, decodeWindow, h0, h1, h2]
    | win10to15 x =>
      obtain ⟨h0, h1, rfl⟩ := spells_tiers.1 (h10 x ▸ hsp)
      obtain ⟨h2, h3⟩ := (hlow _).1 (of_decide_eq_true hadm)
      simp only [decode, decodeWindow, h0, h1, if_neg h2, if_neg h3, Bool.true_eq_false, if_false, ne_eq,
        not_true_eq_false]
    | _ => cases hadm

theorem window_totalAt : TotalAt .window := by
  intro look
  refine ⟨_, rfl, ?_⟩
  unfold decodeWindow
  dsimp only
  split_ifs with h0 h1 h2 h3
  · rfl
  · exact bne_iff_ne.2 h1
  · rfl
  · rfl
  · refine decide_eq_true ?_
    generalize look.extractLsb' 4 3 = x at h2 h3
    revert x
    decide

theorem window_shortAt : ShortAt .window := by
  intro i h
  cases i with
  | win16 => exact (by decide : 1 ≤ 24)
  | win17to24 => exact (by decide : 4 ≤ 24)
  | win17 | winReserved | win10to15 => exact (by decide : 7 ≤ 24)
  | _ => cases h

/-- R119: a count reads its first bit and then, after a 1, three more. -/
theorem var256_inverseAt : InverseAt .var256 := by
  intro look i
  have h2 : encode .var256 .var256Two = true :: fieldBits 3 (0 : BitVec 3).toNat := rfl
  constructor
  · intro h
    simp only [decode, decodeVar256, Except.ok.injEq] at h
    split_ifs at h with h0 h1 <;> subst h
    · exact ⟨rfl, h0, trivial⟩
    · exact ⟨rfl, h2 ▸ spells_tier.2 ⟨by simpa using h0, h1⟩⟩
    · exact ⟨bne_iff_ne.2 h1, spells_tier.2 ⟨by simpa using h0, rfl⟩⟩
  · rintro ⟨hadm, hsp⟩
    cases i with
    | var256One =>
      obtain ⟨h0, -⟩ := hsp
      exact congrArg Except.ok (if_pos h0)
    | var256Two =>
      obtain ⟨h0, h1⟩ := spells_tier.1 (h2 ▸ hsp)
      simp [decode, decodeVar256, h0, h1]
    | var256More x =>
      obtain ⟨h0, rfl⟩ := spells_tier.1 hsp
      have hx : look.extractLsb' 1 3 ≠ 0 := bne_iff_ne.1 hadm
      simp only [decode, decodeVar256, h0, if_neg hx, Bool.true_eq_false, if_false]
    | _ => cases hadm

theorem var256_totalAt : TotalAt .var256 := by
  intro look
  refine ⟨_, rfl, ?_⟩
  unfold decodeVar256
  dsimp only
  split_ifs with h0 h1
  · rfl
  · rfl
  · exact bne_iff_ne.2 h1

theorem var256_shortAt : ShortAt .var256 := by
  intro i h
  cases i with
  | var256One => exact (by decide : 1 ≤ 24)
  | var256Two | var256More => exact (by decide : 4 ≤ 24)
  | _ => cases h

theorem fieldOf_two (look : BitVec 24) :
    fieldOf look 2 = (look.getLsbD 0).toNat + 2 * (look.getLsbD 1).toNat := by
  have h0 : (fieldOf look 2).testBit 0 = look.getLsbD 0 := fieldOf_testBit look 2 0
  have h1 : (fieldOf look 2).testBit 1 = look.getLsbD 1 := fieldOf_testBit look 2 1
  rw [← h0, ← h1]
  have hlt := fieldOf_lt look 2
  generalize fieldOf look 2 = v at hlt
  interval_cases v <;> rfl

/-- R68: the fixed code of the code-length entries, bit by bit. -/
theorem decodeClen_eq (look : BitVec 24) : decodeClen look =
    match look.getLsbD 0, look.getLsbD 1, look.getLsbD 2, look.getLsbD 3 with
    | false, false, _, _ => .clen0
    | false, true, _, _ => .clen3
    | true, false, _, _ => .clen4
    | true, true, false, _ => .clen2
    | true, true, true, false => .clen1
    | true, true, true, true => .clen5 := by
  unfold decodeClen
  rw [fieldOf_two]
  cases look.getLsbD 0 <;> cases look.getLsbD 1 <;> cases look.getLsbD 2 <;> cases look.getLsbD 3 <;> rfl

theorem clen_inverseAt : InverseAt .clen := by
  intro look i
  constructor
  · intro h
    simp only [decode, decodeClen_eq, Except.ok.injEq] at h
    split at h <;> subst h
    · next h0 h1 => exact ⟨rfl, h0, h1, trivial⟩
    · next h0 h1 => exact ⟨rfl, h0, h1, trivial⟩
    · next h0 h1 => exact ⟨rfl, h0, h1, trivial⟩
    · next h0 h1 h2 => exact ⟨rfl, h0, h1, h2, trivial⟩
    · next h0 h1 h2 h3 => exact ⟨rfl, h0, h1, h2, h3, trivial⟩
    · next h0 h1 h2 h3 => exact ⟨rfl, h0, h1, h2, h3, trivial⟩
  · rintro ⟨hadm, hsp⟩
    cases i with
    | clen0 | clen3 | clen4 =>
      obtain ⟨h0, h1, -⟩ := hsp
      simp only [decode, decodeClen_eq, h0, h1]
    | clen2 =>
      obtain ⟨h0, h1, h2, -⟩ := hsp
      simp only [decode, decodeClen_eq, h0, h1, h2]
    | clen1 | clen5 =>
      obtain ⟨h0, h1, h2, h3, -⟩ := hsp
      simp only [decode, decodeClen_eq, h0, h1, h2, h3]
    | _ => cases hadm

theorem clen_totalAt : TotalAt .clen := by
  intro look
  refine ⟨_, rfl, ?_⟩
  rw [decodeClen_eq]
  split <;> rfl

theorem clen_shortAt : ShortAt .clen := by
  intro i h
  cases i with
  | clen0 | clen3 | clen4 => exact (by decide : 2 ≤ 24)
  | clen2 => exact (by decide : 3 ≤ 24)
  | clen1 | clen5 => exact (by decide : 4 ≤ 24)
  | _ => cases h

/-! ### Positions that read a symbol (R62, R63) -/

/-- The position `p` reads a symbol of the code `T` over `A` symbols, and the symbol `s` of `n` bits is the
instruction `row n s`. -/
structure ReadsSymbol (p : Slot) (T : Code) (A : Nat) (row : (n s : Nat) → Option Instr) : Prop where
  decodes : ∀ look, decode p look = decodeWith T look row
  code : p.code = some T
  admits : ∀ i, p.admits i = (symOf i).any fun (s, n) => symLen T s == some n && row n s == some i
  symOf_row : ∀ n s i, row n s = some i → symOf i = some (s, n)
  rows : ∀ n s, n ≤ Config.maxCodeLen → s < A → ∃ i, row n s = some i ∧ i.wf = true

theorem decodeWith_iff {T : Code} {row : (n s : Nat) → Option Instr} :
    decodeWith T look row = .ok i ↔ ∃ s n, decodeSym T look = some (s, n) ∧ row n s = some i := by
  unfold decodeWith
  constructor
  · intro h
    split at h
    · cases h
    · split at h
      · cases h
      · cases h
        exact ⟨_, _, ‹_›, ‹_›⟩
  · rintro ⟨s, n, hs, hi⟩
    simp only [hs, hi]

namespace ReadsSymbol

variable {p : Slot} {T : Code} {A : Nat} {row : (n s : Nat) → Option Instr}

theorem encode_row (h : ReadsSymbol p T A row) {n s : Nat} (hi : row n s = some i) : encode p i = symBits T s := by
  simp only [encode, h.code, h.symOf_row n s i hi]

theorem admits_iff (h : ReadsSymbol p T A row) :
    p.admits i = true ↔ ∃ s n, symLen T s = some n ∧ row n s = some i := by
  rw [h.admits, Option.any_eq_true]
  constructor
  · rintro ⟨⟨s, n⟩, -, hb⟩
    simp only [Bool.and_eq_true, beq_iff_eq] at hb
    exact ⟨s, n, hb⟩
  · rintro ⟨s, n, hs, hi⟩
    exact ⟨(s, n), h.symOf_row n s i hi, by simp [hs, hi]⟩

theorem inverseAt (h : ReadsSymbol p T A row) (hT : T.valid A = true) : InverseAt p := by
  intro look i
  rw [h.decodes, decodeWith_iff, h.admits_iff]
  constructor
  · rintro ⟨s, n, hs, hi⟩
    obtain ⟨hlen, hsp⟩ := (decodeSym_iff hT look s n).1 hs
    exact ⟨⟨s, n, hlen, hi⟩, (h.encode_row hi).symm ▸ hsp⟩
  · rintro ⟨⟨s, n, hlen, hi⟩, hsp⟩
    exact ⟨s, n, (decodeSym_iff hT look s n).2 ⟨hlen, h.encode_row hi ▸ hsp⟩, hi⟩

theorem totalAt (h : ReadsSymbol p T A row) (hT : T.valid A = true) : TotalAt p := by
  intro look
  obtain ⟨s, n, hs, hA, hn⟩ := decodeSym_total hT look
  obtain ⟨i, hi, hwf⟩ := h.rows n s hn hA
  exact ⟨i, by rw [h.decodes, decodeWith_iff]; exact ⟨s, n, hs, hi⟩, hwf⟩

theorem shortAt (h : ReadsSymbol p T A row) (hT : T.valid A = true) : ShortAt p := by
  intro i hadm
  obtain ⟨s, n, hlen, hi⟩ := h.admits_iff.1 hadm
  rw [h.encode_row hi, symBits_length hT hlen]
  exact (symLen_le hT hlen).trans (by decide)

end ReadsSymbol

theorem clSym_symbol (T : Code) : ReadsSymbol (.clSym T) T Config.clAlphabet clInstr where
  decodes _ := rfl
  code := rfl
  admits _ := rfl
  symOf_row n s i h := by
    unfold clInstr at h
    split_ifs at h with h16 h17 h18 <;> cases h
    · simp [symOf, Nat.mod_eq_of_lt h16]
    · rw [h17]; rfl
    · rw [h18]; rfl
  rows n s hn hs := by
    have hwf : wfLen n = true := decide_eq_true hn
    simp only [Config.clAlphabet] at hs
    unfold clInstr
    split_ifs with h16 h17 h18
    · exact ⟨_, rfl, hwf⟩
    · exact ⟨_, rfl, hwf⟩
    · exact ⟨_, rfl, hwf⟩
    · omega

theorem mapSym_symbol (T : Code) {r trees : Nat} (hr : r ≤ 16) (ht : trees ≤ 256) :
    ReadsSymbol (.mapSym T r trees) T (trees + r) (mapInstr r trees) where
  decodes _ := rfl
  code := rfl
  admits _ := rfl
  symOf_row n s i h := by
    unfold mapInstr at h
    split_ifs at h with h0 hr ht <;> cases h
    · rw [h0]; rfl
    · rfl
    · rfl
  rows n s hn hs := by
    have hwf : wfLen n = true := decide_eq_true hn
    unfold mapInstr
    split_ifs with h0 hr ht
    · exact ⟨_, rfl, hwf⟩
    · exact ⟨_, rfl, by simp [Instr.wf, hwf]; omega⟩
    · exact ⟨_, rfl, by simp [Instr.wf, hwf]; omega⟩
    · omega

theorem btype_symbol (T : Code) {types : Nat} (ht : types ≤ 256) :
    ReadsSymbol (.btype T types) T (types + 2) (btypeInstr types) where
  decodes _ := rfl
  code := rfl
  admits _ := rfl
  symOf_row n s i h := by
    unfold btypeInstr at h
    split_ifs at h with h0 h1 h2 <;> cases h
    · rw [h0]; rfl
    · rw [h1]; rfl
    · rfl
  rows n s hn hs := by
    have hwf : wfLen n = true := decide_eq_true hn
    unfold btypeInstr
    split_ifs with h0 h1
    · exact ⟨_, rfl, hwf⟩
    · exact ⟨_, rfl, hwf⟩
    · exact ⟨_, rfl, by simp [Instr.wf, hwf]; omega⟩

theorem bcount_symbol (T : Code) : ReadsSymbol (.bcount T) T Config.bcountAlphabet bcountInstr where
  decodes _ := rfl
  code := rfl
  admits _ := rfl
  symOf_row n s i h := by
    unfold bcountInstr at h
    split_ifs at h
    cases h
    rfl
  rows n s hn hs := by
    have hwf : wfLen n = true := decide_eq_true hn
    exact ⟨_, if_pos hs, by simp [Instr.wf, hwf, hs]⟩

/-- Every symbol below 704 lies in one of the eleven cells. -/
theorem iacInstr_some {v : Nat} (hv : v < 704) (n : Nat) : ∃ i, iacInstr n v = some i ∧ i.wf = wfLen n := by
  have hcell : v / 64 < 11 := by omega
  unfold iacInstr
  interval_cases v / 64 <;> exact ⟨_, rfl, rfl⟩

theorem iac_symbol (T : Code) : ReadsSymbol (.iac T) T Config.iacAlphabet iacInstr where
  decodes _ := rfl
  code := rfl
  admits _ := rfl
  symOf_row n s i h := by
    simp only [iacInstr] at h
    split at h <;> cases h <;> simp only [symOf, BitVec.toNat_ofNat, Option.some.injEq, Prod.mk.injEq, and_true] <;>
      omega
  rows n s hn hs := by
    obtain ⟨i, hi, hwf⟩ := iacInstr_some hs n
    exact ⟨i, hi, hwf.trans (decide_eq_true hn)⟩

theorem lit_symbol (T : Code) : ReadsSymbol (.lit T) T Config.litAlphabet litInstr where
  decodes _ := rfl
  code := rfl
  admits _ := rfl
  symOf_row n s i h := by
    unfold litInstr at h
    split_ifs at h with hs
    cases h
    simp only [Config.litAlphabet] at hs
    simp [symOf, Nat.mod_eq_of_lt hs]
  rows n s hn hs := ⟨_, if_pos hs, decide_eq_true hn⟩

theorem distShortInstr_some {d : Nat} (hd : d < 16) (n : Nat) :
    ∃ i, distShortInstr n d = some i ∧ i.wf = wfLen n := by
  interval_cases d <;> exact ⟨_, rfl, rfl⟩

theorem dist_symbol (T : Code) {nd A : Nat} (hnd : nd ≤ 120) (hA : A ≤ 520) :
    ReadsSymbol (.dist T nd A) T A (distInstr nd A) where
  decodes _ := rfl
  code := rfl
  admits _ := rfl
  symOf_row n s i h := by
    unfold distInstr at h
    split_ifs at h with hs hd hr
    · interval_cases s <;> cases h <;> rfl
    · cases h; rfl
    · cases h; rfl
  rows n s hn hs := by
    have hwf : wfLen n = true := decide_eq_true hn
    unfold distInstr
    split_ifs with h16 hd
    · obtain ⟨i, hi, hw⟩ := distShortInstr_some h16 n
      exact ⟨i, hi, hw.trans hwf⟩
    · exact ⟨_, rfl, by simp [Instr.wf, hwf]; omega⟩
    · exact ⟨_, rfl, by simp [Instr.wf, hwf]; omega⟩

/-! ### Every position -/

/-- The decoder and the encoder agree at the position `p`, and nothing is left undecoded there. -/
structure SoundAt (p : Slot) : Prop where
  inverse : InverseAt p
  total : TotalAt p
  short : ShortAt p

theorem ReadsField.soundAt {p : Slot} {w : Nat} {row : Nat → Instr} (h : ReadsField p w row) (hw : w ≤ 24)
    (hwf : ∀ v, v < 2 ^ w → (row v).wf = true) : SoundAt p :=
  ⟨h.inverseAt, h.totalAt hwf, h.shortAt hw⟩

theorem ReadsSymbol.soundAt {p : Slot} {T : Code} {A : Nat} {row : (n s : Nat) → Option Instr}
    (h : ReadsSymbol p T A row) (hT : T.valid A = true) : SoundAt p :=
  ⟨h.inverseAt hT, h.totalAt hT, h.shortAt hT⟩

theorem flagRow_wf {a b : Instr} (ha : a.wf = true) (hb : b.wf = true) (v : Nat) : (flagRow a b v).wf = true := by
  unfold flagRow; split <;> assumption

theorem pairRow_wf {a b c d : Instr} (ha : a.wf = true) (hb : b.wf = true) (hc : c.wf = true) (hd : d.wf = true)
    (v : Nat) : (pairRow a b c d v).wf = true := by
  unfold pairRow; split <;> assumption

theorem nibbleRow_wf (b : Bool) (v : Nat) : (nibbleRow b v).wf = true := by
  unfold nibbleRow; split <;> rfl

theorem padRow_wf {v : Nat} (hv : v < 128) : (padRow v).wf = true := by
  unfold padRow
  split
  · rfl
  · simp only [Instr.wf, Bool.and_eq_true, decide_eq_true_eq]
    omega

theorem symbolRow_wf {A v : Nat} {earlier : List Nat} (hA : A ≤ 704) (hv : v < 1024) :
    (symbolRow A earlier v).wf = true := by
  unfold symbolRow
  split
  · next h => exact decide_eq_true (h.1.trans_le hA)
  · exact decide_eq_true hv

/-- A field no wider than `m` holds a value below `2^m`. -/
theorem lt_two_pow_of_width {v w m : Nat} (hv : v < 2 ^ w) (hw : w ≤ m) : v < 2 ^ m :=
  hv.trans_le (Nat.pow_le_pow_right (by decide) hw)

/-- Every well-formed position is one of the three kinds. -/
theorem soundAt {p : Slot} (h : p.wf = true) : SoundAt p := by
  cases p with
  | window => exact ⟨window_inverseAt, window_totalAt, window_shortAt⟩
  | var256 => exact ⟨var256_inverseAt, var256_totalAt, var256_shortAt⟩
  | clen => exact ⟨clen_inverseAt, clen_totalAt, clen_shortAt⟩
  | isLast => exact isLast_field.soundAt (by decide) fun v _ => flagRow_wf rfl rfl v
  | isLastEmpty => exact isLastEmpty_field.soundAt (by decide) fun v _ => flagRow_wf rfl rfl v
  | isUncompressed => exact isUncompressed_field.soundAt (by decide) fun v _ => flagRow_wf rfl rfl v
  | rleMaxF => exact rleMaxF_field.soundAt (by decide) fun v _ => flagRow_wf rfl rfl v
  | imtf => exact imtf_field.soundAt (by decide) fun v _ => flagRow_wf rfl rfl v
  | treeSel => exact treeSel_field.soundAt (by decide) fun v _ => flagRow_wf rfl rfl v
  | mnibbles => exact mnibbles_field.soundAt (by decide) fun v _ => pairRow_wf rfl rfl rfl rfl v
  | cmode => exact cmode_field.soundAt (by decide) fun v _ => pairRow_wf rfl rfl rfl rfl v
  | hskip => exact hskip_field.soundAt (by decide) fun v _ => pairRow_wf rfl rfl rfl rfl v
  | nsymm1 => exact nsymm1_field.soundAt (by decide) fun v _ => pairRow_wf rfl rfl rfl rfl v
  | npostfix => exact npostfix_field.soundAt (by decide) fun _ _ => rfl
  | ndirectf => exact ndirectf_field.soundAt (by decide) fun _ _ => rfl
  | rleMaxM1 => exact rleMaxM1_field.soundAt (by decide) fun _ _ => rfl
  | r16 => exact r16_field.soundAt (by decide) fun _ _ => rfl
  | r17 => exact r17_field.soundAt (by decide) fun _ _ => rfl
  | mlenNib b => exact (mlenNib_field b).soundAt (by decide) fun v _ => nibbleRow_wf b v
  | symbol A earlier =>
    simp only [Slot.wf, Bool.and_eq_true, decide_eq_true_eq] at h
    obtain ⟨h2, hA⟩ := h
    have hab : ab A ≤ 10 := (ab_le_iff h2 10).2 (by simp only [Config.iacAlphabet] at hA; omega)
    exact (symbol_field h2 earlier).soundAt (hab.trans (by decide)) fun v hv =>
      symbolRow_wf hA (lt_two_pow_of_width hv hab)
  | vx w =>
    simp only [Slot.wf, Bool.and_eq_true, decide_eq_true_eq] at h
    exact (vx_field w).soundAt (h.2.trans (by decide)) fun v hv => decide_eq_true (lt_two_pow_of_width hv h.2)
  | runx w =>
    simp only [Slot.wf, Bool.and_eq_true, decide_eq_true_eq] at h
    exact (runx_field w).soundAt (h.2.trans (by decide)) fun v hv => decide_eq_true (lt_two_pow_of_width hv h.2)
  | bextra w =>
    have hw : w ≤ 24 := of_decide_eq_true h
    exact (bextra_field w).soundAt hw fun v hv => decide_eq_true (lt_two_pow_of_width hv hw)
  | iextra w =>
    have hw : w ≤ 24 := of_decide_eq_true h
    exact (iextra_field w).soundAt hw fun v hv => decide_eq_true (lt_two_pow_of_width hv hw)
  | cextra w =>
    have hw : w ≤ 24 := of_decide_eq_true h
    exact (cextra_field w).soundAt hw fun v hv => decide_eq_true (lt_two_pow_of_width hv hw)
  | dextra w =>
    have hw : w ≤ 24 := of_decide_eq_true h
    exact (dextra_field w).soundAt hw fun v hv => decide_eq_true (lt_two_pow_of_width hv hw)
  | pad w =>
    have hw : w ≤ 7 := of_decide_eq_true h
    exact (pad_field w).soundAt (hw.trans (by decide)) fun v hv => padRow_wf (lt_two_pow_of_width hv hw)
  | clSym T => exact (clSym_symbol T).soundAt h
  | bcount T => exact (bcount_symbol T).soundAt h
  | iac T => exact (iac_symbol T).soundAt h
  | lit T => exact (lit_symbol T).soundAt h
  | mapSym T r trees =>
    simp only [Slot.wf, Bool.and_eq_true, decide_eq_true_eq] at h
    obtain ⟨⟨⟨hr, -⟩, ht⟩, hT⟩ := h
    exact (mapSym_symbol T hr ht).soundAt hT
  | btype T types =>
    simp only [Slot.wf, Bool.and_eq_true, decide_eq_true_eq] at h
    obtain ⟨⟨-, ht⟩, hT⟩ := h
    exact (btype_symbol T ht).soundAt hT
  | dist T nd A =>
    simp only [Slot.wf, Bool.and_eq_true, decide_eq_true_eq] at h
    obtain ⟨⟨⟨hnd, -⟩, hA⟩, hT⟩ := h
    exact (dist_symbol T hnd hA).soundAt hT

/-! ### The obligations -/

/-- Settles O50: the lookahead that is made from an encoding begins with it, and the decoder's inverse does the
rest. -/
theorem decodeEncode : Obligations.DecodeEncode := by
  intro p i rest h hadm
  obtain ⟨hinv, -, hshort⟩ := soundAt h
  exact (hinv _ i).2 ⟨hadm, spells_lookOf (hshort i hadm)⟩

/-- Settles O51: every lookahead is an instruction, and the inverse says what its bits begin with. -/
theorem encodeDecode : Obligations.EncodeDecode := by
  intro p look h
  obtain ⟨hinv, htotal, -⟩ := soundAt h
  obtain ⟨i, hd, hwf⟩ := htotal look
  obtain ⟨hadm, hsp⟩ := (hinv look i).1 hd
  exact ⟨i, hd, hadm, hwf, fun k hk => by rw [spells_iff.1 hsp k hk, Nat.zero_add]⟩

end Sys2Proof.Machine
end

section
/-! What single elements do: the completed lengths, codes, commands and distances, each as the drop of its bits and the
state after it. -/

namespace Sys2Proof.Machine

variable {s s0 t : State} {i : Instr}

/-! ### The shape of an element -/

/-- An element that drops `n` bits in `s0`, which is `s` after what it writes before it reads. -/
theorem readsFrom_of_drop {n : Nat} {k : State → Answer} (he : exec i s = dropThen n s0 k)
    (hfit : Fits n s0 ↔ Fits n s) (hk : k (advance n s0) = .next t) : ReadsFrom n i s s0 t :=
  ⟨fun hf => he.trans ((dropThen_of_fits k (hfit.2 hf)).trans hk),
    fun hf => he.trans (dropThen_of_not_fits k (mt hfit.1 hf))⟩

/-- An element that writes nothing before it has dropped its `n` bits. -/
theorem readsTo_of_drop {n : Nat} {k : State → Answer} (he : exec i s = dropThen n s k)
    (hk : k (advance n s) = .next t) : ReadsTo n i s t :=
  readsFrom_of_drop he Iff.rfl hk

/-! ### Block counts (R69, R121) -/

theorem exec_bcount {c : Cat} {sw : Bool} (hc : s.ctl = .bcount c sw) (n k : Nat) :
    exec (.bcount n k) s = dropThen n s fun s => .next (goto (.bextra c sw k) s) := by
  simp only [exec, execBcount, hc]

theorem exec_bextra {c : Cat} {sw : Bool} {k : Nat} (hc : s.ctl = .bextra c sw k) (x : Nat) :
    exec (.bextra x) s = dropThen (tableExtra blenTable k) s fun s =>
      .next (storeBlockLen c sw (tableBase blenTable k + x) s) := by
  simp only [exec, execBextra, hc]

/-- Settles O35: after a block switch the waiting symbol's point is next, in the header the next category's. -/
theorem blockCounts : Obligations.BlockCounts := by
  refine ⟨rfl, fun s c sw n k x => ⟨fun hc => ?_, fun hc => ?_⟩⟩
  · exact readsTo_of_drop (exec_bcount hc n k) rfl
  · refine readsTo_of_drop (exec_bextra hc x) (congrArg _ ?_)
    cases sw <;> cases c <;> rfl

/-! ### Commands (R70 to R72, R130, R131) -/

/-- A symbol's row is the command of its cell and its two offsets. -/
theorem exec_iacInstr {n v : Nat} (h : iacInstr n v = some i) (s : State) :
    exec i s = takeCommand (v / 64) n (BitVec.ofNat 3 (v / 8)) (BitVec.ofNat 3 v) s := by
  unfold iacInstr at h
  split at h <;> cases h <;> rename_i hcell <;> rw [hcell] <;> rfl

theorem takeCommand_eq (hc : s.ctl = .iac) (cell n : Nat) (ioff coff : BitVec 3) :
    takeCommand cell n ioff coff s = dropThen n (countDown .insertCopy s) fun s =>
      .next (goto (.iextra ((cellTable.getD cell (0, 0, false)).1 + ioff.toNat)
          ((cellTable.getD cell (0, 0, false)).2.1 + coff.toNat))
        (setCmd { s.cmd with implicit0 := (cellTable.getD cell (0, 0, false)).2.2 } s)) := by
  simp only [takeCommand, hc]

/-- Settles O37: the cell is the symbol's high part and the offsets are its low six bits. -/
theorem commandSymbols : Obligations.CommandSymbols := by
  refine ⟨rfl, fun v hv n => (iacInstr_some hv n).imp fun _ => And.left, fun s n v i hc hi => ?_⟩
  refine readsFrom_of_drop ((exec_iacInstr hi s).trans (takeCommand_eq hc _ _ _ _)) (countDown_fits _ n s) ?_
  simp [goto, setCmd, advance]

theorem exec_iextra {icode ccode : Nat} (hc : s.ctl = .iextra icode ccode) (x : Nat) :
    exec (.iextra x) s = dropThen (tableExtra insTable icode) s fun s =>
      .next (goto (.cextra ccode) (setCmd { s.cmd with insertLen := tableBase insTable icode + x } s)) := by
  simp only [exec, execIextra, hc]

theorem exec_cextra {ccode : Nat} (hc : s.ctl = .cextra ccode) (x : Nat) :
    exec (.cextra x) s = dropThen (tableExtra cpyTable ccode) s fun s =>
      .next (nextInsert (setCmd { s.cmd with copyLen := tableBase cpyTable ccode + x } s)) := by
  simp only [exec, execCextra, hc]

/-- Settles O38: each extra field completes its length. -/
theorem commandLengths : Obligations.CommandLengths := by
  refine ⟨rfl, rfl, fun s icode ccode x => ⟨fun hc => ?_, fun hc => ?_⟩⟩
  · exact readsTo_of_drop (exec_iextra hc x) rfl
  · exact readsTo_of_drop (exec_cextra hc x) rfl

/-! ### Short distances (R73, R137, R138, R140) -/

theorem countDistance_eq (s : State) :
    countDistance s = { countDown .distance s with cmd := { s.cmd with distCtx := distCtxOf s.cmd.copyLen } } := by
  simp [countDistance, setCmd]

theorem readDistance_eq (n d : Nat) (s : State) : readDistance n d s = { countDown .distance s with
    bitpos := s.bitpos + n, cmd := { s.cmd with distCtx := distCtxOf s.cmd.copyLen, dcode := d } } := by
  simp [readDistance, countDistance, setCmd, advance]

/-- A distance symbol that reads `n` bits into `dcode`. -/
theorem takeDistance_reads {n d : Nat} {k : State → Answer} (hc : s.ctl = .dist)
    (he : exec i s = takeDistance n d s k) (hk : k (readDistance n d s) = .next t) :
    ReadsFrom n i s (countDistance s) t :=
  readsFrom_of_drop (he.trans (takeDistance_eq hc n d k)) (countDistance_fits n s) hk

theorem distCtxOf_of_five_le {n : Nat} (h : 5 ≤ n) : distCtxOf n = 3 := by
  rw [distCtxOf, if_neg (by omega), if_neg (by omega), if_neg (by omega)]

theorem lt_of_distShortInstr {n d : Nat} (h : distShortInstr n d = some i) : d < 16 := by
  unfold distShortInstr at h
  split at h
  case h_17 => cases h
  all_goals decide

/-- Settles O42: `distance` is written before the check of its sign. -/
theorem shortDistances : Obligations.ShortDistances := by
  refine ⟨⟨rfl, rfl, rfl, fun n => distCtxOf_of_five_le⟩, rfl,
    fun d hd n => (distShortInstr_some hd n).imp fun _ => And.left, fun v => storedDistance_of_nonneg,
    fun s n d i D hc hi hD => ?_⟩
  have hvalue : shortDistance s.hist d = D := hD.symm
  rw [← countDistance_eq]
  refine takeDistance_reads hc (distShortInstr_exec (lt_of_distShortInstr hi) hi s) ?_
  simp only [readDistance_hist, hvalue, Host.Outcome.next.injEq]
  rw [readDistance_eq]
  by_cases hpos : 0 < D
  · rw [if_neg (not_le.2 hpos), if_pos hpos]
    rfl
  · rw [if_pos (not_lt.1 hpos), if_neg hpos]
    rfl

/-! ### Context ids (R75, R101 to R105) -/

theorem lut2_le (b : Byte) : lut2 b ≤ 7 := by
  simp only [lut2]
  split_ifs <;> decide

theorem contextId_lsb6 (rom : Rom) (p1 p2 : Byte) : contextId rom .lsb6 p1 p2 = p1.toNat % 64 := by
  rw [contextId, BitVec.toNat_and]
  exact Nat.and_two_pow_sub_one_eq_mod p1.toNat 6

theorem contextId_msb6 (rom : Rom) (p1 p2 : Byte) : contextId rom .msb6 p1 p2 = p1.toNat / 4 := by
  rw [contextId, BitVec.toNat_ushiftRight, Nat.shiftRight_eq_div_pow]

theorem contextId_signed (rom : Rom) (p1 p2 : Byte) : contextId rom .signed p1 p2 = 8 * lut2 p1 + lut2 p2 := by
  have hlow : lut2 p2 < 2 ^ 3 := Nat.lt_succ_of_le (lut2_le p2)
  rw [contextId, ← Nat.shiftLeft_add_eq_or_of_lt hlow, Nat.shiftLeft_eq, Nat.mul_comm]

theorem contextId_lt (rom : Rom) (mode : ContextMode) (p1 p2 : Byte) : contextId rom mode p1 p2 < 64 := by
  cases mode with
  | lsb6 => rw [contextId_lsb6]; omega
  | msb6 => rw [contextId_msb6]; have := p1.isLt; omega
  | utf8 => exact BitVec.isLt _
  | signed =>
    rw [contextId_signed]
    have := lut2_le p1
    have := lut2_le p2
    omega

/-- Settles O41: each mode's id has six bits. -/
theorem contextIdBelow64 : Obligations.ContextIdBelow64 := by
  refine ⟨fun b => ?_, fun rom p1 p2 => ⟨contextId_lsb6 rom p1 p2, contextId_msb6 rom p1 p2, BitVec.toNat_or _ _,
    contextId_signed rom p1 p2, fun mode => contextId_lt rom mode p1 p2⟩⟩
  have hb := b.isLt
  simp only [lut2]
  split_ifs <;> omega

/-! ### Simple codes (R93) -/

theorem exec_takeSymbol {u : CodeUse} {nsym : Nat} {syms : List Nat} {bad : Bool}
    (hc : s.ctl = .symbol u nsym syms bad) (invalid : Bool) (v : Nat) :
    takeSymbol invalid v s = dropThen (ab (alphabetOf u s)) s fun s =>
      .next (if (syms ++ [v]).length < nsym then goto (.symbol u nsym (syms ++ [v]) (bad || invalid)) s
        else finishSymbols u (syms ++ [v]) (bad || invalid) s) := by
  simp only [takeSymbol, hc]

/-- R93: what the number of symbols makes of them. -/
theorem finishSymbols_append (u : CodeUse) {syms : List Nat} (v : Nat) (bad : Bool) (s : State)
    (h : syms.length ≤ 3) : finishSymbols u (syms ++ [v]) bad s =
      if bad then raise .huffmanLengthError s
      else if syms.length + 1 = 1 then storeCode u (.single v) s
      else if syms.length + 1 = 2 then simpleCode u (syms ++ [v]) [1, 1] s
      else if syms.length + 1 = 3 then simpleCode u (syms ++ [v]) [1, 2, 2] s
      else goto (.treeSel u (syms ++ [v])) s := by
  match syms, h with
  | [], _ | [_], _ | [_, _], _ | [_, _, _], _ => cases bad <;> rfl

theorem exec_selectTree {u : CodeUse} {syms : List Nat} (hc : s.ctl = .treeSel u syms) (lens : List Nat) :
    selectTree lens s = dropThen 1 s fun s => .next (simpleCode u syms lens s) := by
  simp only [selectTree, hc]

/-- One SYMBOL field, valid or not. -/
theorem takeSymbol_reads {u : CodeUse} {nsym : Nat} {syms : List Nat} {bad invalid : Bool} {v : Nat}
    (hc : s.ctl = .symbol u nsym syms bad) (hlen : syms.length < nsym) (h4 : nsym ≤ 4)
    (hi : exec i s = takeSymbol invalid v s) : ReadsTo (ab (alphabetOf u s)) i s
      (let s1 := advance (ab (alphabetOf u s)) s
       if syms.length + 1 < nsym then goto (.symbol u nsym (syms ++ [v]) (bad || invalid)) s1
       else if bad || invalid then raise .huffmanLengthError s1
       else if nsym = 1 then storeCode u (.single v) s1
       else if nsym = 2 then storeCode u (.lengths (listedLens (alphabetOf u s) (syms ++ [v]) [1, 1])) s1
       else if nsym = 3 then storeCode u (.lengths (listedLens (alphabetOf u s) (syms ++ [v]) [1, 2, 2])) s1
       else goto (.treeSel u (syms ++ [v])) s1) := by
  refine readsTo_of_drop (hi.trans (exec_takeSymbol hc invalid v)) (congrArg _ ?_)
  rw [List.length_append, List.length_singleton]
  by_cases hmore : syms.length + 1 < nsym
  · rw [if_pos hmore, if_pos hmore]
  · obtain rfl : nsym = syms.length + 1 := by omega
    rw [if_neg hmore, if_neg hmore, finishSymbols_append u v _ _ (by omega)]
    rfl

/-- Settles O25: the last symbol decides between the error, the code of one symbol, the fixed lengths and `TREESEL`. -/
theorem simpleCodeSymbols : Obligations.SimpleCodeSymbols := by
  refine ⟨fun A n hA => ab_le_iff hA n, fun s u syms hc e he => ?_, fun s u nsym syms bad v hc hlen h4 e he => ?_⟩
  · simp only [List.mem_cons, List.not_mem_nil, or_false] at he
    obtain rfl | rfl := he <;> exact readsTo_of_drop (exec_selectTree hc _) rfl
  · simp only [List.mem_cons, List.not_mem_nil, or_false] at he
    obtain rfl | rfl := he
    · have h := takeSymbol_reads (i := .symbol v) (invalid := false) (v := v) hc hlen h4 rfl
      rw [Bool.or_false] at h
      exact h
    · have h := takeSymbol_reads (i := .symbolInvalid v) (invalid := true) (v := v) hc hlen h4 rfl
      rw [Bool.or_true] at h
      exact h

/-! ### The code-length code (R94) -/

theorem takeClen_eq {u : CodeUse} {st : ClLocals} (hc : s.ctl = .clen u st) (n v : Nat) :
    takeClen n v s = dropThen n s fun s => .next (nextClEntry u (st.take v) s) := by
  simp only [takeClen, hc]

/-- The symbol lengths begin with their first symbol, since there is one. -/
theorem nextLength_start {u : CodeUse} (T : Code) (h : 0 < alphabetOf u s) :
    nextLength u T LenLocals.start s = goto (.clSym u T LenLocals.start) s :=
  if_pos ⟨h, by decide⟩

/-- R94: the loop of the entries, its end and its error. -/
theorem nextClEntry_eq_ite {u : CodeUse} (st : ClLocals) (h : 0 < alphabetOf u s) : nextClEntry u st s =
    if st.space ≤ 0 ∨ 18 ≤ st.i then
      if st.num = 1 then goto (.clSym u (.single (st.cl.findIdx (fun l => decide (l ≠ 0)))) LenLocals.start) s
      else if st.space = 0 then goto (.clSym u (.lengths st.cl) LenLocals.start) s
      else raise .huffmanLengthError s
    else goto (.clen u st) s := by
  unfold nextClEntry ClLocals.finished ClLocals.code
  refine if_congr (by rw [Bool.or_eq_true, decide_eq_true_eq, decide_eq_true_eq]) ?_ rfl
  split_ifs
  · exact nextLength_start _ h
  · exact nextLength_start _ h
  · rfl

/-- An entry of value `v` that is read in `n` bits. -/
theorem takeClen_reads {u : CodeUse} {st : ClLocals} (hc : s.ctl = .clen u st) (hsp : 0 < st.space)
    (hA : 0 < alphabetOf u s) {n v : Nat} (hi : exec i s = takeClen n v s) : ReadsTo n i s
      (let s1 := advance n s
       let next := st.take v
       if (v ≠ 0 ∧ next.space ≤ 0) ∨ 17 ≤ st.i then
         if next.num = 1 then
           goto (.clSym u (.single (next.cl.findIdx (fun l => decide (l ≠ 0)))) LenLocals.start) s1
         else if next.space = 0 then goto (.clSym u (.lengths next.cl) LenLocals.start) s1
         else raise .huffmanLengthError s1
       else goto (.clen u next) s1) := by
  refine readsTo_of_drop (hi.trans (takeClen_eq hc n v)) (congrArg _ ?_)
  have hA' : 0 < alphabetOf u (advance n s) := hA
  rw [nextClEntry_eq_ite _ hA']
  refine if_congr ?_ rfl rfl
  have hfull : (st.take v).space ≤ 0 ↔ v ≠ 0 ∧ (st.take v).space ≤ 0 := by
    refine ⟨fun h => ⟨fun h0 => ?_, h⟩, And.right⟩
    rw [ClLocals.take, if_pos h0] at h
    exact absurd h (not_le.2 hsp)
  exact or_congr hfull (Nat.succ_le_succ_iff (a := 17))

/-- Settles O27: the six rows are entries of six values. -/
theorem codeLengthEntries : Obligations.CodeLengthEntries := by
  refine ⟨rfl, fun s u st hc hsp hA e he => ?_⟩
  simp only [List.mem_cons, List.not_mem_nil, or_false] at he
  obtain rfl | rfl | rfl | rfl | rfl | rfl := he
  · exact takeClen_reads (n := 2) (v := 0) hc hsp hA rfl
  · exact takeClen_reads (n := 2) (v := 3) hc hsp hA rfl
  · exact takeClen_reads (n := 2) (v := 4) hc hsp hA rfl
  · exact takeClen_reads (n := 3) (v := 2) hc hsp hA rfl
  · exact takeClen_reads (n := 4) (v := 1) hc hsp hA rfl
  · exact takeClen_reads (n := 4) (v := 5) hc hsp hA rfl

end Sys2Proof.Machine
end

section
/-! The grammar positions of the control points: the codes that a header which has been read selects, the
well-formedness of every position the invariant promises, and the step that executes the element decoded there. -/

namespace Sys2Proof.Machine

variable {s t : State} {i : Instr} {p : Slot}

/-! ### The selected codes (R106, R130, R135, R138) -/

/-- A list has an entry at every place below its length. -/
theorem exists_getElem?_of_lt {α : Type} {l : List α} {n : Nat} (h : n < l.length) : ∃ a ∈ l, l[n]? = some a :=
  ⟨l[n], List.getElem_mem h, List.getElem?_eq_getElem h⟩

theorem getD_of_getElem? {α : Type} {l : List α} {n : Nat} {a : α} (d : α) (h : l[n]? = some a) : l.getD n d = a := by
  rw [List.getD_eq_getElem?_getD, h, Option.getD_some]

/-- The literal code is named by entries that the header has written. -/
theorem literalCode_written (h : HeaderRead s) : ∃ mode tree, s.mb.contextMode[s.mb.lit.blockType]? = some mode ∧
    s.mb.litMap[64 * s.mb.lit.blockType + contextId s.rom mode s.p1 s.p2]? = some tree ∧
    s.mb.litCode[tree]? = some (literalCode s) ∧ (literalCode s).valid Config.litAlphabet = true := by
  have hlt := (h.blockOk .literal).2.2.1
  obtain ⟨⟨⟨-, -, hmodes⟩, ⟨-, -, hsize, htree⟩, -⟩, hlen, hcodes, -⟩ := h
  change s.mb.lit.blockType < s.mb.lit.numTypes at hlt
  obtain ⟨mode, -, hmode⟩ := exists_getElem?_of_lt (hmodes.symm ▸ hlt)
  have hctx := contextId_lt s.rom mode s.p1 s.p2
  have hplace : 64 * s.mb.lit.blockType + contextId s.rom mode s.p1 s.p2 < s.mb.litMap.length := by
    rw [hsize, mapSize, Nat.shiftLeft_eq]
    omega
  obtain ⟨tree, hmem, htreeAt⟩ := exists_getElem?_of_lt hplace
  obtain ⟨T, hTmem, hT⟩ := exists_getElem?_of_lt (hlen.symm ▸ htree tree hmem : tree < s.mb.litCode.length)
  have hsel : literalCode s = T := by
    simp only [literalCode, modeOf, getD_of_getElem? _ hmode, getD_of_getElem? _ htreeAt, getD_of_getElem? _ hT]
  exact ⟨mode, tree, hmode, htreeAt, hsel ▸ hT, hsel ▸ hcodes T hTmem⟩

theorem commandCode_written (h : HeaderRead s) : s.mb.iacCode[s.mb.iac.blockType]? = some (commandCode s) ∧
    (commandCode s).valid Config.iacAlphabet = true := by
  have hlt := (h.blockOk .insertCopy).2.2.1
  obtain ⟨-, -, -, hlen, hcodes, -⟩ := h
  obtain ⟨T, hTmem, hT⟩ := exists_getElem?_of_lt (hlen.symm ▸ hlt : s.mb.iac.blockType < s.mb.iacCode.length)
  have hsel : commandCode s = T := getD_of_getElem? _ hT
  exact ⟨hsel ▸ hT, hsel ▸ hcodes T hTmem⟩

theorem distanceCode_written (h : HeaderRead s) : ∃ tree,
    s.mb.distMap[4 * s.mb.dist.blockType + distCtxOf s.cmd.copyLen]? = some tree ∧
    s.mb.distCode[tree]? = some (distanceCode s) ∧ (distanceCode s).valid s.mb.distAlphabet = true := by
  have hlt := (h.blockOk .distance).2.2.1
  obtain ⟨⟨-, -, ⟨-, -, hsize, htree⟩⟩, -, -, -, -, hlen, hcodes⟩ := h
  change s.mb.dist.blockType < s.mb.dist.numTypes at hlt
  have hctx := distCtxOf_lt s.cmd.copyLen
  have hplace : 4 * s.mb.dist.blockType + distCtxOf s.cmd.copyLen < s.mb.distMap.length := by
    rw [hsize, mapSize, Nat.shiftLeft_eq]
    omega
  obtain ⟨tree, hmem, htreeAt⟩ := exists_getElem?_of_lt hplace
  obtain ⟨T, hTmem, hT⟩ := exists_getElem?_of_lt (hlen.symm ▸ htree tree hmem : tree < s.mb.distCode.length)
  have hsel : distanceCode s = T := by
    simp only [distanceCode, getD_of_getElem? _ htreeAt, getD_of_getElem? _ hT]
  exact ⟨tree, htreeAt, hsel ▸ hT, hsel ▸ hcodes T hTmem⟩

theorem HeaderRead.distParams (h : HeaderRead s) : DistParams s := by
  obtain ⟨⟨⟨-, hd, -⟩, -⟩, -⟩ := h
  exact hd

theorem DistParams.bounds (h : DistParams s) : 16 + s.mb.ndirect ≤ s.mb.distAlphabet ∧ s.mb.distAlphabet ≤ 520 := by
  obtain ⟨hnp, hnd, halpha⟩ := h
  have hpow : 2 ^ s.mb.npostfix ≤ 2 ^ 3 := Nat.pow_le_pow_right (by decide) hnp
  rw [halpha, Nat.shiftLeft_eq]
  omega

/-! ### The executed element (R60, R112) -/

theorem fetchAt_of_decode (h : decode p (lookahead s) = .ok i) : fetchAt p s = .ok i := by
  simp only [fetchAt, h]

theorem runStep_element (hp : slotOf s = some p) (h : decode p (lookahead s) = .ok i) : runStep s = exec i s := by
  simp only [runStep, hp, fetchAt_of_decode h]

theorem padWidth_eq (s : State) : padWidth s = (s.bitpos + 7) / 8 * 8 - s.bitpos := by
  unfold padWidth
  omega

theorem alphabetOf_eq (u : CodeUse) (s : State) : alphabetOf u s =
    match u with
    | .btype c => (s.mb.block c).numTypes + 2
    | .bcount _ => 26
    | .cmap .literal rlemax => s.mb.ntreesL + rlemax
    | .cmap .distance rlemax => s.mb.ntreesD + rlemax
    | .lit => 256
    | .iac => 704
    | .dist => s.mb.distAlphabet := by
  match u with
  | .btype _ | .bcount _ | .cmap .literal _ | .cmap .distance _ | .lit | .iac | .dist => rfl

/-- Settles O1: `slotOf` at each control point, and the codes that the header has written. -/
theorem stepRunsDecodedElement : Obligations.StepRunsDecodedElement := by
  refine ⟨fun s p i hq hrun hp hd => (step_run hq hrun).trans (runStep_element hp hd), fun s => ?_⟩
  refine ⟨?_, ?_, ?_, ?_, ?_, ?_, ?_, ?_, ?_, ?_, ?_, ?_, ?_⟩
  · intro e he hc
    simp only [List.mem_cons, List.not_mem_nil, or_false] at he
    obtain rfl | rfl | rfl | rfl | rfl | rfl | rfl | rfl := he <;> simp only [slotOf, hc]
  · intro i nibbles v hc
    simp only [slotOf, hc, Bool.decide_and, beq_eq_decide]
  · exact fun u n => ⟨fun hc => by simp only [slotOf, hc], fun hc => by simp only [slotOf, hc]⟩
  · refine fun m rlemax code acc k => ⟨?_, ?_, ?_, ?_, ?_⟩ <;> intro hc <;> simp only [slotOf, hc]
    cases m <;> rfl
  · refine fun u nsym syms bad cl code st => ⟨?_, ?_, ?_, ?_, ?_, ?_, ?_, ?_⟩ <;> intro hc <;>
      simp only [slotOf, hc]
    exact congrArg (fun A => some (Slot.symbol A syms)) (alphabetOf_eq u s)
  · refine fun c switch k => ⟨?_, ?_, ?_⟩ <;> intro hc <;> simp only [slotOf, hc] <;> rfl
  · exact fun icode ccode => ⟨fun hc => by simp only [slotOf, hc], fun hc => by simp only [slotOf, hc]⟩
  · intro hc
    simp only [slotOf, hc]
  · intro hc
    simp only [slotOf, hc, padWidth_eq]
  · intro hc
    simp only [slotOf, hc]
  · intro h hc
    obtain ⟨mode, tree, hmode, htree, hT, -⟩ := literalCode_written h
    exact ⟨mode, tree, _, hmode, htree, hT, by simp only [slotOf, hc]⟩
  · intro h hc
    exact ⟨_, (commandCode_written h).1, by simp only [slotOf, hc]⟩
  · intro h hc
    obtain ⟨tree, htree, hT, -⟩ := distanceCode_written h
    exact ⟨tree, _, htree, hT, by simp only [slotOf, hc]⟩

/-- Settles O3: each word is decoded. -/
theorem decodesWrittenOutWords : Obligations.DecodesWrittenOutWords := by
  unfold Obligations.DecodesWrittenOutWords
  decide

end Sys2Proof.Machine
end

section
/-! From a state of the invariant no step stops: its grammar position is well formed, so an element is decoded there,
and an element that its position admits answers a next state and takes the bits of its encoding. -/

namespace Sys2Proof.Machine

variable {s s0 t : State} {i : Instr} {p : Slot}

/-! ### Well-formed positions -/

/-- R99: the alphabet of every code that the header reads. -/
theorem AtCode.alphabet {u : CodeUse} (h : AtCode u s) : 2 ≤ alphabetOf u s ∧ alphabetOf u s ≤ Config.iacAlphabet := by
  cases u with
  | btype c =>
    obtain ⟨-, -, h256⟩ := h
    simp only [alphabetOf, Config.iacAlphabet]
    omega
  | bcount c => exact ⟨(by decide : 2 ≤ 26), (by decide : 26 ≤ 704)⟩
  | cmap m r =>
    obtain ⟨⟨-, -, h2, h256, -⟩, hr⟩ := h
    simp only [alphabetOf, Config.iacAlphabet]
    omega
  | lit => exact ⟨(by decide : 2 ≤ 256), (by decide : 256 ≤ 704)⟩
  | iac => exact ⟨(by decide : 2 ≤ 704), le_rfl⟩
  | dist =>
    obtain ⟨⟨⟨-, hd, -⟩, -⟩, -⟩ := h
    obtain ⟨hlo, hhi⟩ := hd.bounds
    simp only [alphabetOf, Config.iacAlphabet]
    omega

theorem blenTable_extra_le (k : Nat) : tableExtra blenTable k ≤ Config.maxPeek := by
  by_cases hk : k < 26
  · interval_cases k <;> decide
  · rw [tableExtra, List.getD_eq_default _ _ (by simpa [blenTable] using hk)]
    decide

theorem insTable_extra_le (k : Nat) : tableExtra insTable k ≤ Config.maxPeek := by
  by_cases hk : k < 24
  · interval_cases k <;> decide
  · rw [tableExtra, List.getD_eq_default _ _ (by simpa [insTable] using hk)]
    decide

theorem cpyTable_extra_le (k : Nat) : tableExtra cpyTable k ≤ Config.maxPeek := by
  by_cases hk : k < 24
  · interval_cases k <;> decide
  · rw [tableExtra, List.getD_eq_default _ _ (by simpa [cpyTable] using hk)]
    decide

/-- The position of every control point that the invariant promises is well formed (R60, R77, R85). -/
theorem slotOf_wf (hok : CtlOk s) (hp : slotOf s = some p) : p.wf = true := by
  cases hc : s.ctl with
  | copy =>
    simp only [slotOf, hc] at hp
    cases hp
  | countX u v1 =>
    simp only [slotOf, hc] at hp
    cases hp
    obtain ⟨-, h1, h7⟩ := (ctlOk_countX hc).1 hok
    simp [Slot.wf, h1, h7]
  | mapSym m r T acc =>
    simp only [slotOf, CtlOk, hc] at hp hok
    cases hp
    obtain ⟨⟨-, -, h2, h256, -⟩, hr, hT, -⟩ := hok
    simp [Slot.wf, hr, h2, h256, hT]
  | mapRun m r T acc k =>
    simp only [slotOf, CtlOk, hc] at hp hok
    cases hp
    obtain ⟨-, hr, -, -, -, h1, hk⟩ := hok
    simp [Slot.wf, h1, hk.trans hr]
  | symbol u nsym syms bad =>
    simp only [slotOf, CtlOk, hc] at hp hok
    cases hp
    obtain ⟨h2, hA⟩ := hok.1.alphabet
    simp [Slot.wf, h2, hA]
  | clSym u T st =>
    simp only [slotOf, CtlOk, hc] at hp hok
    cases hp
    exact hok.2.1
  | btype c =>
    simp only [slotOf, CtlOk, hc] at hp hok
    cases hp
    obtain ⟨hh, -, ⟨h2, -⟩, -⟩ := hok
    obtain ⟨-, h256, -, -, hcodes⟩ := hh.blockOk c
    simp [Slot.wf, h2, h256, (hcodes h2).2.1]
  | bcount c sw =>
    simp only [slotOf, hc] at hp
    cases hp
    cases sw <;> simp only [CtlOk, hc] at hok
    · obtain ⟨-, -, -, -, hT⟩ := hok
      exact hT
    · obtain ⟨hh, -, ⟨h2, -⟩, -⟩ := hok
      obtain ⟨-, -, -, -, hcodes⟩ := hh.blockOk c
      exact (hcodes h2).2.2
  | bextra c sw k =>
    simp only [slotOf, hc] at hp
    cases hp
    exact decide_eq_true (blenTable_extra_le k)
  | iextra icode ccode =>
    simp only [slotOf, hc] at hp
    cases hp
    exact decide_eq_true (insTable_extra_le icode)
  | cextra ccode =>
    simp only [slotOf, hc] at hp
    cases hp
    exact decide_eq_true (cpyTable_extra_le ccode)
  | iac =>
    simp only [slotOf, CtlOk, hc] at hp hok
    cases hp
    exact (commandCode_written hok.1).2
  | lit =>
    simp only [slotOf, CtlOk, hc] at hp hok
    cases hp
    obtain ⟨-, -, -, -, -, hT⟩ := literalCode_written hok.1
    exact hT
  | dist =>
    simp only [slotOf, CtlOk, hc] at hp hok
    cases hp
    obtain ⟨hlo, hhi⟩ := hok.1.distParams.bounds
    obtain ⟨-, -, -, hT⟩ := distanceCode_written hok.1
    simp [Slot.wf, hok.1.distParams.2.1, hlo, hhi, hT]
  | dextra =>
    simp only [slotOf, CtlOk, hc] at hp hok
    cases hp
    obtain ⟨hh, -, -, -, hd⟩ := hok
    exact decide_eq_true (rangedBits_le (hh.distParams.2.2 ▸ hd))
  | pad =>
    simp only [slotOf, hc] at hp
    cases hp
    exact decide_eq_true (Nat.le_of_lt_succ (Nat.mod_lt _ (by decide)))
  | _ =>
    simp only [slotOf, hc] at hp
    cases hp
    rfl

/-! ### What an element takes (R83, R86) -/

/-- The answer `a` is a next state in which the cursor of `s` has moved by `n` bits, or `need_more_input`. -/
def Takes (n : Nat) (s : State) (a : Answer) : Prop :=
  ∃ t, a = .next t ∧ (t.err ≠ .needMoreInput → t.bitpos = s.bitpos + n)

/-- An answer that drops nothing more. -/
theorem takes_next (h : t.bitpos = s.bitpos) : Takes 0 s (.next t) := ⟨t, rfl, fun _ => h⟩

/-- A drop of `m` bits, in a state with the cursor of `s`, before an answer that takes `n` more. -/
theorem takes_dropThen {m n : Nat} {k : State → Answer} (h0 : s0.bitpos = s.bitpos)
    (hk : Takes n (advance m s0) (k (advance m s0))) : Takes (m + n) s (dropThen m s0 k) := by
  obtain ⟨-, e⟩ | ⟨-, e⟩ := dropThen_cases m s0 k
  · obtain ⟨t, ht, hb⟩ := hk
    exact ⟨t, e.trans ht, fun he => by rw [hb he, advance_bitpos, h0, Nat.add_assoc]⟩
  · exact ⟨_, e, fun he => absurd rfl he⟩

/-- An element that drops `n` bits in one piece and then leaves the cursor. -/
theorem takes_drop {n : Nat} {f : State → State} (hf : ∀ s', (f s').bitpos = s'.bitpos) (h0 : s0.bitpos = s.bitpos) :
    Takes n s (dropThen n s0 fun s' => .next (f s')) :=
  takes_dropThen (n := 0) h0 (takes_next (hf _))

/-- The header's continuations leave the cursor. -/
theorem bitpos_of_header {e : ErrKind} (h : (∃ k b, t = { s with ctl := k, mb := b }) ∨ t = raise e s) :
    t.bitpos = s.bitpos := by
  obtain ⟨k, b, rfl⟩ | rfl := h <;> rfl

/-! ### Positions that read one field, or have rows of several widths -/

theorem takes_window (hc : s.ctl = .window) (ha : Slot.admits .window i = true) :
    Takes (encode .window i).length s (exec i s) := by
  cases i with
  | win16 =>
    simp only [exec, execWin16, hc]
    exact takes_drop (fun _ => rfl) rfl
  | win17to24 =>
    simp only [exec, execWin17to24, hc]
    exact takes_dropThen (m := 1) (n := 3) rfl (takes_drop (fun _ => rfl) rfl)
  | win17 | winReserved | win10to15 =>
    simp only [exec, execWin17, execWinReserved, execWin10to15, hc]
    exact takes_dropThen (m := 1) (n := 3 + 3) rfl (takes_dropThen rfl (takes_drop (fun _ => rfl) rfl))
  | _ => cases ha

theorem takes_isLast (hc : s.ctl = .isLast) (ha : Slot.admits .isLast i = true) :
    Takes (encode .isLast i).length s (exec i s) := by
  cases i with
  | isLast0 | isLast1 =>
    simp only [exec, execIsLast0, execIsLast1, hc]
    exact takes_drop (fun _ => rfl) rfl
  | _ => cases ha

theorem takes_isLastEmpty (hc : s.ctl = .isLastEmpty) (ha : Slot.admits .isLastEmpty i = true) :
    Takes (encode .isLastEmpty i).length s (exec i s) := by
  cases i with
  | isLastEmpty0 | isLastEmpty1 =>
    simp only [exec, execIsLastEmpty0, execIsLastEmpty1, hc]
    exact takes_drop (fun _ => rfl) rfl
  | _ => cases ha

theorem takes_mnibbles (hc : s.ctl = .mnibbles) (ha : Slot.admits .mnibbles i = true) :
    Takes (encode .mnibbles i).length s (exec i s) := by
  cases i with
  | mnibbles4 | mnibbles5 | mnibbles6 | mnibblesReserved =>
    simp only [exec, execMnibbles4, execMnibbles5, execMnibbles6, execMnibblesReserved, startMlen, hc]
    exact takes_drop (fun _ => rfl) rfl
  | _ => cases ha

theorem storeMlen_bitpos (v : Nat) (s : State) : (storeMlen v s).bitpos = s.bitpos := by
  obtain ⟨k, b, e⟩ := storeMlen_header v s
  rw [e]

theorem takes_mlenNib {j n v : Nat} {b : Bool} (hc : s.ctl = .mlenNib j n v)
    (ha : Slot.admits (.mlenNib b) i = true) :
    Takes (encode (.mlenNib b) i).length s (exec i s) := by
  cases i with
  | mlenNib x =>
    simp only [exec, execMlenNib, hc]
    refine takes_drop (fun s' => ?_) rfl
    split
    · rfl
    · exact storeMlen_bitpos _ s'
  | mlenNibLastZero =>
    simp only [exec, execMlenNibLastZero, hc]
    exact takes_drop (fun _ => rfl) rfl
  | _ => cases ha

theorem takes_isUncompressed (hc : s.ctl = .isUncompressed) (ha : Slot.admits .isUncompressed i = true) :
    Takes (encode .isUncompressed i).length s (exec i s) := by
  cases i with
  | isUncompressed0 | isUncompressed1 =>
    simp only [exec, execIsUncompressed0, execIsUncompressed1, hc]
    exact takes_drop (fun _ => rfl) rfl
  | _ => cases ha

theorem takes_count {u : CountUse} (hc : s.ctl = .count u) (ha : Slot.admits .var256 i = true) :
    Takes (encode .var256 i).length s (exec i s) := by
  cases i with
  | var256One =>
    simp only [exec, execVar256One, hc]
    exact takes_drop (fun _ => by simp) rfl
  | var256Two =>
    simp only [exec, execVar256Two, hc]
    exact takes_dropThen (m := 1) (n := 3) rfl (takes_drop (fun _ => by simp) rfl)
  | var256More =>
    simp only [exec, execVar256More, hc]
    exact takes_dropThen (m := 1) (n := 3) rfl (takes_drop (fun _ => rfl) rfl)
  | _ => cases ha

theorem takes_countX {u : CountUse} {v1 : Nat} (hc : s.ctl = .countX u v1) (ha : Slot.admits (.vx v1) i = true) :
    Takes (encode (.vx v1) i).length s (exec i s) := by
  cases i with
  | vx x =>
    simp only [exec, execVx, hc]
    rw [(vx_field v1).encode_length ha]
    exact takes_drop (fun _ => by simp) rfl
  | _ => cases ha

theorem takes_npostfix (hc : s.ctl = .npostfix) (ha : Slot.admits .npostfix i = true) :
    Takes (encode .npostfix i).length s (exec i s) := by
  cases i with
  | npostfix =>
    simp only [exec, execNpostfix, hc]
    exact takes_drop (fun _ => rfl) rfl
  | _ => cases ha

theorem takes_ndirectf (hc : s.ctl = .ndirectf) (ha : Slot.admits .ndirectf i = true) :
    Takes (encode .ndirectf i).length s (exec i s) := by
  cases i with
  | ndirectf =>
    simp only [exec, execNdirectf, hc]
    exact takes_drop (fun _ => rfl) rfl
  | _ => cases ha

theorem takes_cmode (hc : s.ctl = .cmode) (ha : Slot.admits .cmode i = true) :
    Takes (encode .cmode i).length s (exec i s) := by
  cases i with
  | cmodeLsb6 | cmodeMsb6 | cmodeUtf8 | cmodeSigned =>
    simp only [exec, execCmodeLsb6, execCmodeMsb6, execCmodeUtf8, execCmodeSigned, takeMode, hc]
    exact takes_drop (fun _ => rfl) rfl
  | _ => cases ha

theorem takes_rleMaxF {m : MapSel} (hc : s.ctl = .rleMaxF m) (ha : Slot.admits .rleMaxF i = true) :
    Takes (encode .rleMaxF i).length s (exec i s) := by
  cases i with
  | rleMaxF0 | rleMaxF1 =>
    simp only [exec, execRleMaxF0, execRleMaxF1, hc]
    exact takes_drop (fun _ => rfl) rfl
  | _ => cases ha

theorem takes_rleMaxM1 {m : MapSel} (hc : s.ctl = .rleMaxM1 m) (ha : Slot.admits .rleMaxM1 i = true) :
    Takes (encode .rleMaxM1 i).length s (exec i s) := by
  cases i with
  | rleMaxM1 =>
    simp only [exec, execRleMaxM1, hc]
    exact takes_drop (fun _ => rfl) rfl
  | _ => cases ha

theorem takes_mapRun {m : MapSel} {r k : Nat} {T : Code} {acc : List Nat} (hc : s.ctl = .mapRun m r T acc k)
    (ha : Slot.admits (.runx k) i = true) :
    Takes (encode (.runx k) i).length s (exec i s) := by
  cases i with
  | runx x =>
    simp only [exec, execRunx, hc]
    rw [(runx_field k).encode_length ha]
    refine takes_drop (fun s' => ?_) rfl
    split
    · rfl
    · simp
  | _ => cases ha

theorem takes_imtf {m : MapSel} {acc : List Nat} (hc : s.ctl = .imtf m acc) (ha : Slot.admits .imtf i = true) :
    Takes (encode .imtf i).length s (exec i s) := by
  cases i with
  | imtf0 | imtf1 =>
    simp only [exec, execImtf0, execImtf1, hc]
    exact takes_drop (fun _ => by simp) rfl
  | _ => cases ha

theorem takes_hskip {u : CodeUse} (hc : s.ctl = .hskip u) (ha : Slot.admits .hskip i = true) :
    Takes (encode .hskip i).length s (exec i s) := by
  cases i with
  | hskipSimple | hskipComplex0 | hskipComplex2 | hskipComplex3 =>
    simp only [exec, execHskipSimple, execHskipComplex0, execHskipComplex2, execHskipComplex3, startComplex, hc]
    exact takes_drop (fun _ => rfl) rfl
  | _ => cases ha

theorem takes_nsymm1 {u : CodeUse} (hc : s.ctl = .nsymm1 u) (ha : Slot.admits .nsymm1 i = true) :
    Takes (encode .nsymm1 i).length s (exec i s) := by
  cases i with
  | nsymm1One | nsymm1Two | nsymm1Three | nsymm1Four =>
    simp only [exec, execNsymm1One, execNsymm1Two, execNsymm1Three, execNsymm1Four, startSimple, hc]
    exact takes_drop (fun _ => rfl) rfl
  | _ => cases ha

theorem takes_takeSymbol {u : CodeUse} {nsym : Nat} {syms : List Nat} {bad : Bool}
    (hc : s.ctl = .symbol u nsym syms bad)
    (invalid : Bool) (v : Nat) : Takes (ab (alphabetOf u s)) s (takeSymbol invalid v s) := by
  rw [exec_takeSymbol hc]
  refine takes_drop (fun s' => ?_) rfl
  split
  · rfl
  · exact bitpos_of_header (finishSymbols_eq u _ _ s')

theorem takes_symbol {u : CodeUse} {nsym : Nat} {syms : List Nat} {bad : Bool} (hc : s.ctl = .symbol u nsym syms bad)
    (ha : Slot.admits (.symbol (alphabetOf u s) syms) i = true) :
    Takes (encode (.symbol (alphabetOf u s) syms) i).length s (exec i s) := by
  cases i with
  | symbol v =>
    exact (fieldBits_length _ v).symm ▸ takes_takeSymbol hc false v
  | symbolInvalid v =>
    exact (fieldBits_length _ v).symm ▸ takes_takeSymbol hc true v
  | _ => cases ha

theorem takes_treeSel {u : CodeUse} {syms : List Nat} (hc : s.ctl = .treeSel u syms)
    (ha : Slot.admits .treeSel i = true) :
    Takes (encode .treeSel i).length s (exec i s) := by
  cases i with
  | treeSel0 | treeSel1 =>
    simp only [exec, execTreeSel0, execTreeSel1, selectTree, simpleCode, hc]
    exact takes_drop (fun _ => by simp) rfl
  | _ => cases ha

theorem takes_clen {u : CodeUse} {st : ClLocals} (hc : s.ctl = .clen u st) (ha : Slot.admits .clen i = true) :
    Takes (encode .clen i).length s (exec i s) := by
  cases i with
  | clen0 | clen3 | clen4 | clen2 | clen1 | clen5 =>
    simp only [exec, execClen0, execClen3, execClen4, execClen2, execClen1, execClen5, takeClen, hc]
    exact takes_drop (fun s' => bitpos_of_header (nextClEntry_eq u _ s')) rfl
  | _ => cases ha

theorem takes_rep16 {u : CodeUse} {T : Code} {st : LenLocals} (hc : s.ctl = .rep16 u T st)
    (ha : Slot.admits .r16 i = true) :
    Takes (encode .r16 i).length s (exec i s) := by
  cases i with
  | r16 x =>
    simp only [exec, execR16, hc]
    exact takes_drop (fun s' => bitpos_of_header (applyRepeat_eq u T st _ _ _ s')) rfl
  | _ => cases ha

theorem takes_rep17 {u : CodeUse} {T : Code} {st : LenLocals} (hc : s.ctl = .rep17 u T st)
    (ha : Slot.admits .r17 i = true) :
    Takes (encode .r17 i).length s (exec i s) := by
  cases i with
  | r17 x =>
    simp only [exec, execR17, hc]
    exact takes_drop (fun s' => bitpos_of_header (applyRepeat_eq u T st _ _ _ s')) rfl
  | _ => cases ha

theorem takes_bextra {c : Cat} {sw : Bool} {k : Nat} (hc : s.ctl = .bextra c sw k)
    (ha : Slot.admits (.bextra (tableExtra blenTable k)) i = true) :
    Takes (encode (.bextra (tableExtra blenTable k)) i).length s (exec i s) := by
  rw [(bextra_field _).encode_length ha]
  cases i with
  | bextra x =>
    rw [exec_bextra hc]
    exact takes_drop (fun _ => by simp) rfl
  | _ => cases ha

theorem takes_iextra {icode ccode : Nat} (hc : s.ctl = .iextra icode ccode)
    (ha : Slot.admits (.iextra (tableExtra insTable icode)) i = true) :
    Takes (encode (.iextra (tableExtra insTable icode)) i).length s (exec i s) := by
  rw [(iextra_field _).encode_length ha]
  cases i with
  | iextra x =>
    rw [exec_iextra hc]
    exact takes_drop (fun _ => rfl) rfl
  | _ => cases ha

theorem takes_cextra {ccode : Nat} (hc : s.ctl = .cextra ccode)
    (ha : Slot.admits (.cextra (tableExtra cpyTable ccode)) i = true) :
    Takes (encode (.cextra (tableExtra cpyTable ccode)) i).length s (exec i s) := by
  rw [(cextra_field _).encode_length ha]
  cases i with
  | cextra x =>
    rw [exec_cextra hc]
    exact takes_drop (fun _ => by simp) rfl
  | _ => cases ha

theorem takes_dextra (hc : s.ctl = .dextra)
    (ha : Slot.admits (.dextra (rangedBits s.mb.npostfix s.mb.ndirect s.cmd.dcode)) i = true) :
    Takes (encode (.dextra (rangedBits s.mb.npostfix s.mb.ndirect s.cmd.dcode)) i).length s (exec i s) := by
  rw [(dextra_field _).encode_length ha]
  cases i with
  | dextra x =>
    simp only [exec, execDextra, hc]
    exact takes_drop (fun _ => rfl) rfl
  | _ => cases ha

theorem takes_pad (hc : s.ctl = .pad) (ha : Slot.admits (.pad (padWidth s)) i = true) :
    Takes (encode (.pad (padWidth s)) i).length s (exec i s) := by
  rw [(pad_field _).encode_length ha]
  cases i with
  | padZero | padNonzero v =>
    simp only [exec, execPadZero, execPadNonzero, hc]
    exact takes_drop (fun _ => rfl) rfl
  | _ => cases ha

/-! ### Positions that read a symbol -/

/-- A position that reads a symbol, if every row answers at the state. -/
theorem ReadsSymbol.takes {T : Code} {A : Nat} {row : (n s : Nat) → Option Instr} (h : ReadsSymbol p T A row)
    (hT : T.valid A = true) (ha : p.admits i = true) (hrow : ∀ n v, row n v = some i → Takes n s (exec i s)) :
    Takes (encode p i).length s (exec i s) := by
  obtain ⟨v, n, hlen, hi⟩ := h.admits_iff.1 ha
  rw [h.encode_row hi, symBits_length hT hlen]
  exact hrow n v hi

theorem takes_clSym {u : CodeUse} {T : Code} {st : LenLocals} (hc : s.ctl = .clSym u T st) {n v : Nat}
    (hi : clInstr n v = some i) : Takes n s (exec i s) := by
  unfold clInstr at hi
  split_ifs at hi <;> cases hi
  · simp only [exec, execClLength, hc]
    exact takes_drop (fun _ => by simp) rfl
  · simp only [exec, execClRepeatPrev, hc]
    exact takes_drop (fun _ => rfl) rfl
  · simp only [exec, execClRepeatZero, hc]
    exact takes_drop (fun _ => rfl) rfl

theorem takes_mapSym {m : MapSel} {r trees : Nat} {T : Code} {acc : List Nat} (hc : s.ctl = .mapSym m r T acc)
    {n v : Nat} (hi : mapInstr r trees n v = some i) : Takes n s (exec i s) := by
  unfold mapInstr at hi
  split_ifs at hi <;> cases hi
  · simp only [exec, execCmapZero, hc]
    exact takes_drop (fun _ => by simp) rfl
  · simp only [exec, execCmapRun, hc]
    exact takes_drop (fun _ => rfl) rfl
  · simp only [exec, execCmapValue, hc]
    exact takes_drop (fun _ => by simp) rfl

theorem takes_btype {c : Cat} (hc : s.ctl = .btype c) {types n v : Nat} (hi : btypeInstr types n v = some i) :
    Takes n s (exec i s) := by
  unfold btypeInstr at hi
  split_ifs at hi <;> cases hi
  · simp only [exec, execBtypeLast, hc]
    exact takes_drop (fun _ => rfl) rfl
  · simp only [exec, execBtypeNext, hc]
    exact takes_drop (fun _ => rfl) rfl
  · simp only [exec, execBtypeExplicit, hc]
    exact takes_drop (fun _ => rfl) rfl

theorem takes_bcount {c : Cat} {sw : Bool} (hc : s.ctl = .bcount c sw) {n v : Nat} (hi : bcountInstr n v = some i) :
    Takes n s (exec i s) := by
  unfold bcountInstr at hi
  split_ifs at hi
  cases hi
  rw [exec_bcount hc]
  exact takes_drop (fun _ => rfl) rfl

theorem takes_iac (hc : s.ctl = .iac) {n v : Nat} (hi : iacInstr n v = some i) : Takes n s (exec i s) := by
  rw [exec_iacInstr hi, takeCommand_eq hc]
  exact takes_drop (fun _ => rfl) (countDown_bitpos _ s)

theorem takes_lit (hc : s.ctl = .lit) {n v : Nat} (hi : litInstr n v = some i) : Takes n s (exec i s) := by
  unfold litInstr at hi
  split_ifs at hi
  cases hi
  simp only [exec, execLiteral, hc]
  refine takes_dropThen (n := 0) (countDown_bitpos _ s) ?_
  obtain ⟨-, e⟩ | ⟨-, e⟩ := emitThen_cases (BitVec.ofNat 8 v) (advance n (countDown .literal s))
    (fun s => .next (nextInsert (countLiteral s)))
  · rw [e]
    exact takes_next (by simp)
  · rw [e]
    exact takes_next rfl

theorem countDistance_bitpos (s : State) : (countDistance s).bitpos = s.bitpos := by simp [countDistance]

theorem takes_dist (hc : s.ctl = .dist) {nd A n v : Nat} (hi : distInstr nd A n v = some i) :
    Takes n s (exec i s) := by
  unfold distInstr at hi
  split_ifs at hi with hshort
  · rw [distShortInstr_exec hshort hi, takeShort, takeDistance_eq hc]
    refine takes_drop (fun s' => ?_) (countDistance_bitpos s)
    split <;> rfl
  · cases hi
    simp only [exec, execDistDirect, takeDistance_eq hc]
    exact takes_drop (fun _ => rfl) (countDistance_bitpos s)
  · cases hi
    simp only [exec, execDistRanged, takeDistance_eq hc]
    exact takes_drop (fun _ => rfl) (countDistance_bitpos s)

/-! ### Every position -/

/-- An element that its position admits answers a next state and takes the bits of its encoding. -/
theorem takes_element (hp : slotOf s = some p) (hwf : p.wf = true) (ha : p.admits i = true) :
    Takes (encode p i).length s (exec i s) := by
  unfold slotOf at hp
  split at hp <;> cases hp <;> rename_i hc
  · exact takes_window hc ha
  · exact takes_isLast hc ha
  · exact takes_isLastEmpty hc ha
  · exact takes_mnibbles hc ha
  · exact takes_mlenNib hc ha
  · exact takes_isUncompressed hc ha
  · exact takes_count hc ha
  · exact takes_countX hc ha
  · exact takes_npostfix hc ha
  · exact takes_ndirectf hc ha
  · exact takes_cmode hc ha
  · exact takes_rleMaxF hc ha
  · exact takes_rleMaxM1 hc ha
  · simp only [Slot.wf, Bool.and_eq_true, decide_eq_true_eq] at hwf
    obtain ⟨⟨⟨hr, -⟩, ht⟩, hT⟩ := hwf
    exact (mapSym_symbol _ hr ht).takes hT ha fun _ _ hi => takes_mapSym hc hi
  · exact takes_mapRun hc ha
  · exact takes_imtf hc ha
  · exact takes_hskip hc ha
  · exact takes_nsymm1 hc ha
  · exact takes_symbol hc ha
  · exact takes_treeSel hc ha
  · exact takes_clen hc ha
  · exact (clSym_symbol _).takes hwf ha fun _ _ hi => takes_clSym hc hi
  · exact takes_rep16 hc ha
  · exact takes_rep17 hc ha
  · simp only [Slot.wf, Bool.and_eq_true, decide_eq_true_eq] at hwf
    obtain ⟨⟨-, ht⟩, hT⟩ := hwf
    exact (btype_symbol _ ht).takes hT ha fun _ _ hi => takes_btype hc hi
  · exact (bcount_symbol _).takes hwf ha fun _ _ hi => takes_bcount hc hi
  · exact takes_bextra hc ha
  · exact (iac_symbol _).takes hwf ha fun _ _ hi => takes_iac hc hi
  · exact takes_iextra hc ha
  · exact takes_cextra hc ha
  · exact (lit_symbol _).takes hwf ha fun _ _ hi => takes_lit hc hi
  · simp only [Slot.wf, Bool.and_eq_true, decide_eq_true_eq] at hwf
    obtain ⟨⟨⟨hnd, -⟩, hA⟩, hT⟩ := hwf
    exact (dist_symbol _ hnd hA).takes hT ha fun _ _ hi => takes_dist hc hi
  · exact takes_dextra hc ha
  · exact takes_pad hc ha

/-! ### The obligations -/

/-- Settles O11: what the decoder reads is admitted, and an admitted element takes the bits of its encoding. -/
theorem elementTakesItsBits : Obligations.ElementTakesItsBits := by
  intro s t p i hp hwf hd hexec herr
  obtain ⟨hadm, -⟩ := ((soundAt hwf).inverse _ i).1 hd
  obtain ⟨t', ht', hbits⟩ := takes_element hp hwf hadm
  obtain rfl : t = t' := Host.Outcome.next.inj (hexec.symm.trans ht')
  exact hbits herr

/-- A running decode at a well-formed position goes on. -/
theorem runStep_next (hok : CtlOk s) : ∃ t, runStep s = .next t := by
  cases hp : slotOf s with
  | none => exact ⟨_, runStep_copy (slotOf_eq_none hp)⟩
  | some p =>
    have hwf := slotOf_wf hok hp
    obtain ⟨i, hd, -⟩ := (soundAt hwf).total (lookahead s)
    obtain ⟨hadm, -⟩ := ((soundAt hwf).inverse _ i).1 hd
    obtain ⟨t, ht, -⟩ := takes_element hp hwf hadm
    exact ⟨t, (runStep_element hp hd).trans ht⟩

/-- Settles O54: a host move and an ended decode answer at once, and a running decode is at a well-formed position. -/
theorem machineInvNeverStops : Obligations.MachineInvNeverStops := by
  intro s h
  cases hq : s.hostq with
  | cons c rest => exact ⟨_, step_host hq⟩
  | nil =>
    by_cases hrun : s.phase = .run
    · obtain ⟨-, -, hrunOk⟩ := h
      obtain ⟨-, -, -, hok⟩ := hrunOk hrun
      rw [step_run hq hrun]
      exact runStep_next hok
    · exact ⟨s, step_ended hq hrun⟩

end Sys2Proof.Machine
end

section
/-! The lookup by range (R91): the canonical codewords of one length are consecutive from `first` on and the lengths'
ranges meet end to end, so the first bucket whose limit reaches the lookahead is that of the codeword it begins with. -/

namespace Sys2Proof.Machine

/-! ### The codewords, length by length -/

/-- The canonical entries of length `l`: consecutive codewords from `first[l]` on. -/
def codesOfLen (L : List Nat) (l : Nat) : List (Nat × Nat × Nat) :=
  ((symsOfLen L l).zipIdx (firstCode L l)).map fun e => (l, e.2, e.1)

theorem symsOfLen_length (L : List Nat) (l : Nat) : (symsOfLen L l).length = countLen L l := by
  have h := spaceOf_symsOfLen L l
  simp only [spaceOf, List.map_map, Function.comp_def, List.map_const', List.sum_replicate, smul_eq_mul] at h
  exact Nat.eq_of_mul_eq_mul_right (Nat.two_pow_pos _) h

/-- The lengths of codewords, in order. -/
theorem lengths_eq_range' : (List.range Config.maxCodeLen).map (· + 1) = List.range' 1 Config.maxCodeLen := by
  simp only [List.range'_eq_map_range, Nat.add_comm 1]

theorem sortedSyms_eq_range' (L : List Nat) : sortedSyms L =
    (List.range' 1 Config.maxCodeLen).flatMap fun l => (symsOfLen L l).map fun s => (l, s) := by
  rw [← lengths_eq_range', List.flatMap_map]
  rfl

/-- Before longer codewords only the code shifted to their length matters. -/
theorem assign_shift {p q : Nat} (hpq : p ≤ q) {es : List (Nat × Nat)} (h : ∀ e ∈ es, q ≤ e.1) (code : Nat) :
    assign es (code <<< (q - p)) q = assign es code p := by
  cases es with
  | nil => rfl
  | cons e es =>
    have hsum : q - p + (e.1 - q) = e.1 - p := by have := h e List.mem_cons_self; omega
    simp only [assign, ← Nat.shiftLeft_add, hsum]

/-- Symbols of one length get consecutive codewords. -/
theorem assign_sameLen (l : Nat) (syms : List Nat) (es : List (Nat × Nat)) (code : Nat) :
    assign (syms.map (fun s => (l, s)) ++ es) code l =
      (syms.zipIdx code).map (fun e => (l, e.2, e.1)) ++ assign es (code + syms.length) l := by
  induction syms generalizing code with
  | nil => rfl
  | cons s syms ih =>
    simp [assign, ih, Nat.add_assoc, Nat.add_comm 1]

theorem assign_lengths (L : List Nat) (n l : Nat) (hl : 1 ≤ l) :
    assign ((List.range' l n).flatMap fun k => (symsOfLen L k).map fun s => (k, s)) (firstCode L l) l =
      (List.range' l n).flatMap (codesOfLen L) := by
  induction n generalizing l with
  | zero => rfl
  | succ n ih =>
    have hnext : firstCode L (l + 1) = (firstCode L l + countLen L l) <<< (l + 1 - l) := by
      cases l with
      | zero => omega
      | succ l => rw [Nat.add_sub_cancel_left]; rfl
    have hlater : ∀ e ∈ (List.range' (l + 1) n).flatMap (fun k => (symsOfLen L k).map fun s => (k, s)),
        l + 1 ≤ e.1 := by
      intro e he
      obtain ⟨k, hk, he⟩ := List.mem_flatMap.1 he
      obtain ⟨s, -, rfl⟩ := List.mem_map.1 he
      exact (List.mem_range'_1.1 hk).1
    rw [List.range'_succ, List.flatMap_cons, List.flatMap_cons, assign_sameLen, symsOfLen_length,
      ← assign_shift (Nat.le_add_right l 1) hlater, ← hnext, ih (l + 1) (Nat.le_add_left 1 l)]
    rfl

theorem canonical_eq (L : List Nat) : canonical L =
    (List.range' 1 Config.maxCodeLen).flatMap (codesOfLen L) := by
  have hlen : ∀ e ∈ sortedSyms L, 1 ≤ e.1 := fun e he => (mem_sortedSyms.1 he).2.1
  rw [canonical, ← assign_shift (Nat.zero_le 1) hlen, sortedSyms_eq_range']
  exact assign_lengths L _ 1 le_rfl

/-- R91: a codeword of length `l` lies as far above `first[l]` as its symbol among the symbols of that length. -/
theorem symsOfLen_of_canonical {L : List Nat} {l c s : Nat} (h : (l, c, s) ∈ canonical L) :
    firstCode L l ≤ c ∧ (symsOfLen L l)[c - firstCode L l]? = some s := by
  rw [canonical_eq] at h
  obtain ⟨k, -, h⟩ := List.mem_flatMap.1 h
  obtain ⟨⟨s', c'⟩, hmem, heq⟩ := List.mem_map.1 h
  cases heq
  exact List.mk_mem_zipIdx_iff_le_and_getElem?_sub.1 hmem

/-- R91: `base[l]` is where the symbols of length `l` start in the sorted list. -/
theorem sortedSyms_base {L : List Nat} {l j s : Nat} (h1 : 1 ≤ l) (h15 : l ≤ Config.maxCodeLen)
    (hj : (symsOfLen L l)[j]? = some s) : (sortedSyms L)[baseIndex L l + j]? = some (l, s) := by
  obtain ⟨k, rfl⟩ := Nat.exists_eq_add_of_le' h1
  obtain ⟨n, hn⟩ := Nat.exists_eq_add_of_lt h15
  have hbase : baseIndex L (k + 1) =
      ((List.range k).flatMap fun k => (symsOfLen L (k + 1)).map fun s => (k + 1, s)).length := by
    simp only [baseIndex, List.length_flatMap, List.length_map, symsOfLen_length, Nat.add_sub_cancel]
  have hlt : j < ((symsOfLen L (k + 1)).map fun s => (k + 1, s)).length := by
    rw [List.length_map]
    exact (List.getElem?_eq_some_iff.1 hj).1
  rw [sortedSyms, hn, Nat.add_assoc, List.range_add, List.range_succ_eq_map, List.map_cons, Nat.add_zero,
    List.flatMap_append, List.flatMap_cons, hbase,
    List.getElem?_append_right (Nat.le_add_right _ _), Nat.add_sub_cancel_left, List.getElem?_append_left hlt,
    List.getElem?_map, hj]
  rfl

/-! ### The buckets (R91) -/

/-- The 16-bit lookahead has the first stream bits on top. -/
theorem reverse16_eq (look : BitVec 24) : reverse16 look = topBits look 16 := by
  simp only [reverse16, List.range_succ, List.range_zero, List.map_append, List.map_cons, List.map_nil,
    List.sum_append, List.sum_cons, List.sum_nil, Nat.shiftLeft_eq, topBits]
  omega

theorem topBits_div {look : BitVec 24} {l m : Nat} (h : l ≤ m) : topBits look m / 2 ^ (m - l) = topBits look l := by
  rw [← topBits_add_div look l (m - l), Nat.add_sub_cancel' h]

/-- The lookahead is at most the limit of a length exactly where its first `l` bits lie below the end of that length's
codewords. -/
theorem reverse16_le_limitCode {L : List Nat} {look : BitVec 24} {l : Nat} (hl : l ≤ 16) (hpos : 0 < countLen L l) :
    reverse16 look ≤ limitCode L l ↔ topBits look l < firstCode L l + countLen L l := by
  have hp := Nat.two_pow_pos (16 - l)
  have hend : 0 < (firstCode L l + countLen L l) * 2 ^ (16 - l) := Nat.mul_pos (Nat.add_pos_right _ hpos) hp
  rw [reverse16_eq, limitCode, Nat.shiftLeft_eq, ← topBits_div hl, Nat.div_lt_iff_lt_mul hp]
  omega

/-- The codewords of a length end before those of a greater length begin. -/
theorem codes_end_le_firstCode (L : List Nat) {k l : Nat} (hk : 1 ≤ k) (hkl : k < l) :
    (firstCode L k + countLen L k) * 2 ^ (l - k) ≤ firstCode L l := by
  have hstep : ∀ m, 1 ≤ m → firstCode L (m + 1) = (firstCode L m + countLen L m) * 2 := by
    intro m hm
    obtain ⟨m, rfl⟩ := Nat.exists_eq_add_of_le' hm
    exact Nat.shiftLeft_eq _ 1
  induction l, hkl using Nat.le_induction with
  | base => rw [hstep k hk, Nat.succ_sub le_rfl, Nat.sub_self, Nat.pow_one]
  | succ l hkl ih =>
    rw [hstep l (by omega), Nat.succ_sub (by omega), Nat.pow_succ, ← Nat.mul_assoc]
    exact Nat.mul_le_mul_right 2 (ih.trans (Nat.le_add_right _ _))

/-- The lookup by range answers the entry whose codeword begins the lookahead. -/
theorem decodeRange_eq {L : List Nat} {look : BitVec 24} {l c s : Nat} (he : (l, c, s) ∈ canonical L)
    (htop : topBits look l = c) : decodeRange L look = some (s, l) := by
  obtain ⟨-, h1, h15⟩ := canonical_length he
  obtain ⟨hfirst, hsym⟩ := symsOfLen_of_canonical he
  have hoff : c - firstCode L l < countLen L l := symsOfLen_length L l ▸ (List.getElem?_eq_some_iff.1 hsym).1
  have h16 : ∀ k, k ≤ l → k ≤ 16 := fun k hk => hk.trans (h15.trans (by decide))
  have hlonger : ∀ k, 1 ≤ k → k < l → 0 < countLen L k → ¬ reverse16 look ≤ limitCode L k := by
    intro k hk hkl hpos
    rw [reverse16_le_limitCode (h16 k hkl.le) hpos, not_lt, ← topBits_div hkl.le,
      Nat.le_div_iff_mul_le (Nat.two_pow_pos _), htop]
    exact (codes_end_le_firstCode L hk hkl).trans hfirst
  have hreach : reverse16 look ≤ limitCode L l := by
    rw [reverse16_le_limitCode (h16 l le_rfl) (by omega), htop]
    omega
  have hbucket : ((List.range Config.maxCodeLen).map (· + 1)).find?
      (fun l => decide (0 < countLen L l) && decide (reverse16 look ≤ limitCode L l)) = some l := by
    rw [lengths_eq_range', List.find?_range'_eq_some, List.mem_range'_1]
    simp only [Bool.not_eq_true', Bool.and_eq_true, Bool.and_eq_false_imp, decide_eq_true_eq, decide_eq_false_iff_not]
    exact ⟨⟨by omega, hreach⟩, ⟨h1, by omega⟩, hlonger⟩
  have hshift : reverse16 look >>> (16 - l) = c := by
    rw [reverse16_eq, Nat.shiftRight_eq_div_pow, topBits_div (h16 l le_rfl), htop]
  have hentry := sortedSyms_base h1 h15 hsym
  rw [← Nat.add_sub_assoc hfirst] at hentry
  simp only [decodeRange, hbucket, hshift, hentry, Option.map_some]

/-- Settles O33: both lookups answer the one entry whose codeword begins the lookahead. -/
theorem rangeFormAgrees : Obligations.RangeFormAgrees := by
  intro A L look h
  obtain ⟨e, he, hc, hd, -⟩ := decodeSym_lengths h look
  rw [hd]
  exact decodeRange_eq he ((covers_top15 (canonical_length he).2.2).1 hc)

/-! ### Completeness and uniqueness of the codewords (R88, R98) -/

theorem spells_codeBits {look : BitVec 24} {l c : Nat} :
    Spells look 0 (codeBits l c) ↔ ∀ i, i < l → (codeBits l c)[i]? = some (look.getLsbD i) := by
  simp only [spells_iff, codeBits, List.length_map, List.length_range, Nat.zero_add]

/-- Settles O31: the entry that covers the lookahead is the only one. -/
theorem completeCodeDecodes : Obligations.CompleteCodeDecodes := by
  intro A L look h
  obtain ⟨e, he, -, hd, huniq⟩ := decodeSym_lengths h look
  obtain ⟨hget, h1, h15⟩ := canonical_length he
  refine ⟨e.2.2, e.1, hd, ?_, hget, h1, h15, fun e' he' hbits => ?_⟩
  · exact (valid_lengths h).1 ▸ (List.getElem?_eq_some_iff.1 hget).1
  · rw [huniq e' he' ((spells_codeword h he' look).2 (spells_codeBits.2 hbits))]
    exact ⟨rfl, rfl⟩

/-- Settles O32: the codeword fits in the lookahead, which therefore spells it. -/
theorem codewordDecodesToItsSymbol : Obligations.CodewordDecodesToItsSymbol := by
  intro A L s l rest h hget h0
  have hlen : symLen (.lengths L) s = some l := symLen_lengths.2 ⟨hget, h0⟩
  have hbits := symBits_length h hlen
  have h24 : (symBits (.lengths L) s).length ≤ 24 := hbits ▸ (symLen_le h hlen).trans (by decide)
  exact ⟨hbits, (decodeSym_iff h _ s l).2 ⟨hlen, spells_lookOf h24⟩⟩

end Sys2Proof.Machine
end

section
/-! The definition of a code in the stream (R92 to R95): what its elements do, and the length array of a simple one. -/

namespace Sys2Proof.Machine

variable {s : State}

/-! ### The length array of a simple code (R93) -/

theorem foldl_set_length (es : List (Nat × Nat)) (L : List Nat) :
    (es.foldl (fun L e => L.set e.1 e.2) L).length = L.length := by
  induction es generalizing L with
  | nil => rfl
  | cons e es ih => rw [List.foldl_cons, ih, List.length_set]

/-- Writing a list of places and values leaves the other places. -/
theorem foldl_set_getElem?_of_not_mem {es : List (Nat × Nat)} {v : Nat} (hv : v ∉ es.map (·.1)) (L : List Nat) :
    (es.foldl (fun L e => L.set e.1 e.2) L)[v]? = L[v]? := by
  induction es generalizing L with
  | nil => rfl
  | cons e es ih =>
    rw [List.map_cons, List.mem_cons, not_or] at hv
    rw [List.foldl_cons, ih hv.2, List.getElem?_set_ne (Ne.symm hv.1)]

/-- Writing a list of distinct places and values puts each value at its place. -/
theorem foldl_set_getElem?_of_mem {es : List (Nat × Nat)} (hn : (es.map (·.1)).Nodup) {e : Nat × Nat} (he : e ∈ es)
    {L : List Nat} (hlt : e.1 < L.length) : (es.foldl (fun L e => L.set e.1 e.2) L)[e.1]? = some e.2 := by
  induction es generalizing L with
  | nil => exact absurd he List.not_mem_nil
  | cons e' es ih =>
    obtain ⟨hnot, hn⟩ := List.nodup_cons.1 hn
    rw [List.foldl_cons]
    obtain rfl | he := List.mem_cons.1 he
    · rw [foldl_set_getElem?_of_not_mem hnot, List.getElem?_set_self hlt]
    · exact ih hn he (by rwa [List.length_set])

/-- The fixed lengths of R93 fill the space. -/
theorem fixedLengths_full {lens : List Nat}
    (h : lens = [1, 1] ∨ lens = [1, 2, 2] ∨ lens = [2, 2, 2, 2] ∨ lens = [1, 2, 3, 3]) :
    (∀ l ∈ lens, l ≤ Config.maxCodeLen) ∧ kraftSum lens = Config.fullSpace := by
  obtain rfl | rfl | rfl | rfl := h <;> decide

/-- Settles O26: each listed symbol's length is written once. -/
theorem listedSymbolsGetTheirLengths : Obligations.ListedSymbolsGetTheirLengths := by
  intro A syms lens hnodup hlt hlen
  have hkeys : (syms.zip lens).map (·.1) = syms := List.map_fst_zip hlen.le
  refine ⟨?_, fun i v hv => ?_, fun v hvA hv => ?_, fun hfixed => ?_⟩
  · exact (foldl_set_length _ _).trans List.length_replicate
  · have hi : i < lens.length := hlen ▸ (List.getElem?_eq_some_iff.1 hv).1
    have hmem : (v, lens[i]) ∈ syms.zip lens :=
      List.mem_of_getElem? (List.getElem?_zip_eq_some.2 ⟨hv, List.getElem?_eq_getElem hi⟩)
    rw [List.getElem?_eq_getElem hi]
    refine foldl_set_getElem?_of_mem (by rwa [hkeys]) hmem ?_
    rw [List.length_replicate]
    exact hlt v (List.mem_of_getElem? hv)
  · rw [listedLens, foldl_set_getElem?_of_not_mem (by rwa [hkeys]), List.getElem?_replicate_of_lt hvA]
  · obtain ⟨hb, hfull⟩ := fixedLengths_full hfixed
    exact listedLens_valid ⟨hnodup, hlt⟩ hlen.symm hb hfull

/-! ### The start of a definition (R92 to R94) -/

theorem exec_hskipSimple {u : CodeUse} (hc : s.ctl = .hskip u) :
    exec .hskipSimple s = dropThen 2 s fun s => .next (goto (.nsymm1 u) s) := by
  simp only [exec, execHskipSimple, hc]

theorem startComplex_eq {u : CodeUse} (hc : s.ctl = .hskip u) (k : Nat) :
    startComplex k s = dropThen 2 s fun s => .next (goto (.clen u (ClLocals.start k)) s) := by
  simp only [startComplex, hc]

theorem startSimple_eq {u : CodeUse} (hc : s.ctl = .nsymm1 u) (n : Nat) :
    startSimple n s = dropThen 2 s fun s => .next (goto (.symbol u n [] false) s) := by
  simp only [startSimple, hc]

/-- Settles O24: a complex code starts from an empty code-length code, a simple one from an empty list of symbols. -/
theorem codeHeader : Obligations.CodeHeader := by
  refine fun s u => ⟨fun hc => ⟨readsTo_of_drop (exec_hskipSimple hc) rfl, fun e he => ?_⟩, fun hc e he => ?_⟩
  · simp only [List.mem_cons, List.not_mem_nil, or_false] at he
    obtain rfl | rfl | rfl := he <;> exact readsTo_of_drop (startComplex_eq hc _) rfl
  · simp only [List.mem_cons, List.not_mem_nil, or_false] at he
    obtain rfl | rfl | rfl | rfl := he <;> exact readsTo_of_drop (startSimple_eq hc _) rfl

/-! ### Symbol lengths (R95) -/

theorem exec_clLength {u : CodeUse} {T : Code} {st : LenLocals} (hc : s.ctl = .clSym u T st) (n : Nat) (c : BitVec 4) :
    exec (.clLength n c) s = dropThen n s fun s => .next (nextLength u T (st.takeLength c.toNat) s) := by
  simp only [exec, execClLength, hc]

theorem exec_clRepeatPrev {u : CodeUse} {T : Code} {st : LenLocals} (hc : s.ctl = .clSym u T st) (n : Nat) :
    exec (.clRepeatPrev n) s = dropThen n s fun s => .next (goto (.rep16 u T st) s) := by
  simp only [exec, execClRepeatPrev, hc]

theorem exec_clRepeatZero {u : CodeUse} {T : Code} {st : LenLocals} (hc : s.ctl = .clSym u T st) (n : Nat) :
    exec (.clRepeatZero n) s = dropThen n s fun s => .next (goto (.rep17 u T st) s) := by
  simp only [exec, execClRepeatZero, hc]

/-- A literal length takes the space of its codewords, and 0 takes none. -/
theorem takeLength_eq (st : LenLocals) (c : BitVec 4) : st.takeLength c.toNat =
    { lens := st.lens ++ [c.toNat]
      space := if c = 0 then st.space else st.space - (32768 / 2 ^ c.toNat : Nat)
      prev := if c = 0 then st.prev else c.toNat
      rep := 0
      replen := st.replen } := by
  have h0 : c.toNat = 0 ↔ c = 0 := BitVec.toNat_inj (y := 0)
  simp only [LenLocals.takeLength, h0, Nat.shiftRight_eq_div_pow, Config.fullSpace]

/-- Settles O28: `nextLength` is the loop's test. -/
theorem symbolLengths : Obligations.SymbolLengths := by
  refine fun s u code st n => ⟨fun hc => ⟨fun c => ?_, ?_, ?_⟩, rfl⟩
  · rw [← takeLength_eq]
    exact readsTo_of_drop (exec_clLength hc n c) rfl
  · exact readsTo_of_drop (exec_clRepeatPrev hc n) rfl
  · exact readsTo_of_drop (exec_clRepeatZero hc n) rfl

/-! ### Repeats (R95) -/

theorem exec_r16 {u : CodeUse} {T : Code} {st : LenLocals} (hc : s.ctl = .rep16 u T st) (x : BitVec 2) :
    exec (.r16 x) s = dropThen 2 s fun s => .next (applyRepeat u T st st.prev 2 x.toNat s) := by
  simp only [exec, execR16, hc]

theorem exec_r17 {u : CodeUse} {T : Code} {st : LenLocals} (hc : s.ctl = .rep17 u T st) (x : BitVec 3) :
    exec (.r17 x) s = dropThen 3 s fun s => .next (applyRepeat u T st 0 3 x.toNat s) := by
  simp only [exec, execR17, hc]

theorem repeatTotal_eq (rep shift extra : Nat) :
    repeatTotal rep shift extra = (if 0 < rep then (rep - 2) * 2 ^ shift else 0) + extra + 3 := by
  by_cases h : 0 < rep
  · rw [repeatTotal, if_pos h, if_pos h, Nat.shiftLeft_eq]
  · rw [repeatTotal, if_neg h, if_neg h, Nat.eq_zero_of_not_pos h]

/-- R95: a repeat adds what the run grows by, or passes the alphabet. -/
theorem applyRepeat_eq_ite (u : CodeUse) (T : Code) (st : LenLocals) (newlen shift extra : Nat) (s : State) :
    applyRepeat u T st newlen shift extra s =
      (let old := if st.replen = newlen then st.rep else 0
       let rep := (if 0 < old then (old - 2) * 2 ^ shift else 0) + extra + 3
       let n := rep - old
       if alphabetOf u s < st.lens.length + n then raise .huffmanLengthError s
       else nextLength u T
         { lens := st.lens ++ List.replicate n newlen
           space := if newlen = 0 then st.space else st.space - (n * 2 ^ (15 - newlen) : Nat)
           prev := st.prev
           rep := rep
           replen := newlen } s) := by
  simp only [applyRepeat, LenLocals.takeRepeat, repeatTotal_eq, Nat.shiftLeft_eq]
  split_ifs <;> rfl

/-- Settles O29: both repeat fields are the one repeat, of the previous length or of 0. -/
theorem symbolLengthRepeats : Obligations.SymbolLengthRepeats := by
  intro s u code st newlen shift extra w i h
  obtain ⟨hc, ⟨x, rfl, rfl⟩, rfl, rfl, rfl⟩ | ⟨hc, ⟨x, rfl, rfl⟩, rfl, rfl, rfl⟩ := h
  · exact readsTo_of_drop (exec_r16 hc x) (congrArg _ (applyRepeat_eq_ite u code st _ 2 _ _))
  · exact readsTo_of_drop (exec_r17 hc x) (congrArg _ (applyRepeat_eq_ite u code st 0 3 _ _))

end Sys2Proof.Machine
end

section
/-! The inverse move-to-front entry by entry (R109, R110): its list, after any number of entries, is the values output
so far in the order of their last use and then the values that have not been output. -/

namespace Sys2Proof.Machine

/-! ### The list of the loop -/

/-- The list of the loop after an entry `k` (R109). -/
def moveToFront (mtf : List Nat) (k : Nat) : List Nat := mtf.getD k 0 :: mtf.eraseIdx k

/-- The list of `InverseMTF(m)` after all the entries of `m`. -/
def mtfAfter (m : List Nat) : List Nat := m.foldl moveToFront (List.range 256)

theorem inverseMtfFrom_append_singleton (mtf m : List Nat) (k : Nat) :
    inverseMtfFrom mtf (m ++ [k]) = inverseMtfFrom mtf m ++ [(m.foldl moveToFront mtf).getD k 0] := by
  induction m generalizing mtf with
  | nil => rfl
  | cons e m ih => exact congrArg _ (ih (moveToFront mtf e))

theorem inverseMtf_append_singleton (m : List Nat) (k : Nat) :
    inverseMtf (m ++ [k]) = inverseMtf m ++ [(mtfAfter m).getD k 0] :=
  inverseMtfFrom_append_singleton _ m k

theorem mtfAfter_append_singleton (m : List Nat) (k : Nat) : mtfAfter (m ++ [k]) = moveToFront (mtfAfter m) k :=
  List.foldl_concat ..

theorem moveToFront_perm {mtf : List Nat} {k : Nat} (hk : k < mtf.length) : (moveToFront mtf k).Perm mtf := by
  rw [moveToFront, List.getD_eq_getElem _ _ hk]
  exact List.getElem_cons_eraseIdx_perm hk

/-- In a list without repetitions the value moved to the front is taken out wherever it stood. -/
theorem moveToFront_eq_filter {mtf : List Nat} (hn : mtf.Nodup) {k : Nat} (hk : k < mtf.length) :
    moveToFront mtf k = mtf.getD k 0 :: mtf.filter (· != mtf.getD k 0) := by
  rw [moveToFront, List.getD_eq_getElem _ _ hk, ← hn.erase_getElem k hk, hn.erase_eq_filter]

/-- Entries below 256 only permute the bytes. -/
theorem mtfAfter_perm {m : List Nat} (hm : ∀ e ∈ m, e < 256) : (mtfAfter m).Perm (List.range 256) := by
  induction m using List.reverseRecOn with
  | nil => rw [mtfAfter, List.foldl_nil]
  | append_singleton m k ih =>
    obtain ⟨hm, hk⟩ := List.forall_mem_append.1 hm
    have hperm := ih hm
    rw [mtfAfter_append_singleton]
    refine (moveToFront_perm ?_).trans hperm
    rw [hperm.length_eq, List.length_range]
    exact hk k List.mem_cons_self

theorem mtfAfter_length {m : List Nat} (hm : ∀ e ∈ m, e < 256) : (mtfAfter m).length = 256 :=
  (mtfAfter_perm hm).length_eq.trans List.length_range

/-! ### The order of last use -/

theorem eraseDups_filter {α : Type} [BEq α] [LawfulBEq α] (p : α → Bool) (l : List α) :
    (l.filter p).eraseDups = l.eraseDups.filter p := by
  match l with
  | [] => rfl
  | a :: l =>
    have ih := eraseDups_filter p (l.filter fun b => !b == a)
    rw [List.filter_filter] at ih
    rw [List.eraseDups_cons, List.filter_cons, List.filter_cons]
    by_cases hp : p a = true
    · rw [if_pos hp, if_pos hp, List.eraseDups_cons, List.filter_filter, ← ih]
      simp only [Bool.and_comm]
    · have hne : ∀ b, p b = (p b && !b == a) := fun b => by
        by_cases hb : b = a <;> simp [hb, hp]
      rw [if_neg hp, if_neg hp, ← ih, List.filter_congr fun b _ => hne b]
  termination_by l.length
  decreasing_by exact Nat.lt_succ_of_le (List.length_filter_le _ _)

/-- The values of `out`, the latest first and each once, and after them the other bytes in order (R109). -/
def recencyOrder (out : List Nat) : List Nat :=
  out.reverse.eraseDups ++ (List.range 256).filter (fun x => decide (x ∉ out))

/-- A value that is output goes to the front. -/
theorem recencyOrder_append_singleton (out : List Nat) (v : Nat) :
    recencyOrder (out ++ [v]) = v :: (recencyOrder out).filter (· != v) := by
  have hfirst : (out ++ [v]).reverse.eraseDups = v :: out.reverse.eraseDups.filter (· != v) := by
    rw [List.reverse_concat, List.eraseDups_cons, eraseDups_filter]
    rfl
  have hrest : ∀ x, decide (x ∉ out ++ [v]) = (x != v && decide (x ∉ out)) := fun x => by
    by_cases hx : x = v <;> simp [hx]
  simp only [recencyOrder, hfirst, hrest, List.filter_append, List.filter_filter, List.cons_append]

/-- The invariant of the loop: its list is the order of last use of what it has output. -/
theorem mtfAfter_eq_recencyOrder {m : List Nat} (hm : ∀ e ∈ m, e < 256) :
    mtfAfter m = recencyOrder (inverseMtf m) := by
  induction m using List.reverseRecOn with
  | nil => exact (List.filter_true _).symm
  | append_singleton m k ih =>
    obtain ⟨hm, hk⟩ := List.forall_mem_append.1 hm
    have hlen : k < (mtfAfter m).length := mtfAfter_length hm ▸ hk k List.mem_cons_self
    have hnodup : (mtfAfter m).Nodup := (mtfAfter_perm hm).nodup_iff.2 List.nodup_range
    rw [mtfAfter_append_singleton, moveToFront_eq_filter hnodup hlen,
      inverseMtf_append_singleton, recencyOrder_append_singleton, ih hm]

/-- Settles O23, by the invariant of the loop. -/
theorem mtfStaysBelowTrees : Obligations.MtfStaysBelowTrees := by
  refine ⟨rfl, fun m k hm hk => ⟨(mtfAfter m).getD k 0, ?_, inverseMtf_append_singleton m k⟩,
    fun m T hT hm => ⟨inverseMtf_length m, inverseMtf_lt hT m hm⟩⟩
  have hlen : k < (mtfAfter m).length := mtfAfter_length hm ▸ hk
  change (recencyOrder (inverseMtf m))[k]? = _
  rw [← mtfAfter_eq_recencyOrder hm, List.getD_eq_getElem _ _ hlen, List.getElem?_eq_getElem hlen]

end Sys2Proof.Machine
end

section
/-! The counts and the context maps of the header (R107, R108, R120, R124): where each value goes and what comes next. -/

namespace Sys2Proof.Machine

variable {s : State}

/-! ### The counts (R120, R124) -/

theorem mapSize_literal (s : State) : mapSize .literal s = 64 * s.mb.lit.numTypes :=
  (Nat.shiftLeft_eq _ 6).trans (Nat.mul_comm _ _)

theorem mapSize_distance (s : State) : mapSize .distance s = 4 * s.mb.dist.numTypes :=
  (Nat.shiftLeft_eq _ 2).trans (Nat.mul_comm _ _)

theorem enterMap_of_one_tree {m : MapSel} (h : mapTrees m s = 1) :
    enterMap m s = storeMap m (List.replicate (mapSize m s) 0) s := if_pos h

theorem enterMap_of_trees {m : MapSel} (h : mapTrees m s ≠ 1) : enterMap m s = goto (.rleMaxF m) s := if_neg h

/-- Settles O18: both kinds of count have one branch for the value 1 and one for the others. -/
theorem countsStored : Obligations.CountsStored := by
  refine fun s v => ⟨fun c h2 => if_pos h2, fun c h1 => ?_, fun h2 => ⟨?_, ?_⟩, fun h1 => ⟨?_, ?_⟩⟩
  · subst h1
    cases c <;> rfl
  · exact enterMap_of_trees (m := .literal) (Nat.ne_of_gt h2)
  · exact enterMap_of_trees (m := .distance) (Nat.ne_of_gt h2)
  · subst h1
    refine (enterMap_of_one_tree (m := .literal) rfl).trans ?_
    rw [mapSize_literal]
    rfl
  · subst h1
    refine (enterMap_of_one_tree (m := .distance) rfl).trans ?_
    rw [mapSize_distance]
    rfl

/-! ### The elements of a context map (R107, R108) -/

theorem exec_rleMaxF0 {m : MapSel} (hc : s.ctl = .rleMaxF m) :
    exec .rleMaxF0 s = dropThen 1 s fun s => .next (goto (.hskip (.cmap m 0)) s) := by
  simp only [exec, execRleMaxF0, hc]

theorem exec_rleMaxF1 {m : MapSel} (hc : s.ctl = .rleMaxF m) :
    exec .rleMaxF1 s = dropThen 1 s fun s => .next (goto (.rleMaxM1 m) s) := by
  simp only [exec, execRleMaxF1, hc]

theorem exec_rleMaxM1 {m : MapSel} (hc : s.ctl = .rleMaxM1 m) (v : BitVec 4) :
    exec (.rleMaxM1 v) s = dropThen 4 s fun s => .next (goto (.hskip (.cmap m (v.toNat + 1))) s) := by
  simp only [exec, execRleMaxM1, hc]

section MapSymbols

variable {m : MapSel} {r : Nat} {T : Code} {acc : List Nat}

theorem exec_cmapZero (hc : s.ctl = .mapSym m r T acc) (n : Nat) :
    exec (.cmapZero n) s = dropThen n s fun s => .next (nextMapEntry m r T (acc ++ [0]) s) := by
  simp only [exec, execCmapZero, hc]

theorem exec_cmapRun (hc : s.ctl = .mapSym m r T acc) (n k : Nat) :
    exec (.cmapRun n k) s = dropThen n s fun s => .next (goto (.mapRun m r T acc k) s) := by
  simp only [exec, execCmapRun, hc]

theorem exec_cmapValue (hc : s.ctl = .mapSym m r T acc) (n k : Nat) :
    exec (.cmapValue n k) s = dropThen n s fun s => .next (nextMapEntry m r T (acc ++ [k - r]) s) := by
  simp only [exec, execCmapValue, hc]

theorem exec_runx {k : Nat} (hc : s.ctl = .mapRun m r T acc k) (x : Nat) :
    exec (.runx x) s = dropThen k s fun s =>
      .next (if mapSize m s < acc.length + (2 ^ k + x) then raise .contextMapError s
        else nextMapEntry m r T (acc ++ List.replicate (2 ^ k + x) 0) s) := by
  simp only [exec, execRunx, hc]

/-- After the entries `es` comes the next map symbol, or `IMTF` once the map is full. -/
theorem nextMapEntry_append (es : List Nat) (s : State) : nextMapEntry m r T (acc ++ es) s =
    goto (if acc.length + es.length < mapSize m s then .mapSym m r T (acc ++ es) else .imtf m (acc ++ es)) s := by
  rw [nextMapEntry, List.length_append]
  exact (apply_ite (goto · s) _ _ _).symm

end MapSymbols

/-- Settles O21: a run is checked against the map's size before its zeros are stored. -/
theorem contextMapElements : Obligations.ContextMapElements := by
  refine fun s m => ⟨?_, fun hc => ⟨readsTo_of_drop (exec_rleMaxF0 hc) rfl,
    readsTo_of_drop (exec_rleMaxF1 hc) rfl⟩, fun v hc => readsTo_of_drop (exec_rleMaxM1 hc v) rfl,
    fun r T acc n k hc => ⟨?_, readsTo_of_drop (exec_cmapRun hc n k) rfl, ?_⟩, fun r T acc k x hc => ?_⟩
  · cases m with
    | literal => exact mapSize_literal s
    | distance => exact mapSize_distance s
  · exact readsTo_of_drop (exec_cmapZero hc n) (congrArg _ (nextMapEntry_append [0] _))
  · exact readsTo_of_drop (exec_cmapValue hc n k) (congrArg _ (nextMapEntry_append [k - r] _))
  · refine readsTo_of_drop (exec_runx hc x) (congrArg _ ?_)
    rw [nextMapEntry_append, List.length_replicate]
    rfl

/-! ### The end of a context map (R107, R109, R124) -/

theorem exec_imtf0 {m : MapSel} {acc : List Nat} (hc : s.ctl = .imtf m acc) :
    exec .imtf0 s = dropThen 1 s fun s => .next (storeMap m acc s) := by
  simp only [exec, execImtf0, hc]

theorem exec_imtf1 {m : MapSel} {acc : List Nat} (hc : s.ctl = .imtf m acc) :
    exec .imtf1 s = dropThen 1 s fun s => .next (storeMap m (inverseMtf acc) s) := by
  simp only [exec, execImtf1, hc]

/-- Settles O22: both values of `IMTF` store their list as the map being read. -/
theorem contextMapStored : Obligations.ContextMapStored := by
  intro s acc e he
  simp only [List.mem_cons, List.not_mem_nil, or_false] at he
  obtain rfl | rfl := he
  · exact ⟨fun hc => readsTo_of_drop (exec_imtf0 hc) rfl, fun hc => readsTo_of_drop (exec_imtf0 hc) rfl⟩
  · exact ⟨fun hc => readsTo_of_drop (exec_imtf1 hc) rfl, fun hc => readsTo_of_drop (exec_imtf1 hc) rfl⟩

end Sys2Proof.Machine
end

section
/-! The meta-block header up to its category fields, its counts and parameters, and what follows within a command
(R113 to R119, R122, R123, R126, R129, R134, R136, R139). -/

namespace Sys2Proof.Machine

variable {s : State} {i : Instr}

/-! ### Elements that drop their bits in pieces (R83, R113, R119) -/

theorem fits_of_le {m n : Nat} (hmn : m ≤ n) (h : Fits n s) : Fits m s := (Nat.add_le_add_left hmn _).trans h

/-- An element of two pieces fails after the piece that still fits. -/
theorem reads_two_pieces {m n : Nat} {k : State → Answer} (he : exec i s = dropThen m s fun s => dropThen n s k) :
    (Fits (m + n) s → exec i s = k (advance (m + n) s)) ∧
    (Fits m s → ¬ Fits (m + n) s → exec i s = .next (raise .needMoreInput (advance m s))) ∧
    (¬ Fits m s → exec i s = .next (raise .needMoreInput s)) := by
  refine ⟨fun hf => ?_, fun hm hf => ?_, fun hm => he.trans (dropThen_of_not_fits _ hm)⟩
  · rw [he, dropThen_of_fits _ (fits_of_le (Nat.le_add_right m n) hf), dropThen_of_fits k (fits_advance.2 hf),
      advance_advance]
  · rw [he, dropThen_of_fits _ hm, dropThen_of_not_fits k (mt fits_advance.1 hf)]

/-- An element of three pieces is one of two whose second continuation drops the third. -/
theorem reads_three_pieces {m n p : Nat} {k : State → Answer}
    (he : exec i s = dropThen m s fun s => dropThen n s fun s => dropThen p s k) :
    (Fits (m + n + p) s → exec i s = k (advance (m + n + p) s)) ∧
    (Fits (m + n) s → ¬ Fits (m + n + p) s → exec i s = .next (raise .needMoreInput (advance (m + n) s))) ∧
    (Fits m s → ¬ Fits (m + n) s → exec i s = .next (raise .needMoreInput (advance m s))) ∧
    (¬ Fits m s → exec i s = .next (raise .needMoreInput s)) := by
  obtain ⟨hall, hfirst⟩ := reads_two_pieces he
  refine ⟨fun hf => ?_, fun hmn hf => ?_, hfirst⟩
  · rw [hall (fits_of_le (Nat.le_add_right _ p) hf), dropThen_of_fits k (fits_advance.2 hf), advance_advance]
  · rw [hall hmn, dropThen_of_not_fits k (mt fits_advance.1 hf)]

/-! ### The window field (R113) -/

theorem exec_win16 (hc : s.ctl = .window) : exec .win16 s = dropThen 1 s fun s => .next (setWindow 16 s) := by
  simp only [exec, execWin16, hc]

theorem exec_win17to24 (hc : s.ctl = .window) (n : BitVec 3) :
    exec (.win17to24 n) s = dropThen 1 s fun s => dropThen 3 s fun s => .next (setWindow (17 + n.toNat) s) := by
  simp only [exec, execWin17to24, hc]

theorem exec_win17 (hc : s.ctl = .window) :
    exec .win17 s = dropThen 1 s fun s => dropThen 3 s fun s => dropThen 3 s fun s => .next (setWindow 17 s) := by
  simp only [exec, execWin17, hc]

theorem exec_winReserved (hc : s.ctl = .window) : exec .winReserved s =
    dropThen 1 s fun s => dropThen 3 s fun s => dropThen 3 s fun s => .next (raise .syntaxError s) := by
  simp only [exec, execWinReserved, hc]

theorem exec_win10to15 (hc : s.ctl = .window) (m : BitVec 3) : exec (.win10to15 m) s =
    dropThen 1 s fun s => dropThen 3 s fun s => dropThen 3 s fun s => .next (setWindow (8 + m.toNat) s) := by
  simp only [exec, execWin10to15, hc]

/-- Settles O12: the tiers are read in one, two and three pieces. -/
theorem windowField : Obligations.WindowField := by
  refine fun s hc => ⟨readsTo_of_drop (exec_win16 hc) rfl, fun n _ => reads_two_pieces (exec_win17to24 hc n),
    (reads_three_pieces (exec_win17 hc)).1, (reads_three_pieces (exec_winReserved hc)).1,
    fun m _ => (reads_three_pieces (exec_win10to15 hc m)).1, fun i hi => ?_⟩
  obtain rfl | rfl | ⟨m, rfl⟩ := hi
  · exact (reads_three_pieces (exec_win17 hc)).2
  · exact (reads_three_pieces (exec_winReserved hc)).2
  · exact (reads_three_pieces (exec_win10to15 hc m)).2

/-! ### `ISLAST`, `ISLASTEMPTY` and `MNIBBLES` (R114, R115) -/

theorem exec_isLast0 (hc : s.ctl = .isLast) :
    exec .isLast0 s = dropThen 1 s fun s => .next (goto .mnibbles (setIsLast false s)) := by
  simp only [exec, execIsLast0, hc]

theorem exec_isLast1 (hc : s.ctl = .isLast) :
    exec .isLast1 s = dropThen 1 s fun s => .next (goto .isLastEmpty (setIsLast true s)) := by
  simp only [exec, execIsLast1, hc]

theorem exec_isLastEmpty0 (hc : s.ctl = .isLastEmpty) :
    exec .isLastEmpty0 s = dropThen 1 s fun s => .next (goto .mnibbles s) := by
  simp only [exec, execIsLastEmpty0, hc]

theorem exec_isLastEmpty1 (hc : s.ctl = .isLastEmpty) :
    exec .isLastEmpty1 s = dropThen 1 s fun s => .next (goto .pad s) := by
  simp only [exec, execIsLastEmpty1, hc]

/-- Settles O13: each flag drops its bit and moves on by its value. -/
theorem lastFlags : Obligations.LastFlags := fun _ =>
  ⟨fun hc => ⟨readsTo_of_drop (exec_isLast0 hc) rfl, readsTo_of_drop (exec_isLast1 hc) rfl⟩,
    fun hc => ⟨readsTo_of_drop (exec_isLastEmpty0 hc) rfl, readsTo_of_drop (exec_isLastEmpty1 hc) rfl⟩⟩

theorem startMlen_eq (hc : s.ctl = .mnibbles) (n : Nat) :
    startMlen n s = dropThen 2 s fun s => .next (goto (.mlenNib 0 n 0) s) := by
  simp only [startMlen, hc]

theorem exec_mnibblesReserved (hc : s.ctl = .mnibbles) :
    exec .mnibblesReserved s = dropThen 2 s fun s => .next (raise .syntaxError s) := by
  simp only [exec, execMnibblesReserved, hc]

/-- Settles O14: the three counts are `startMlen` of 4, 5 and 6. -/
theorem nibbleCounts : Obligations.NibbleCounts := fun _ hc =>
  ⟨readsTo_of_drop (startMlen_eq hc 4) rfl, readsTo_of_drop (startMlen_eq hc 5) rfl,
    readsTo_of_drop (startMlen_eq hc 6) rfl, readsTo_of_drop (exec_mnibblesReserved hc) rfl⟩

/-! ### `MLEN` and `ISUNCOMPRESSED` (R116 to R118) -/

/-- The nibbles read so far lie below the place of nibble `i`. -/
theorem add_nibble_eq_or {v i : Nat} (hv : v < 16 ^ i) (x : Nat) : v + x <<< (4 * i) = v ||| x <<< (4 * i) := by
  have hlow : v < 2 ^ (4 * i) := hv.trans_eq (pow_mul 2 4 i).symm
  rw [Nat.add_comm, Nat.or_comm]
  exact Nat.shiftLeft_add_eq_or_of_lt hlow x

theorem exec_mlenNib {j n v : Nat} (hc : s.ctl = .mlenNib j n v) (hv : v < 16 ^ j) (x : BitVec 4) :
    exec (.mlenNib x) s = dropThen 4 s fun s =>
      .next (if j + 1 < n then goto (.mlenNib (j + 1) n (v ||| x.toNat <<< (4 * j))) s
        else storeMlen (v ||| x.toNat <<< (4 * j)) s) := by
  simp only [exec, execMlenNib, hc, add_nibble_eq_or hv]

theorem exec_mlenNibLastZero {j n v : Nat} (hc : s.ctl = .mlenNib j n v) :
    exec .mlenNibLastZero s = dropThen 4 s fun s => .next (raise .syntaxError s) := by
  simp only [exec, execMlenNibLastZero, hc]

theorem storeMlen_of_not_last (h : s.mb.isLast = false) (v : Nat) : storeMlen v s =
    goto .isUncompressed { s with mb := { s.mb with mlen := v + 1, mbEnd := s.pos + (v + 1) } } :=
  if_neg (Bool.not_eq_true _ ▸ h)

theorem storeMlen_of_last (h : s.mb.isLast = true) (v : Nat) : storeMlen v s =
    enterBlockInfo { s with mb := { s.mb with mlen := v + 1, mbEnd := s.pos + (v + 1) } } := if_pos h

/-- Settles O15: a nibble below the last one is added to the value, the last one stores it. -/
theorem lengthField : Obligations.LengthField := by
  refine fun s j n v hc hv => ⟨fun x => ⟨fun hmore => ?_, fun hend hlast => ?_, fun hend hlast => ?_⟩,
    readsTo_of_drop (exec_mlenNibLastZero hc) rfl⟩
  · exact readsTo_of_drop (exec_mlenNib hc hv x) (congrArg _ (if_pos hmore))
  · exact readsTo_of_drop (exec_mlenNib hc hv x)
      (congrArg _ ((if_neg (Nat.not_lt.2 hend)).trans (storeMlen_of_not_last (s := advance 4 s) hlast _)))
  · exact readsTo_of_drop (exec_mlenNib hc hv x)
      (congrArg _ ((if_neg (Nat.not_lt.2 hend)).trans (storeMlen_of_last (s := advance 4 s) hlast _)))

theorem exec_isUncompressed0 (hc : s.ctl = .isUncompressed) :
    exec .isUncompressed0 s = dropThen 1 s fun s => .next (enterBlockInfo s) := by
  simp only [exec, execIsUncompressed0, hc]

theorem exec_isUncompressed1 (hc : s.ctl = .isUncompressed) :
    exec .isUncompressed1 s = dropThen 1 s fun s => .next (raise .syntaxError s) := by
  simp only [exec, execIsUncompressed1, hc]

/-- Settles O16: `enterBlockInfo` is the reset of R118 and a move to the first category's count. -/
theorem headerResetsCategories : Obligations.HeaderResetsCategories := fun _ =>
  ⟨fun hc =>
    ⟨readsTo_of_drop (exec_isUncompressed0 hc) rfl, readsTo_of_drop (exec_isUncompressed1 hc) rfl⟩, rfl⟩

/-! ### The values of a count (R119) -/

theorem exec_var256One {u : CountUse} (hc : s.ctl = .count u) :
    exec .var256One s = dropThen 1 s fun s => .next (storeCount u 1 s) := by
  simp only [exec, execVar256One, hc]

theorem exec_var256Two {u : CountUse} (hc : s.ctl = .count u) :
    exec .var256Two s = dropThen 1 s fun s => dropThen 3 s fun s => .next (storeCount u 2 s) := by
  simp only [exec, execVar256Two, hc]

theorem exec_var256More {u : CountUse} (hc : s.ctl = .count u) (n : BitVec 3) :
    exec (.var256More n) s = dropThen 1 s fun s => dropThen 3 s fun s => .next (goto (.countX u n.toNat) s) := by
  simp only [exec, execVar256More, hc]

theorem exec_vx {u : CountUse} {n : Nat} (hc : s.ctl = .countX u n) (x : Nat) :
    exec (.vx x) s = dropThen n s fun s => .next (storeCount u (2 ^ n + x + 1) s) := by
  simp only [exec, execVx, hc]

/-- Settles O17: V0 is one piece, V1 the second piece of its element, and VX an element of its own. -/
theorem countValues : Obligations.CountValues := by
  refine fun s u => ⟨fun hc => ⟨readsTo_of_drop (exec_var256One hc) rfl, (reads_two_pieces (exec_var256Two hc)).1,
    fun n _ => (reads_two_pieces (exec_var256More hc n)).1, fun i hi => ?_⟩,
    fun n x hc => readsTo_of_drop (exec_vx hc x) rfl⟩
  obtain rfl | ⟨n, rfl⟩ := hi
  · exact (reads_two_pieces (exec_var256Two hc)).2
  · exact (reads_two_pieces (exec_var256More hc n)).2

/-! ### The distance parameters and the context modes (R100, R122, R123) -/

theorem exec_npostfix (hc : s.ctl = .npostfix) (v : BitVec 2) : exec (.npostfix v) s = dropThen 2 s fun s =>
    .next (goto .ndirectf { s with mb := { s.mb with npostfix := v.toNat } }) := by
  simp only [exec, execNpostfix, hc]

theorem setDirect_eq (v : Nat) (s : State) : setDirect v s = { s with
    mb := { s.mb with
      ndirect := v * 2 ^ s.mb.npostfix
      distAlphabet := 16 + v * 2 ^ s.mb.npostfix + 48 * 2 ^ s.mb.npostfix } } := by
  simp only [setDirect, Nat.shiftLeft_eq]

theorem exec_ndirectf (hc : s.ctl = .ndirectf) (v : BitVec 4) :
    exec (.ndirectf v) s = dropThen 4 s fun s => .next (goto .cmode { s with
      mb := { s.mb with
        ndirect := v.toNat * 2 ^ s.mb.npostfix
        distAlphabet := 16 + v.toNat * 2 ^ s.mb.npostfix + 48 * 2 ^ s.mb.npostfix } }) := by
  simp only [exec, execNdirectf, hc, setDirect_eq]

/-- Settles O19: both shifts of R122 are products with `2 ^ npostfix`. -/
theorem distanceParameters : Obligations.DistanceParameters := fun _ =>
  ⟨fun v hc => readsTo_of_drop (exec_npostfix hc v) rfl, fun v hc => readsTo_of_drop (exec_ndirectf hc v) rfl⟩

theorem takeMode_eq (hc : s.ctl = .cmode) (m : ContextMode) : takeMode m s = dropThen 2 s fun s =>
    .next (goto (if s.mb.contextMode.length + 1 < s.mb.lit.numTypes then .cmode else .count .treesL)
      { s with mb := { s.mb with contextMode := s.mb.contextMode ++ [m] } }) := by
  simp only [takeMode, hc, List.length_append, List.length_singleton]

/-- Settles O20: the four elements are `takeMode` of their modes. -/
theorem contextModes : Obligations.ContextModes := by
  intro s hc e he
  simp only [List.mem_cons, List.not_mem_nil, or_false] at he
  obtain rfl | rfl | rfl | rfl := he <;> exact readsTo_of_drop (takeMode_eq hc _) rfl

/-! ### What follows within a command (R126, R129, R134, R136, R139) -/

theorem endMetaBlock_eq (s : State) : endMetaBlock s = { s with ctl := if s.mb.isLast then .pad else .isLast } :=
  (apply_ite (goto · s) _ _ _).symm

theorem nextCommand_of_full (h : s.mb.mbEnd ≤ s.pos) : nextCommand s = endMetaBlock s := if_neg (Nat.not_lt.2 h)

theorem nextCommand_of_inside (h : InsideMetaBlock s) : nextCommand s = enterSym .insertCopy s := if_pos h

theorem nextInsert_of_full (h : s.mb.mbEnd ≤ s.pos) : nextInsert s = endMetaBlock s := if_neg (Nat.not_lt.2 h)

theorem nextInsert_of_literals (h : InsideMetaBlock s) (hlit : 0 < s.cmd.insertLen) :
    nextInsert s = enterSym .literal s := (if_pos h).trans (if_pos hlit)

theorem nextInsert_of_no_literals (h : InsideMetaBlock s) (hlit : s.cmd.insertLen = 0) :
    nextInsert s = enterDistance s := (if_pos h).trans (if_neg hlit.not_gt)

theorem enterDistance_of_implicit (h : s.cmd.implicit0 = true) :
    enterDistance s = goto .copy (setCmd { s.cmd with dcode := 0, distance := s.hist.last 1 } s) := if_pos h

theorem enterDistance_of_explicit (h : s.cmd.implicit0 = false) : enterDistance s = enterSym .distance s :=
  if_neg (Bool.not_eq_true _ ▸ h)

/-- Settles O39, by the tests of `mb_end`, the literals left and the sentinel. -/
theorem commandFlow : Obligations.CommandFlow := by
  refine fun s => ⟨fun hfull => ⟨?_, ?_⟩, fun hin => ⟨nextCommand_of_inside hin, nextInsert_of_literals hin,
    fun hlit himp => ?_, fun hlit himp => ?_⟩⟩
  · exact (nextInsert_of_full hfull).trans (endMetaBlock_eq s)
  · exact (nextCommand_of_full hfull).trans (endMetaBlock_eq s)
  · exact (nextInsert_of_no_literals hin hlit).trans (enterDistance_of_explicit himp)
  · exact (nextInsert_of_no_literals hin hlit).trans (enterDistance_of_implicit himp)

end Sys2Proof.Machine
end

section
/-! Ranged distances (R142) and what the elements of a command's literals, block switches and distances do (R132, R135,
R137, R138, R141, R142, R146). -/

namespace Sys2Proof.Machine

variable {s : State}

/-! ### The intervals of the ranged distances (R142) -/

/-- Four more than the offset of the ranged codes whose `hcode` is `h`. -/
def rangedStart (h : Nat) : Nat := (2 + h % 2) * 2 ^ (1 + h / 2)

theorem rangedStart_even (m : Nat) : rangedStart (2 * m) = 2 * 2 ^ (1 + m) := by
  rw [rangedStart, Nat.mul_mod_right, Nat.mul_div_cancel_left m Nat.two_pos]

theorem rangedStart_odd (m : Nat) : rangedStart (2 * m + 1) = 3 * 2 ^ (1 + m) := by
  have hhalf : (2 * m + 1) / 2 = m := by omega
  rw [rangedStart, Nat.mul_add_mod_self_left, hhalf]

/-- The interval of each `hcode` ends where the next one's starts. -/
theorem rangedStart_succ (h : Nat) : rangedStart (h + 1) = rangedStart h + 2 ^ (1 + h / 2) := by
  obtain ⟨m, rfl | rfl⟩ := Nat.even_or_odd' h
  · rw [rangedStart_odd, rangedStart_even, Nat.mul_div_cancel_left m Nat.two_pos]
    ring
  · have hhalf : (2 * m + 1) / 2 = m := by omega
    have hnext : rangedStart (2 * m + 1 + 1) = 2 * 2 ^ (1 + (m + 1)) := rangedStart_even (m + 1)
    rw [hnext, rangedStart_odd, hhalf]
    ring

theorem rangedStart_mono : Monotone rangedStart :=
  monotone_nat_of_le_succ fun h => (Nat.le_add_right _ _).trans_eq (rangedStart_succ h).symm

theorem rangedStart_add_lt {h x : Nat} (hx : x < 2 ^ (1 + h / 2)) : rangedStart h + x < rangedStart (h + 1) :=
  (Nat.add_lt_add_left hx _).trans_eq (rangedStart_succ h).symm

theorem le_of_rangedStart_le {h h' x : Nat} (hx : x < 2 ^ (1 + h / 2)) (hle : rangedStart h' ≤ rangedStart h + x) :
    h' ≤ h :=
  Nat.lt_succ_iff.1 (rangedStart_mono.reflect_lt (hle.trans_lt (rangedStart_add_lt hx)))

/-- The intervals of different `hcode`s do not meet. -/
theorem rangedStart_add_inj {h h' x x' : Nat} (hx : x < 2 ^ (1 + h / 2)) (hx' : x' < 2 ^ (1 + h' / 2))
    (heq : rangedStart h + x = rangedStart h' + x') : h = h' ∧ x = x' := by
  have hh : h = h' := le_antisymm (le_of_rangedStart_le hx' ((Nat.le_add_right _ _).trans_eq heq))
    (le_of_rangedStart_le hx ((Nat.le_add_right _ _).trans_eq heq.symm))
  subst hh
  exact ⟨rfl, Nat.add_left_cancel heq⟩

theorem four_le_rangedStart (h : Nat) : 4 ≤ rangedStart h := rangedStart_mono (Nat.zero_le h)

/-! ### The rule's formula in terms of `hcode` -/

theorem rangedBits_eq (np nd d : Nat) : rangedBits np nd d = 1 + (d - nd - 16) / 2 ^ np / 2 := by
  rw [rangedBits, Nat.shiftRight_succ, Nat.shiftRight_eq_div_pow]

theorem rangedDistance_eq (np nd d x : Nat) : rangedDistance np nd d x =
    (rangedStart ((d - nd - 16) / 2 ^ np) - 4 + x) * 2 ^ np + (d - nd - 16) % 2 ^ np + nd + 1 := by
  simp only [rangedDistance, rangedBits_eq, rangedStart, Nat.shiftLeft_eq, Nat.shiftRight_eq_div_pow]

/-- The 48 values of `hcode` in an alphabet. -/
theorem hcode_lt {np nd d : Nat} (hd : d < 16 + nd + 48 * 2 ^ np) : (d - nd - 16) / 2 ^ np < 48 := by
  have := Nat.two_pow_pos np
  exact (Nat.div_lt_iff_lt_mul this).2 (by omega)

/-- The last interval of an alphabet ends at `rangedStart 48`, which is `2 ^ 26`. -/
theorem rangedDistance_lt_two_pow_30 {np nd d x : Nat} (hnp : np ≤ 3) (hnd : nd ≤ 120)
    (hd : d < 16 + nd + 48 * 2 ^ np) (hx : x < 2 ^ rangedBits np nd d) : rangedDistance np nd d x < 2 ^ 30 := by
  rw [rangedBits_eq] at hx
  rw [rangedDistance_eq]
  have hend : rangedStart ((d - nd - 16) / 2 ^ np) + x < 2 ^ 26 :=
    (rangedStart_add_lt hx).trans_le (rangedStart_mono (hcode_lt hd))
  have hscale : 2 ^ np ≤ 2 ^ 3 := Nat.pow_le_pow_right (by decide) hnp
  have hlow : (d - nd - 16) % 2 ^ np < 2 ^ np := Nat.mod_lt _ (Nat.two_pow_pos np)
  have hhigh : (rangedStart ((d - nd - 16) / 2 ^ np) - 4 + x) * 2 ^ np ≤ 2 ^ 26 * 2 ^ 3 :=
    Nat.mul_le_mul (by omega) hscale
  omega

/-- A quotient and a remainder are determined by the number they make. -/
theorem mul_add_inj {a b m r r' : Nat} (hr : r < m) (hr' : r' < m) (heq : a * m + r = b * m + r') :
    a = b ∧ r = r' := by
  have hm : 0 < m := Nat.zero_lt_of_lt hr
  obtain ⟨hq, hrem⟩ := (Nat.div_mod_unique (a := a * m + r) (d := a) hm).2 ⟨by ring, hr⟩
  obtain ⟨hq', hrem'⟩ := (Nat.div_mod_unique (a := a * m + r) (d := b) hm).2 ⟨by rw [heq]; ring, hr'⟩
  exact ⟨hq.symm.trans hq', hrem.symm.trans hrem'⟩

/-- A distance determines its code's `hcode`, its low bits and its extra bits. -/
theorem rangedDistance_inj {np nd d x d' x' : Nat} (hd : 16 + nd ≤ d) (hd' : 16 + nd ≤ d')
    (hx : x < 2 ^ rangedBits np nd d) (hx' : x' < 2 ^ rangedBits np nd d')
    (heq : rangedDistance np nd d x = rangedDistance np nd d' x') : d = d' ∧ x = x' := by
  rw [rangedBits_eq] at hx hx'
  rw [rangedDistance_eq, rangedDistance_eq] at heq
  obtain ⟨hhigh, hlow⟩ := mul_add_inj (Nat.mod_lt _ (Nat.two_pow_pos np)) (Nat.mod_lt _ (Nat.two_pow_pos np))
    (Nat.add_right_cancel (Nat.add_right_cancel heq))
  have h4 := four_le_rangedStart ((d - nd - 16) / 2 ^ np)
  have h4' := four_le_rangedStart ((d' - nd - 16) / 2 ^ np)
  obtain ⟨hhcode, rfl⟩ := rangedStart_add_inj hx hx' (by omega)
  have hk : d - nd - 16 = d' - nd - 16 := by
    rw [← Nat.div_add_mod (d - nd - 16) (2 ^ np), hhcode, hlow, Nat.div_add_mod]
  exact ⟨by omega, rfl⟩

/-- Settles O44: the ranged distances of one `hcode` fill an interval, and the next `hcode`'s starts at its end. -/
theorem rangedDistancesDistinct : Obligations.RangedDistancesDistinct := by
  refine fun np nd hnp hnd d x hd hd48 hx => ⟨?_, ?_, ?_, rangedDistance_lt_two_pow_30 hnp hnd hd48 hx,
    fun d' x' hd' _ hx' heq => rangedDistance_inj hd hd' hx hx' heq⟩
  · exact Nat.le_add_right 1 _
  · have := hcode_lt hd48
    rw [rangedBits_eq]
    omega
  · rw [rangedDistance_eq]
    omega

/-! ### Direct and ranged distances (R137, R138, R141, R142) -/

theorem exec_dextra (hc : s.ctl = .dextra) (x : Nat) :
    exec (.dextra x) s = dropThen (rangedBits s.mb.npostfix s.mb.ndirect s.cmd.dcode) s fun s =>
      .next (setDistance (rangedDistance s.mb.npostfix s.mb.ndirect s.cmd.dcode x) s) := by
  simp only [exec, execDextra, hc]

theorem dextra_reads (hc : s.ctl = .dextra) (x : Nat) :
    ReadsTo (rangedBits s.mb.npostfix s.mb.ndirect s.cmd.dcode) (.dextra x) s { s with
      bitpos := s.bitpos + rangedBits s.mb.npostfix s.mb.ndirect s.cmd.dcode
      ctl := .copy
      cmd := { s.cmd with distance := rangedDistance s.mb.npostfix s.mb.ndirect s.cmd.dcode x } } :=
  readsTo_of_drop (exec_dextra hc x) rfl

/-- A distance symbol reads its bits into `dcode` and goes on as `f` says. -/
theorem distanceSymbol_reads {i : Instr} {n d : Nat} {f : State → State} (hc : s.ctl = .dist)
    (he : exec i s = takeDistance n d s fun s => .next (f s)) :
    ReadsFrom n i s { countDown .distance s with cmd := { s.cmd with distCtx := distCtxOf s.cmd.copyLen } }
      (f { countDown .distance s with
        bitpos := s.bitpos + n
        cmd := { s.cmd with distCtx := distCtxOf s.cmd.copyLen, dcode := d } }) := by
  rw [← countDistance_eq, ← readDistance_eq]
  exact takeDistance_reads hc he rfl

/-- Settles O43: both symbols count, read `dcode` and go on; the shifts of R142 are products and quotients. -/
theorem directAndRangedDistances : Obligations.DirectAndRangedDistances := by
  refine fun s n d x => ⟨fun hc => ⟨?_, ?_⟩, fun hc => ?_⟩
  · exact distanceSymbol_reads (f := setDistance (d - 15)) hc rfl
  · exact distanceSymbol_reads (f := goto .dextra) hc rfl
  · simpa only [rangedBits, rangedDistance, Nat.shiftRight_eq_div_pow, Nat.shiftLeft_eq] using dextra_reads hc x

/-! ### Block switches (R132) -/

theorem exec_btypeLast {c : Cat} (hc : s.ctl = .btype c) (n : Nat) : exec (.btypeLast n) s =
    dropThen n s fun s => .next (switchType c (s.block c).lastBlockType s) := by
  simp only [exec, execBtypeLast, hc]

theorem exec_btypeNext {c : Cat} (hc : s.ctl = .btype c) (n : Nat) : exec (.btypeNext n) s =
    dropThen n s fun s => .next (switchType c ((s.block c).blockType + 1) s) := by
  simp only [exec, execBtypeNext, hc]

theorem exec_btypeExplicit {c : Cat} (hc : s.ctl = .btype c) (n k : Nat) : exec (.btypeExplicit n k) s =
    dropThen n s fun s => .next (switchType c (k - 2) s) := by
  simp only [exec, execBtypeExplicit, hc]

/-- Settles O34: the three symbols are `switchType` of the types they name. -/
theorem blockSwitchTypes : Obligations.BlockSwitchTypes := by
  intro s c n k hc e he
  simp only [List.mem_cons, List.not_mem_nil, or_false] at he
  obtain rfl | rfl | rfl := he
  · exact readsTo_of_drop (exec_btypeLast hc n) rfl
  · exact readsTo_of_drop (exec_btypeNext hc n) rfl
  · exact readsTo_of_drop (exec_btypeExplicit hc n k) rfl

/-! ### Literals (R133 to R135, R146) -/

theorem exec_literal (hc : s.ctl = .lit) (n : Nat) (b : Byte) : exec (.literal n b) s =
    dropThen n (countDown .literal s) fun s => emitThen b s fun s => .next (nextInsert (countLiteral s)) := by
  simp only [exec, execLiteral, hc]

theorem emitThen_of_room {b : Byte} (k : State → Answer) (h : s.pos < s.cfgOutCap.toNat) :
    emitThen b s k = k (putByte b s) := if_neg (Nat.not_le.2 h)

theorem emitThen_of_full {b : Byte} (k : State → Answer) (h : s.cfgOutCap.toNat ≤ s.pos) :
    emitThen b s k = .next (raise .syntaxError s) := if_pos h

theorem exec_literal_of_fits (hc : s.ctl = .lit) {n : Nat} (hf : Fits n s) (b : Byte) : exec (.literal n b) s =
    emitThen b (advance n (countDown .literal s)) fun s => .next (nextInsert (countLiteral s)) := by
  rw [exec_literal hc, dropThen_of_fits _ ((countDown_fits _ n s).2 hf)]

/-- A literal's registers after its byte has been output. -/
theorem countLiteral_putByte (n : Nat) (b : Byte) (s : State) :
    countLiteral (putByte b (advance n (countDown .literal s))) = { countDown .literal s with
      bitpos := s.bitpos + n, pos := s.pos + 1, p1 := b, p2 := s.p1
      outMem := memWrite s.outMem s.pos b, ring := memWrite s.ring (s.pos % 2 ^ s.wbits) b
      cmd := { s.cmd with insertLen := s.cmd.insertLen - 1 } } := by
  simp [countLiteral, setCmd, putByte, ringIndex, advance]

/-- Settles O40: the byte's drop, then its output, each with its failure. -/
theorem literalOutput : Obligations.LiteralOutput := by
  refine fun s n b hc ⟨_, hout, hring, _⟩ => ⟨fun hf hroom => ?_, fun hf hfull => ?_, fun hf => ?_⟩
  · refine ⟨_, _, ?_, memRead_memWrite hout s.pos b, memRead_memWrite hring (s.pos % 2 ^ s.wbits) b⟩
    rw [exec_literal_of_fits hc hf, emitThen_of_room _ (by simpa using hroom), countLiteral_putByte]
  · rw [exec_literal_of_fits hc hf, emitThen_of_full _ (by simpa using hfull)]
    simp [raise, advance]
  · rw [exec_literal hc, dropThen_of_not_fits _ (mt (countDown_fits _ n s).1 hf)]
    rfl

end Sys2Proof.Machine
end

section
/-! What a command outputs once its distance is known: the copy out of `RING` (R143, R147), the transformed dictionary
word (R148 to R156), and the check that makes both of them all or nothing. -/

namespace Sys2Proof.Machine

variable {s : State}

/-! ### A list of output bytes (R30, R146) -/

theorem putBytes_append (as bs : List Byte) (s : State) : putBytes (as ++ bs) s = putBytes bs (putBytes as s) := by
  induction as generalizing s with
  | nil => rfl
  | cons a as ih => exact ih (putByte a s)

/-- Byte `i` of the list goes to `OUT` at `pos + i`. -/
theorem putBytes_out_inside (bs : List Byte) (s : State) (h : s.outMem.wf = true) {i : Nat} {b : Byte}
    (hb : bs[i]? = some b) : memRead (putBytes bs s).outMem (s.pos + i) = b := by
  induction bs generalizing s i with
  | nil => cases hb
  | cons c bs ih =>
    have h' : (putByte c s).outMem.wf = true := memWrite_wf h _ _
    cases i with
    | zero =>
      obtain rfl : c = b := by simpa using hb
      calc memRead (putBytes bs (putByte c s)).outMem s.pos
          = memRead (putByte c s).outMem s.pos := putBytes_out_outside bs _ h' (.inl (Nat.lt_succ_self _))
        _ = c := (memRead_memWrite h s.pos c s.pos).trans (if_pos rfl)
    | succ i =>
      have hnext := ih (putByte c s) h' (i := i) (by simpa using hb)
      rwa [putByte_pos, Nat.add_right_comm] at hnext

/-- The last two bytes of the list are in `p1` and `p2`. -/
theorem putBytes_last_two (u : List Byte) (a b : Byte) (s : State) :
    (putBytes (u ++ [a, b]) s).p1 = b ∧ (putBytes (u ++ [a, b]) s).p2 = a := by
  rw [putBytes_append]
  exact ⟨rfl, rfl⟩

/-- After two bytes or more, `p1` and `p2` are the last two bytes of `OUT`. -/
theorem putBytes_p1_p2 (bs : List Byte) (s : State) (h : s.outMem.wf = true) (hlen : 2 ≤ bs.length) :
    (putBytes bs s).p1 = memRead (putBytes bs s).outMem (s.pos + bs.length - 1) ∧
    (putBytes bs s).p2 = memRead (putBytes bs s).outMem (s.pos + bs.length - 2) := by
  obtain rfl | ⟨v, b, rfl⟩ := bs.eq_nil_or_concat'
  · exact absurd hlen (Nat.not_succ_le_zero 1)
  obtain rfl | ⟨u, a, rfl⟩ := v.eq_nil_or_concat'
  · exact absurd hlen (Nat.not_succ_le_self 1)
  rw [List.append_assoc, List.singleton_append]
  have hend : s.pos + (u ++ [a, b]).length = s.pos + (u.length + 2) := by simp
  obtain ⟨hp1, hp2⟩ := putBytes_last_two u a b s
  rw [hp1, hp2, hend]
  exact ⟨(putBytes_out_inside _ s h (i := u.length + 1) (by simp)).symm,
    (putBytes_out_inside _ s h (i := u.length) (by simp)).symm⟩

/-- R129: the next command's state is made of the registers that the output writes. -/
theorem nextCommand_putBytes (bs : List Byte) (s : State) :
    nextCommand (putBytes bs s) = nextCommand { s with
      pos := (nextCommand (putBytes bs s)).pos, outMem := (nextCommand (putBytes bs s)).outMem
      ring := (nextCommand (putBytes bs s)).ring, p1 := (nextCommand (putBytes bs s)).p1
      p2 := (nextCommand (putBytes bs s)).p2, hist := (nextCommand (putBytes bs s)).hist } := by
  simp only [nextCommand_pos, nextCommand_outMem, nextCommand_ring, nextCommand_p1, nextCommand_p2, nextCommand_hist,
    putBytes_pos, putBytes_hist]
  exact congrArg nextCommand (putBytes_frame bs s)

/-! ### The copy loop (R147) -/

theorem RingAgrees.read_back (h : RingAgrees s) {d : Nat} (h1 : 1 ≤ d) (hpos : d ≤ s.pos) (hwin : d ≤ 2 ^ s.wbits) :
    memRead s.ring (ringIndex s (s.pos - d)) = memRead s.outMem (s.pos - d) :=
  h (s.pos - d) (by omega) (by omega)

theorem copyLoop_out_before (d n : Nat) (s : State) (h : s.outMem.wf = true) {a : Nat} (ha : a < s.pos) :
    memRead (copyLoop d n s).outMem a = memRead s.outMem a := by
  obtain ⟨bs, -, e⟩ := copyLoop_eq_putBytes d n s
  rw [e]
  exact putBytes_out_outside bs s h (.inl ha)

/-- R147: each byte of a copy is the byte `d` before it in `OUT`, since `RING` holds the last window of `OUT` before
each of them. -/
theorem copyLoop_copies {d n : Nat} (h1 : 1 ≤ d) (hpos : d ≤ s.pos) (hwin : d ≤ 2 ^ s.wbits) (hring : RingAgrees s)
    (ho : s.outMem.wf = true) (hr : s.ring.wf = true) {i : Nat} (hi : i < n) :
    memRead (copyLoop d n s).outMem (s.pos + i) = memRead (copyLoop d n s).outMem (s.pos + i - d) := by
  induction n generalizing s i with
  | zero => exact absurd hi (Nat.not_lt_zero i)
  | succ n ih =>
    rw [copyLoop]
    generalize hb : memRead s.ring (ringIndex s (s.pos - d)) = b
    obtain ⟨ho', hr'⟩ := putByte_wf b s ho hr
    cases i with
    | zero =>
      have hwrite : ∀ a, memRead (putByte b s).outMem a = if a = s.pos then b else memRead s.outMem a :=
        memRead_memWrite ho s.pos b
      rw [Nat.add_zero, copyLoop_out_before d n _ ho' (Nat.lt_succ_self _),
        copyLoop_out_before d n _ ho' (Nat.lt_succ_of_le (Nat.sub_le _ _)), hwrite, hwrite, if_pos rfl,
        if_neg (by omega), ← hring.read_back h1 hpos hwin, hb]
    | succ i =>
      have hnext := ih (s := putByte b s) (Nat.le_succ_of_le hpos) hwin (hring.putByte ho hr b) ho' hr' (Nat.lt_of_succ_lt_succ hi)
      rwa [putByte_pos, Nat.add_right_comm] at hnext

/-! ### All or nothing (R147, R149) -/

theorem overruns_iff {n : Nat} : overruns n s = true ↔ s.mb.mbEnd < s.pos + n ∨ s.cfgOutCap.toNat < s.pos + n := by
  simp [overruns]

theorem overruns_of_room {n : Nat} (hmb : s.pos + n ≤ s.mb.mbEnd) (hcap : s.pos + n ≤ s.cfgOutCap.toNat) :
    ¬ overruns n s = true := by
  rw [overruns_iff]
  omega

theorem copyBack_of_overrun {d n : Nat} (h : s.mb.mbEnd < s.pos + n ∨ s.cfgOutCap.toNat < s.pos + n) :
    copyBack d n s = raise .syntaxError s := if_pos (overruns_iff.2 h)

theorem copyBack_of_room {d n : Nat} (hmb : s.pos + n ≤ s.mb.mbEnd) (hcap : s.pos + n ≤ s.cfgOutCap.toNat) :
    copyBack d n s = nextCommand (copyLoop d n s) := if_neg (overruns_of_room hmb hcap)

theorem dictEmit_of_overrun {w : List Byte}
    (h : s.mb.mbEnd < s.pos + w.length ∨ s.cfgOutCap.toNat < s.pos + w.length) :
    dictEmit w s = raise .syntaxError s := if_pos (overruns_iff.2 h)

theorem dictEmit_of_room {w : List Byte} (hmb : s.pos + w.length ≤ s.mb.mbEnd)
    (hcap : s.pos + w.length ≤ s.cfgOutCap.toNat) : dictEmit w s = nextCommand (putBytes w s) :=
  if_neg (overruns_of_room hmb hcap)

/-! ### The two kinds of reference (R130, R143, R144, R148) -/

theorem step_copy (hq : s.hostq = []) (hrun : s.phase = .run) (hc : s.ctl = .copy) :
    step s = .next (finishCommand s) := (step_run hq hrun).trans (runStep_copy hc)

/-- The last distances when a back-reference is copied: its distance is pushed unless its code is 0. -/
def copyHist (s : State) : DistRing := if s.cmd.dcode = 0 then s.hist else s.hist.push s.cmd.distance

theorem finishCommand_of_backReference (h : s.cmd.distance ≤ maxDistance s) :
    finishCommand s = copyBack s.cmd.distance s.cmd.copyLen { s with hist := copyHist s } := by
  rw [finishCommand, if_pos h, copyHist]
  by_cases h0 : s.cmd.dcode = 0
  · rw [if_neg (not_not.2 h0), if_pos h0]
  · rw [if_pos h0, if_neg h0]
    rfl

theorem finishCommand_of_dictionary (h : maxDistance s < s.cmd.distance) :
    finishCommand s = dictRef (s.cmd.distance - maxDistance s - 1) s.cmd.copyLen s := if_neg (Nat.not_le.2 h)

theorem dictRef_of_bad_length {len : Nat} (h : len < 4 ∨ 24 < len) (word : Nat) :
    dictRef word len s = raise .syntaxError s := if_pos h

theorem dictRef_of_bad_transform {len word : Nat} (h4 : 4 ≤ len) (h24 : len ≤ 24)
    (h : 121 ≤ word / 2 ^ ndbits len) : dictRef word len s = raise .syntaxError s := by
  rw [dictRef, if_neg (by omega)]
  simp only [Nat.shiftRight_eq_div_pow]
  exact dif_neg (Nat.not_lt.2 h)

theorem dictRef_of_word {len word : Nat} (h4 : 4 ≤ len) (h24 : len ≤ 24) (h : word / 2 ^ ndbits len < 121) :
    dictRef word len s = dictEmit (applyTransform (s.rom.transforms[word / 2 ^ ndbits len]'h)
      (dictWord s.rom.dict len (word % 2 ^ ndbits len))) s := by
  rw [dictRef, if_neg (by omega)]
  simp only [Nat.shiftRight_eq_div_pow]
  exact dif_pos h

/-! ### Case changes (R154 to R156) -/

theorem modify_of_getElem? {w : List Byte} {i : Nat} {b : Byte} (h : w[i]? = some b) (f : Byte → Byte) :
    w.modify i f = w.set i (f b) := by
  rw [List.modify_eq_set, h]
  rfl

section Ferment

variable {w : List Byte} {i : Nat} {b : Byte}

theorem ferment_one (h : w[i]? = some b) (hb : b.toNat < 0xC0) :
    ferment w i = (if 0x61 ≤ b.toNat ∧ b.toNat ≤ 0x7A then w.set i (b ^^^ 0x20#8) else w, 1) := by
  simp only [ferment, getD_of_getElem? 0 h, if_pos hb, modify_of_getElem? h]

theorem ferment_two (h : w[i]? = some b) (hlo : 0xC0 ≤ b.toNat) (hhi : b.toNat < 0xE0) :
    ferment w i = (w.modify (i + 1) (· ^^^ 0x20#8), 2) := by
  simp only [ferment, getD_of_getElem? 0 h, if_neg (Nat.not_lt.2 hlo), if_pos hhi]

theorem ferment_three (h : w[i]? = some b) (hb : 0xE0 ≤ b.toNat) :
    ferment w i = (w.modify (i + 2) (· ^^^ 0x05#8), 3) := by
  have hlo : ¬ b.toNat < 0xC0 := by omega
  simp only [ferment, getD_of_getElem? 0 h, if_neg hlo, if_neg (Nat.not_lt.2 hb)]

end Ferment

theorem uppercaseFrom_of_end {n i : Nat} {w : List Byte} (h : w.length ≤ i) : uppercaseFrom n i w = w := by
  cases n with
  | zero => rfl
  | succ n => exact if_neg (Nat.not_lt.2 h)

/-- The loop from byte `k` on leaves the bytes before it and changes the rest as a word of its own. -/
theorem uppercaseFrom_eq_take_append {n k : Nat} {w : List Byte} (hn : w.length ≤ n + k) :
    uppercaseFrom n k w = w.take k ++ uppercaseAll (w.drop k) := by
  obtain hk | hk := Nat.le_total w.length k
  · rw [uppercaseFrom_of_end hk, List.take_of_length_le hk, List.drop_of_length_le hk]
    exact (List.append_nil w).symm
  · have htake : (w.take k).length = k := List.length_take_of_le hk
    calc uppercaseFrom n k w
        = uppercaseFrom n ((w.take k).length + 0) (w.take k ++ w.drop k) := by
          rw [htake, Nat.add_zero, List.take_append_drop]
      _ = w.take k ++ uppercaseFrom n 0 (w.drop k) := uppercaseFrom_append n _ _ 0
      _ = w.take k ++ uppercaseAll (w.drop k) := by
          rw [uppercaseAll, uppercaseFrom_fuel n (w.drop k).length _ 0 (by rw [List.length_drop]; omega) le_rfl]

/-- R156: the first character is changed, then the rest of the word. -/
theorem uppercaseAll_of_ne_nil {w : List Byte} (h : w ≠ []) : uppercaseAll w =
    (ferment w 0).1.take (ferment w 0).2 ++ uppercaseAll ((ferment w 0).1.drop (ferment w 0).2) := by
  obtain ⟨c, v, rfl⟩ := List.exists_cons_of_ne_nil h
  have hstep := ferment_step (c :: v) 0
  have hlen := ferment_length (c :: v) 0
  rw [List.length_cons] at hlen
  rw [uppercaseAll, List.length_cons, uppercaseFrom, if_pos (List.length_pos_of_ne_nil h), Nat.zero_add]
  exact uppercaseFrom_eq_take_append (by omega)

/-! ### Transforms (R150 to R153, R155, R156) -/

theorem transformWord_omitLast {k : Nat} (h1 : 1 ≤ k) (h9 : k ≤ 9) (w : List Byte) :
    transformWord k w = w.take (w.length - k) := by
  rw [transformWord, if_neg (Nat.ne_of_gt h1), if_pos h9]

theorem transformWord_omitFirst {k : Nat} (h12 : 12 ≤ k) (w : List Byte) : transformWord k w = w.drop (k - 11) := by
  rw [transformWord, if_neg (by omega), if_neg (by omega), if_neg (by omega), if_neg (by omega)]

/-! ### The obligations -/

/-- What the invariant promises a back-reference: two bytes or more, from a place inside the last window of `OUT`. -/
theorem RunOk.copy_bounds (h : RunOk s) (hc : s.ctl = .copy) (hdist : s.cmd.distance ≤ maxDistance s) :
    2 ≤ s.cmd.copyLen ∧ 1 ≤ s.cmd.distance ∧ s.cmd.distance ≤ s.pos ∧ s.cmd.distance ≤ 2 ^ s.wbits := by
  obtain ⟨-, -, hwindow, hctl⟩ := h
  obtain ⟨-, -, -, hback⟩ := hwindow (by simp [hc])
  simp only [CtlOk, hc] at hctl
  obtain ⟨-, -, hlen, h1⟩ := hctl
  have hfar : s.cmd.distance ≤ s.maxBackward := hdist.trans (min_le_right _ _)
  exact ⟨hlen, h1, hdist.trans (min_le_left _ _), by omega⟩

/-- Settles O46: the copy loop's bytes by induction on its length, and the frame of the list of bytes that it outputs. -/
theorem backReferenceCopies : Obligations.BackReferenceCopies := by
  intro s hinv hringInv hq hrun hc hdist
  obtain ⟨⟨-, ho, hr, -⟩, -, hrunOk⟩ := hinv
  obtain ⟨hlen, h1, hpos, hwin⟩ := (hrunOk hrun).copy_bounds hc hdist
  obtain ⟨-, hring⟩ := hringInv hrun
  rw [step_copy hq hrun hc, finishCommand_of_backReference hdist]
  refine ⟨fun hmb hcap => ?_, fun h => ?_⟩
  · rw [copyBack_of_room (s := { s with hist := copyHist s }) hmb hcap]
    have hcopies := fun i (hi : i < s.cmd.copyLen) =>
      copyLoop_copies (s := { s with hist := copyHist s }) h1 hpos hwin hring ho hr hi
    obtain ⟨bs, hbs, e⟩ := copyLoop_eq_putBytes s.cmd.distance s.cmd.copyLen { s with hist := copyHist s }
    rw [e] at hcopies ⊢
    rw [← hbs] at hcopies hlen ⊢
    obtain ⟨hringFrame, -⟩ := putBytes_ring bs { s with hist := copyHist s } hr
    obtain ⟨hp1, hp2⟩ := putBytes_p1_p2 bs { s with hist := copyHist s } ho hlen
    refine ⟨_, rfl, ?_, ?_, ?_, ?_, ?_, ?_, ?_, nextCommand_putBytes bs { s with hist := copyHist s }⟩
    · simp
    · simpa using hcopies
    · simpa using fun a => putBytes_out_outside bs { s with hist := copyHist s } ho (a := a)
    · simpa using hringFrame
    · simpa using hp1
    · simpa using hp2
    · simp [copyHist]
  · rw [copyBack_of_overrun (s := { s with hist := copyHist s }) h]
    rfl

/-- Settles O47: the case changes and the transforms by their types, the word by the tests of its length, its transform
and its room, and what a list of output bytes writes. -/
theorem dictionaryReference : Obligations.DictionaryReference := by
  refine ⟨fun w i b hb => ⟨ferment_one hb, fun hlo hhi => ?_, fun hlo => ?_⟩, fun w k => ⟨rfl,
    fun h1 h9 => transformWord_omitLast h1 h9 w, fun h12 _ => transformWord_omitFirst h12 w, ?_, fun hw => ⟨?_, ?_⟩⟩, ?_⟩
  · rw [ferment_two hb hlo hhi]
    exact ⟨rfl, fun c hc => modify_of_getElem? hc _, fun hn => List.modify_eq_self (List.getElem?_eq_none_iff.1 hn)⟩
  · rw [ferment_three hb hlo]
    exact ⟨rfl, fun c hc => modify_of_getElem? hc _, fun hn => List.modify_eq_self (List.getElem?_eq_none_iff.1 hn)⟩
  · rintro rfl
    exact ⟨rfl, rfl⟩
  · exact if_neg hw
  · exact uppercaseAll_of_ne_nil hw
  · rintro s ⟨-, ho, hr, -⟩ hq hrun hc hdist
    rw [step_copy hq hrun hc, finishCommand_of_dictionary hdist]
    refine ⟨fun hlen => congrArg _ (dictRef_of_bad_length hlen _), ?_⟩
    rintro h4 h24 _ _ _ rfl rfl rfl
    refine ⟨fun htid => congrArg _ (dictRef_of_bad_transform h4 h24 htid), ?_⟩
    intro htid w hw
    have hemit : dictRef (s.cmd.distance - maxDistance s - 1) s.cmd.copyLen s = dictEmit w s := by
      rw [hw]
      exact dictRef_of_word h4 h24 htid
    rw [hemit]
    refine ⟨fun hover => congrArg _ (dictEmit_of_overrun hover), fun hmb hcap => ?_⟩
    rw [dictEmit_of_room hmb hcap]
    obtain ⟨hringFrame, hringBytes⟩ := putBytes_ring w s hr
    refine ⟨_, rfl, ?_, ?_, ?_, ?_, ?_, ?_, ?_, ?_, ?_⟩
    · simp
    · simpa using fun i b => putBytes_out_inside w s ho (i := i) (b := b)
    · simpa using fun a => putBytes_out_outside w s ho (a := a)
    · simpa using hringFrame
    · simpa using hringBytes
    · intro hnil
      simp [hnil, putBytes]
    · intro b hb
      simp [hb, putBytes]
    · intro u a b hu
      simpa [hu] using putBytes_last_two u a b s
    · simpa using nextCommand_putBytes w s

end Sys2Proof.Machine
end

section
/-! How an element ends the decode (60_exceptions.md): the padding check, and the abort that leaves the output registers
alone. -/

namespace Sys2Proof.Machine

variable {s s0 t : State}

/-! ### The padding check (R127, R162) -/

/-- R80: `END` is a byte boundary, so the padding of a cursor before it lies before it too. -/
theorem fits_padWidth (h : s.bitpos ≤ endBit s) : Fits (padWidth s) s := by
  rw [Fits, padWidth_eq]
  unfold endBit at *
  omega

theorem advance_padWidth (s : State) : advance (padWidth s) s = { s with bitpos := (s.bitpos + 7) / 8 * 8 } := by
  have hb : s.bitpos + padWidth s = (s.bitpos + 7) / 8 * 8 := by
    rw [padWidth_eq]
    omega
  rw [advance, hb]

theorem exec_padZero (hc : s.ctl = .pad) : exec .padZero s = dropThen (padWidth s) s fun s => .next (terminate s) := by
  simp only [exec, execPadZero, hc]

theorem exec_padNonzero (hc : s.ctl = .pad) (v : Nat) :
    exec (.padNonzero v) s = dropThen (padWidth s) s fun s => .next (raise .syntaxError s) := by
  simp only [exec, execPadNonzero, hc]

/-- Settles O49: the padding's bits can be dropped, and the dropped cursor is on the byte boundary. -/
theorem paddingEndsDecode : Obligations.PaddingEndsDecode := by
  intro s hc hb
  have hf := fits_padWidth hb
  refine ⟨?_, fun v => ?_⟩
  · rw [exec_padZero hc, dropThen_of_fits _ hf, advance_padWidth]
    rfl
  · rw [exec_padNonzero hc, dropThen_of_fits _ hf, advance_padWidth]
    rfl

/-! ### States that differ in what is not output -/

/-- `t` is `s` with the cursor moved on, if at all, and with the registers written that belong to no output: the control
point, the meta-block and the command registers, `err` and `phase`. -/
def Quiet (s t : State) : Prop :=
  ∃ b k m c e p, s.bitpos ≤ b ∧ t = { s with bitpos := b, ctl := k, mb := m, cmd := c, err := e, phase := p }

theorem Quiet.refl (s : State) : Quiet s s := ⟨_, _, _, _, _, _, le_rfl, rfl⟩

theorem Quiet.trans (h : Quiet s s0) (h' : Quiet s0 t) : Quiet s t := by
  obtain ⟨b, _, _, _, _, _, hb, rfl⟩ := h
  obtain ⟨_, k, m, c, e, p, hb', rfl⟩ := h'
  exact ⟨_, k, m, c, e, p, hb.trans hb', rfl⟩

theorem advance_quiet (n : Nat) (s : State) : Quiet s (advance n s) :=
  ⟨_, _, _, _, _, _, Nat.le_add_right _ _, rfl⟩

/-- What writes no output register and leaves the cursor. -/
theorem quiet_of_eq {k : Ctl} {m : MetaBlock} {c : CmdRegs} {e : ErrKind} {p : Phase}
    (h : t = { s with ctl := k, mb := m, cmd := c, err := e, phase := p }) : Quiet s t :=
  ⟨_, k, m, c, e, p, le_rfl, h⟩

theorem raise_quiet (e : ErrKind) (s : State) : Quiet s (raise e s) := quiet_of_eq rfl

/-- The header's continuations write the control point and the meta-block registers. -/
theorem quiet_of_header (h : ∃ k b, t = { s with ctl := k, mb := b }) : Quiet s t := by
  obtain ⟨k, b, h⟩ := h
  exact quiet_of_eq h

theorem quiet_of_header_or_raise {e : ErrKind} (h : (∃ k b, t = { s with ctl := k, mb := b }) ∨ t = raise e s) :
    Quiet s t := by
  obtain h | rfl := h
  · exact quiet_of_header h
  · exact raise_quiet e s

theorem nextMapEntry_quiet (m : MapSel) (r : Nat) (T : Code) (acc : List Nat) (s : State) :
    Quiet s (nextMapEntry m r T acc s) := by
  unfold nextMapEntry
  split <;> exact quiet_of_eq rfl

theorem countDown_quiet (c : Cat) (s : State) : Quiet s (countDown c s) := quiet_of_eq (countDown_frame c s)

theorem countDistance_quiet (s : State) : Quiet s (countDistance s) :=
  (countDown_quiet .distance s).trans (quiet_of_eq rfl)

theorem nextInsert_quiet (s : State) : Quiet s (nextInsert s) := by
  obtain ⟨k, c, h⟩ := nextInsert_eq s
  exact quiet_of_eq h

/-! ### Answers that end the decode -/

/-- Where the answer `a` of an element at `s` ends the decode, no output register has been written since `s`. -/
def EndsQuietly (s : State) (a : Answer) : Prop := ∀ t, a = .next t → t.phase = .done → Quiet s t

theorem endsQuietly_refused (r : Refusal) : EndsQuietly s (.refused r) := by
  intro t h
  cases h

theorem endsQuietly_next (h : Quiet s t) : EndsQuietly s (.next t) := by
  rintro _ ⟨⟩ -
  exact h

theorem endsQuietly_running (h : t.phase = .run) : EndsQuietly s (.next t) := by
  rintro _ ⟨⟩ hdone
  cases h.symm.trans hdone

/-- A drop, in a state that has written no output, before an answer that ends quietly. -/
theorem endsQuietly_dropThen {n : Nat} {k : State → Answer} (h0 : Quiet s s0)
    (hk : EndsQuietly s (k (advance n s0))) : EndsQuietly s (dropThen n s0 k) := by
  obtain ⟨-, e⟩ | ⟨-, e⟩ := dropThen_cases n s0 k <;> rw [e]
  · exact hk
  · exact endsQuietly_next (h0.trans (raise_quiet _ _))

/-- A last drop before a state that has written no output. -/
theorem endsQuietly_drop {n : Nat} {f : State → State} (h0 : Quiet s s0) (hf : ∀ s', Quiet s' (f s')) :
    EndsQuietly s (dropThen n s0 fun s' => .next (f s')) :=
  endsQuietly_dropThen h0 (endsQuietly_next ((h0.trans (advance_quiet n s0)).trans (hf _)))

/-- An element that drops its bits in one piece and then writes no output. -/
theorem endsQuietly_element {n : Nat} {f : State → State} (hf : ∀ s', Quiet s' (f s')) :
    EndsQuietly s (dropThen n s fun s' => .next (f s')) :=
  endsQuietly_drop (.refl s) hf

/-- A field whose bits are dropped in two pieces (R113, R119). -/
theorem endsQuietly_two_pieces {m n : Nat} {k : State → Answer} (hk : EndsQuietly s (k (advance (m + n) s))) :
    EndsQuietly s (dropThen m s fun s' => dropThen n s' k) := by
  refine endsQuietly_dropThen (.refl s) (endsQuietly_dropThen (advance_quiet m s) ?_)
  rwa [advance_advance]

/-- A field whose bits are dropped in three pieces (R113). -/
theorem endsQuietly_three_pieces {m n p : Nat} {k : State → Answer} (hk : EndsQuietly s (k (advance (m + n + p) s))) :
    EndsQuietly s (dropThen m s fun s' => dropThen n s' fun s' => dropThen p s' k) := by
  refine endsQuietly_two_pieces (endsQuietly_dropThen (advance_quiet (m + n) s) ?_)
  rwa [advance_advance]

/-! ### Operations shared by several elements, and elements that go on in two ways -/

theorem execMlenNib_endsQuietly (x : BitVec 4) (s : State) : EndsQuietly s (execMlenNib x s) := by
  unfold execMlenNib
  split
  · refine endsQuietly_element fun s' => ?_
    split
    · exact quiet_of_eq rfl
    · exact quiet_of_header (storeMlen_header _ s')
  · exact endsQuietly_refused _

theorem execRunx_endsQuietly (x : Nat) (s : State) : EndsQuietly s (execRunx x s) := by
  unfold execRunx
  split
  · refine endsQuietly_element fun s' => ?_
    split
    · exact raise_quiet _ s'
    · exact nextMapEntry_quiet _ _ _ _ s'
  · exact endsQuietly_refused _

theorem takeSymbol_endsQuietly (invalid : Bool) (v : Nat) (s : State) : EndsQuietly s (takeSymbol invalid v s) := by
  unfold takeSymbol
  split
  · refine endsQuietly_element fun s' => ?_
    split
    · exact quiet_of_eq rfl
    · exact quiet_of_header_or_raise (finishSymbols_eq _ _ _ s')
  · exact endsQuietly_refused _

theorem takeClen_endsQuietly (n v : Nat) (s : State) : EndsQuietly s (takeClen n v s) := by
  unfold takeClen
  split
  · exact endsQuietly_element fun s' => quiet_of_header_or_raise (nextClEntry_eq _ _ s')
  · exact endsQuietly_refused _

theorem takeCommand_endsQuietly (cell n : Nat) (ioff coff : BitVec 3) (s : State) :
    EndsQuietly s (takeCommand cell n ioff coff s) := by
  unfold takeCommand
  split
  · exact endsQuietly_drop (countDown_quiet .insertCopy s) fun _ => quiet_of_eq rfl
  · exact endsQuietly_refused _

theorem takeDistance_endsQuietly {f : State → State} (n d : Nat) (s : State) (hf : ∀ s', Quiet s' (f s')) :
    EndsQuietly s (takeDistance n d s fun s' => .next (f s')) := by
  unfold takeDistance
  split
  · exact endsQuietly_drop (f := fun s' => f (setCmd { s'.cmd with dcode := d } s')) (countDistance_quiet s)
      fun s' => (quiet_of_eq rfl).trans (hf _)
  · exact endsQuietly_refused _

theorem takeShort_endsQuietly (n d : Nat) (s : State) : EndsQuietly s (takeShort n d s) := by
  refine takeDistance_endsQuietly n d s fun s' => ?_
  split <;> exact quiet_of_eq rfl

/-- R146: a literal ends the decode only before its byte is written, at its drop or at the check of `OUT_CAP`. -/
theorem execLiteral_endsQuietly (n : Nat) (b : Byte) (hrun : s.phase = .run) : EndsQuietly s (execLiteral n b s) := by
  unfold execLiteral
  split
  · have h0 := countDown_quiet .literal s
    refine endsQuietly_dropThen h0 ?_
    obtain ⟨-, e⟩ | ⟨-, e⟩ := emitThen_cases b (advance n (countDown .literal s))
      (fun s => .next (nextInsert (countLiteral s))) <;> rw [e]
    · exact endsQuietly_running (by simpa using hrun)
    · exact endsQuietly_next ((h0.trans (advance_quiet n _)).trans (raise_quiet _ _))
  · exact endsQuietly_refused _

/-! ### Every element -/

/-- The elements by what follows their drop: a move of the control point, an error or a continuation of the header, all
of them quiet, and the window's fields and a literal, which write the other registers only to go on. -/
theorem exec_endsQuietly (i : Instr) (hrun : s.phase = .run) : EndsQuietly s (exec i s) := by
  cases i with
  | win16 =>
    simp only [exec, execWin16]
    split
    · exact endsQuietly_dropThen (.refl s) (endsQuietly_running hrun)
    · exact endsQuietly_refused _
  | win17to24 =>
    simp only [exec, execWin17to24]
    split
    · exact endsQuietly_two_pieces (endsQuietly_running hrun)
    · exact endsQuietly_refused _
  | win17 | win10to15 =>
    simp only [exec, execWin17, execWin10to15]
    split
    · exact endsQuietly_three_pieces (endsQuietly_running hrun)
    · exact endsQuietly_refused _
  | winReserved =>
    simp only [exec, execWinReserved]
    split
    · exact endsQuietly_three_pieces (endsQuietly_next ((advance_quiet 7 s).trans (raise_quiet _ _)))
    · exact endsQuietly_refused _
  | isLast0 | isLast1 | isLastEmpty0 | isLastEmpty1 | mnibbles4 | mnibbles5 | mnibbles6 | mnibblesReserved
  | mlenNibLastZero | isUncompressed0 | isUncompressed1 | npostfix | ndirectf | cmodeLsb6 | cmodeMsb6 | cmodeUtf8
  | cmodeSigned | rleMaxF0 | rleMaxF1 | rleMaxM1 | cmapRun | hskipSimple | hskipComplex0 | hskipComplex2
  | hskipComplex3 | nsymm1One | nsymm1Two | nsymm1Three | nsymm1Four | clRepeatPrev | clRepeatZero | btypeLast
  | btypeNext | btypeExplicit | bcount | iextra | dextra | padZero | padNonzero =>
    simp only [exec, execIsLast0, execIsLast1, execIsLastEmpty0, execIsLastEmpty1, execMnibbles4, execMnibbles5,
      execMnibbles6, execMnibblesReserved, execMlenNibLastZero, execIsUncompressed0, execIsUncompressed1,
      execNpostfix, execNdirectf, execCmodeLsb6, execCmodeMsb6, execCmodeUtf8, execCmodeSigned, execRleMaxF0,
      execRleMaxF1, execRleMaxM1, execCmapRun, execHskipSimple, execHskipComplex0, execHskipComplex2,
      execHskipComplex3, execNsymm1One, execNsymm1Two, execNsymm1Three, execNsymm1Four, execClRepeatPrev,
      execClRepeatZero, execBtypeLast, execBtypeNext, execBtypeExplicit, execBcount, execIextra, execDextra,
      execPadZero, execPadNonzero, startMlen, takeMode, startComplex, startSimple]
    split
    · exact endsQuietly_element fun _ => quiet_of_eq rfl
    · exact endsQuietly_refused _
  | mlenNib x => exact execMlenNib_endsQuietly x s
  | var256One | vx =>
    simp only [exec, execVar256One, execVx]
    split
    · exact endsQuietly_element fun s' => quiet_of_header (storeCount_eq _ _ s')
    · exact endsQuietly_refused _
  | var256Two =>
    simp only [exec, execVar256Two]
    split
    · refine endsQuietly_two_pieces (endsQuietly_next ((advance_quiet 4 s).trans ?_))
      exact quiet_of_header (storeCount_eq _ _ _)
    · exact endsQuietly_refused _
  | var256More =>
    simp only [exec, execVar256More]
    split
    · exact endsQuietly_two_pieces (endsQuietly_next ((advance_quiet 4 s).trans (quiet_of_eq rfl)))
    · exact endsQuietly_refused _
  | cmapZero | cmapValue =>
    simp only [exec, execCmapZero, execCmapValue]
    split
    · exact endsQuietly_element (nextMapEntry_quiet _ _ _ _)
    · exact endsQuietly_refused _
  | runx x => exact execRunx_endsQuietly x s
  | imtf0 | imtf1 =>
    simp only [exec, execImtf0, execImtf1]
    split
    · exact endsQuietly_element fun s' => quiet_of_header (storeMap_eq _ _ s')
    · exact endsQuietly_refused _
  | symbol v => exact takeSymbol_endsQuietly false v s
  | symbolInvalid v => exact takeSymbol_endsQuietly true v s
  | treeSel0 | treeSel1 =>
    simp only [exec, execTreeSel0, execTreeSel1, selectTree]
    split
    · exact endsQuietly_element fun s' => quiet_of_header (storeCode_eq _ _ s')
    · exact endsQuietly_refused _
  | clen0 | clen3 | clen4 | clen2 | clen1 | clen5 => exact takeClen_endsQuietly _ _ s
  | clLength =>
    simp only [exec, execClLength]
    split
    · exact endsQuietly_element fun s' => quiet_of_header_or_raise (nextLength_eq _ _ _ s')
    · exact endsQuietly_refused _
  | r16 | r17 =>
    simp only [exec, execR16, execR17]
    split
    · exact endsQuietly_element fun s' => quiet_of_header_or_raise (applyRepeat_eq _ _ _ _ _ _ s')
    · exact endsQuietly_refused _
  | bextra =>
    simp only [exec, execBextra]
    split
    · exact endsQuietly_element fun s' => quiet_of_header (storeBlockLen_eq _ _ _ s')
    · exact endsQuietly_refused _
  | iacCell0 | iacCell1 | iacCell2 | iacCell3 | iacCell4 | iacCell5 | iacCell6 | iacCell7 | iacCell8 | iacCell9
  | iacCell10 => exact takeCommand_endsQuietly _ _ _ _ s
  | cextra =>
    simp only [exec, execCextra]
    split
    · exact endsQuietly_element fun s' => (quiet_of_eq rfl).trans (nextInsert_quiet _)
    · exact endsQuietly_refused _
  | literal n b => exact execLiteral_endsQuietly n b hrun
  | distShort0 n | distShort1 n | distShort2 n | distShort3 n | distShort4 n | distShort5 n | distShort6 n
  | distShort7 n | distShort8 n | distShort9 n | distShort10 n | distShort11 n | distShort12 n | distShort13 n
  | distShort14 n | distShort15 n => exact takeShort_endsQuietly n _ s
  | distDirect n d => exact takeDistance_endsQuietly n d s fun _ => quiet_of_eq rfl
  | distRanged n d => exact takeDistance_endsQuietly n d s fun _ => quiet_of_eq rfl

/-- Settles O9: what ends the decode differs in registers that belong to no output. -/
theorem abortWritesNoOutput : Obligations.AbortWritesNoOutput := by
  intro i s t hrun h hdone
  obtain ⟨b, k, m, c, e, p, hb, rfl⟩ := exec_endsQuietly i hrun t h hdone
  exact ⟨rfl, rfl, rfl, rfl, rfl, rfl, rfl, rfl, rfl, rfl, hb⟩

end Sys2Proof.Machine
end

section
/-! Hardware reset (R42, R170): the registers that the spec gives there, and what the host reads of them. -/

namespace Sys2Proof.Machine

/-- The status views of a machine that is idle, has no error and is at the first bit and byte read as 0 (R25). -/
theorem hostRead_reset (r : HostReg) : hostRead r State.reset = 0 := by
  cases r <;> rfl

/-- Settles O4: the registers are the fields of `State.reset`. -/
theorem resetValues : Obligations.ResetValues :=
  ⟨rfl, rfl, rfl, rfl, rfl, rfl, rfl, hostRead_reset⟩

end Sys2Proof.Machine
end

section
/-! Every running decode reaches DONE (R177): a step reads bits, outputs bytes, comes to a control point that lies nearer
to one of the two, or takes one of the bounded number of turns at its control point. -/

namespace Sys2Proof.Machine

variable {s t : State}

/-! ### Distances that name no late transform -/

/-- The distance of the command is the implicit one, or one that a short or a direct code gives: it reaches at most 3
past the window, or at most 120 (R31, R122, R140, R141). -/
def NearDistance (s : State) : Prop := s.cmd.distance ≤ max 120 (maxDistance s + 3)

theorem shortDistance_le {h : DistRing} {d far : Nat} (hh : h.Ok far) (hd : d < 16) : shortDistance h d ≤ far + 3 := by
  have hdelta : (shortTable.getD d (1, 0)).2 ≤ 3 := by interval_cases d <;> decide
  have hlast : h.last (shortTable.getD d (1, 0)).1 ≤ far := (hh _).2
  simp only [shortDistance]
  omega

/-- R74: there are at least 32 words of every length. -/
theorem five_le_ndbits {len : Nat} (h4 : 4 ≤ len) (h24 : len ≤ 24) : 5 ≤ ndbits len := by
  interval_cases len <;> decide

/-- A near distance past the window names a word with one of the first 34 transforms. -/
theorem NearDistance.transform_lt (h : NearDistance s) {len : Nat} (h4 : 4 ≤ len) (h24 : len ≤ 24) :
    (s.cmd.distance - maxDistance s - 1) / 2 ^ ndbits len < 34 := by
  have hpow : 2 ^ 5 ≤ 2 ^ ndbits len := Nat.pow_le_pow_right (by decide) (five_le_ndbits h4 h24)
  unfold NearDistance at h
  rw [Nat.div_lt_iff_lt_mul (Nat.two_pow_pos _)]
  omega

/-- A copy that goes on outputs `n` bytes. -/
theorem copyBack_pos {d n : Nat} (hrun : (copyBack d n s).phase = .run) : (copyBack d n s).pos = s.pos + n := by
  unfold copyBack at hrun ⊢
  split at hrun
  · cases hrun
  · obtain ⟨bs, rfl, e⟩ := copyLoop_eq_putBytes d n s
    simp [*]

theorem dictEmit_pos {w : List Byte} (hrun : (dictEmit w s).phase = .run) :
    (dictEmit w s).pos = s.pos + w.length := by
  unfold dictEmit at hrun ⊢
  split at hrun
  · cases hrun
  · simp [*]

theorem dictWord_length (dict : Memory) (len idx : Nat) : (dictWord dict len idx).length = len := by simp [dictWord]

/-- R177: the first 34 transforms leave no word empty. -/
theorem EmptyWordsAreLate.length_pos {rom : Rom} (h : EmptyWordsAreLate rom) {tid : Nat} (ht : tid < 34) {w : List Byte}
    (h4 : 4 ≤ w.length) (h24 : w.length ≤ 24) :
    0 < (applyTransform (rom.transforms[tid]'(ht.trans (by decide))) w).length :=
  List.length_pos_of_ne_nil fun hnil => Nat.not_le.2 ht (h tid _ w h4 h24 hnil)

/-- R130, R147, R149: a command whose distance is near outputs at least one byte, or ends the decode. -/
theorem finishCommand_outputs (hlen : 2 ≤ s.cmd.copyLen) (hnear : NearDistance s) (hlate : EmptyWordsAreLate s.rom)
    (hrun : (finishCommand s).phase = .run) : s.pos < (finishCommand s).pos := by
  by_cases hback : s.cmd.distance ≤ maxDistance s
  · rw [finishCommand_of_backReference hback] at hrun ⊢
    rw [copyBack_pos hrun]
    show s.pos < s.pos + s.cmd.copyLen
    omega
  · rw [finishCommand_of_dictionary (Nat.lt_of_not_le hback)] at hrun ⊢
    by_cases hbad : s.cmd.copyLen < 4 ∨ 24 < s.cmd.copyLen
    · rw [dictRef_of_bad_length hbad] at hrun
      cases hrun
    · have h4 : 4 ≤ s.cmd.copyLen := by omega
      have h24 : s.cmd.copyLen ≤ 24 := by omega
      have htid := hnear.transform_lt h4 h24
      rw [dictRef_of_word h4 h24 (htid.trans (by decide))] at hrun ⊢
      rw [dictEmit_pos hrun]
      exact Nat.lt_add_of_pos_right (hlate.length_pos htid (by rwa [dictWord_length]) (by rwa [dictWord_length]))

/-! ### How near a control point is to reading bits or to output -/

/-- The place of a category's symbol in the order of a command. -/
def catPlace : Cat → Nat
  | .literal => 8
  | .insertCopy => 16
  | .distance => 4

/-- The place of a count in the order of the header (R120, R124). -/
def countPlace : CountUse → Nat
  | .blockTypes .literal => 5
  | .blockTypes .insertCopy => 4
  | .blockTypes .distance => 3
  | .treesL => 2
  | .treesD => 1

/-- A bound on the control points that may still come before one that certainly reads bits, or outputs bytes, or ends
the decode. The points that certainly do are at 0; a copy with a distance that may name an empty word (R149) leads back
to the next command. -/
def place (s : State) : Nat :=
  match s.ctl with
  | .window => 1
  | .count u => countPlace u
  | .mapSym _ _ _ _ => 20
  | .symbol _ _ _ _ => 21
  | .clen _ _ => 22
  | .clSym _ _ _ => 21
  | .btype c => catPlace c + 3
  | .bcount c _ => catPlace c + 2
  | .bextra c _ _ => catPlace c + 1
  | .iac => catPlace .insertCopy
  | .iextra _ _ => 15
  | .cextra _ => 14
  | .lit => catPlace .literal
  | .dist => catPlace .distance
  | .copy => if s.cmd.distance ≤ max 120 (maxDistance s + 3) then 0 else 23
  | _ => 0

/-- The turns that may still be taken at a control point that a loop of the pseudocode comes back to (R93, R94, R95,
R107). -/
def turns (s : State) : Nat :=
  match s.ctl with
  | .mapSym m _ _ acc => mapSize m s - acc.length
  | .symbol _ nsym syms _ => nsym - syms.length
  | .clen _ st => 18 - st.i
  | .clSym u _ st => alphabetOf u s - st.lens.length
  | _ => 0

theorem place_copy_of_near (hc : s.ctl = .copy) (h : NearDistance s) : place s = 0 := by
  simp only [place, hc]
  exact if_pos h

theorem place_copy_of_far (hc : s.ctl = .copy) (h : ¬ NearDistance s) : place s = 23 := by
  simp only [place, hc]
  exact if_neg h

theorem catPlace_le (c : Cat) : catPlace c ≤ 16 := by cases c <;> decide

theorem place_enterSym (c : Cat) (s : State) : place (enterSym c s) ≤ catPlace c + 3 := by
  unfold enterSym
  split
  · exact le_rfl
  · cases c <;> exact Nat.le_add_right _ 3

theorem place_endMetaBlock (s : State) : place (endMetaBlock s) = 0 := by
  unfold endMetaBlock
  split <;> rfl

theorem place_nextCommand (s : State) : place (nextCommand s) ≤ 19 := by
  unfold nextCommand
  split
  · exact place_enterSym .insertCopy s
  · rw [place_endMetaBlock]; exact Nat.zero_le _

/-- R134, R139: after an insert comes the next literal, a distance symbol, or a copy with the last distance. -/
theorem place_nextInsert (h : s.hist.Ok (max 16 (maxDistance s))) : place (nextInsert s) ≤ 11 := by
  unfold nextInsert
  split
  · split
    · exact place_enterSym .literal s
    · unfold enterDistance
      split
      · have hlast : s.hist.last 1 ≤ max 16 (maxDistance s) := (h _).2
        rw [place_copy_of_near rfl]
        · exact Nat.zero_le _
        · show s.hist.last 1 ≤ max 120 (maxDistance s + 3)
          omega
      · exact (place_enterSym .distance s).trans (by decide)
  · rw [place_endMetaBlock]; exact Nat.zero_le _

/-- R120: the fields of a category are followed by a later one's. -/
theorem place_nextCategory (c : Cat) (s : State) :
    place (nextCategory c s) < countPlace (.blockTypes c) ∧ place (nextCategory c s) ≤ catPlace c := by
  cases c
  · exact (by decide : 4 < 5 ∧ 4 ≤ 8)
  · exact (by decide : 3 < 4 ∧ 3 ≤ 16)
  · exact (by decide : 0 < 3 ∧ 0 ≤ 4)

theorem place_storeBlockLen (c : Cat) (sw : Bool) (n : Nat) (s : State) :
    place (storeBlockLen c sw n s) ≤ catPlace c := by
  unfold storeBlockLen
  split
  · cases c <;> exact le_rfl
  · exact (place_nextCategory c _).2

/-- R124: after a literal map of one tree comes `NTREESD`, else the map's first field. -/
theorem place_enterMap_literal (s : State) : place (enterMap .literal s) ≤ 1 := by
  unfold enterMap
  split
  · exact le_rfl
  · exact Nat.zero_le 1

theorem place_enterMap_distance (s : State) : place (enterMap .distance s) = 0 := by
  unfold enterMap
  split <;> rfl

theorem place_storeCount (u : CountUse) (v : Nat) (s : State) : place (storeCount u v s) < countPlace u := by
  cases u with
  | blockTypes c =>
    simp only [storeCount, storeBlockTypes]
    split
    · cases c <;> exact Nat.succ_pos _
    · exact (place_nextCategory c _).1
  | treesL => exact Nat.lt_succ_of_le (place_enterMap_literal _)
  | treesD => exact (place_enterMap_distance _).trans_lt Nat.one_pos

theorem place_storeCode (u : CodeUse) (T : Code) (s : State) : place (storeCode u T s) ≤ 20 := by
  cases u with
  | btype c => exact Nat.zero_le _
  | bcount c => exact Nat.add_le_add_right (catPlace_le c) 4 |>.trans' (Nat.le_add_right _ 2)
  | cmap m r => exact le_rfl
  | lit => simp only [storeCode]; split <;> exact Nat.zero_le _
  | iac => simp only [storeCode]; split <;> exact Nat.zero_le _
  | dist =>
    simp only [storeCode]
    split
    · exact Nat.zero_le _
    · exact (place_nextCommand _).trans (by decide)

theorem place_finishSymbols {u : CodeUse} {syms : List Nat} {bad : Bool}
    (hrun : (finishSymbols u syms bad s).phase = .run) : place (finishSymbols u syms bad s) ≤ 20 := by
  unfold finishSymbols at hrun ⊢
  split at hrun
  · cases hrun
  · rw [if_neg ‹_›]
    split
    · exact place_storeCode _ _ _
    · exact place_storeCode _ _ _
    · exact place_storeCode _ _ _
    · exact Nat.zero_le _

/-! ### What a step that goes on comes nearer by -/

/-- The bits before `END`. -/
def bitsLeft (s : State) : Nat := endBit s - s.bitpos

/-- The bytes before `OUT_CAP`. -/
def roomLeft (s : State) : Nat := s.cfgOutCap.toNat - s.pos

/-- What is left of a running decode: bits, then room, then control points, then turns. -/
def remaining (s : State) : Nat ×ₗ Nat ×ₗ Nat ×ₗ Nat :=
  toLex (bitsLeft s, toLex (roomLeft s, toLex (place s, turns s)))

/-- What is less in `t` than in `s`. -/
inductive Nearer (s t : State) : Prop
  | reads : bitsLeft t < bitsLeft s → Nearer s t
  | outputs : s.pos < t.pos → Nearer s t
  | moves : place t < place s → Nearer s t
  | turns : place t = place s → turns t < turns s → Nearer s t

/-- The cursor and `pos` never fall (R83, R146), and `pos` stays at most `OUT_CAP`, so what is nearer is less. -/
theorem remaining_lt (hbits : bitsLeft t ≤ bitsLeft s) (hpos : s.pos ≤ t.pos) (hcap : t.cfgOutCap = s.cfgOutCap)
    (hroom : t.pos ≤ t.cfgOutCap.toNat) (h : Nearer s t) : remaining t < remaining s := by
  rw [hcap] at hroom
  simp only [remaining, Prod.Lex.toLex_lt_toLex, roomLeft, hcap]
  cases h <;> omega

/-- One bit or more has been read. -/
theorem Nearer.of_fits {n : Nat} (hn : Fits n s) (h0 : 0 < n) (hb : t.bitpos = s.bitpos + n)
    (hl : t.cfgInLen = s.cfgInLen) : Nearer s t := by
  refine .reads ?_
  unfold Fits at hn
  simp only [bitsLeft, endBit, hb, hl] at hn ⊢
  omega

theorem Nearer.of_header {n : Nat} (hn : Fits n s) (h0 : 0 < n) (h : ∃ k b, t = { advance n s with ctl := k, mb := b }) :
    Nearer s t := by
  obtain ⟨k, b, rfl⟩ := h
  exact .of_fits hn h0 rfl rfl

theorem Nearer.of_code {n : Nat} {e : ErrKind} (hn : Fits n s) (h0 : 0 < n) (hrun : t.phase = .run)
    (h : (∃ k b, t = { advance n s with ctl := k, mb := b }) ∨ t = raise e (advance n s)) : Nearer s t := by
  obtain h | rfl := h
  · exact .of_header hn h0 h
  · cases hrun

/-- The control point has become one that is nearer. -/
theorem Nearer.of_place {a b : Nat} (hs : place s = b) (hab : a < b) (ht : place t ≤ a) : Nearer s t :=
  .moves (hs ▸ ht.trans_lt hab)

theorem storeCount_nearer {u : CountUse} (hc : s.ctl = .count u) (v n : Nat) :
    Nearer s (storeCount u v (advance n s)) := by
  have hp : place s = countPlace u := by simp only [place, hc]
  exact .moves (hp ▸ place_storeCount u v _)

theorem nextMapEntry_nearer {m : MapSel} {r : Nat} {T : Code} {acc : List Nat} (hc : s.ctl = .mapSym m r T acc)
    (hlen : acc.length < mapSize m s) (e n : Nat) : Nearer s (nextMapEntry m r T (acc ++ [e]) (advance n s)) := by
  have hp : place s = 20 := by simp only [place, hc]
  have ht : turns s = mapSize m s - acc.length := by simp only [turns, hc]
  unfold nextMapEntry
  split
  · refine .turns hp.symm (ht ▸ ?_)
    show mapSize m s - (acc ++ [e]).length < _
    rw [List.length_append, List.length_singleton]
    omega
  · exact .of_place hp (by decide) (Nat.zero_le 0)

/-- After a symbol length comes another one, or the code is complete. -/
theorem place_nextLength {u : CodeUse} {T : Code} {st : LenLocals} (hrun : (nextLength u T st s).phase = .run) :
    place (nextLength u T st s) ≤ 21 := by
  unfold nextLength at hrun ⊢
  split at hrun
  · rw [if_pos ‹_›]
    exact le_rfl
  · rw [if_neg ‹_›]
    split at hrun
    · rw [if_pos ‹_›]
      exact (place_storeCode _ _ _).trans (by decide)
    · cases hrun

theorem takeLength_nearer {u : CodeUse} {T : Code} {st : LenLocals} (hc : s.ctl = .clSym u T st)
    (hlen : st.lens.length < alphabetOf u s) (c n : Nat)
    (hrun : (nextLength u T (st.takeLength c) (advance n s)).phase = .run) :
    Nearer s (nextLength u T (st.takeLength c) (advance n s)) := by
  have hp : place s = 21 := by simp only [place, hc]
  have ht : turns s = alphabetOf u s - st.lens.length := by simp only [turns, hc]
  unfold nextLength at hrun ⊢
  split at hrun
  · rw [if_pos ‹_›]
    refine .turns hp.symm (ht ▸ ?_)
    show alphabetOf u s - (st.lens ++ [c]).length < _
    rw [List.length_append, List.length_singleton]
    omega
  · rw [if_neg ‹_›]
    split at hrun
    · rw [if_pos ‹_›]
      exact .of_place hp (by decide) (place_storeCode _ _ _)
    · cases hrun

theorem nextClEntry_nearer {u : CodeUse} {st : ClLocals} (hc : s.ctl = .clen u st) (hi : st.i < 18) (v n : Nat)
    (hrun : (nextClEntry u (st.take v) (advance n s)).phase = .run) :
    Nearer s (nextClEntry u (st.take v) (advance n s)) := by
  have hp : place s = 22 := by simp only [place, hc]
  have ht : turns s = 18 - st.i := by simp only [turns, hc]
  unfold nextClEntry at hrun ⊢
  split at hrun
  · rw [if_pos ‹_›]
    split at hrun
    · exact .of_place hp (by decide) (place_nextLength hrun)
    · cases hrun
  · rw [if_neg ‹_›]
    refine .turns hp.symm (ht ▸ ?_)
    show 18 - (st.i + 1) < _
    omega

theorem symbol_nearer {u : CodeUse} {nsym v n : Nat} {syms : List Nat} {bad bad' : Bool}
    (hc : s.ctl = .symbol u nsym syms bad) (hlen : syms.length < nsym) :
    Nearer s (goto (.symbol u nsym (syms ++ [v]) bad') (advance n s)) := by
  have hp : place s = 21 := by simp only [place, hc]
  have ht : turns s = nsym - syms.length := by simp only [turns, hc]
  refine .turns hp.symm (ht ▸ ?_)
  show nsym - (syms ++ [v]).length < _
  rw [List.length_append, List.length_singleton]
  omega

/-- R138, R140, R141: a short or a direct code names a near distance. -/
theorem setDistance_nearer {d n v : Nat} (hc : s.ctl = .dist) (hv : v ≤ max 120 (maxDistance s + 3)) :
    Nearer s (setDistance v (readDistance n d s)) := by
  have hfar : maxDistance (readDistance n d s) = maxDistance s := by
    rw [readDistance_frame]; rfl
  have hnear : NearDistance (setDistance v (readDistance n d s)) := by
    show v ≤ max 120 (maxDistance (readDistance n d s) + 3)
    rwa [hfar]
  exact .of_place (b := 4) (by simp only [place, hc, catPlace]) (by decide) (place_copy_of_near rfl hnear).le

/-- A move of a running decode that goes on comes nearer, except perhaps at `copy`. -/
theorem RunMove.nearer (hm : RunMove s t) (hs : RunOk s) (hrun : t.phase = .run) (hextra : s.ctl ≠ .dextra)
    (hcopy : s.ctl = .copy → ¬ NearDistance s) : Nearer s t := by
  obtain ⟨-, hhist, -, hok⟩ := hs
  cases hm with
  | abort | abortCommand | abortLiteral | fullLiteral | abortDistance | badShort | abortCopy | padding => cases hrun
  | window w n hc => exact .of_place (b := 1) (by simp only [place, hc]) (by decide) (Nat.zero_le 0)
  | notLast _ hn | last _ hn | notEmpty _ hn | empty _ hn | nibbles _ _ hn | nibble _ _ _ _ _ hn | compressed _ hn
  | countMore _ _ _ hn | npostfix _ _ hn | ndirect _ _ hn | mode _ _ hn | noRuns _ _ hn | runs _ _ hn
  | rleMax _ _ _ hn | simple _ _ hn | complex _ _ _ hn | symbolCount _ _ _ hn =>
    exact .of_fits hn (by decide) rfl rfl
  | lastNibble _ _ _ _ _ hn => exact .of_header hn (by decide) (storeMlen_header _ _)
  | mapRead m _ entries _ hn => exact .of_header hn (by decide) (storeMap_eq m entries _)
  | tree u _ _ _ hn => exact .of_header hn (by decide) (storeCode_eq u _ _)
  | repeatedPrev u T st x _ hn => exact .of_code hn (by decide) hrun (applyRepeat_eq u T st _ _ _ _)
  | repeatedZero u T st x _ hn => exact .of_code hn (by decide) hrun (applyRepeat_eq u T st _ _ _ _)
  | count u v n hc => exact storeCount_nearer hc v n
  | countExtra u v1 x hc hn =>
    obtain ⟨-, h1, -⟩ := (ctlOk_countX hc).1 hok
    exact .of_header hn h1 (storeCount_eq u _ _)
  | mapEntry m r T acc e n hc =>
    simp only [CtlOk, hc] at hok
    obtain ⟨-, -, -, hlen, -⟩ := hok
    exact nextMapEntry_nearer hc hlen e n
  | mapRun m r T acc k n hc => exact .of_place (b := 20) (by simp only [place, hc]) (by decide) (Nat.zero_le 0)
  | mapZeros m r T acc k run hc hn =>
    simp only [CtlOk, hc] at hok
    obtain ⟨-, -, -, -, -, h1, -⟩ := hok
    exact .of_fits hn h1 (by simp) (by simp)
  | symbol u nsym syms bad bad' v n hc =>
    simp only [CtlOk, hc] at hok
    obtain ⟨-, -, hlen, -⟩ := hok
    exact symbol_nearer hc hlen
  | lastSymbol u nsym syms bad bad' v n hc =>
    exact .of_place (b := 21) (by simp only [place, hc]) (by decide) (place_finishSymbols hrun)
  | clEntry u st v n hc =>
    simp only [CtlOk, hc] at hok
    obtain ⟨-, hi, -⟩ := hok
    exact nextClEntry_nearer hc hi v n hrun
  | length u T st c n hc =>
    simp only [CtlOk, hc] at hok
    obtain ⟨-, -, hlen, -⟩ := hok
    exact takeLength_nearer hc hlen _ n hrun
  | repeatPrev u T st n hc | repeatZero u T st n hc =>
    exact .of_place (b := 21) (by simp only [place, hc]) (by decide) (Nat.zero_le 0)
  | blockType c t n hc => exact .of_place (by simp only [place, hc]) (Nat.lt_succ_self _) (le_refl (catPlace c + 2))
  | blockCount c sw k n hc => exact .of_place (by simp only [place, hc]) (Nat.lt_succ_self _) (le_refl (catPlace c + 1))
  | blockLen c sw k x n hc =>
    exact .of_place (by simp only [place, hc]) (Nat.lt_succ_self _) (place_storeBlockLen c sw _ _)
  | command icode ccode n imp hc => exact .of_place (b := 16) (by simp only [place, hc, catPlace]) (by decide) (le_refl 15)
  | insertLen icode ccode x n hc => exact .of_place (b := 15) (by simp only [place, hc]) (by decide) (le_refl 14)
  | copyLen ccode x n hc =>
    exact .of_place (b := 14) (by simp only [place, hc]) (by decide) (place_nextInsert hhist)
  | literal b n hc => exact .outputs (by simp)
  | short d n hc hn hd hv =>
    have hle := shortDistance_le hhist hd
    refine setDistance_nearer hc ?_
    rw [storedDistance_of_nonneg hv.le]
    omega
  | direct d n hc hn hlo hhi =>
    simp only [CtlOk, hc] at hok
    obtain ⟨-, hnd, -⟩ := hok.1.distParams
    exact setDistance_nearer hc (by omega)
  | ranged d n hc => exact .of_place (b := 4) (by simp only [place, hc, catPlace]) (by decide) (Nat.zero_le 0)
  | rangedExtra x n hc => exact absurd hc hextra
  | copy h bs hc =>
    exact .of_place (place_copy_of_far hc (hcopy hc)) (by decide) (place_nextCommand _)

/-- R142: a ranged distance has at least one extra bit. -/
theorem dextra_nearer (hc : s.ctl = .dextra) (h : runStep s = .next t) (hrun : t.phase = .run) : Nearer s t := by
  have hp : slotOf s = some (.dextra (rangedBits s.mb.npostfix s.mb.ndirect s.cmd.dcode)) := by simp only [slotOf, hc]
  rw [runStep_element hp rfl, exec_dextra hc] at h
  obtain ⟨hn, h⟩ | ⟨-, rfl⟩ := dropThen_next h
  · cases h
    exact .of_fits hn (Nat.le_add_right 1 _) rfl rfl
  · cases hrun

/-- A step of a running decode that goes on comes nearer. -/
theorem runStep_nearer (hs : RunOk s) (hlate : EmptyWordsAreLate s.rom) (h : runStep s = .next t)
    (hrun : t.phase = .run) : Nearer s t := by
  by_cases hextra : s.ctl = .dextra
  · exact dextra_nearer hextra h hrun
  by_cases hnear : s.ctl = .copy ∧ NearDistance s
  · obtain ⟨hc, hnear⟩ := hnear
    obtain ⟨-, -, -, hok⟩ := hs
    simp only [CtlOk, hc] at hok
    obtain ⟨-, -, hlen, -⟩ := hok
    rw [runStep_copy hc] at h
    cases h
    exact .outputs (finishCommand_outputs hlen hnear hlate hrun)
  · exact (runStep_move h).nearer hs hrun hextra fun hc hn => hnear ⟨hc, hn⟩

/-- A step that goes on leaves less of the decode. -/
theorem step_remaining_lt (h : MachineInv s) (hq : s.hostq = []) (hrun : s.phase = .run) (hlate : EmptyWordsAreLate s.rom)
    (hstep : step s = .next t) (ht : t.phase = .run) : remaining t < remaining s := by
  obtain ⟨-, hlen, -, hcap, -, -, hbit, -⟩ := registersHaveTheirWriters s t hq hstep
  obtain ⟨-, -, hrunOk'⟩ := stepKeepsMachineInv s t h hstep
  obtain ⟨hroom, -⟩ := hrunOk' ht
  obtain ⟨hmem, -, hrunOk⟩ := h
  obtain ⟨hpos, -⟩ := outputOnlyAppended s t hmem hq hstep
  have hbits : bitsLeft t ≤ bitsLeft s := by
    simp only [bitsLeft, endBit, hlen]
    exact Nat.sub_le_sub_left hbit _
  exact remaining_lt hbits hpos hcap hroom (runStep_nearer (hrunOk hrun) hlate ((step_run hq hrun).symm.trans hstep) ht)

/-! ### The obligation -/

theorem run_succ (h : step s = .next t) (k : Nat) :
    Host.Core.run Sys2Proof.core (k + 1) s = Host.Core.run Sys2Proof.core k t := by
  have hstep : Sys2Proof.core.step s = .next t := h
  simp only [Host.Core.run, hstep]

/-- Settles O60, by induction on what is left of the decode. -/
theorem everyDecodeEnds : Obligations.EveryDecodeEnds := by
  intro s
  induction hl : remaining s using WellFoundedLT.induction generalizing s with
  | ind l ih =>
    subst hl
    intro h hq hrun hlate
    obtain ⟨t, hstep⟩ := machineInvNeverStops s h
    obtain ⟨hq', -, -, -, -, hrom, -, -, -, -, -, hphase⟩ := registersHaveTheirWriters s t hq hstep
    obtain ⟨hp, -⟩ | ⟨-, hdone, -⟩ := hphase
    · have ht : t.phase = .run := hp.trans hrun
      obtain ⟨k, u, hk, hu⟩ := ih _ (step_remaining_lt h hq hrun hlate hstep ht) t rfl (stepKeepsMachineInv s t h hstep) hq'
        ht (hrom.symm ▸ hlate)
      exact ⟨k + 1, u, (run_succ hstep k).trans hk, hu⟩
    · exact ⟨1, t, run_succ hstep 0, hdone⟩

end Sys2Proof.Machine
end

section
/-! Two decodes of the same input (R176): what the registers of two runs have in common at each control point, and that
every step keeps it. A register counts as common from the stage of the header or the command on at which it has been
written; nothing that has not been written is read. -/

namespace Sys2Proof.Machine

variable {s t : State} {k : Nat}

/-! ### The stages of the header and of a command -/

/-- The stage at which the header comes to the fields of a category (R120). -/
def catStage : Cat → Nat
  | .literal => 4
  | .insertCopy => 8
  | .distance => 12

/-- The stage of a category's block switches and symbols (R130, R134, R138). -/
def symStage : Cat → Nat
  | .insertCopy => 20
  | .literal | .distance => 23

/-- The stage of the header at a count (R120, R124). -/
def countStage : CountUse → Nat
  | .blockTypes c => catStage c
  | .treesL => 18
  | .treesD => 19

/-- The stage of the header at a context map (R124). -/
def mapStage : MapSel → Nat
  | .literal => 19
  | .distance => 20

/-- The stage of the header at a code (R107, R120, R125). -/
def codeStage : CodeUse → Nat
  | .btype c => catStage c + 1
  | .bcount c => catStage c + 2
  | .cmap m _ => mapStage m
  | .lit | .iac | .dist => 20

/-- The stage of a control point: which registers have been written when the decode is there. -/
def stage : Ctl → Nat
  | .window => 0
  | .isLast => 1
  | .isLastEmpty | .mnibbles | .mlenNib _ _ _ | .pad => 2
  | .isUncompressed => 3
  | .count u | .countX u _ => countStage u
  | .npostfix => 16
  | .ndirectf => 17
  | .cmode => 18
  | .rleMaxF m | .rleMaxM1 m | .mapSym m _ _ _ | .mapRun m _ _ _ _ | .imtf m _ => mapStage m
  | .hskip u | .nsymm1 u | .symbol u _ _ _ | .treeSel u _ | .clen u _ | .clSym u _ _ | .rep16 u _ _ | .rep17 u _ _ =>
    codeStage u
  | .btype c | .bcount c true | .bextra c true _ => symStage c
  | .bcount c false | .bextra c false _ => catStage c + 3
  | .iac => 20
  | .iextra _ _ => 21
  | .cextra _ => 22
  | .lit | .dist => 23
  | .dextra => 24
  | .copy => 25

/-- The registers of a category (R34); the block types are one. -/
inductive BlockReg where
  | types
  | numTypes
  | btypeCode
  | bcountCode
  | blockLen

/-- The registers that START leaves as they are and that a rule reads later (R42, R171). `mlen` and `dist_ctx` are not
among them: no rule reads them. -/
inductive Reg where
  | window
  | isLast
  | mbEnd
  | block (c : Cat) (q : BlockReg)
  | contextMode
  | litMap
  | distMap
  | litCode
  | iacCode
  | distCode
  | npostfix
  | direct
  | ntreesL
  | ntreesD
  | implicit0
  | insertLen
  | copyLen
  | dcode
  | distance

/-- The first stage at which a register has been written. -/
def Reg.level : Reg → Nat
  | .window => 1
  | .isLast => 2
  | .mbEnd => 3
  | .block _ .types | .contextMode | .litMap | .distMap | .litCode | .iacCode | .distCode => 4
  | .block c .numTypes => catStage c + 1
  | .block c .btypeCode => catStage c + 2
  | .block c .bcountCode => catStage c + 3
  | .block c .blockLen => catStage c + 4
  | .npostfix => 17
  | .direct => 18
  | .ntreesL => 19
  | .ntreesD => 20
  | .implicit0 => 21
  | .insertLen => 22
  | .copyLen => 23
  | .dcode => 24
  | .distance => 25

theorem catStage_bounds (c : Cat) : 4 ≤ catStage c ∧ catStage c ≤ 12 := by
  cases c <;> decide

/-- The fields of one category come before those of another (R120). -/
theorem catStage_apart {c d : Cat} (h : d ≠ c) : catStage d + 4 ≤ catStage c ∨ catStage c + 4 ≤ catStage d := by
  revert h
  cases c <;> cases d <;> decide

theorem Reg.level_block (c : Cat) (q : BlockReg) : (Reg.block c q).level = 4 ∨
    (catStage c < (Reg.block c q).level ∧ (Reg.block c q).level ≤ catStage c + 4) := by
  cases q <;> simp [Reg.level]

/-- All registers of the categories are written by the end of the header's category fields. -/
theorem Reg.level_block_le {k : Nat} (hk : 16 ≤ k) (c : Cat) (q : BlockReg) : (Reg.block c q).level ≤ k := by
  have := catStage_bounds c
  have := Reg.level_block c q
  omega

/-- The block types are written before the header comes to any category (R118). -/
theorem Reg.level_types_le (c : Cat) (j : Nat) : (Reg.block c .types).level ≤ catStage c + j :=
  (catStage_bounds c).1.trans (Nat.le_add_right _ j)

theorem Reg.level_pos (r : Reg) : 0 < r.level := by
  cases r with
  | block c q =>
    have := catStage_bounds c
    have := Reg.level_block c q
    omega
  | _ => simp [Reg.level]

/-- The register of a level that has one register only. -/
def Reg.ofLevel : Nat → Reg
  | 2 => .isLast
  | 3 => .mbEnd
  | 17 => .npostfix
  | 18 => .direct
  | 19 => .ntreesL
  | 20 => .ntreesD
  | 21 => .implicit0
  | 22 => .insertLen
  | 23 => .copyLen
  | 24 => .dcode
  | 25 => .distance
  | _ => .window

theorem Reg.ofLevel_level {r : Reg} (h : r.level ≤ 3 ∨ 17 ≤ r.level) : Reg.ofLevel r.level = r := by
  cases r with
  | block c q =>
    have := catStage_bounds c
    have := Reg.level_block c q
    omega
  | contextMode | litMap | distMap | litCode | iacCode | distCode => simp [Reg.level] at h
  | _ => rfl

/-- The registers written by the end of a category's fields are its own and those written before (R120). -/
theorem Reg.level_le_catStage {r : Reg} {c : Cat} {j : Nat} (hj : j ≤ 4) (h : r.level ≤ catStage c + j) :
    (∃ q, r = .block c q) ∨ r.level ≤ catStage c := by
  have hc := catStage_bounds c
  cases r with
  | block d q =>
    by_cases hd : d = c
    · exact .inl ⟨q, by rw [hd]⟩
    · have := catStage_apart hd
      have := Reg.level_block d q
      exact .inr (by omega)
  | _ =>
    simp only [Reg.level] at h ⊢
    exact .inr (by omega)

/-! ### What two runs have in common -/

/-- A register of a category is the same in both. The codes of a block switch are read only where there is one: with two
block types or more (R34, R132). -/
def BlockSame : BlockReg → BlockState → BlockState → Prop
  | .types, a, b => a.blockType = b.blockType ∧ a.lastBlockType = b.lastBlockType
  | .numTypes, a, b => a.numTypes = b.numTypes
  | .btypeCode, a, b => 2 ≤ a.numTypes → a.btypeCode = b.btypeCode
  | .bcountCode, a, b => 2 ≤ a.numTypes → a.bcountCode = b.bcountCode
  | .blockLen, a, b => a.blockLen = b.blockLen

/-- A register is the same in both runs. -/
def Same : Reg → State → State → Prop
  | .window, s, t => s.wbits = t.wbits ∧ s.maxBackward = t.maxBackward
  | .isLast, s, t => s.mb.isLast = t.mb.isLast
  | .mbEnd, s, t => s.mb.mbEnd = t.mb.mbEnd
  | .block c q, s, t => BlockSame q (s.block c) (t.block c)
  | .contextMode, s, t => s.mb.contextMode = t.mb.contextMode
  | .litMap, s, t => s.mb.litMap = t.mb.litMap
  | .distMap, s, t => s.mb.distMap = t.mb.distMap
  | .litCode, s, t => s.mb.litCode = t.mb.litCode
  | .iacCode, s, t => s.mb.iacCode = t.mb.iacCode
  | .distCode, s, t => s.mb.distCode = t.mb.distCode
  | .npostfix, s, t => s.mb.npostfix = t.mb.npostfix
  | .direct, s, t => s.mb.ndirect = t.mb.ndirect ∧ s.mb.distAlphabet = t.mb.distAlphabet
  | .ntreesL, s, t => s.mb.ntreesL = t.mb.ntreesL
  | .ntreesD, s, t => s.mb.ntreesD = t.mb.ntreesD
  | .implicit0, s, t => s.cmd.implicit0 = t.cmd.implicit0
  | .insertLen, s, t => s.cmd.insertLen = t.cmd.insertLen
  | .copyLen, s, t => s.cmd.copyLen = t.cmd.copyLen
  | .dcode, s, t => s.cmd.dcode = t.cmd.dcode
  | .distance, s, t => s.cmd.distance = t.cmd.distance

/-- All registers that have been written at stage `k` are the same in both runs. -/
def Known (k : Nat) (s t : State) : Prop := ∀ r : Reg, r.level ≤ k → Same r s t

/-- What is the same in two runs at every stage (R171, R176): the configuration, the registers that START writes, the
ROMs, the bytes of `IN` below `IN_LEN` and the bytes of `OUT` below `pos`. -/
structure SameCore (s t : State) : Prop where
  cfgInLen : s.cfgInLen = t.cfgInLen
  cfgOutCap : s.cfgOutCap = t.cfgOutCap
  phase : s.phase = t.phase
  err : s.err = t.err
  bitpos : s.bitpos = t.bitpos
  pos : s.pos = t.pos
  p1 : s.p1 = t.p1
  p2 : s.p2 = t.p2
  hist : s.hist = t.hist
  rom : s.rom = t.rom
  input : ∀ a, a < s.cfgInLen.toNat → memRead s.inMem a = memRead t.inMem a
  outWf : s.outMem.wf = true ∧ t.outMem.wf = true
  output : ∀ a, a < s.pos → memRead s.outMem a = memRead t.outMem a

/-- Two runs that have the registers of stage `k` in common. -/
structure Common (k : Nat) (s t : State) : Prop where
  core : SameCore s t
  known : Known k s t

/-- Two runs agree: they have ended alike, or they are at one control point and have the registers of its stage in
common. -/
structure Agree (s t : State) : Prop where
  core : SameCore s t
  running : s.phase = .run → s.ctl = t.ctl ∧ Known (stage s.ctl) s t

/-- Where one run's answer is a next state, so is the other's, and the two agree. -/
def AnswersAgree (a b : Answer) : Prop := ∀ s', a = .next s' → ∃ t', b = .next t' ∧ Agree s' t'

/-! ### Rules for the registers -/

theorem Known.mono {k' : Nat} (h : Known k s t) (hk : k' ≤ k) : Known k' s t := fun r hr => h r (hr.trans hk)

theorem Common.mono {k' : Nat} (h : Common k s t) (hk : k' ≤ k) : Common k' s t := ⟨h.core, h.known.mono hk⟩

/-- What keeps every register the same keeps those of a stage the same. -/
theorem Known.keep {s' t' : State} (h : Known k s t) (hf : ∀ r, Same r s t → Same r s' t') : Known k s' t' :=
  fun r hr => hf r (h r hr)

/-- The registers of a run that its control point tells the stage of. -/
def regs (s : State) : Nat × Nat × MetaBlock × CmdRegs := (s.wbits, s.maxBackward, s.mb, s.cmd)

/-- What leaves these registers leaves what is known. -/
theorem Known.congr {s' t' : State} (h : Known k s t) (hs : regs s' = regs s) (ht : regs t' = regs t) :
    Known k s' t' := by
  simp only [regs, Prod.mk.injEq] at hs ht
  obtain ⟨hs1, hs2, hs3, hs4⟩ := hs
  obtain ⟨ht1, ht2, ht3, ht4⟩ := ht
  refine h.keep fun r hr => ?_
  cases r <;> simpa only [Same, State.block, hs1, hs2, hs3, hs4, ht1, ht2, ht3, ht4] using hr

/-- The next stage has one register more. -/
theorem Known.add (h : Known k s t) (r : Reg) (hl : r.level = k + 1) (hk : k < 3 ∨ 16 ≤ k) (hr : Same r s t) :
    Known (k + 1) s t := by
  intro q hq
  obtain hlt | heq := Nat.lt_or_eq_of_le hq
  · exact h q (Nat.le_of_lt_succ hlt)
  · have hrq : Reg.ofLevel q.level = Reg.ofLevel r.level := by rw [heq, hl]
    rw [Reg.ofLevel_level (by omega), Reg.ofLevel_level (by omega)] at hrq
    rwa [hrq]

/-- A write of one register, the same in both runs. -/
theorem Known.write {s' t' : State} (h : Known k s t) (r : Reg) (hkeep : ∀ q, q ≠ r → Same q s t → Same q s' t')
    (hr : Same r s' t') : Known k s' t' := by
  intro q hq
  by_cases hqr : q = r
  · rwa [hqr]
  · exact hkeep q hqr (h q hq)

/-- A write of the register of the next stage. -/
theorem Known.writeNext {s' t' : State} (h : Known k s t) (r : Reg) (hl : r.level = k + 1) (hk : k < 3 ∨ 16 ≤ k)
    (hkeep : ∀ q, q ≠ r → Same q s t → Same q s' t') (hr : Same r s' t') : Known (k + 1) s' t' :=
  (h.write r hkeep hr).add r hl hk hr

/-- The registers of one category are written. -/
theorem Known.setBlock {k' : Nat} {c : Cat} {a b : BlockState} (h : Known k s t)
    (hlev : ∀ r : Reg, r.level ≤ k' → (∃ q, r = .block c q) ∨ r.level ≤ k)
    (hb : ∀ q, (Reg.block c q).level ≤ k' → BlockSame q a b) :
    Known k' (setBlock c a s) (setBlock c b t) := by
  intro r hr
  by_cases hrc : ∃ q, r = .block c q
  · obtain ⟨q, rfl⟩ := hrc
    simp only [Same, setBlock_block_same]
    exact hb q hr
  · have hsame : Same r s t := h r ((hlev r hr).resolve_left hrc)
    cases r with
    | block d q =>
      have hd : d ≠ c := fun e => hrc ⟨q, by rw [e]⟩
      simpa only [Same, setBlock_block_other hd] using hsame
    | _ => cases c <;> exact hsame

/-- The header writes registers of the category that it is at (R120). -/
theorem Known.setBlock_header {c : Cat} {a b : BlockState} {j : Nat} (h : Known (catStage c) s t) (hj : j ≤ 4)
    (hb : ∀ q, (Reg.block c q).level ≤ catStage c + j → BlockSame q a b) :
    Known (catStage c + j) (Machine.setBlock c a s) (Machine.setBlock c b t) :=
  h.setBlock (fun _ hr => Reg.level_le_catStage hj hr) hb

/-- A command writes registers of a category (R132, R133). -/
theorem Known.setBlock_command {c : Cat} {a b : BlockState} (h : Known k s t) (hb : ∀ q, BlockSame q a b) :
    Known k (Machine.setBlock c a s) (Machine.setBlock c b t) :=
  h.setBlock (fun _ hr => .inr hr) fun q _ => hb q

theorem Common.advance (h : Common k s t) (n : Nat) : Common k (advance n s) (advance n t) :=
  ⟨{ h.core with bitpos := congrArg (· + n) h.core.bitpos }, h.known.congr rfl rfl⟩

/-- What is common at the stage of a run's control point is common at the stage of that point. -/
theorem Common.at {c : Ctl} (h : Common (stage s.ctl) s t) (hc : s.ctl = c) : Common (stage c) s t := hc ▸ h

/-- R161: runs that end by the same error agree. -/
theorem SameCore.raise (h : SameCore s t) (e : ErrKind) : Agree (raise e s) (raise e t) :=
  ⟨{ h with phase := rfl, err := rfl }, nofun⟩

theorem SameCore.terminate (h : SameCore s t) : Agree (terminate s) (terminate t) :=
  ⟨{ h with phase := rfl, err := rfl }, nofun⟩

theorem Common.goto {c : Ctl} (h : Common k s t) (hc : stage c ≤ k) : Agree (goto c s) (goto c t) :=
  ⟨{ h.core with }, fun _ => ⟨rfl, (h.known.mono hc).congr rfl rfl⟩⟩

theorem Common.goto_eq {c c' : Ctl} (h : Common k s t) (hcc : c = c') (hc : stage c ≤ k) :
    Agree (Machine.goto c s) (Machine.goto c' t) :=
  hcc ▸ h.goto hc

/-- Two runs that take the same branch. -/
theorem Agree.ite {p q : Prop} [Decidable p] [Decidable q] {s' t' : State} (hpq : p ↔ q) (hp : p → Agree s t)
    (hn : ¬ p → Agree s' t') : Agree (if p then s else s') (if q then t else t') := by
  by_cases h : p
  · rw [if_pos h, if_pos (hpq.1 h)]
    exact hp h
  · rw [if_neg h, if_neg (mt hpq.2 h)]
    exact hn h

theorem Common.fits_iff (h : Common k s t) (n : Nat) : Fits n s ↔ Fits n t := by
  simp only [Fits, endBit, h.core.bitpos, h.core.cfgInLen]

theorem Agree.next (h : Agree s t) : AnswersAgree (.next s) (.next t) := by
  rintro _ ⟨⟩
  exact ⟨t, rfl, h⟩

theorem answersAgree_refused (r : Refusal) (b : Answer) : AnswersAgree (.refused r) b := by
  rintro _ ⟨⟩

/-- R83: both runs drop the bits, or both raise `need_more_input`. -/
theorem Common.dropThen {f g : State → Answer} (h : Common k s t) (n : Nat)
    (hk : Common k (Machine.advance n s) (Machine.advance n t) →
      AnswersAgree (f (Machine.advance n s)) (g (Machine.advance n t))) :
    AnswersAgree (dropThen n s f) (dropThen n t g) := by
  by_cases hf : Fits n s
  · rw [dropThen_of_fits f hf, dropThen_of_fits g ((h.fits_iff n).1 hf)]
    exact hk (h.advance n)
  · rw [dropThen_of_not_fits f hf, dropThen_of_not_fits g (mt (h.fits_iff n).2 hf)]
    exact (h.core.raise _).next

/-- An element that drops its bits in one piece. -/
theorem Common.drop {f g : State → State} (h : Common k s t) (n : Nat)
    (hf : Common k (Machine.advance n s) (Machine.advance n t) →
      Agree (f (Machine.advance n s)) (g (Machine.advance n t))) :
    AnswersAgree (Machine.dropThen n s fun s => .next (f s)) (Machine.dropThen n t fun s => .next (g s)) :=
  h.dropThen n fun h => (hf h).next

end Sys2Proof.Machine
end

section
/-! The shared operations of the header and of a command keep what two runs have in common, and add the registers that
they write. -/

namespace Sys2Proof.Machine

variable {s t : State} {k : Nat}

/-! ### The header up to its category fields (R113 to R118) -/

theorem Common.setWindow (h : Common 0 s t) (w : Nat) : Agree (setWindow w s) (setWindow w t) := by
  refine ⟨{ h.core with }, fun _ => ⟨rfl, h.known.writeNext .window rfl (by decide) (fun r hr hs => ?_) ⟨rfl, rfl⟩⟩⟩
  cases r with
  | window => exact absurd rfl hr
  | _ => exact hs

theorem Common.setIsLast (h : Common 1 s t) (v : Bool) : Common 2 (setIsLast v s) (setIsLast v t) := by
  refine ⟨{ h.core with }, h.known.writeNext .isLast rfl (by decide) (fun r hr hs => ?_) rfl⟩
  cases r with
  | isLast => exact absurd rfl hr
  | _ => exact hs

theorem Common.newMetaBlock (h : Common 3 s t) : Common 4 (newMetaBlock s) (newMetaBlock t) := by
  refine ⟨{ h.core with }, fun r hr => ?_⟩
  cases r with
  | window => exact h.known .window (by decide)
  | isLast => exact h.known .isLast (by decide)
  | mbEnd => exact h.known .mbEnd (by decide)
  | block c q =>
    cases q with
    | types => cases c <;> exact ⟨rfl, rfl⟩
    | _ => cases c <;> simp [Reg.level, catStage] at hr
  | contextMode | litMap | distMap | litCode | iacCode | distCode => rfl
  | _ => simp [Reg.level] at hr

theorem Common.enterBlockInfo (h : Common 3 s t) : Agree (enterBlockInfo s) (enterBlockInfo t) :=
  h.newMetaBlock.goto le_rfl

/-- R116: the length of the meta-block has been read. -/
def writeMlen (v : Nat) (s : State) : State := { s with mb := { s.mb with mlen := v + 1, mbEnd := s.pos + (v + 1) } }

theorem Common.writeMlen (h : Common 2 s t) (v : Nat) : Common 3 (writeMlen v s) (writeMlen v t) := by
  refine ⟨{ h.core with }, h.known.writeNext .mbEnd rfl (by decide) (fun r hr hs => ?_)
    (congrArg (· + (v + 1)) h.core.pos)⟩
  cases r with
  | mbEnd => exact absurd rfl hr
  | _ => exact hs

theorem Common.storeMlen (h : Common 2 s t) (v : Nat) : Agree (storeMlen v s) (storeMlen v t) := by
  have hlast : s.mb.isLast = t.mb.isLast := h.known .isLast le_rfl
  exact Agree.ite (by rw [hlast]) (fun _ => (h.writeMlen v).enterBlockInfo) fun _ => (h.writeMlen v).goto le_rfl

/-! ### The fields of a category (R119 to R121) -/

theorem Known.block (h : Known k s t) (c : Cat) (q : BlockReg) (hq : (Reg.block c q).level ≤ k) :
    BlockSame q (s.block c) (t.block c) := h (.block c q) hq

theorem Common.nextCategory {c : Cat} (h : Common (catStage c + 4) s t) :
    Agree (nextCategory c s) (nextCategory c t) := by
  cases c <;> exact h.goto le_rfl

theorem Common.storeBlockTypes {c : Cat} (h : Common (catStage c) s t) (v : Nat) :
    Agree (storeBlockTypes c v s) (storeBlockTypes c v t) := by
  have hty := h.known.block c .types (Reg.level_types_le c 0)
  refine Agree.ite Iff.rfl (fun _ => ?_) fun hv => ?_
  · refine Common.goto (k := catStage c + 1) ⟨{ h.core with }, ?_⟩ le_rfl
    refine h.known.setBlock_header (by decide) fun q hq => ?_
    cases q with
    | types => exact hty
    | numTypes => rfl
    | btypeCode | bcountCode | blockLen => simp only [Reg.level] at hq; omega
  · refine Common.nextCategory ⟨{ h.core with }, ?_⟩
    refine h.known.setBlock_header (by decide) fun q _ => ?_
    cases q with
    | types => exact hty
    | numTypes | blockLen => rfl
    | btypeCode | bcountCode => exact fun h2 => absurd h2 hv

theorem Common.storeBlockLen_header {c : Cat} (h : Common (catStage c + 3) s t) (n : Nat) :
    Agree (storeBlockLen c false n s) (storeBlockLen c false n t) := by
  refine Common.nextCategory ⟨{ h.core with }, ?_⟩
  refine (h.known.mono (Nat.le_add_right _ 3)).setBlock_header (by decide) fun q _ => ?_
  cases q with
  | blockLen => rfl
  | types => exact h.known.block c .types (Reg.level_types_le c 3)
  | numTypes => exact h.known.block c .numTypes (by simp [Reg.level])
  | btypeCode => exact h.known.block c .btypeCode (by simp [Reg.level])
  | bcountCode => exact h.known.block c .bcountCode (by simp [Reg.level])

/-! ### The distance parameters and the context modes (R122, R123) -/

theorem Common.writeNpostfix (h : Common 16 s t) (v : Nat) :
    Common 17 { s with mb := { s.mb with npostfix := v } } { t with mb := { t.mb with npostfix := v } } := by
  refine ⟨{ h.core with }, h.known.writeNext .npostfix rfl (by decide) (fun r hr hs => ?_) rfl⟩
  cases r with
  | npostfix => exact absurd rfl hr
  | _ => exact hs

theorem Common.setDirect (h : Common 17 s t) (v : Nat) : Common 18 (setDirect v s) (setDirect v t) := by
  have hnp : s.mb.npostfix = t.mb.npostfix := h.known .npostfix le_rfl
  refine ⟨{ h.core with }, h.known.writeNext .direct rfl (by decide) (fun r hr hs => ?_) ?_⟩
  · cases r with
    | direct => exact absurd rfl hr
    | _ => exact hs
  · simp only [Same, Machine.setDirect, hnp, and_self]

theorem Common.addMode (h : Common 18 s t) (m : ContextMode) :
    Common 18 { s with mb := { s.mb with contextMode := s.mb.contextMode ++ [m] } }
      { t with mb := { t.mb with contextMode := t.mb.contextMode ++ [m] } } := by
  refine ⟨{ h.core with }, h.known.write .contextMode (fun r hr hs => ?_) ?_⟩
  · cases r with
    | contextMode => exact absurd rfl hr
    | _ => exact hs
  · exact congrArg (· ++ [m]) (h.known .contextMode (by decide))

/-! ### Context maps (R107, R124) -/

theorem Known.mapTrees_eq {m : MapSel} (h : Known (mapStage m) s t) : mapTrees m s = mapTrees m t := by
  cases m with
  | literal => exact h .ntreesL le_rfl
  | distance => exact h .ntreesD le_rfl

theorem Known.mapSize_eq {m : MapSel} (h : Known (mapStage m) s t) : mapSize m s = mapSize m t := by
  cases m with
  | literal => exact congrArg (· <<< 6) (h.block .literal .numTypes (by decide))
  | distance => exact congrArg (· <<< 2) (h.block .distance .numTypes (by decide))

theorem Common.storeMap {m : MapSel} (h : Common (mapStage m) s t) (l : List Nat) :
    Agree (storeMap m l s) (storeMap m l t) := by
  cases m with
  | literal =>
    refine Common.goto (k := 19) ⟨{ h.core with }, h.known.write .litMap (fun r hr hs => ?_) rfl⟩ le_rfl
    cases r with
    | litMap => exact absurd rfl hr
    | _ => exact hs
  | distance =>
    refine Common.goto (k := 20) ⟨{ h.core with }, h.known.write .distMap (fun r hr hs => ?_) rfl⟩ le_rfl
    cases r with
    | distMap => exact absurd rfl hr
    | _ => exact hs

theorem Common.enterMap {m : MapSel} (h : Common (mapStage m) s t) : Agree (enterMap m s) (enterMap m t) := by
  refine Agree.ite (by rw [h.known.mapTrees_eq]) (fun _ => ?_) fun _ => h.goto le_rfl
  rw [h.known.mapSize_eq]
  exact h.storeMap _

theorem Common.nextMapEntry {m : MapSel} (h : Common (mapStage m) s t) (r : Nat) (T : Code) (l : List Nat) :
    Agree (nextMapEntry m r T l s) (nextMapEntry m r T l t) :=
  Agree.ite (by rw [h.known.mapSize_eq]) (fun _ => h.goto le_rfl) fun _ => h.goto le_rfl

theorem Common.storeCount {u : CountUse} (h : Common (countStage u) s t) (v : Nat) :
    Agree (storeCount u v s) (storeCount u v t) := by
  cases u with
  | blockTypes c => exact Common.storeBlockTypes h v
  | treesL =>
    refine Common.enterMap (m := .literal) ⟨{ h.core with }, h.known.writeNext .ntreesL rfl (by decide)
      (fun r hr hs => ?_) rfl⟩
    cases r with
    | ntreesL => exact absurd rfl hr
    | _ => exact hs
  | treesD =>
    refine Common.enterMap (m := .distance) ⟨{ h.core with }, h.known.writeNext .ntreesD rfl (by decide)
      (fun r hr hs => ?_) rfl⟩
    cases r with
    | ntreesD => exact absurd rfl hr
    | _ => exact hs

/-! ### What follows within a command (R126, R129, R133, R134, R136, R139) -/

theorem le_symStage (c : Cat) : 16 ≤ symStage c := by cases c <;> decide

/-- After the header's category fields all registers of the categories are common. -/
theorem Common.block (h : Common k s t) (hk : 16 ≤ k) (c : Cat) (q : BlockReg) :
    BlockSame q (s.block c) (t.block c) := h.known.block c q (Reg.level_block_le hk c q)

theorem Common.enterSym {c : Cat} (h : Common (symStage c) s t) : Agree (enterSym c s) (enterSym c t) := by
  have hn : (s.block c).numTypes = (t.block c).numTypes := h.block (le_symStage c) c .numTypes
  have hl : (s.block c).blockLen = (t.block c).blockLen := h.block (le_symStage c) c .blockLen
  refine Agree.ite (by rw [hn, hl]) (fun _ => h.goto le_rfl) fun _ => h.goto ?_
  cases c <;> exact le_rfl

theorem Common.endMetaBlock (h : Common k s t) (hk : 2 ≤ k) : Agree (endMetaBlock s) (endMetaBlock t) := by
  have hlast : s.mb.isLast = t.mb.isLast := h.known .isLast hk
  exact Agree.ite (by rw [hlast]) (fun _ => h.goto hk) fun _ => h.goto (Nat.le_of_succ_le hk)

theorem Common.inside_iff (h : Common k s t) (hk : 3 ≤ k) : s.pos < s.mb.mbEnd ↔ t.pos < t.mb.mbEnd := by
  have hend : s.mb.mbEnd = t.mb.mbEnd := h.known .mbEnd hk
  rw [h.core.pos, hend]

theorem Common.nextCommand (h : Common 20 s t) : Agree (nextCommand s) (nextCommand t) :=
  Agree.ite (h.inside_iff (by decide)) (fun _ => Common.enterSym h) fun _ => h.endMetaBlock (by decide)

/-- The distance of a command is written, after its code. -/
theorem Common.writeDistance (h : Common 24 s t) (d : Nat) : Common 25 (writeDistance d s) (writeDistance d t) := by
  refine ⟨{ h.core with }, h.known.writeNext .distance rfl (by decide) (fun r hr hs => ?_) rfl⟩
  cases r with
  | distance => exact absurd rfl hr
  | _ => exact hs

theorem Common.writeDcode (h : Common 23 s t) (d : Nat) :
    Common 24 (setCmd { s.cmd with dcode := d } s) (setCmd { t.cmd with dcode := d } t) := by
  refine ⟨{ h.core with }, h.known.writeNext .dcode rfl (by decide) (fun r hr hs => ?_) rfl⟩
  cases r with
  | dcode => exact absurd rfl hr
  | _ => exact hs

theorem Common.setDistance (h : Common 24 s t) {d d' : Nat} (hd : d = d') :
    Agree (setDistance d s) (setDistance d' t) :=
  hd ▸ (h.writeDistance d).goto le_rfl

theorem Common.enterDistance (h : Common 23 s t) : Agree (enterDistance s) (enterDistance t) := by
  have himp : s.cmd.implicit0 = t.cmd.implicit0 := h.known .implicit0 (by decide)
  refine Agree.ite (by rw [himp]) (fun _ => ?_) fun _ => Common.enterSym (c := .distance) h
  have hlast : s.hist.last 1 = t.hist.last 1 := by rw [h.core.hist]
  rw [← hlast]
  exact ((h.writeDcode 0).writeDistance (s.hist.last 1)).goto le_rfl

theorem Common.nextInsert (h : Common 23 s t) : Agree (nextInsert s) (nextInsert t) := by
  have hlen : s.cmd.insertLen = t.cmd.insertLen := h.known .insertLen (by decide)
  exact Agree.ite (h.inside_iff (by decide))
    (fun _ => Agree.ite (by rw [hlen]) (fun _ => Common.enterSym (c := .literal) h) fun _ => h.enterDistance)
    fun _ => h.endMetaBlock (by decide)

/-! ### Codes (R92 to R97, R107, R120, R125) -/

theorem Known.alphabetOf_eq {u : CodeUse} (h : Known (codeStage u) s t) : alphabetOf u s = alphabetOf u t := by
  cases u with
  | btype c => exact congrArg (· + 2) (h.block c .numTypes le_rfl)
  | cmap m r => exact congrArg (· + r) (Known.mapTrees_eq h)
  | dist => exact (h .direct (by decide)).2
  | bcount | lit | iac => rfl

theorem Common.addLitCode (h : Common 20 s t) (T : Code) :
    Common 20 { s with mb := { s.mb with litCode := s.mb.litCode ++ [T] } }
      { t with mb := { t.mb with litCode := t.mb.litCode ++ [T] } } := by
  refine ⟨{ h.core with }, h.known.write .litCode (fun r hr hs => ?_) ?_⟩
  · cases r with
    | litCode => exact absurd rfl hr
    | _ => exact hs
  · exact congrArg (· ++ [T]) (h.known .litCode (by decide))

theorem Common.addIacCode (h : Common 20 s t) (T : Code) :
    Common 20 { s with mb := { s.mb with iacCode := s.mb.iacCode ++ [T] } }
      { t with mb := { t.mb with iacCode := t.mb.iacCode ++ [T] } } := by
  refine ⟨{ h.core with }, h.known.write .iacCode (fun r hr hs => ?_) ?_⟩
  · cases r with
    | iacCode => exact absurd rfl hr
    | _ => exact hs
  · exact congrArg (· ++ [T]) (h.known .iacCode (by decide))

theorem Common.addDistCode (h : Common 20 s t) (T : Code) :
    Common 20 { s with mb := { s.mb with distCode := s.mb.distCode ++ [T] } }
      { t with mb := { t.mb with distCode := t.mb.distCode ++ [T] } } := by
  refine ⟨{ h.core with }, h.known.write .distCode (fun r hr hs => ?_) ?_⟩
  · cases r with
    | distCode => exact absurd rfl hr
    | _ => exact hs
  · exact congrArg (· ++ [T]) (h.known .distCode (by decide))

theorem Common.storeBtypeCode {c : Cat} (h : Common (catStage c + 1) s t) (T : Code) :
    Agree (storeCode (.btype c) T s) (storeCode (.btype c) T t) := by
  refine Common.goto (k := catStage c + 2) ⟨{ h.core with }, ?_⟩ le_rfl
  refine (h.known.mono (Nat.le_add_right _ 1)).setBlock_header (by decide) fun q hq => ?_
  cases q with
  | types => exact h.known.block c .types (Reg.level_types_le c 1)
  | numTypes => exact h.known.block c .numTypes le_rfl
  | btypeCode => exact fun _ => rfl
  | bcountCode | blockLen => simp only [Reg.level] at hq; omega

theorem Common.storeBcountCode {c : Cat} (h : Common (catStage c + 2) s t) (T : Code) :
    Agree (storeCode (.bcount c) T s) (storeCode (.bcount c) T t) := by
  refine Common.goto (k := catStage c + 3) ⟨{ h.core with }, ?_⟩ le_rfl
  refine (h.known.mono (Nat.le_add_right _ 2)).setBlock_header (by decide) fun q hq => ?_
  cases q with
  | types => exact h.known.block c .types (Reg.level_types_le c 2)
  | numTypes => exact h.known.block c .numTypes (Nat.le_succ _)
  | btypeCode => exact h.known.block c .btypeCode le_rfl
  | bcountCode => exact fun _ => rfl
  | blockLen => simp only [Reg.level] at hq; omega

theorem Common.storeCode {u : CodeUse} (h : Common (codeStage u) s t) (T : Code) :
    Agree (storeCode u T s) (storeCode u T t) := by
  cases u with
  | btype c => exact Common.storeBtypeCode h T
  | bcount c => exact Common.storeBcountCode h T
  | cmap m r => exact h.goto le_rfl
  | lit =>
    have h' := Common.addLitCode h T
    have hlen : s.mb.litCode = t.mb.litCode := h.known .litCode (by decide)
    have hn : s.mb.ntreesL = t.mb.ntreesL := h.known .ntreesL (by decide)
    exact Agree.ite (by simp only [hlen, hn]) (fun _ => h'.goto le_rfl) fun _ => h'.goto le_rfl
  | iac =>
    have h' := Common.addIacCode h T
    have hlen : s.mb.iacCode = t.mb.iacCode := h.known .iacCode (by decide)
    have hn : s.mb.iac.numTypes = t.mb.iac.numTypes := h.known.block .insertCopy .numTypes (by decide)
    exact Agree.ite (by simp only [hlen, hn]) (fun _ => h'.goto le_rfl) fun _ => h'.goto le_rfl
  | dist =>
    have h' := Common.addDistCode h T
    have hlen : s.mb.distCode = t.mb.distCode := h.known .distCode (by decide)
    have hn : s.mb.ntreesD = t.mb.ntreesD := h.known .ntreesD (by decide)
    exact Agree.ite (by simp only [hlen, hn]) (fun _ => h'.goto le_rfl) fun _ => h'.nextCommand

theorem Common.nextLength {u : CodeUse} (h : Common (codeStage u) s t) (T : Code) (st : LenLocals) :
    Agree (nextLength u T st s) (nextLength u T st t) := by
  have ha := h.known.alphabetOf_eq
  refine Agree.ite (by rw [ha]) (fun _ => h.goto le_rfl) fun _ => Agree.ite Iff.rfl (fun _ => ?_) fun _ => h.core.raise _
  rw [ha]
  exact h.storeCode _

theorem Common.applyRepeat {u : CodeUse} (h : Common (codeStage u) s t) (T : Code) (st : LenLocals) (l j x : Nat) :
    Agree (applyRepeat u T st l j x s) (applyRepeat u T st l j x t) := by
  simp only [Machine.applyRepeat, ← h.known.alphabetOf_eq]
  split
  · exact h.nextLength T _
  · exact h.core.raise _

theorem Common.nextClEntry {u : CodeUse} (h : Common (codeStage u) s t) (st : ClLocals) :
    Agree (nextClEntry u st s) (nextClEntry u st t) := by
  refine Agree.ite Iff.rfl (fun _ => ?_) fun _ => h.goto le_rfl
  split
  · exact h.nextLength _ _
  · exact h.core.raise _

theorem Common.simpleCode {u : CodeUse} (h : Common (codeStage u) s t) (syms lens : List Nat) :
    Agree (simpleCode u syms lens s) (simpleCode u syms lens t) := by
  simp only [Machine.simpleCode, ← h.known.alphabetOf_eq]
  exact h.storeCode _

theorem Common.finishSymbols {u : CodeUse} (h : Common (codeStage u) s t) (syms : List Nat) (bad : Bool) :
    Agree (finishSymbols u syms bad s) (finishSymbols u syms bad t) := by
  refine Agree.ite Iff.rfl (fun _ => h.core.raise _) fun _ => ?_
  split
  · exact h.storeCode _
  · exact h.simpleCode _ _
  · exact h.simpleCode _ _
  · exact h.goto le_rfl

end Sys2Proof.Machine
end

section
/-! Every element keeps what two runs have in common: it is executed at the same control point in both. -/

namespace Sys2Proof.Machine

variable {s t : State} {k : Nat}

/-! ### Block switches and counts (R121, R132, R133) -/

theorem Common.switchType {c : Cat} (h : Common (symStage c) s t) {v v' : Nat} (hv : v = v') :
    Agree (switchType c v s) (switchType c v' t) := by
  subst hv
  have hsame := h.block (le_symStage c) c
  refine Common.goto (k := symStage c) ⟨{ h.core with }, h.known.setBlock_command fun q => ?_⟩ le_rfl
  cases q with
  | types => exact ⟨(hsame .numTypes ▸ rfl : reduceType _ v = reduceType _ v), (hsame .types).1⟩
  | numTypes => exact hsame .numTypes
  | btypeCode => exact hsame .btypeCode
  | bcountCode => exact hsame .bcountCode
  | blockLen => exact hsame .blockLen

theorem blockSame_writeLen {a b : BlockState} {m n : Nat} (h : ∀ q, BlockSame q a b) (hmn : m = n) (q : BlockReg) :
    BlockSame q { a with blockLen := m } { b with blockLen := n } := by
  cases q with
  | types => exact h .types
  | numTypes => exact h .numTypes
  | btypeCode => exact h .btypeCode
  | bcountCode => exact h .bcountCode
  | blockLen => exact hmn

theorem Common.storeBlockLen_switch {c : Cat} (h : Common (symStage c) s t) (n : Nat) :
    Agree (storeBlockLen c true n s) (storeBlockLen c true n t) := by
  have hsame := h.block (le_symStage c) c
  refine Common.goto (k := symStage c) ⟨{ h.core with }, h.known.setBlock_command fun q => ?_⟩ ?_
  · exact blockSame_writeLen hsame rfl q
  · cases c <;> exact le_rfl

theorem Common.countDown (h : Common k s t) (hk : 16 ≤ k) (c : Cat) : Common k (countDown c s) (countDown c t) := by
  have hsame := h.block hk c
  have hn : (s.block c).numTypes = (t.block c).numTypes := hsame .numTypes
  unfold Machine.countDown
  rw [hn]
  split
  · exact ⟨{ h.core with }, h.known.setBlock_command (blockSame_writeLen hsame (congrArg (· - 1) (hsame .blockLen)))⟩
  · exact h

/-! ### The command registers (R130, R131, R134, R137) -/

theorem Common.writeImplicit (h : Common 20 s t) (v : Bool) :
    Common 21 (setCmd { s.cmd with implicit0 := v } s) (setCmd { t.cmd with implicit0 := v } t) := by
  refine ⟨{ h.core with }, h.known.writeNext .implicit0 rfl (by decide) (fun r hr hs => ?_) rfl⟩
  cases r with
  | implicit0 => exact absurd rfl hr
  | _ => exact hs

theorem Common.writeInsertLen (h : Common 21 s t) (v : Nat) :
    Common 22 (setCmd { s.cmd with insertLen := v } s) (setCmd { t.cmd with insertLen := v } t) := by
  refine ⟨{ h.core with }, h.known.writeNext .insertLen rfl (by decide) (fun r hr hs => ?_) rfl⟩
  cases r with
  | insertLen => exact absurd rfl hr
  | _ => exact hs

theorem Common.writeCopyLen (h : Common 22 s t) (v : Nat) :
    Common 23 (setCmd { s.cmd with copyLen := v } s) (setCmd { t.cmd with copyLen := v } t) := by
  refine ⟨{ h.core with }, h.known.writeNext .copyLen rfl (by decide) (fun r hr hs => ?_) rfl⟩
  cases r with
  | copyLen => exact absurd rfl hr
  | _ => exact hs

theorem Common.countLiteral (h : Common 23 s t) : Common 23 (countLiteral s) (countLiteral t) := by
  refine ⟨{ h.core with }, h.known.write .insertLen (fun r hr hs => ?_) ?_⟩
  · cases r with
    | insertLen => exact absurd rfl hr
    | _ => exact hs
  · exact congrArg (· - 1) (h.known .insertLen (by decide))

/-- `dist_ctx` is written; no rule reads it, since the context is computed again from `copy_len` (R137). -/
theorem Common.countDistance (h : Common 23 s t) : Common 23 (countDistance s) (countDistance t) := by
  have h' := h.countDown (by decide) .distance
  refine ⟨{ h'.core with }, h'.known.keep fun r hs => ?_⟩
  cases r <;> exact hs

/-! ### Output (R146) -/

theorem SameCore.putByte (h : SameCore s t) (b : Byte) : SameCore (putByte b s) (putByte b t) := by
  obtain ⟨hs, ht⟩ := h.outWf
  refine { h with
    p1 := rfl, p2 := h.p1, pos := congrArg (· + 1) h.pos
    outWf := ⟨memWrite_wf hs _ _, memWrite_wf ht _ _⟩
    output := fun a ha => ?_ }
  have ha : a < s.pos + 1 := ha
  show memRead (memWrite s.outMem s.pos b) a = memRead (memWrite t.outMem t.pos b) a
  rw [memRead_memWrite hs, memRead_memWrite ht, ← h.pos]
  split
  · rfl
  · exact h.output a (by omega)

theorem Common.putByte (h : Common k s t) (b : Byte) : Common k (putByte b s) (putByte b t) :=
  ⟨h.core.putByte b, h.known.congr rfl rfl⟩

theorem Common.emitThen {f g : State → State} (h : Common k s t) (b : Byte)
    (hk : Common k (Machine.putByte b s) (Machine.putByte b t) →
      Agree (f (Machine.putByte b s)) (g (Machine.putByte b t))) :
    AnswersAgree (emitThen b s fun s => .next (f s)) (emitThen b t fun s => .next (g s)) := by
  unfold Machine.emitThen
  rw [← h.core.pos, ← h.core.cfgOutCap]
  split
  · exact (h.core.raise _).next
  · exact (hk (h.putByte b)).next

/-! ### The elements -/

theorem takeCommand_agree (hctl : s.ctl = t.ctl) (h : Common (stage s.ctl) s t) (cell n : Nat) (ioff coff : BitVec 3) :
    AnswersAgree (takeCommand cell n ioff coff s) (takeCommand cell n ioff coff t) := by
  simp only [takeCommand, ← hctl]
  split
  next hc =>
    exact (Common.countDown (h.at hc) (by decide) .insertCopy).drop n fun h =>
      (Common.writeImplicit h _).goto le_rfl
  next => exact answersAgree_refused _ _

/-- A distance symbol goes on alike where what follows its code does. -/
theorem takeDistance_agree {f g : State → State} (hctl : s.ctl = t.ctl) (h : Common (stage s.ctl) s t) (n d : Nat)
    (hk : ∀ {s' t' : State}, Common 24 s' t' → Agree (f s') (g t')) :
    AnswersAgree (takeDistance n d s fun s => .next (f s)) (takeDistance n d t fun t => .next (g t)) := by
  by_cases hc : s.ctl = .dist
  · rw [takeDistance_eq hc, takeDistance_eq (hctl ▸ hc)]
    rw [hc] at h
    exact (Common.countDistance h).dropThen n fun h => (hk (h.writeDcode d)).next
  · have hs : takeDistance n d s (fun s => .next (f s)) = .refused .offGrammar := by
      unfold takeDistance
      split
      · exact absurd ‹_› hc
      · rfl
    rw [hs]
    exact answersAgree_refused _ _

theorem takeShort_agree (hctl : s.ctl = t.ctl) (h : Common (stage s.ctl) s t) (n d : Nat) :
    AnswersAgree (takeShort n d s) (takeShort n d t) := by
  refine takeDistance_agree hctl h n d fun {s' t'} h => ?_
  have hd : shortDistance s'.hist d = shortDistance t'.hist d := by rw [h.core.hist]
  rw [← hd]
  exact Agree.ite Iff.rfl (fun _ => (h.writeDistance _).core.raise _) fun _ => h.setDistance rfl

theorem takeMode_agree (hctl : s.ctl = t.ctl) (h : Common (stage s.ctl) s t) (m : ContextMode) :
    AnswersAgree (takeMode m s) (takeMode m t) := by
  simp only [takeMode, ← hctl]
  split
  next hc =>
    rw [hc] at h
    refine h.drop 2 fun h => ?_
    have hm : s.mb.contextMode = t.mb.contextMode := h.known .contextMode (by decide)
    have hn : s.mb.lit.numTypes = t.mb.lit.numTypes := Common.block h (by decide) .literal .numTypes
    refine (Common.addMode h m).goto_eq ?_ ?_
    · rw [advance_mb, advance_mb, hm, hn]
    · split <;> exact le_rfl
  next => exact answersAgree_refused _ _

theorem takeSymbol_agree (hctl : s.ctl = t.ctl) (h : Common (stage s.ctl) s t) (invalid : Bool) (v : Nat) :
    AnswersAgree (takeSymbol invalid v s) (takeSymbol invalid v t) := by
  simp only [takeSymbol, ← hctl]
  split
  next hc =>
    rw [hc] at h
    rw [← Known.alphabetOf_eq h.known]
    exact h.drop _ fun h => Agree.ite Iff.rfl (fun _ => h.goto le_rfl) fun _ => Common.finishSymbols h _ _
  next => exact answersAgree_refused _ _

theorem bcount_agree (hctl : s.ctl = t.ctl) (h : Common (stage s.ctl) s t) (n v : Nat) :
    AnswersAgree (execBcount n v s) (execBcount n v t) := by
  simp only [execBcount, ← hctl]
  split
  next c switch hc =>
    rw [hc] at h
    refine h.drop n fun h => h.goto ?_
    cases switch <;> exact le_rfl
  next => exact answersAgree_refused _ _

theorem bextra_agree (hctl : s.ctl = t.ctl) (h : Common (stage s.ctl) s t) (x : Nat) :
    AnswersAgree (execBextra x s) (execBextra x t) := by
  simp only [execBextra, ← hctl]
  split
  next c switch v hc =>
    rw [hc] at h
    cases switch with
    | true => exact h.drop _ fun h => Common.storeBlockLen_switch h _
    | false => exact h.drop _ fun h => Common.storeBlockLen_header h _
  next => exact answersAgree_refused _ _

theorem dextra_agree (hctl : s.ctl = t.ctl) (h : Common (stage s.ctl) s t) (x : Nat) :
    AnswersAgree (execDextra x s) (execDextra x t) := by
  simp only [execDextra, ← hctl]
  split
  next hc =>
    rw [hc] at h
    have hnp : s.mb.npostfix = t.mb.npostfix := h.known .npostfix (by decide)
    have hnd : s.mb.ndirect = t.mb.ndirect := (h.known .direct (by decide)).1
    have hd : s.cmd.dcode = t.cmd.dcode := h.known .dcode le_rfl
    rw [hnp, hnd, hd]
    refine h.drop _ fun h => Common.setDistance h ?_
    rw [advance_mb, advance_mb, advance_cmd, advance_cmd, hnp, hnd, hd]
  next => exact answersAgree_refused _ _

/-- Every element answers alike in two runs that agree. -/
theorem exec_agree (i : Instr) (hctl : s.ctl = t.ctl) (h : Common (stage s.ctl) s t) :
    AnswersAgree (exec i s) (exec i t) := by
  cases i with
  | iacCell0 | iacCell1 | iacCell2 | iacCell3 | iacCell4 | iacCell5 | iacCell6 | iacCell7 | iacCell8 | iacCell9
  | iacCell10 => exact takeCommand_agree hctl h _ _ _ _
  | distShort0 n | distShort1 n | distShort2 n | distShort3 n | distShort4 n | distShort5 n | distShort6 n
  | distShort7 n | distShort8 n | distShort9 n | distShort10 n | distShort11 n | distShort12 n | distShort13 n
  | distShort14 n | distShort15 n => exact takeShort_agree hctl h n _
  | distDirect n d => exact takeDistance_agree hctl h n d fun h => h.setDistance rfl
  | distRanged n d => exact takeDistance_agree hctl h n d fun h => h.goto le_rfl
  | win16 =>
    simp only [exec, execWin16, ← hctl]
    split
    next hc => exact (h.at hc).drop _ fun h => Common.setWindow h _
    next => exact answersAgree_refused _ _
  | win17to24 =>
    simp only [exec, execWin17to24, ← hctl]
    split
    next hc => exact (h.at hc).dropThen _ fun h => h.drop _ fun h => Common.setWindow h _
    next => exact answersAgree_refused _ _
  | win17 | win10to15 =>
    simp only [exec, execWin17, execWin10to15, ← hctl]
    split
    next hc => exact (h.at hc).dropThen _ fun h => h.dropThen _ fun h => h.drop _ fun h => Common.setWindow h _
    next => exact answersAgree_refused _ _
  | winReserved =>
    simp only [exec, execWinReserved, ← hctl]
    split
    next => exact h.dropThen _ fun h => h.dropThen _ fun h => h.drop _ fun h => h.core.raise .syntaxError
    next => exact answersAgree_refused _ _
  | mnibblesReserved | mlenNibLastZero | isUncompressed1 =>
    simp only [exec, execMnibblesReserved, execMlenNibLastZero, execIsUncompressed1, ← hctl]
    split
    next => exact h.drop _ fun h => h.core.raise .syntaxError
    next => exact answersAgree_refused _ _
  | isLast0 | isLast1 =>
    simp only [exec, execIsLast0, execIsLast1, ← hctl]
    split
    next hc => exact (h.at hc).drop _ fun h => (Common.setIsLast h _).goto le_rfl
    next => exact answersAgree_refused _ _
  | isLastEmpty0 | isLastEmpty1 | mnibbles4 | mnibbles5 | mnibbles6 | rleMaxF0 | rleMaxF1 | rleMaxM1 | cmapRun
  | hskipSimple | hskipComplex0 | hskipComplex2 | hskipComplex3 | nsymm1One | nsymm1Two | nsymm1Three | nsymm1Four
  | clRepeatPrev | clRepeatZero =>
    simp only [exec, execIsLastEmpty0, execIsLastEmpty1, execMnibbles4, execMnibbles5, execMnibbles6, execRleMaxF0,
      execRleMaxF1, execRleMaxM1, execCmapRun, execHskipSimple, execHskipComplex0, execHskipComplex2,
      execHskipComplex3, execNsymm1One, execNsymm1Two, execNsymm1Three, execNsymm1Four, execClRepeatPrev,
      execClRepeatZero, startMlen, startComplex, startSimple, ← hctl]
    split
    next hc => exact (h.at hc).drop _ fun h => h.goto le_rfl
    next => exact answersAgree_refused _ _
  | mlenNib =>
    simp only [exec, execMlenNib, ← hctl]
    split
    next hc => exact (h.at hc).drop _ fun h => Agree.ite Iff.rfl (fun _ => h.goto le_rfl) fun _ => Common.storeMlen h _
    next => exact answersAgree_refused _ _
  | isUncompressed0 =>
    simp only [exec, execIsUncompressed0, ← hctl]
    split
    next hc => exact (h.at hc).drop _ fun h => Common.enterBlockInfo h
    next => exact answersAgree_refused _ _
  | var256One | vx =>
    simp only [exec, execVar256One, execVx, ← hctl]
    split
    next hc => exact (h.at hc).drop _ fun h => Common.storeCount h _
    next => exact answersAgree_refused _ _
  | var256Two =>
    simp only [exec, execVar256Two, ← hctl]
    split
    next hc => exact (h.at hc).dropThen _ fun h => h.drop _ fun h => Common.storeCount h _
    next => exact answersAgree_refused _ _
  | var256More =>
    simp only [exec, execVar256More, ← hctl]
    split
    next hc => exact (h.at hc).dropThen _ fun h => h.drop _ fun h => h.goto le_rfl
    next => exact answersAgree_refused _ _
  | npostfix =>
    simp only [exec, execNpostfix, ← hctl]
    split
    next hc => exact (h.at hc).drop _ fun h => (Common.writeNpostfix h _).goto le_rfl
    next => exact answersAgree_refused _ _
  | ndirectf =>
    simp only [exec, execNdirectf, ← hctl]
    split
    next hc => exact (h.at hc).drop _ fun h => (Common.setDirect h _).goto le_rfl
    next => exact answersAgree_refused _ _
  | cmodeLsb6 | cmodeMsb6 | cmodeUtf8 | cmodeSigned => exact takeMode_agree hctl h _
  | cmapZero | cmapValue =>
    simp only [exec, execCmapZero, execCmapValue, ← hctl]
    split
    next hc => exact (h.at hc).drop _ fun h => Common.nextMapEntry h _ _ _
    next => exact answersAgree_refused _ _
  | runx =>
    simp only [exec, execRunx, ← hctl]
    split
    next hc =>
      exact (h.at hc).drop _ fun h => Agree.ite (by rw [Known.mapSize_eq h.known])
        (fun _ => h.core.raise _) fun _ => Common.nextMapEntry h _ _ _
    next => exact answersAgree_refused _ _
  | imtf0 | imtf1 =>
    simp only [exec, execImtf0, execImtf1, ← hctl]
    split
    next hc => exact (h.at hc).drop _ fun h => Common.storeMap h _
    next => exact answersAgree_refused _ _
  | symbol | symbolInvalid => exact takeSymbol_agree hctl h _ _
  | treeSel0 | treeSel1 =>
    simp only [exec, execTreeSel0, execTreeSel1, selectTree, ← hctl]
    split
    next hc => exact (h.at hc).drop _ fun h => Common.simpleCode h _ _
    next => exact answersAgree_refused _ _
  | clen0 | clen3 | clen4 | clen2 | clen1 | clen5 =>
    simp only [exec, execClen0, execClen3, execClen4, execClen2, execClen1, execClen5, takeClen, ← hctl]
    split
    next hc => exact (h.at hc).drop _ fun h => Common.nextClEntry h _
    next => exact answersAgree_refused _ _
  | clLength =>
    simp only [exec, execClLength, ← hctl]
    split
    next hc => exact (h.at hc).drop _ fun h => Common.nextLength h _ _
    next => exact answersAgree_refused _ _
  | r16 | r17 =>
    simp only [exec, execR16, execR17, ← hctl]
    split
    next hc => exact (h.at hc).drop _ fun h => Common.applyRepeat h _ _ _ _ _
    next => exact answersAgree_refused _ _
  | btypeLast =>
    simp only [exec, execBtypeLast, ← hctl]
    split
    next hc => exact (h.at hc).drop _ fun h => Common.switchType h (Common.block h (le_symStage _) _ .types).2
    next => exact answersAgree_refused _ _
  | btypeNext =>
    simp only [exec, execBtypeNext, ← hctl]
    split
    next hc =>
      exact (h.at hc).drop _ fun h =>
        Common.switchType h (congrArg (· + 1) (Common.block h (le_symStage _) _ .types).1)
    next => exact answersAgree_refused _ _
  | btypeExplicit =>
    simp only [exec, execBtypeExplicit, ← hctl]
    split
    next hc => exact (h.at hc).drop _ fun h => Common.switchType h rfl
    next => exact answersAgree_refused _ _
  | bcount => exact bcount_agree hctl h _ _
  | bextra => exact bextra_agree hctl h _
  | iextra =>
    simp only [exec, execIextra, ← hctl]
    split
    next hc => exact (h.at hc).drop _ fun h => (Common.writeInsertLen h _).goto le_rfl
    next => exact answersAgree_refused _ _
  | cextra =>
    simp only [exec, execCextra, ← hctl]
    split
    next hc => exact (h.at hc).drop _ fun h => (Common.writeCopyLen h _).nextInsert
    next => exact answersAgree_refused _ _
  | literal =>
    simp only [exec, execLiteral, ← hctl]
    split
    next hc =>
      exact (Common.countDown (h.at hc) (by decide) .literal).dropThen _ fun h =>
        h.emitThen _ fun h => h.countLiteral.nextInsert
    next => exact answersAgree_refused _ _
  | dextra => exact dextra_agree hctl h _
  | padZero =>
    simp only [exec, execPadZero, padWidth, ← hctl, ← h.core.bitpos]
    split
    next => exact h.drop _ fun h => h.core.terminate
    next => exact answersAgree_refused _ _
  | padNonzero =>
    simp only [exec, execPadNonzero, padWidth, ← hctl, ← h.core.bitpos]
    split
    next => exact h.drop _ fun h => h.core.raise .syntaxError
    next => exact answersAgree_refused _ _

end Sys2Proof.Machine
end

section
/-! Two decodes of the same input have the same outcome (R176): at a common control point both runs decode the same
element, and a copy reads the same bytes out of both rings. -/

namespace Sys2Proof.Machine

variable {s t : State} {k : Nat}

/-! ### The element at a control point (R60, R106, R130, R135, R138) -/

theorem Common.commandCode_eq (h : Common k s t) (hk : 20 ≤ k) : commandCode s = commandCode t := by
  have hcode : s.mb.iacCode = t.mb.iacCode := h.known .iacCode (by simp only [Reg.level]; omega)
  have htype : s.mb.iac.blockType = t.mb.iac.blockType := (h.block (by omega) .insertCopy .types).1
  simp only [commandCode, hcode, htype]

theorem Common.literalCode_eq (h : Common k s t) (hk : 20 ≤ k) : literalCode s = literalCode t := by
  have hcode : s.mb.litCode = t.mb.litCode := h.known .litCode (by simp only [Reg.level]; omega)
  have hmap : s.mb.litMap = t.mb.litMap := h.known .litMap (by simp only [Reg.level]; omega)
  have hmode : s.mb.contextMode = t.mb.contextMode := h.known .contextMode (by simp only [Reg.level]; omega)
  have htype : s.mb.lit.blockType = t.mb.lit.blockType := (h.block (by omega) .literal .types).1
  simp only [literalCode, modeOf, hcode, hmap, hmode, htype, h.core.rom, h.core.p1, h.core.p2]

theorem Common.distanceCode_eq (h : Common k s t) (hk : 23 ≤ k) : distanceCode s = distanceCode t := by
  have hcode : s.mb.distCode = t.mb.distCode := h.known .distCode (by simp only [Reg.level]; omega)
  have hmap : s.mb.distMap = t.mb.distMap := h.known .distMap (by simp only [Reg.level]; omega)
  have htype : s.mb.dist.blockType = t.mb.dist.blockType := (h.block (by omega) .distance .types).1
  have hlen : s.cmd.copyLen = t.cmd.copyLen := h.known .copyLen hk
  simp only [distanceCode, hcode, hmap, htype, hlen]

/-- Two runs that agree are at the same grammar position. A block switch reads its codes where the invariant says that
the category has two block types or more. -/
theorem slotOf_agree (hok : CtlOk s) (hctl : s.ctl = t.ctl) (h : Common (stage s.ctl) s t) : slotOf s = slotOf t := by
  cases hc : s.ctl with
  | window | isLast | isLastEmpty | mnibbles | mlenNib | isUncompressed | count | countX | npostfix | ndirectf | cmode
  | rleMaxF | rleMaxM1 | mapRun | imtf | hskip | nsymm1 | treeSel | clen | clSym | rep16 | rep17 | bextra | iextra
  | cextra | copy => simp only [slotOf, ← hctl, hc]
  | mapSym m r T acc =>
    rw [hc] at h
    simp only [slotOf, ← hctl, hc, Known.mapTrees_eq h.known]
  | symbol u nsym syms bad =>
    rw [hc] at h
    simp only [slotOf, ← hctl, hc, Known.alphabetOf_eq h.known]
  | btype c =>
    rw [hc] at h
    simp only [CtlOk, hc] at hok
    obtain ⟨-, -, ⟨h2, -⟩, -⟩ := hok
    have hcode := Common.block h (le_symStage c) c .btypeCode h2
    have hn : (s.block c).numTypes = (t.block c).numTypes := Common.block h (le_symStage c) c .numTypes
    simp only [slotOf, ← hctl, hc, hcode, hn]
  | bcount c switch =>
    have hcode : (s.block c).bcountCode = (t.block c).bcountCode := by
      cases switch <;> rw [hc] at h <;> simp only [CtlOk, hc] at hok
      · obtain ⟨-, h2, -⟩ := hok
        exact h.known.block c .bcountCode le_rfl h2
      · obtain ⟨-, -, ⟨h2, -⟩, -⟩ := hok
        exact Common.block h (le_symStage c) c .bcountCode h2
    simp only [slotOf, ← hctl, hc, hcode]
  | iac =>
    rw [hc] at h
    simp only [slotOf, ← hctl, hc, Common.commandCode_eq h le_rfl]
  | lit =>
    rw [hc] at h
    simp only [slotOf, ← hctl, hc, Common.literalCode_eq h (by decide)]
  | dist =>
    rw [hc] at h
    obtain ⟨hnd, ha⟩ : Same .direct s t := h.known .direct (by decide)
    simp only [slotOf, ← hctl, hc, Common.distanceCode_eq h le_rfl, hnd, ha]
  | dextra =>
    rw [hc] at h
    obtain ⟨hnd, -⟩ : Same .direct s t := h.known .direct (by decide)
    have hnp : s.mb.npostfix = t.mb.npostfix := h.known .npostfix (by decide)
    have hd : s.cmd.dcode = t.cmd.dcode := h.known .dcode le_rfl
    simp only [slotOf, ← hctl, hc, hnd, hnp, hd]
  | pad => simp only [slotOf, ← hctl, hc, padWidth, h.core.bitpos]

/-- R81: stream bits come from the bytes of `IN` below `IN_LEN` only. -/
theorem SameCore.streamBit_eq (h : SameCore s t) (i : Nat) : streamBit s i = streamBit t i := by
  unfold streamBit endBit
  rw [← h.cfgInLen]
  split
  · rw [h.input (i / 8) (by omega)]
  · rfl

theorem SameCore.peekBits_eq (h : SameCore s t) (n : Nat) : peekBits s n = peekBits t n := by
  induction n with
  | zero => rfl
  | succ n ih => rw [peekBits, peekBits, ih, h.streamBit_eq, h.bitpos]

theorem SameCore.fetchAt_eq (h : SameCore s t) (p : Slot) : fetchAt p s = fetchAt p t := by
  simp only [fetchAt, lookahead, h.peekBits_eq]

/-! ### The copy (R143, R144, R147 to R149) -/

theorem Common.overruns_eq (h : Common k s t) (hk : 3 ≤ k) (n : Nat) : overruns n s = overruns n t := by
  have hend : s.mb.mbEnd = t.mb.mbEnd := h.known .mbEnd hk
  simp only [overruns, hend, h.core.pos, h.core.cfgOutCap]

theorem Common.maxDistance_eq (h : Common k s t) (hk : 1 ≤ k) : maxDistance s = maxDistance t := by
  obtain ⟨-, hback⟩ : Same .window s t := h.known .window hk
  simp only [maxDistance, h.core.pos, hback]

/-- R147: both copies read the last window of `OUT`, which is the same in both. -/
theorem Common.copyLoop (h : Common k s t) (hk : 1 ≤ k) {d : Nat} (h1 : 1 ≤ d) (hpos : d ≤ s.pos)
    (hwin : d ≤ 2 ^ s.wbits) (hs : RingAgrees s) (ht : RingAgrees t) (hsr : s.ring.wf = true) (htr : t.ring.wf = true)
    (n : Nat) : Common k (copyLoop d n s) (copyLoop d n t) := by
  induction n generalizing s t with
  | zero => exact h
  | succ n ih =>
    obtain ⟨hw, -⟩ : Same .window s t := h.known .window hk
    obtain ⟨hso, hto⟩ := h.core.outWf
    have hbyte : memRead s.ring (ringIndex s (s.pos - d)) = memRead t.ring (ringIndex t (t.pos - d)) := by
      rw [hs.read_back h1 hpos hwin, ht.read_back h1 (h.core.pos ▸ hpos) (hw ▸ hwin), ← h.core.pos]
      exact h.core.output _ (by omega)
    rw [Machine.copyLoop, Machine.copyLoop, ← hbyte]
    exact ih (h.putByte _) (Nat.le_succ_of_le hpos) hwin (hs.putByte hso hsr _) (ht.putByte hto htr _)
      (memWrite_wf hsr _ _) (memWrite_wf htr _ _)

theorem Common.putBytes (h : Common k s t) (bs : List Byte) : Common k (putBytes bs s) (putBytes bs t) := by
  induction bs generalizing s t with
  | nil => exact h
  | cons b bs ih => exact ih (h.putByte b)

theorem Common.dictEmit (h : Common 20 s t) (w : List Byte) : Agree (dictEmit w s) (dictEmit w t) :=
  Agree.ite (by rw [h.overruns_eq (by decide)]) (fun _ => h.core.raise _) fun _ => (h.putBytes w).nextCommand

theorem Common.dictRef (h : Common 20 s t) (word len : Nat) : Agree (dictRef word len s) (dictRef word len t) := by
  refine Agree.ite Iff.rfl (fun _ => h.core.raise _) fun _ => ?_
  simp only [← h.core.rom]
  split
  · exact h.dictEmit _
  · exact h.core.raise _

/-- The step at `copy` in two runs that agree. -/
theorem finishCommand_agree (h : Common 25 s t) (hs : RunOk s) (hc : s.ctl = .copy) (hsr : RingAgrees s)
    (htr : RingAgrees t) (hsw : s.ring.wf = true) (htw : t.ring.wf = true) :
    Agree (finishCommand s) (finishCommand t) := by
  have hmax := h.maxDistance_eq (by decide)
  have hdist : s.cmd.distance = t.cmd.distance := h.known .distance le_rfl
  have hlen : s.cmd.copyLen = t.cmd.copyLen := h.known .copyLen (by decide)
  have hcode : s.cmd.dcode = t.cmd.dcode := h.known .dcode (by decide)
  by_cases hback : s.cmd.distance ≤ maxDistance s
  · have hhist : copyHist s = copyHist t := by simp only [copyHist, hcode, hdist, h.core.hist]
    have h20 : Common 20 { s with hist := copyHist s } { t with hist := copyHist t } :=
      ⟨{ h.core with hist := hhist }, (h.known.mono (by decide)).congr rfl rfl⟩
    obtain ⟨-, h1, hpos, hwin⟩ := hs.copy_bounds hc hback
    rw [finishCommand_of_backReference hback, finishCommand_of_backReference (by rwa [← hdist, ← hmax]), ← hdist, ← hlen]
    refine Agree.ite (by rw [h20.overruns_eq (by decide)]) (fun _ => h20.core.raise _) fun _ => ?_
    exact (h20.copyLoop (by decide) h1 hpos hwin hsr htr hsw htw _).nextCommand
  · have hfar := Nat.lt_of_not_le hback
    rw [finishCommand_of_dictionary hfar, finishCommand_of_dictionary (by rwa [← hdist, ← hmax]), ← hdist, ← hlen,
      ← hmax]
    exact (h.mono (by decide)).dictRef _ _

/-! ### Every step -/

/-- Two runs side by side: both within the invariants, with no host move pending, and in agreement. -/
structure Paired (s t : State) : Prop where
  invs : MachineInv s ∧ MachineInv t
  rings : RingInv s ∧ RingInv t
  hostq : s.hostq = [] ∧ t.hostq = []
  agree : Agree s t

theorem Paired.runStep_agree (h : Paired s t) (hrun : s.phase = .run) : AnswersAgree (runStep s) (runStep t) := by
  obtain ⟨⟨⟨-, -, hsw, -⟩, -, hsOk⟩, ⟨-, -, htw, -⟩, -, -⟩ := h.invs
  obtain ⟨hctl, hknown⟩ := h.agree.running hrun
  have hcommon : Common (stage s.ctl) s t := ⟨h.agree.core, hknown⟩
  have hok := hsOk hrun
  obtain ⟨-, -, -, hctlOk⟩ := id hok
  have hslot := slotOf_agree hctlOk hctl hcommon
  cases hp : slotOf s with
  | none =>
    have hc := slotOf_eq_none hp
    rw [runStep_copy hc, runStep_copy (hctl ▸ hc)]
    rw [hc] at hcommon
    obtain ⟨hsr, htr⟩ := h.rings
    exact (finishCommand_agree hcommon hok hc (hsr hrun).2 (htr (h.agree.core.phase ▸ hrun)).2 hsw htw).next
  | some p =>
    simp only [runStep, ← hslot, hp, ← h.agree.core.fetchAt_eq]
    split
    · rintro _ ⟨⟩
    · exact exec_agree _ hctl hcommon

theorem Paired.step_agree (h : Paired s t) : AnswersAgree (step s) (step t) := by
  obtain ⟨hs, ht⟩ := h.hostq
  by_cases hrun : s.phase = .run
  · rw [step_run hs hrun, step_run ht (h.agree.core.phase ▸ hrun)]
    exact h.runStep_agree hrun
  · rw [step_ended hs hrun, step_ended ht (h.agree.core.phase ▸ hrun)]
    exact h.agree.next

/-- A step of one run is matched by a step of the other. -/
theorem Paired.step {s' : State} (h : Paired s t) (hstep : step s = .next s') :
    ∃ t', Machine.step t = .next t' ∧ Paired s' t' := by
  obtain ⟨t', hstep', hagree⟩ := h.step_agree s' hstep
  obtain ⟨hs, ht⟩ := h.invs
  obtain ⟨hrs, hrt⟩ := h.rings
  obtain ⟨hqs, hqt⟩ := h.hostq
  refine ⟨t', hstep', ⟨?_, ?_⟩, ⟨?_, ?_⟩, ⟨?_, ?_⟩, hagree⟩
  · exact stepKeepsMachineInv s s' hs hstep
  · exact stepKeepsMachineInv t t' ht hstep'
  · exact ringHoldsTheWindow s s' hs hrs hstep
  · exact ringHoldsTheWindow t t' ht hrt hstep'
  · exact (registersHaveTheirWriters s s' hqs hstep).1
  · exact (registersHaveTheirWriters t t' hqt hstep').1

/-- Any number of steps of one run is matched by as many of the other, by induction on the number. -/
theorem Paired.run {s' : State} (h : Paired s t) (n : Nat) (hrun : Host.Core.run Sys2Proof.core n s = .next s') :
    ∃ t', Host.Core.run Sys2Proof.core n t = .next t' ∧ Paired s' t' := by
  induction n generalizing s t with
  | zero =>
    cases hrun
    exact ⟨t, rfl, h⟩
  | succ n ih =>
    obtain ⟨u, hstep⟩ := machineInvNeverStops s h.invs.1
    obtain ⟨v, hstep', huv⟩ := h.step hstep
    rw [run_succ hstep] at hrun
    rw [run_succ hstep']
    exact ih huv hrun

/-! ### The start and the obligation -/

/-- R171: a started decode is within the invariants. -/
theorem Started.machineInv (h : Started s) : MachineInv s := by
  obtain ⟨hmem, -, hp, hc, he, -, hpos, -, -, hh⟩ := h
  have hstart : DistRing.start.Ok 16 := by unfold DistRing.Ok; decide
  refine ⟨hmem, iff_of_false (by simp [hp]) (by simp [he]), fun _ => ⟨by omega, ?_, fun hw => absurd hc hw, ?_⟩⟩
  · exact hh ▸ hstart.mono (le_max_left _ _)
  · simpa only [CtlOk, hc] using hpos

theorem Started.ringInv (h : Started s) : RingInv s := by
  obtain ⟨-, -, -, -, -, -, hpos, -⟩ := h
  exact fun _ => ⟨fun _ => hpos, .of_pos_eq_zero hpos⟩

/-- R171, R176: two started decodes with the same configuration, ROMs and input agree. -/
theorem Started.paired (hs : Started s) (ht : Started t) (hlen : s.cfgInLen = t.cfgInLen)
    (hstart : s.cfgStartBit = t.cfgStartBit) (hcap : s.cfgOutCap = t.cfgOutCap) (hrom : s.rom = t.rom)
    (hin : ∀ a, a < s.cfgInLen.toNat → memRead s.inMem a = memRead t.inMem a) : Paired s t := by
  have hinv := And.intro hs.machineInv ht.machineInv
  have hring := And.intro hs.ringInv ht.ringInv
  obtain ⟨⟨-, hso, -⟩, hsq, hsp, hsc, hse, hsb, hspos, hs1, hs2, hsh⟩ := hs
  obtain ⟨⟨-, hto, -⟩, htq, htp, htc, hte, htb, htpos, ht1, ht2, hth⟩ := ht
  refine ⟨hinv, hring, ⟨hsq, htq⟩, ?_, fun _ => ⟨hsc.trans htc.symm, fun r hr => ?_⟩⟩
  · exact ⟨hlen, hcap, hsp.trans htp.symm, hse.trans hte.symm, by rw [hsb, htb, hstart], hspos.trans htpos.symm,
      hs1.trans ht1.symm, hs2.trans ht2.symm, hsh.trans hth.symm, hrom, hin, ⟨hso, hto⟩, fun a ha => by omega⟩
  · rw [hsc] at hr
    exact absurd hr (Nat.not_le.2 r.level_pos)

/-- Settles O59: two started decodes agree, and agreement is kept by every step. -/
theorem decodeOutcomeIsDetermined : Obligations.DecodeOutcomeIsDetermined := by
  intro s1 s2 hs1 hs2 hlen hstart hcap hrom hin k t1 hrun
  obtain ⟨t2, hrun2, hpair⟩ := (hs1.paired hs2 hlen hstart hcap hrom hin).run k hrun
  have hcore := hpair.agree.core
  exact ⟨t2, hrun2, hcore.phase, hcore.err, hcore.bitpos, hcore.pos, hcore.output⟩

end Sys2Proof.Machine
end
